-- ==== Sys2Proof/Word.lean ====
section
/-! DEFINITION. The word types of LZXD-CORE (00_scope.md R9, 10_state.md). -/

namespace Sys2Proof

/-- A byte of the input stream, the window, the staging buffer or the output stream. -/
abbrev Byte := BitVec 8

/-- An unsigned 32-bit value: a repeated offset (R30), the frame counter (R27), the bit accumulator (R21). -/
abbrev Word32 := BitVec 32

end Sys2Proof
end

