-- ==== Sys2Proof/Config.lean ====
section
/-! DEFINITION. What is fixed for a machine: the constants of R7 and R91, and the decision parameters of R8. -/

namespace Sys2Proof

/-- `FRAME_SIZE` (R7). -/
def frameBytes : Nat := 32768

/-- `LZX_MIN_MATCH` (R7, R97). -/
def minMatch : Nat := 2

/-- `LZX_MAX_MATCH` (R7, R97). -/
def maxMatch : Nat := 257

/-- `MAIN_MAXSYMS` (R33, R90). -/
def mainMaxSyms : Nat := 2576

/-- `LENGTH_MAXSYMS` (R33). -/
def lengthMaxSyms : Nat := 250

/-- The symbols of the length tree that are transmitted (R85, R91). -/
def lengthSent : Nat := 249

/-- The last frame index that the E8 filter may touch (R7, R281). -/
def e8LastFrame : Nat := 32768

/-- The tail of a frame that the E8 scan leaves alone, and the frame size it must exceed (R281, R282). -/
def e8Tail : Nat := 10

/-- `P_ALIGNED_EXTRA3` (D11). -/
inductive AlignedExtra3 where
  | aligned
  | verbatim
  deriving DecidableEq, Repr

/-- `P_FRAME_LOOKAHEAD` (D19). -/
inductive FrameLookahead where
  | upstream
  | exact
  deriving DecidableEq, Repr

/-- `P_UNDECLARED_LENGTH` (D18). -/
inductive UndeclaredLength where
  | zeroMeansUndeclared
  | zeroIsZero
  deriving DecidableEq, Repr

/-- `P_LEN_OVERRUN` (D9). -/
inductive LenOverrun where
  | writeThrough
  | fault
  deriving DecidableEq, Repr

/-- `P_DICT_NON_DELTA` (D21). -/
inductive DictNonDelta where
  | refuse
  | accept
  deriving DecidableEq, Repr

/-- What a table build does when codes of at most `TB` bits fill the direct entries: R141's pseudocode returns there, always; R142,
R144, R101 and R313 call it a failure when a longer code exists. The model's own parameter (log entry 25, DESIGN CHOICE). -/
inductive EarlyReturn where
  /-- returns only when no code is longer (R142, R144, R101, R313) -/
  | noneLonger
  /-- returns whatever the longer codes (R141) -/
  | always
  deriving DecidableEq, Repr

/-- The decision parameters the model takes as configuration (R8). The defaults are those of 92_eei_decisions.md;
`oneshotWindowBits` has none there (D41: the caller supplies it) and 17 is a DESIGN CHOICE (log entry 13, unsafe).
`oneshotDelta = none` is the default rule "1 when a dictionary is given, else 0". `earlyReturn` is the model's own (log entry 25). -/
structure Params where
  alignedExtra3       : AlignedExtra3 := .aligned
  rereadHeaderOnReset : Bool := false
  frameLookahead      : FrameLookahead := .upstream
  undeclaredLength    : UndeclaredLength := .zeroMeansUndeclared
  lenOverrun          : LenOverrun := .writeThrough
  dictNonDelta        : DictNonDelta := .refuse
  oneshotWindowBits   : Int := 17
  oneshotDelta        : Option Bool := none
  earlyReturn         : EarlyReturn := .noneLonger
  deriving DecidableEq, Repr

end Sys2Proof
end

