-- ==== Sys2Proof/Syntax.lean ====
section
/-! DEFINITION. The elements of the bitstream and the host commands as syntax: one constructor of Instr for each row of
spec/opcode_table.json, the places of the bitstream grammar, the error kinds and the commands a host queues. -/

namespace Sys2Proof

/-- The seven error kinds (R310). -/
inductive ErrKind where
  | configurationError
  | malformedTable
  | protocolViolation
  | matchOutOfBounds
  | blockOverrun
  | frameSizeMismatch
  | unexpectedEndOfStream
  deriving DecidableEq, Repr

/-- The four Huffman tables (R91, R140). -/
inductive Tree where
  | pre
  | main
  | length
  | aligned
  deriving DecidableEq, Repr

/-- The three tree transmissions of a verbatim or aligned block header, in their order (R85, R185):
main `[0, 256)`, main `[256, mainElements)`, length `[0, 249)`. -/
inductive TreeSel where
  | mainLow
  | mainHigh
  | length
  deriving DecidableEq, Repr

/-- The place reached in the pseudocode (R49). A place either expects one element of the bitstream or is a step of
the frame and block sequencing between two elements. -/
inductive Phase where
  /-- between commands: the next host command is taken -/
  | idle
  /-- sequencing: the test `s.frame < endFrame` of R292 and the reset-interval step R252 -/
  | frameLoop
  /-- expects FILLER16 (R253) -/
  | filler
  /-- expects INTEL (R254) -/
  | intel
  /-- sequencing: the frame size and `todo` (R255, R251) -/
  | frameOpen
  /-- sequencing: the test `todo > 0` and the frame-size check (R251, R256, R258) -/
  | blockLoop
  /-- expects PAD (R181) -/
  | pad
  /-- expects BLOCK (R182) -/
  | blockHead
  /-- expects ALIGNEDLENS (R184) -/
  | alignedLens
  /-- expects TREE (R161) -/
  | tree
  /-- expects DELTA, ZEROS4, ZEROS20 or SAME while the range is not filled; then the end of the transmission (R160, R185) -/
  | items
  /-- expects REALIGN (R129, R186) -/
  | realign
  /-- expects RVALS (R186) -/
  | rvals
  /-- sequencing: `thisRun` and the two budgets (R251, R256) -/
  | runOpen
  /-- expects LIT, a match header or RAW while `thisRun > 0` (R200, R241); then the overrun accounting (R257) -/
  | run
  /-- expects LEN, after a match header (R99 (1), R202) -/
  | length
  /-- expects MATCH with the offset fields of its slot (R99 (2), R203 to R210) -/
  | offset
  /-- expects EXT (R99 (3), R211) -/
  | ext
  /-- expects ALIGN16 (R260) -/
  | align16
  /-- sequencing: staging check, staging, frame advance, delivery (R259, R262, R261, R293) -/
  | stage
  deriving DecidableEq, Repr

/-- One constructor for each row of spec/opcode_table.json (LAWS.json gives the row). The operands are the row's
fields; those a Huffman code or a bit field can exceed are bounded by `WellFormed`. -/
inductive Instr where
  /-- `ffffffffffffffff`, value ignored (R82, R253) -/
  | filler16 (f : BitVec 16)
  /-- `0` (R83, R254) -/
  | intelE0
  /-- `1 h16 l16` (R83, R254) -/
  | intelE1 (hi lo : BitVec 16)
  /-- `001 h16 l8` (R84, R185) -/
  | blockVerbatim (len : BitVec 24)
  /-- `010 h16 l8` (R84, R184) -/
  | blockAligned (len : BitVec 24)
  /-- `011 h16 l8` (R84, R186) -/
  | blockUncompressed (len : BitVec 24)
  /-- `000 h16 l8` (R183) -/
  | blockInvalid0 (len : BitVec 24)
  /-- `100 h16 l8` (R183) -/
  | blockInvalid4 (len : BitVec 24)
  /-- `101 h16 l8` (R183) -/
  | blockInvalid5 (len : BitVec 24)
  /-- `110 h16 l8` (R183) -/
  | blockInvalid6 (len : BitVec 24)
  /-- `111 h16 l8` (R183) -/
  | blockInvalid7 (len : BitVec 24)
  /-- one byte, value ignored (R181, R244) -/
  | pad (p : Byte)
  /-- 1 to 16 bits dropped (R129) -/
  | realign
  /-- twelve bytes, three little-endian values (R186) -/
  | rvals (r0 r1 r2 : Word32)
  /-- raw output bytes (R241) -/
  | raw (bytes : List Byte)
  /-- eight 3-bit code lengths (R184) -/
  | alignedLens (lens : List Nat)
  /-- twenty 4-bit pretree code lengths (R161) -/
  | tree (lens : List Nat)
  /-- `P(z)`, z in 0..16 (R164) -/
  | delta (z : Nat)
  /-- `P(17) zzzz` (R162) -/
  | zeros4 (f : Nat)
  /-- `P(18) zzzzz` (R163) -/
  | zeros20 (f : Nat)
  /-- `P(19) r P(d)` (R165) -/
  | same (r d : Nat)
  /-- `M(m)`, m in 0..255 (R201) -/
  | lit (m : Byte)
  /-- slot 0 (R204) -/
  | matchSlot0 (lh : Nat)
  /-- slot 1 (R205) -/
  | matchSlot1 (lh : Nat)
  /-- slot 2 (R206) -/
  | matchSlot2 (lh : Nat)
  /-- slot 3 of a verbatim block (R207) -/
  | matchSlot3Verbatim (lh : Nat)
  /-- slot 3 of an aligned block (R209) -/
  | matchSlot3Aligned (lh : Nat)
  /-- slot >= 4 of a verbatim block: `EXTRA(slot)` verbatim bits `v` (R208) -/
  | matchVerbatim (slot lh v : Nat)
  /-- slots 4..7 of an aligned block: `EXTRA(slot)` verbatim bits `v` (R209) -/
  | matchAlignedShort (slot lh v : Nat)
  /-- slot >= 8 of an aligned block: `EXTRA(slot) - 3` verbatim bits `v` and an aligned symbol `a`; with
  `P_ALIGNED_EXTRA3 = verbatim` a slot with three extra bits has `a = none` and three verbatim bits (R209, D11) -/
  | matchAlignedLong (slot lh v : Nat) (a : Option Nat)
  /-- length header 0..6, no field (R202) -/
  | lenShort (lh : Nat)
  /-- length header 7 and the length symbol `L(lsym)` (R202) -/
  | lenLong (lsym : Nat)
  /-- `0 x8` (R211) -/
  | ext0 (x : BitVec 8)
  /-- `10 x10` (R211) -/
  | ext10 (x : BitVec 10)
  /-- `110 x12` (R211) -/
  | ext110 (x : BitVec 12)
  /-- `111 x15` (R211) -/
  | ext111 (x : BitVec 15)
  /-- 0 to 15 bits dropped (R128, R260) -/
  | align16
  /-- INIT(windowBits, resetInterval, inputBufferHint, totalLength, isDelta, dictionary) (R290) -/
  | init (windowBits resetInterval inputBufferHint totalLength : Int) (isDelta : Bool) (dictionary : Option (List Byte))
  /-- DECOMPRESS(n) (R292) -/
  | decompress (n : Int)
  /-- ONESHOT(data, dictionary, size) (R296) -/
  | oneshot (data : List Byte) (dictionary : Option (List Byte)) (size : Int)
  deriving DecidableEq, Repr

/-- What a host queues for the block: the three commands, and the binding of the decoder's one input byte sequence
(R342 (2)), which is a duty of the host and no command of the block. -/
inductive HostCmd where
  | init (windowBits resetInterval inputBufferHint totalLength : Int) (isDelta : Bool) (dictionary : Option (List Byte))
  | bind (source : List Byte)
  | decompress (n : Int)
  | oneshot (data : List Byte) (dictionary : Option (List Byte)) (size : Int)
  deriving DecidableEq, Repr

/-- A command's return value (R292, R296, R312). -/
inductive Result where
  /-- `Ok` -/
  | ok
  /-- ONESHOT: "return the `size` bytes of `OUT`" -/
  | bytes (out : List Byte)
  /-- `Error(kind)` -/
  | error (kind : ErrKind)
  deriving DecidableEq, Repr

end Sys2Proof
end

