-- ==== Sys2Proof/Machine/Operands.lean ====
section
/-! DEFINITION. Operand forms: the offset-slot tables (R92, R94, R95), the split of a main symbol (R90), the length
header (R93), little-endian values (R65), bit fields (R64), the ranges of the tree transmissions (R85) and the numeric
codes of the return values (R310). -/

namespace Sys2Proof.Machine

/-- `POSITION_SLOTS(windowBits)` (R92). Window sizes outside 15..25 are refused by INIT (R290) and have no row: they
read as 0 here (log entry 17). -/
def positionSlots (windowBits : Nat) : Nat :=
  match windowBits with
  | 15 => 30
  | 16 => 32
  | 17 => 34
  | 18 => 36
  | 19 => 38
  | 20 => 42
  | 21 => 50
  | 22 => 66
  | 23 => 98
  | 24 => 162
  | 25 => 290
  | _ => 0

/-- `cfg.mainElements` (R20, R90). -/
def mainElements (windowBits : Nat) : Nat := 256 + 8 * positionSlots windowBits

/-- `EXTRA(slot) = min(17, max(0, slot div 2 - 1))` (R94). -/
def extraBits (slot : Nat) : Nat := min 17 (slot / 2 - 1)

/-- `POSITION_BASE(slot)` (R95). -/
def positionBase : Nat → Nat
  | 0 => 0
  | slot + 1 => positionBase slot + 2 ^ extraBits slot

/-- The length header of a match symbol `m >= 256`, `(m - 256) mod 8` (R90): its bottom 3 bits, as 256 is a multiple of 8. -/
def lengthHeader (m : Nat) : Nat := m % 8

/-- The offset slot of a match symbol `m >= 256`, `(m - 256) div 8` (R90, R203), as `m div 8 - 32`. -/
def offsetSlot (m : Nat) : Nat := m / 8 - 32

/-- The offset of an explicit slot whose extra-bits value is `v` (R95, R208, R209). -/
def explicitOffset (slot v : Nat) : Nat := positionBase slot - 2 + v

/-- The extra-bits value of an aligned block: upper verbatim bits and the aligned symbol for the low three (R209). -/
def alignedValue (v a : Nat) : Nat := v * 8 + a

/-- The first index of a tree transmission's range (R85). -/
def treeFirst (sel : TreeSel) : Nat :=
  match sel with
  | .mainLow => 0
  | .mainHigh => 256
  | .length => 0

/-- The index after the last of a tree transmission's range (R85). -/
def treeLast (sel : TreeSel) (windowBits : Nat) : Nat :=
  match sel with
  | .mainLow => 256
  | .mainHigh => mainElements windowBits
  | .length => lengthSent

/-- The 16-bit chunk of two consecutive input bytes, `b0 | (b1 << 8)` (R63). -/
def chunkOf (b0 b1 : Byte) : BitVec 16 := b1 ++ b0

/-- A little-endian 32-bit value, the first byte the least significant (R65). -/
def le32 (b0 b1 b2 b3 : Byte) : Word32 := b3 ++ b2 ++ b1 ++ b0

/-- The four bytes of a value, least significant first (R65). -/
def bytesOf32 (v : Word32) : List Byte :=
  [v.extractLsb' 0 8, v.extractLsb' 8 8, v.extractLsb' 16 8, v.extractLsb' 24 8]

/-- `s32` of a 32-bit value (R9). -/
def s32 (v : Word32) : Int := v.toInt

/-- `u32` of an integer (R9). -/
def u32 (v : Int) : Word32 := BitVec.ofInt 32 v

/-- The `k` bits of a field, most significant first (R64). -/
def fieldBits : Nat → Nat → List Bool
  | 0, _ => []
  | k + 1, v => v.testBit k :: fieldBits k v

/-- `(prev - d) mod 17`, the mathematical remainder (R164, R165, R9). -/
def lengthDelta (prev d : Nat) : Nat := (((prev : Int) - (d : Int)) % 17).toNat

/-- The numeric code of an error kind (R310, D7). -/
def errCode (e : ErrKind) : Nat :=
  match e with
  | .configurationError => 1
  | .malformedTable => 2
  | .protocolViolation => 3
  | .matchOutOfBounds => 4
  | .blockOverrun => 5
  | .frameSizeMismatch => 6
  | .unexpectedEndOfStream => 7

/-- The numeric code of a return value (R310): 0 is `Ok`. -/
def resultCode (r : Result) : Nat :=
  match r with
  | .ok | .bytes _ => 0
  | .error e => errCode e

end Sys2Proof.Machine
end

