-- ==== Sys2Proof/Machine/BitReader.lean ====
section
/-! DEFINITION. The BitReader (40_bitreader.md): the bit accumulator, the input cursor and the synthetic end-of-input
chunk, and the operations R123 to R129. A read that cannot go on answers the error it raises with the reader as it was
left, so that a raise is precise (R312). -/

namespace Sys2Proof.Machine

/-- The BitReader's registers (R21 to R23) and the input stream IN (R76). -/
structure BitReader where
  /-- the MSB-first bit accumulator; its valid bits are the top `bitsLeft` bits (R21) -/
  bitBuf   : BitVec 32 := 0
  /-- the count of valid bits (R22) -/
  bitsLeft : Nat := 0
  /-- the compressed input byte stream IN (R60, R76) -/
  input    : List Byte := []
  /-- the count of input bytes consumed (R23) -/
  inPos    : Nat := 0
  /-- the synthetic zero chunk has been started (R23) -/
  inputEnd : Bool := false
  /-- the synthetic zero bytes still to deliver (R23) -/
  fakeLeft : Nat := 0
  deriving DecidableEq, Repr

/-- What a read of the bitstream answers: a value, or the error it raises, each with the reader it leaves. -/
inductive ReadResult (α : Type) where
  | ok (v : α) (r : BitReader)
  | raise (e : ErrKind) (r : BitReader)
  deriving DecidableEq, Repr

/-- Goes on with a read's value. -/
def ReadResult.andThen {α β : Type} (x : ReadResult α) (f : α → BitReader → ReadResult β) : ReadResult β :=
  match x with
  | .ok v r => f v r
  | .raise e r => .raise e r

/-- `InByte()` (R123). -/
def BitReader.inByte (r : BitReader) : ReadResult Byte :=
  match r.input[r.inPos]? with
  | some b => .ok b { r with inPos := r.inPos + 1 }
  | none =>
    if r.fakeLeft = 1 then .ok 0 { r with fakeLeft := 0 }
    else if r.inputEnd = false then .ok 0 { r with inputEnd := true, fakeLeft := 1 }
    else .raise .unexpectedEndOfStream r

/-- Injects a chunk below the valid bits (R124). -/
def BitReader.inject (r : BitReader) (c : BitVec 16) : BitReader :=
  { r with
    bitBuf := r.bitBuf ||| (c.setWidth 32 <<< (16 - r.bitsLeft))
    bitsLeft := r.bitsLeft + 16 }

/-- One turn of `ensure`'s loop: two bytes are taken and their chunk injected (R124). -/
def BitReader.refill (r : BitReader) : ReadResult Unit :=
  r.inByte.andThen fun b0 r1 => r1.inByte.andThen fun b1 r2 => .ok () (r2.inject (chunkOf b0 b1))

/-- `ensure(k)` with at most `turns` turns of its loop. -/
def BitReader.ensureTurns : Nat → Nat → BitReader → ReadResult Unit
  | 0, _, r => .ok () r
  | turns + 1, k, r =>
    if r.bitsLeft < k then r.refill.andThen fun _ r1 => BitReader.ensureTurns turns k r1
    else .ok () r

/-- `ensure(k)` (R124); `k` is at most 17, so that two turns always do (D8). -/
def BitReader.ensure (r : BitReader) (k : Nat) : ReadResult Unit := BitReader.ensureTurns 2 k r

/-- `peek(k)` (R125). -/
def BitReader.peek (r : BitReader) (k : Nat) : Nat := if k = 0 then 0 else (r.bitBuf >>> (32 - k)).toNat

/-- `remove(k)` (R126). -/
def BitReader.remove (r : BitReader) (k : Nat) : BitReader :=
  { r with bitBuf := r.bitBuf <<< k, bitsLeft := r.bitsLeft - k }

/-- `readBits(k)` (R127). -/
def BitReader.readBits (r : BitReader) (k : Nat) : ReadResult Nat :=
  if k = 0 then .ok 0 r
  else (r.ensure k).andThen fun _ r1 => .ok (r1.peek k) (r1.remove k)

/-- `alignFrame()` (R128). -/
def BitReader.alignFrame (r : BitReader) : ReadResult Unit :=
  (if 0 < r.bitsLeft then r.ensure 16 else .ok () r).andThen fun _ r1 =>
    let r2 := if r1.bitsLeft % 16 ≠ 0 then r1.remove (r1.bitsLeft % 16) else r1
    if r2.bitsLeft = 0 ∨ r2.bitsLeft = 16 then .ok () r2 else .raise .protocolViolation r2

/-- `alignRaw()` (R129). -/
def BitReader.alignRaw (r : BitReader) : ReadResult Unit :=
  (if r.bitsLeft = 0 then r.ensure 16 else .ok () r).andThen fun _ r1 =>
    .ok () { r1 with bitsLeft := 0, bitBuf := 0 }

/-- Up to `k` input bytes, fewer when the input gives no more (R241). -/
def BitReader.takeBytes : Nat → BitReader → List Byte × BitReader
  | 0, r => ([], r)
  | k + 1, r =>
    match r.inByte with
    | .ok b r1 => let rest := BitReader.takeBytes k r1; (b :: rest.1, rest.2)
    | .raise _ r1 => ([], r1)

/-- Exactly `k` input bytes (R186). -/
def BitReader.readBytes : Nat → BitReader → ReadResult (List Byte)
  | 0, r => .ok [] r
  | k + 1, r =>
    r.inByte.andThen fun b r1 => (BitReader.readBytes k r1).andThen fun bs r2 => .ok (b :: bs) r2

end Sys2Proof.Machine
end

