-- ==== Sys2Proof/Machine/Cells.lean ====
section
/-! DEFINITION. Indexed storage as plain data: a list of (index, value) pairs whose indexes rise strictly. The window
and the staging buffer (R60, R61) are lists of bytes in which an unlisted index holds no value; the code-length arrays
and decode tables (R33, R34) are lists of numbers in which an unlisted index reads as 0 and no entry is 0. -/

namespace Sys2Proof.Machine

/-- Storage indexed from 0: the listed indexes rise strictly (`Cells.wf`). -/
abbrev Cells (α : Type) := List (Nat × α)

/-- The window or the staging buffer: an unlisted address holds no value (R61, D22). -/
abbrev Memory := List Host.Cell

/-- A code-length array or a decode table: an unlisted index reads as 0 (log entry 3). -/
abbrev NatArray := List (Nat × Nat)

/-- The canonical form: indexes rise strictly. -/
abbrev Cells.wf {α : Type} (m : Cells α) : Prop := m.Pairwise (fun x y => x.1 < y.1)

/-- The canonical form of the window and of the staging buffer. -/
abbrev Memory.wf (m : Memory) : Prop := Cells.wf m

/-- The canonical form of an array: indexes rise strictly and no entry equals what an unlisted index reads as. -/
abbrev NatArray.wf (m : NatArray) : Prop := Cells.wf m ∧ ∀ c ∈ m, c.2 ≠ 0

/-- The value listed at an index. -/
def Cells.find {α : Type} : Cells α → Nat → Option α
  | [], _ => none
  | (b, v) :: t, a => if a = b then some v else Cells.find t a

/-- Stores one value. -/
def Cells.put {α : Type} : Cells α → Nat → α → Cells α
  | [], a, v => [(a, v)]
  | (b, w) :: t, a, v =>
    if a < b then (a, v) :: (b, w) :: t
    else if a = b then (a, v) :: t
    else (b, w) :: Cells.put t a v

/-- The entries below an index. -/
def Cells.below {α : Type} (m : Cells α) (a : Nat) : Cells α := m.takeWhile (fun c => c.1 < a)

/-- The entries at or above an index. -/
def Cells.upward {α : Type} (m : Cells α) (a : Nat) : Cells α := m.dropWhile (fun c => c.1 < a)

/-- Consecutive entries from an index on. -/
def Cells.enumerate {α : Type} : Nat → List α → Cells α
  | _, [] => []
  | a, v :: vs => (a, v) :: Cells.enumerate (a + 1) vs

/-- Stores consecutive values from `a` on. -/
def Cells.splice {α : Type} (m : Cells α) (a : Nat) (vs : List α) : Cells α :=
  Cells.below m a ++ Cells.enumerate a vs ++ Cells.upward m (a + vs.length)

/-- The consecutive values that a rising list starts with, from `a` on; `none` when one of them is missing. -/
def Cells.takeFrom {α : Type} : Cells α → Nat → Nat → Option (List α)
  | _, _, 0 => some []
  | [], _, _ + 1 => none
  | (b, v) :: t, a, k + 1 => if b = a then (Cells.takeFrom t (a + 1) k).map (fun vs => v :: vs) else none

/-- The `k` values from index `a` on; `none` when one of them holds no value. -/
def Cells.readRange {α : Type} (m : Cells α) (a k : Nat) : Option (List α) :=
  Cells.takeFrom (Cells.upward m a) a k

/-- Reads an array. -/
def NatArray.get (m : NatArray) (a : Nat) : Nat := (Cells.find m a).getD 0

/-- Writes one value to `k` consecutive entries of an array. -/
def NatArray.fill (m : NatArray) (a k v : Nat) : NatArray :=
  Cells.below m a ++ (if v = 0 then [] else Cells.enumerate a (List.replicate k v)) ++ Cells.upward m (a + k)

/-- Writes one entry of an array. -/
def NatArray.set (m : NatArray) (a v : Nat) : NatArray := NatArray.fill m a 1 v

/-- Writes consecutive entries of an array, one after the other. -/
def NatArray.setAll : NatArray → Nat → List Nat → NatArray
  | m, _, [] => m
  | m, a, v :: vs => NatArray.setAll (NatArray.set m a v) (a + 1) vs

end Sys2Proof.Machine
end

