-- ==== Sys2Proof/Machine/Huffman.lean ====
section
/-! DEFINITION. The HuffmanTable (41_huffman.md): building a decode table from a code-length array (R141 to R143),
decoding one symbol (R146), and the canonical code that both stand for (R89), for the encoder. -/

namespace Sys2Proof.Machine

/-- A table is the pair of a length array and a decode array (R140). -/
structure Huff where
  len   : NatArray := []
  table : NatArray := []
  deriving DecidableEq, Repr

/-- `MAXSYMS(T)` (R91). -/
def maxSyms (t : Tree) : Nat :=
  match t with
  | .pre => 20
  | .main => mainMaxSyms
  | .length => lengthMaxSyms
  | .aligned => 8

/-- `TB(T)`, the source's `tableBits` (R91). -/
def tableBits (t : Tree) : Nat :=
  match t with
  | .pre => 6
  | .main => 12
  | .length => 12
  | .aligned => 7

/-- `TABLE_SIZE(T) = 2^TB + 2 * MAXSYMS` (R91). -/
def tableSize (t : Tree) : Nat := 2 ^ tableBits t + 2 * maxSyms t

/-- The mark of an unused entry (R140). -/
def unusedEntry : Nat := 0xFFFF

/-- How a build ends (R141, R142): complete (`empty = 0`), empty (`empty = 1`), or one of the three failures. -/
inductive BuildResult where
  | complete
  | empty
  | overflow
  | incomplete
  | capacity
  deriving DecidableEq, Repr

/-- The variables of a build: the decode array, `pos` and `next` (R141). -/
structure BuildState where
  table : NatArray
  pos   : Nat
  next  : Nat
  deriving DecidableEq, Repr

/-- A build goes on, or fails leaving the decode array as it is (R312). -/
inductive BuildStep where
  | go (b : BuildState)
  | fail (table : NatArray) (why : BuildResult)
  deriving DecidableEq, Repr

/-- Goes on with a build. -/
def BuildStep.andThen (x : BuildStep) (f : BuildState → BuildStep) : BuildStep :=
  match x with
  | .go b => f b
  | .fail table why => .fail table why

/-- The symbols below `n` whose code length is `bl`, by increasing index: what the loop "for sym in 0 .. n-1, if
len[sym] <> bl: continue" of R141 goes through, for `bl >= 1`. -/
def symsWithLength (len : NatArray) (n bl : Nat) : List Nat :=
  (len.filter (fun c => c.1 < n && c.2 == bl)).map (fun c => c.1)

/-- Runs a build step for each symbol of a list. -/
def forSyms (f : Nat → BuildState → BuildStep) : List Nat → BuildState → BuildStep
  | [], b => .go b
  | sym :: rest, b => (f sym b).andThen (forSyms f rest)

/-- One symbol with a short code: `2^(b-bl)` duplicate direct entries (R141). -/
def placeDirect (tb bmask sym : Nat) (b : BuildState) : BuildStep :=
  if 2 ^ tb < b.pos + bmask then .fail b.table .overflow
  else .go { b with table := NatArray.fill b.table b.pos bmask sym, pos := b.pos + bmask }

/-- The short codes, lengths `bl` to `bl + k - 1` (R141, first loop). -/
def placeShort (t : Tree) (len : NatArray) : Nat → Nat → BuildState → BuildStep
  | 0, _, b => .go b
  | k + 1, bl, b =>
    (forSyms (placeDirect (tableBits t) (2 ^ (tableBits t - bl))) (symsWithLength len (maxSyms t) bl) b).andThen
      (placeShort t len k (bl + 1))

/-- The chain of nodes from `leaf` down `k` more bits of the code at `pos`, starting with bit `15 - fill` (R141). -/
def nodeChain (t : Tree) (pos : Nat) : Nat → Nat → Nat → BuildState → (BuildState → Nat → BuildStep) → BuildStep
  | 0, _, leaf, b, done => done b leaf
  | k + 1, fill, leaf, b, done =>
    let bit := (pos >>> (15 - fill)) % 2
    if NatArray.get b.table leaf = unusedEntry then
      if tableSize t ≤ 2 * b.next + 1 then .fail b.table .capacity
      else
        let table := NatArray.set (NatArray.set (NatArray.set b.table (2 * b.next) unusedEntry)
          (2 * b.next + 1) unusedEntry) leaf b.next
        nodeChain t pos k (fill + 1) (2 * b.next + bit) { b with table := table, next := b.next + 1 } done
    else nodeChain t pos k (fill + 1) (2 * NatArray.get b.table leaf + bit) b done

/-- One symbol with a long code of length `bl` (R141). -/
def placeNode (t : Tree) (bl bmask sym : Nat) (b : BuildState) : BuildStep :=
  if 2 ^ tableBits t * 65536 ≤ b.pos then .fail b.table .overflow
  else
    nodeChain t b.pos (bl - tableBits t) 0 (b.pos >>> 16) b fun b1 leaf =>
      .go { b1 with table := NatArray.set b1.table leaf sym, pos := b1.pos + bmask }

/-- The long codes, lengths `bl` to `bl + k - 1` (R141, second loop). -/
def placeLong (t : Tree) (len : NatArray) : Nat → Nat → BuildState → BuildStep
  | 0, _, b => .go b
  | k + 1, bl, b =>
    (forSyms (placeNode t bl (2 ^ (16 + tableBits t - bl))) (symsWithLength len (maxSyms t) bl) b).andThen
      (placeLong t len k (bl + 1))

/-- Whether some symbol below `n` has a code of more than `bl` bits; with `bl = 0`, whether any has a code (R141, R143). -/
def anyLonger (len : NatArray) (n bl : Nat) : Bool := len.any (fun c => c.1 < n && decide (bl < c.2))

/-- The second half of a build, when the direct region is not filled by short codes (R141). -/
def buildLong (t : Tree) (len : NatArray) (b : BuildState) : NatArray × BuildResult :=
  let b1 : BuildState :=
    { table := NatArray.fill b.table b.pos (2 ^ tableBits t - b.pos) unusedEntry
      pos := b.pos * 65536
      next := max (maxSyms t) (2 ^ (tableBits t - 1)) }
  match placeLong t len (16 - tableBits t) (tableBits t + 1) b1 with
  | .fail table why => (table, why)
  | .go b2 =>
    if b2.pos = 2 ^ tableBits t * 65536 then (b2.table, .complete)
    else if anyLonger len (maxSyms t) 0 then (b2.table, .incomplete)
    else (b2.table, .empty)

/-- `build(T)` (R141): the decode array it leaves and how it ends. When short codes fill the direct region, R141's pseudocode
returns, and by R142, R144 and R101 a longer code over-subscribes the code space and the build fails: `early` says which
(log entry 25). -/
def buildTable (early : EarlyReturn) (t : Tree) (len table : NatArray) : NatArray × BuildResult :=
  match placeShort t len (tableBits t) 1 { table := table, pos := 0, next := 0 } with
  | .fail tab why => (tab, why)
  | .go b =>
    if b.pos = 2 ^ tableBits t then
      (b.table, if early = .noneLonger ∧ anyLonger len (maxSyms t) (tableBits t) = true then .overflow else .complete)
    else buildLong t len b

/-- The walk of `readSym` from a node, one bit of the accumulator at a time, bit `j - 1` next; `none` is the guard
outOfBits (R146). -/
def walkNodes (t : Tree) (table : NatArray) (buf : BitVec 32) : Nat → Nat → Option Nat
  | 0, _ => none
  | j + 1, sym =>
    let sym1 := NatArray.get table (2 * sym + (if buf.getLsbD j then 1 else 0))
    if sym1 < maxSyms t then some sym1 else walkNodes t table buf j sym1

/-- The symbol that the accumulator's top bits select (R146). -/
def lookupSym (t : Tree) (table : NatArray) (r : BitReader) : Option Nat :=
  let sym := NatArray.get table (r.peek (tableBits t))
  if sym < maxSyms t then some sym else walkNodes t table r.bitBuf (32 - tableBits t) sym

/-- `readSym(T)` (R146). -/
def readSym (t : Tree) (h : Huff) (r : BitReader) : ReadResult Nat :=
  (r.ensure 16).andThen fun _ r1 =>
    match lookupSym t h.table r1 with
    | none => .raise .malformedTable r1
    | some sym => .ok sym (r1.remove (NatArray.get h.len sym))

/-- The symbols that have a code, by increasing length and, within one length, increasing index, each with its length
(R89). -/
def codeOrder (t : Tree) (len : NatArray) : List (Nat × Nat) :=
  (List.range 16).flatMap (fun k => (symsWithLength len (maxSyms t) (k + 1)).map (fun sym => (sym, k + 1)))

/-- The canonical codewords of symbols in code order: each is the previous one plus 1, shifted left whenever the length
increases (R89); `next` is the previous codeword plus 1, of length `l`. -/
def assignCodes : List (Nat × Nat) → Nat → Nat → List (Nat × List Bool)
  | [], _, _ => []
  | (sym, bl) :: rest, next, l =>
    let code := next * 2 ^ (bl - l)
    (sym, fieldBits bl code) :: assignCodes rest (code + 1) bl

/-- The canonical codeword of a symbol, first bit first (R89); `none` for a symbol of length 0. -/
def codeword (t : Tree) (len : NatArray) (sym : Nat) : Option (List Bool) :=
  ((assignCodes (codeOrder t len) 0 0).find? (fun c => c.1 == sym)).map (fun c => c.2)

end Sys2Proof.Machine
end

