-- ==== Sys2Proof/Machine/State.lean ====
section
/-! DEFINITION. The machine's state, all of 10_state.md and the locals of the pseudocode that survive between two steps
(R49), as plain data; the reasons a step can stop; and the state at reset (R340). -/

namespace Sys2Proof.Machine

/-- The configuration registers, written only by INIT (R20). `cfg.W`, `cfg.numPosSlots` and `cfg.mainElements` are computed
from `windowBits`. -/
structure Cfg where
  windowBits      : Nat := 15
  resetInterval   : Nat := 0
  totalLength     : Nat := 0
  isDelta         : Bool := false
  refDataSize     : Nat := 0
  inputBufferHint : Nat := 1
  deriving DecidableEq, Repr

/-- `cfg.W = 2^cfg.windowBits` (R20). -/
def Cfg.windowSize (c : Cfg) : Nat := 2 ^ c.windowBits

/-- Why a step stops in a fault. All are the model's own, and all are safe: no state that INIT leads to raises one. -/
inductive Fault where
  /-- raised by LIT and RAW: a write to a window index outside `[0, W)`, which "does not occur" (R61); safe (log entry 6) -/
  | windowIndex
  /-- raised by DECOMPRESS and by delivery: a staged byte that holds no value is read (R39, R340); safe (log entry 4) -/
  | stageNoValue
  deriving DecidableEq, Repr

/-- Why a step is refused. -/
inductive Refusal where
  /-- raised by exec's arms for an instruction that has no meaning yet; no arm of this model does; safe -/
  | notModelled (mnemonic : String)
  /-- raised by DECOMPRESS and by a binding of the source when the host holds no decoder (R342); safe (log entry 8) -/
  | noDecoder
  /-- raised by a second binding of the input source: "undefined if a host swaps sources" (D5, R342); safe (log entry 9) -/
  | sourceSwapped
  deriving DecidableEq, Repr

/-- The state of the block (10_state.md), then the pseudocode's locals (R49), then what stands between host and block
(R297). Field by field in INVENTORY.md. Every default is the value at reset: R340's, or the log entry's it names. -/
structure State where
  /-- the decision parameters (R8); written by nothing (log entry 13) -/
  par            : Params := {}
  /-- configuration registers (R20); before any INIT log entry 2 -/
  cfg            : Cfg := {}
  /-- the BitReader's registers and IN (R21 to R23, R76) -/
  rd             : BitReader := {}
  /-- window write cursor (R24) -/
  windowPos      : Nat := 0
  /-- frame cursor (R25) -/
  framePos       : Nat := 0
  /-- the window (R26, R61) -/
  win            : Memory := []
  /-- frame counter (R27) -/
  frame          : Word32 := 0
  /-- output bytes delivered (R28) -/
  delivered      : Nat := 0
  /-- the Intel header has been read (R29) -/
  headerRead     : Bool := false
  /-- repeated-offset cache (R30) -/
  r0             : Word32 := 1
  r1             : Word32 := 1
  r2             : Word32 := 1
  /-- block type: 0 Invalid, 1 Verbatim, 2 Aligned, 3 Uncompressed (R31) -/
  blockType      : BitVec 3 := 0
  /-- declared length of the current block (R32) -/
  blockLength    : BitVec 24 := 0
  /-- bytes of the current block not yet produced (R32) -/
  blockRemaining : Nat := 0
  /-- `preLen`, `preTable` (R33, R34; log entry 3) -/
  preTree        : Huff := {}
  /-- `mainLen`, `mainTable` (R33, R34; log entry 3) -/
  mainTree       : Huff := {}
  /-- `lengthLen`, `lengthTable` (R33, R34; log entry 3) -/
  lengthTree     : Huff := {}
  /-- `alignedLen`, `alignedTable` (R33, R34; log entry 3) -/
  alignedTree    : Huff := {}
  /-- the length tree is empty (R35) -/
  lengthEmpty    : Bool := false
  /-- Intel file-size hint, read as signed (R36) -/
  intelFileSize  : Word32 := 0
  /-- Intel cumulative position (R37) -/
  intelCurPos    : Int := 0
  /-- the E8 filter is armed (R38) -/
  intelStarted   : Bool := false
  /-- staging buffer (R39) -/
  stage          : Memory := []
  /-- size of the staged frame (R39) -/
  stageLen       : Nat := 0
  /-- staged bytes already delivered (R39) -/
  stagePtr       : Nat := 0
  /-- error latch (R40) -/
  err            : Option ErrKind := none
  /-- the output byte stream OUT (R60, R293) -/
  out            : List Byte := []
  /-- position in the pseudocode (R49) -/
  phase          : Phase := .idle
  /-- `fs` of `decodeFrame` (R251) -/
  fs             : Int := 0
  /-- `todo` of `decodeFrame` (R251) -/
  todo           : Int := 0
  /-- `thisRun` of the block loop (R256, R200) -/
  thisRun        : Int := 0
  /-- which tree transmission runs (R185) -/
  treeSel        : TreeSel := .mainLow
  /-- `x` of `readLens` (R160) -/
  lenPos         : Nat := 0
  /-- `m` of `decodeRun`: the match header read (R200) -/
  mSym           : Nat := 0
  /-- `len` of `decodeRun` (R200) -/
  mLen           : Nat := 0
  /-- `off` of `decodeRun` (R200) -/
  mOff           : Nat := 0
  /-- `n` of DECOMPRESS: output bytes still wanted (R292) -/
  want           : Nat := 0
  /-- `endFrame` of DECOMPRESS (R292) -/
  endFrame       : Nat := 0
  /-- the host holds a decoder (R290) -/
  present        : Bool := false
  /-- the host has bound the input sequence (R342) -/
  bound          : Bool := false
  /-- the running command is ONESHOT (R296) -/
  oneshot        : Bool := false
  /-- commands the host will issue, oldest first (R298) -/
  queue          : List HostCmd := []
  /-- return values of the completed commands, oldest first (R297) -/
  results        : List Result := []
  deriving DecidableEq, Repr

/-- The block before any INIT: no decoder, and every element at the value R340 gives it (log entries 2, 3, 18). -/
def State.reset : State := {}

end Sys2Proof.Machine
end

