-- ==== Sys2Proof/Machine/Ops.lean ====
section
/-! DEFINITION. The operations the meanings share: taking an error (R312), completing a command, moving to the next place,
window access (R61), length-array writes (R162 to R166), the match copy (R212 to R215) and delivery (R293). -/

namespace Sys2Proof.Machine

/-- What a meaning answers. -/
abbrev Answer := Host.Outcome State Fault Refusal

/-- `raise E` inside a DECOMPRESS or ONESHOT (R312, the analogue of trap entry): the command stops, `s.err` latches the
kind, the host gets `Error(kind)`, everything written before stays. There is no saved position, no vector and no return
(R320): the next step is between commands. -/
def State.raise (s : State) (e : ErrKind) : State :=
  { s with err := some e, results := s.results ++ [.error e], phase := .idle, oneshot := false }

/-- A meaning that raises. -/
def raised (s : State) (e : ErrKind) : Answer := .next (s.raise e)

/-- An error returned without touching the decoder: a refused INIT (R290) or a latched error (R295). -/
def State.answerError (s : State) (e : ErrKind) : State := { s with results := s.results ++ [.error e] }

/-- A command returns `Ok`; ONESHOT returns the bytes of `OUT` (R292, R296). -/
def State.complete (s : State) : State :=
  { s with
    results := s.results ++ [if s.oneshot then .bytes s.out else .ok]
    phase := .idle
    oneshot := false }

/-- The next place in the pseudocode. -/
def State.goto (s : State) (p : Phase) : State := { s with phase := p }

/-- The BitReader after a read. -/
def State.withReader (s : State) (r : BitReader) : State := { s with rd := r }

/-- Goes on with a value read from the bitstream inside a meaning; a failed read keeps the reader as it was left. -/
def State.onRead {α : Type} (s : State) (x : ReadResult α) (f : α → State → Answer) : Answer :=
  match x with
  | .ok v r => f v (s.withReader r)
  | .raise e r => raised (s.withReader r) e

/-- The block is verbatim or aligned (R251). -/
def State.coded (s : State) : Bool := s.blockType == 1 || s.blockType == 2

/-- The block is aligned (R200). -/
def State.alignedBlock (s : State) : Bool := s.blockType == 2

/-- Writes bytes at the window cursor and advances it (R201, R241): the loop "repeat: Win[windowPos] <- b; windowPos <-
windowPos + 1"; each byte counts against the run. An index outside `[0, W)` does not occur (R61): fault (log entry 6). -/
def State.produce (s : State) (bytes : List Byte) : Answer :=
  if s.cfg.windowSize < s.windowPos + bytes.length then .fault .windowIndex
  else
    .next { s with
      win := Cells.splice s.win s.windowPos bytes
      windowPos := s.windowPos + bytes.length
      thisRun := s.thisRun - bytes.length
      phase := .run }

/-- The length array a tree transmission updates (R160). -/
def State.lenArray (s : State) : NatArray :=
  match s.treeSel with
  | .length => s.lengthTree.len
  | _ => s.mainTree.len

/-- Stores the length array a tree transmission updates. -/
def State.withLenArray (s : State) (a : NatArray) : State :=
  match s.treeSel with
  | .length => { s with lengthTree := { s.lengthTree with len := a } }
  | _ => { s with mainTree := { s.mainTree with len := a } }

/-- The index after the last of the running transmission. -/
def State.rangeEnd (s : State) : Nat := treeLast s.treeSel s.cfg.windowBits

/-- "repeat y: A[x] <- v; x <- x + 1" (R162 to R166). With `P_LEN_OVERRUN = fault` the first write past `last` raises
MalformedTable after the writes before it (D9). -/
def State.writeLens (s : State) (y v : Nat) : Answer :=
  if s.par.lenOverrun = .fault ∧ s.rangeEnd < s.lenPos + y then
    let room := s.rangeEnd - s.lenPos
    raised { s.withLenArray (NatArray.fill s.lenArray s.lenPos room v) with lenPos := s.lenPos + room } .malformedTable
  else
    .next { s.withLenArray (NatArray.fill s.lenArray s.lenPos y v) with lenPos := s.lenPos + y, phase := .items }

/-- The copy loop of a match from index `pos` on (R215): each byte is read after the earlier ones have been written (R73).
The flag is false when a source byte holds no value (R61); the bytes before it stay written. -/
def copyBytes (windowSize off : Nat) : Nat → Nat → Memory → Memory × Bool
  | 0, _, win => (win, true)
  | k + 1, pos, win =>
    match Cells.find win (((pos : Int) - (off : Int)) % (windowSize : Int)).toNat with
    | none => (win, false)
    | some b => copyBytes windowSize off k (pos + 1) (Cells.put win pos b)

/-- The checks (a) to (d) of a match, in the order of R315: window end (R212), zero offset (R213), history and window
(R214). -/
def State.matchRefused (s : State) (off len : Nat) : Bool :=
  s.cfg.windowSize < s.windowPos + len
    || off == 0
    || s.windowPos < off
        && (s.delivered < off && s.cfg.refDataSize < off - s.windowPos
            || s.cfg.windowSize < off - s.windowPos)

/-- `copyMatch(off, len)` and the element's end, `thisRun <- thisRun - len` (R200, R212 to R215). -/
def State.copyMatch (s : State) (off len : Nat) : Answer :=
  if s.matchRefused off len then raised s .matchOutOfBounds
  else
    let copied := copyBytes s.cfg.windowSize off len s.windowPos s.win
    if copied.2 then
      .next { s with
        win := copied.1
        windowPos := s.windowPos + len
        thisRun := s.thisRun - len
        phase := .run }
    else raised { s with win := copied.1 } .matchOutOfBounds

/-- `matchLength(lh)` (R202): the exact length 2..8, or what LEN latched for header 7. -/
def State.matchLength (s : State) (lh : Nat) : Nat := if lh = 7 then s.mLen else lh + minMatch

/-- What follows the offset of a match: the delta length extension when the length is 257 and `cfg.isDelta = 1` (R211),
else the copy (R200). -/
def State.matchWith (s : State) (off lh : Nat) : Answer :=
  let s1 := { s with mOff := off, mLen := s.matchLength lh }
  if s1.mLen = maxMatch ∧ s.cfg.isDelta = true then .next (s1.goto .ext)
  else s1.copyMatch off s1.mLen

/-- The cache shift of an explicit offset (R210), and of slot 3 (R207). -/
def State.shiftCache (s : State) (off : Nat) : State :=
  { s with r2 := s.r1, r1 := s.r0, r0 := BitVec.ofNat 32 off }

/-- The delta length extension adds `x` to the length; then the copy (R200, R211). -/
def State.extendMatch (s : State) (x : Nat) : Answer :=
  let s1 := { s with mLen := s.mLen + x }
  s1.copyMatch s1.mOff s1.mLen

/-- `deliver(k)` (R293). -/
def State.deliver (s : State) (k : Nat) : Option State :=
  (Cells.readRange s.stage s.stagePtr k).map fun bytes =>
    { s with out := s.out ++ bytes, stagePtr := s.stagePtr + k, delivered := s.delivered + k }

end Sys2Proof.Machine
end

