-- ==== Sys2Proof/Machine/Flags.lean ====
section
/-! DEFINITION. The block's one-bit flags and the tests that set or read them: `lengthEmpty` and the build outcomes (R143,
R187), `intelStarted` (R280), the E8 gate (R281), the pad-byte condition (R181), the declared-length bound (R292, D18). -/

namespace Sys2Proof.Machine

/-- A required table builds only when its code is complete (R143). -/
def requiredBuilt (b : BuildResult) : Bool := b == .complete

/-- The length tree builds when its code is complete or empty (R187). -/
def lengthBuilt (b : BuildResult) : Bool := b == .complete || b == .empty

/-- `s.intelStarted` after a main-tree build: set when literal 0xE8 has a code, never cleared (R185, R280, R38). -/
def State.e8Seen (s : State) : Bool := s.intelStarted || NatArray.get s.mainTree.len 0xE8 != 0

/-- `filterOn` (R281), with the frame counter before its increment (D33). -/
def State.filterOn (s : State) : Bool :=
  s.intelStarted && s.intelFileSize != 0 && s.frame.toNat ≤ e8LastFrame && (e8Tail : Int) < s.fs

/-- The previous block was uncompressed with an odd length (R181). -/
def State.padDue (s : State) : Bool := s.blockType == 3 && s.blockLength.toNat % 2 == 1

/-- The declared length bounds requests: `cfg.totalLength` is not 0, or 0 means 0 (R292, D18). -/
def State.lengthDeclared (s : State) : Bool :=
  s.cfg.totalLength != 0 || s.par.undeclaredLength == .zeroIsZero

end Sys2Proof.Machine
end

