-- ==== Sys2Proof/Machine/BlockElements.lean ====
section
/-! DEFINITION. The block header and the uncompressed body: BLOCK (R180, R182 to R186), PAD (R181), REALIGN (R129), RVALS
(R186), RAW (R241), ALIGNEDLENS (R184). -/

namespace Sys2Proof.Machine

/-- The registers that every block header writes (R182). -/
def State.openBlock (s : State) (t : BitVec 3) (len : BitVec 24) : State :=
  { s with blockType := t, blockLength := len, blockRemaining := len.toNat }

/-- A header of an invalid type raises ProtocolViolation after its 27 bits (R183). -/
def invalidBlock (t : BitVec 3) (len : BitVec 24) (s : State) : Answer := raised (s.openBlock t len) .protocolViolation

/-- BLOCK type=VERBATIM (R182, R185): the tree transmissions follow. -/
def execBlockVerbatim (len : BitVec 24) (s : State) : Answer :=
  .next { s.openBlock 1 len with treeSel := .mainLow, phase := .tree }

/-- BLOCK type=ALIGNED (R182, R184): the aligned-tree lengths follow, then the tree transmissions. -/
def execBlockAligned (len : BitVec 24) (s : State) : Answer := .next ((s.openBlock 2 len).goto .alignedLens)

/-- BLOCK type=UNCOMPRESSED (R182, R186): arms the E8 filter; the realign follows. -/
def execBlockUncompressed (len : BitVec 24) (s : State) : Answer :=
  .next { s.openBlock 3 len with intelStarted := true, phase := .realign }

/-- BLOCK type=0 (R183). -/
def execBlockInvalid0 (len : BitVec 24) (s : State) : Answer := invalidBlock 0 len s

/-- BLOCK type=4 (R183). -/
def execBlockInvalid4 (len : BitVec 24) (s : State) : Answer := invalidBlock 4 len s

/-- BLOCK type=5 (R183). -/
def execBlockInvalid5 (len : BitVec 24) (s : State) : Answer := invalidBlock 5 len s

/-- BLOCK type=6 (R183). -/
def execBlockInvalid6 (len : BitVec 24) (s : State) : Answer := invalidBlock 6 len s

/-- BLOCK type=7 (R183). -/
def execBlockInvalid7 (len : BitVec 24) (s : State) : Answer := invalidBlock 7 len s

/-- PAD (R181, R244): the byte is discarded; the header follows. -/
def execPad (_p : Byte) (s : State) : Answer := .next (s.goto .blockHead)

/-- REALIGN: `alignRaw()` (R129, R186). -/
def execRealign (s : State) : Answer := s.onRead s.rd.alignRaw fun _ s1 => .next (s1.goto .rvals)

/-- RVALS (R186): the cache is loaded, unvalidated (D36). -/
def execRvals (v0 v1 v2 : Word32) (s : State) : Answer :=
  .next { s with r0 := v0, r1 := v1, r2 := v2, phase := .runOpen }

/-- RAW (R241): the bytes go to the window. -/
def execRaw (bytes : List Byte) (s : State) : Answer := s.produce bytes

/-- ALIGNEDLENS (R184): stores the lengths and builds the aligned table, which must be complete (R143). -/
def execAlignedLens (lens : List Nat) (s : State) : Answer :=
  let len := NatArray.setAll s.alignedTree.len 0 lens
  let built := buildTable s.par.earlyReturn .aligned len s.alignedTree.table
  let s1 := { s with alignedTree := { len := len, table := built.1 } }
  if requiredBuilt built.2 then .next { s1 with treeSel := .mainLow, phase := .tree }
  else raised s1 .malformedTable

end Sys2Proof.Machine
end

