-- ==== Sys2Proof/Machine/FrameElements.lean ====
section
/-! DEFINITION. Frame prefix, stream header and frame end: FILLER16 (R253), INTEL (R254), ALIGN16 (R260). -/

namespace Sys2Proof.Machine

/-- Where a frame goes on after its delta filler: the Intel header when it has not been read, else the frame size (R251). -/
def State.afterFiller (s : State) : Phase := if s.headerRead then .frameOpen else .intel

/-- FILLER16 (R253): the 16 bits are discarded. -/
def execFiller16 (_f : BitVec 16) (s : State) : Answer := .next (s.goto s.afterFiller)

/-- INTEL e=0 (R254): the hint is 0. -/
def execIntelE0 (s : State) : Answer :=
  .next { s with intelFileSize := 0, headerRead := true, phase := .frameOpen }

/-- INTEL e=1 (R254): the hint is `s32((hi << 16) | lo)`, kept as its 32 bits. -/
def execIntelE1 (hi lo : BitVec 16) (s : State) : Answer :=
  .next { s with intelFileSize := hi ++ lo, headerRead := true, phase := .frameOpen }

/-- ALIGN16 (R260): `alignFrame()` (R128). -/
def execAlign16 (s : State) : Answer := s.onRead s.rd.alignFrame fun _ s1 => .next (s1.goto .stage)

end Sys2Proof.Machine
end

