-- ==== Sys2Proof/Machine/HostElements.lean ====
section
/-! DEFINITION. The host commands INIT (R290, R291, R340), DECOMPRESS (R292 to R295) and ONESHOT (R296). -/

namespace Sys2Proof.Machine

/-- The tests of INIT, in their order (R290, R311): true when the operands are refused with ConfigurationError. -/
def initRefused (par : Params) (wb ri hint len : Int) (delta : Bool) (dict : Option (List Byte)) : Bool :=
  !delta && !(15 ≤ wb && wb ≤ 21)
    || delta && !(17 ≤ wb && wb ≤ 25)
    || ri < 0
    || len < 0
    || hint < 1
    || dict.isSome && !delta && par.dictNonDelta == .refuse
    || 2 ^ wb.toNat < (dict.getD []).length

/-- The window of a new decoder: no value but the dictionary in its tail (R62, R291). -/
def dictionaryWindow (windowBits : Nat) (dict : List Byte) : Memory :=
  Cells.enumerate (2 ^ windowBits - dict.length) dict

/-- The state after an accepted INIT (R340): the configuration from the operands, the dictionary in the window, every other
element of the decoder at its value of R340. The parameters, the host's queue and the return values so far are not the
decoder's (log entry 7). -/
def State.newDecoder (s : State) (wb ri hint len : Int) (delta : Bool) (dict : Option (List Byte)) : State :=
  { State.reset with
    par := s.par
    queue := s.queue
    results := s.results
    present := true
    cfg := {
      windowBits := wb.toNat
      resetInterval := ri.toNat
      totalLength := len.toNat
      isDelta := delta
      refDataSize := (dict.getD []).length
      inputBufferHint := hint.toNat }
    win := dictionaryWindow wb.toNat (dict.getD []) }

/-- INIT (R290): a refused INIT creates no decoder and latches nothing; an accepted one returns the decoder. -/
def execInit (wb ri hint len : Int) (delta : Bool) (dict : Option (List Byte)) (s : State) : Answer :=
  if initRefused s.par wb ri hint len delta dict then .next (s.answerError .configurationError)
  else .next (s.newDecoder wb ri hint len delta dict).complete

/-- `endFrame` (R292): the upstream formula, or `ceil` with `P_FRAME_LOOKAHEAD = exact` (D19). -/
def endFrameFor (par : Params) (delivered n : Nat) : Nat :=
  match par.frameLookahead with
  | .upstream => (delivered + n) / frameBytes + 1
  | .exact => (delivered + n + (frameBytes - 1)) / frameBytes

/-- DECOMPRESS after its tests (R292): delivers what is staged, then turns to the frame loop. -/
def State.beginDelivery (s : State) (n : Nat) : Answer :=
  let k := min (s.stageLen - s.stagePtr) n
  match s.deliver k with
  | none => .fault .stageNoValue
  | some s1 =>
    if n - k = 0 then .next s1.complete
    else
      .next { s1 with
        want := n - k
        endFrame := endFrameFor s1.par s1.delivered (n - k)
        phase := .frameLoop }

/-- DECOMPRESS on a decoder (R292), with the precedence of R319: sticky error, negative count, declared length. -/
def State.decompress (s : State) (n : Int) : Answer :=
  match s.err with
  | some e => .next (s.answerError e)
  | none =>
    if n < 0 then raised s .configurationError
    else if s.lengthDeclared && (s.cfg.totalLength : Int) < s.delivered + n then raised s .unexpectedEndOfStream
    else s.beginDelivery n.toNat

/-- DECOMPRESS (R292). Without a decoder the command has nothing to run on (R342; log entry 8). -/
def execDecompress (n : Int) (s : State) : Answer := if s.present then s.decompress n else .refused .noDecoder

/-- `P_ONESHOT_DELTA`, by default 1 when a dictionary is given (D41). -/
def oneshotDelta (par : Params) (dict : Option (List Byte)) : Bool := par.oneshotDelta.getD dict.isSome

/-- ONESHOT (R296): INIT with reset interval 0 and hint 1 on the given data, then one DECOMPRESS; its decoder is its own and
not the host's (log entry 11). -/
def execOneshot (data : List Byte) (dict : Option (List Byte)) (size : Int) (s : State) : Answer :=
  let wb := s.par.oneshotWindowBits
  let delta := oneshotDelta s.par dict
  if initRefused s.par wb 0 1 size delta dict then .next (s.answerError .configurationError)
  else
    { s.newDecoder wb 0 1 size delta dict with
      rd := { input := data }
      present := false
      oneshot := true }.decompress size

end Sys2Proof.Machine
end

