-- ==== Sys2Proof/Machine/MatchElements.lean ====
section
/-! DEFINITION. The literal/match loop (44_literal_match.md): LIT (R201), LEN (R202), MATCH (R203 to R210, R212 to R215),
EXT (R211). A match runs as its header, LEN, MATCH and, in delta mode, EXT, in the order of R99 (log entry 14). -/

namespace Sys2Proof.Machine

/-- LIT (R201). -/
def execLit (m : Byte) (s : State) : Answer := s.produce [m]

/-- LEN lh=0..6 (R202): the length is `lh + 2`. -/
def execLenShort (lh : Nat) (s : State) : Answer := .next { s with mLen := lh + minMatch, phase := .offset }

/-- LEN lh=7 (R202): ProtocolViolation while the length tree is empty, else the length is `7 + lsym + 2`. -/
def execLenLong (lsym : Nat) (s : State) : Answer :=
  if s.lengthEmpty then raised s .protocolViolation
  else .next { s with mLen := 7 + lsym + minMatch, phase := .offset }

/-- MATCH slot=0 (R204): `off <- r0`, cache unchanged. -/
def execMatchSlot0 (lh : Nat) (s : State) : Answer := s.matchWith s.r0.toNat lh

/-- MATCH slot=1 (R205): `off <- r1`; r0 and r1 swap. -/
def execMatchSlot1 (lh : Nat) (s : State) : Answer := { s with r0 := s.r1, r1 := s.r0 }.matchWith s.r1.toNat lh

/-- MATCH slot=2 (R206): `off <- r2`; r0 and r2 swap. -/
def execMatchSlot2 (lh : Nat) (s : State) : Answer := { s with r0 := s.r2, r2 := s.r0 }.matchWith s.r2.toNat lh

/-- MATCH slot=3 in a verbatim block (R207): offset 1, cache shift. -/
def execMatchSlot3Verbatim (lh : Nat) (s : State) : Answer := (s.shiftCache 1).matchWith 1 lh

/-- An explicit offset: cache shift, then the match (R208 to R210). -/
def explicitMatch (slot lh v : Nat) (s : State) : Answer :=
  (s.shiftCache (explicitOffset slot v)).matchWith (explicitOffset slot v) lh

/-- MATCH slot=3 in an aligned block (R209): an explicit slot with no extra bit, offset `POSITION_BASE(3) - 2`. -/
def execMatchSlot3Aligned (lh : Nat) (s : State) : Answer := explicitMatch 3 lh 0 s

/-- MATCH slot>=4 in a verbatim block (R208). -/
def execMatchVerbatim (slot lh v : Nat) (s : State) : Answer := explicitMatch slot lh v s

/-- MATCH slot 4..7 in an aligned block (R209): fewer than three extra bits, all verbatim. -/
def execMatchAlignedShort (slot lh v : Nat) (s : State) : Answer := explicitMatch slot lh v s

/-- MATCH slot>=8 in an aligned block (R209): upper verbatim bits and an aligned symbol; with `P_ALIGNED_EXTRA3 = verbatim`
a slot with three extra bits has three verbatim bits and no aligned symbol (D11). -/
def execMatchAlignedLong (slot lh v : Nat) (a : Option Nat) (s : State) : Answer :=
  match a with
  | some low => explicitMatch slot lh (alignedValue v low) s
  | none => explicitMatch slot lh v s

/-- EXT prefix 0 (R211): adds the 8-bit field. -/
def execExt0 (x : BitVec 8) (s : State) : Answer := s.extendMatch x.toNat

/-- EXT prefix 10 (R211): adds the 10-bit field and 0x100. -/
def execExt10 (x : BitVec 10) (s : State) : Answer := s.extendMatch (x.toNat + 0x100)

/-- EXT prefix 110 (R211): adds the 12-bit field and 0x500. -/
def execExt110 (x : BitVec 12) (s : State) : Answer := s.extendMatch (x.toNat + 0x500)

/-- EXT prefix 111 (R211): adds the 15-bit field. -/
def execExt111 (x : BitVec 15) (s : State) : Answer := s.extendMatch x.toNat

end Sys2Proof.Machine
end

