-- ==== Sys2Proof/Machine/TreeElements.lean ====
section
/-! DEFINITION. Code-length transmission (42_pretree.md): TREE (R161), DELTA (R164), ZEROS4 (R162), ZEROS20 (R163),
SAME (R165). -/

namespace Sys2Proof.Machine

/-- TREE (R160, R161): stores the pretree lengths, builds the pretree, which must be complete (R143), and starts the items
at the first index of the running transmission. -/
def execTree (lens : List Nat) (s : State) : Answer :=
  let len := NatArray.setAll s.preTree.len 0 lens
  let built := buildTable s.par.earlyReturn .pre len s.preTree.table
  let s1 := { s with preTree := { len := len, table := built.1 } }
  if requiredBuilt built.2 then .next { s1 with lenPos := treeFirst s.treeSel, phase := .items }
  else raised s1 .malformedTable

/-- DELTA (R164): `A[x] <- (A[x] - z) mod 17; x <- x + 1`. -/
def execDelta (z : Nat) (s : State) : Answer := s.writeLens 1 (lengthDelta (NatArray.get s.lenArray s.lenPos) z)

/-- ZEROS4 (R162): a run of `f + 4` zeros. -/
def execZeros4 (f : Nat) (s : State) : Answer := s.writeLens (f + 4) 0

/-- ZEROS20 (R163): a run of `f + 20` zeros. -/
def execZeros20 (f : Nat) (s : State) : Answer := s.writeLens (f + 20) 0

/-- SAME (R165): a run of `r + 4` times the one value derived at its first position. -/
def execSame (r d : Nat) (s : State) : Answer := s.writeLens (r + 4) (lengthDelta (NatArray.get s.lenArray s.lenPos) d)

end Sys2Proof.Machine
end

