-- ==== Sys2Proof/Machine/Dispatch.lean ====
section
/-! DEFINITION. One arm for each instruction: its meaning. -/

namespace Sys2Proof.Machine

def exec (i : Instr) (s : State) : Host.Outcome State Fault Refusal :=
  match i with
  | .filler16 f => Sys2Proof.Machine.execFiller16 f s
  | .intelE0 => Sys2Proof.Machine.execIntelE0 s
  | .intelE1 hi lo => Sys2Proof.Machine.execIntelE1 hi lo s
  | .blockVerbatim len => Sys2Proof.Machine.execBlockVerbatim len s
  | .blockAligned len => Sys2Proof.Machine.execBlockAligned len s
  | .blockUncompressed len => Sys2Proof.Machine.execBlockUncompressed len s
  | .blockInvalid0 len => Sys2Proof.Machine.execBlockInvalid0 len s
  | .blockInvalid4 len => Sys2Proof.Machine.execBlockInvalid4 len s
  | .blockInvalid5 len => Sys2Proof.Machine.execBlockInvalid5 len s
  | .blockInvalid6 len => Sys2Proof.Machine.execBlockInvalid6 len s
  | .blockInvalid7 len => Sys2Proof.Machine.execBlockInvalid7 len s
  | .pad p => Sys2Proof.Machine.execPad p s
  | .realign => Sys2Proof.Machine.execRealign s
  | .rvals v0 v1 v2 => Sys2Proof.Machine.execRvals v0 v1 v2 s
  | .raw bytes => Sys2Proof.Machine.execRaw bytes s
  | .alignedLens lens => Sys2Proof.Machine.execAlignedLens lens s
  | .tree lens => Sys2Proof.Machine.execTree lens s
  | .delta z => Sys2Proof.Machine.execDelta z s
  | .zeros4 f => Sys2Proof.Machine.execZeros4 f s
  | .zeros20 f => Sys2Proof.Machine.execZeros20 f s
  | .same r d => Sys2Proof.Machine.execSame r d s
  | .lit m => Sys2Proof.Machine.execLit m s
  | .matchSlot0 lh => Sys2Proof.Machine.execMatchSlot0 lh s
  | .matchSlot1 lh => Sys2Proof.Machine.execMatchSlot1 lh s
  | .matchSlot2 lh => Sys2Proof.Machine.execMatchSlot2 lh s
  | .matchSlot3Verbatim lh => Sys2Proof.Machine.execMatchSlot3Verbatim lh s
  | .matchSlot3Aligned lh => Sys2Proof.Machine.execMatchSlot3Aligned lh s
  | .matchVerbatim slot lh v => Sys2Proof.Machine.execMatchVerbatim slot lh v s
  | .matchAlignedShort slot lh v => Sys2Proof.Machine.execMatchAlignedShort slot lh v s
  | .matchAlignedLong slot lh v a => Sys2Proof.Machine.execMatchAlignedLong slot lh v a s
  | .lenShort lh => Sys2Proof.Machine.execLenShort lh s
  | .lenLong lsym => Sys2Proof.Machine.execLenLong lsym s
  | .ext0 x => Sys2Proof.Machine.execExt0 x s
  | .ext10 x => Sys2Proof.Machine.execExt10 x s
  | .ext110 x => Sys2Proof.Machine.execExt110 x s
  | .ext111 x => Sys2Proof.Machine.execExt111 x s
  | .align16 => Sys2Proof.Machine.execAlign16 s
  | .init wb ri hint len delta dict => Sys2Proof.Machine.execInit wb ri hint len delta dict s
  | .decompress n => Sys2Proof.Machine.execDecompress n s
  | .oneshot data dict size => Sys2Proof.Machine.execOneshot data dict size s

end Sys2Proof.Machine
end

