-- ==== Sys2Proof/WellFormed.lean ====
section
/-! DEFINITION. Which instructions an encoding can stand for: the bound of every operand that is not already a bit field of
its own width. The host commands have no bound: an illegal operand of theirs has a meaning (R290, R292). -/

namespace Sys2Proof

open Sys2Proof.Machine

/-- The bounds of an instruction's operands, each from the rule of its row; 290 is the number of slots a main symbol below
`MAIN_MAXSYMS` can name (R101, R203). -/
def wellFormed (i : Instr) : Bool :=
  match i with
  | .raw bytes => !bytes.isEmpty
  | .alignedLens lens => lens.length == 8 && lens.all (fun a => a < 8)
  | .tree lens => lens.length == 20 && lens.all (fun p => p < 16)
  | .delta z => z ≤ 16
  | .zeros4 f => f < 16
  | .zeros20 f => f < 32
  | .same r d => r < 2 && d < 20
  | .matchSlot0 lh => lh < 8
  | .matchSlot1 lh => lh < 8
  | .matchSlot2 lh => lh < 8
  | .matchSlot3Verbatim lh => lh < 8
  | .matchSlot3Aligned lh => lh < 8
  | .matchVerbatim slot lh v => lh < 8 && 4 ≤ slot && slot < 290 && v < 2 ^ extraBits slot
  | .matchAlignedShort slot lh v => lh < 8 && 4 ≤ slot && slot < 8 && v < 2 ^ extraBits slot
  | .matchAlignedLong slot lh v (some a) => lh < 8 && 8 ≤ slot && slot < 290 && v < 2 ^ (extraBits slot - 3) && a < 8
  | .matchAlignedLong slot lh v none => lh < 8 && 8 ≤ slot && slot < 10 && v < 8
  | .lenShort lh => lh < 7
  | .lenLong lsym => lsym < lengthMaxSyms
  | .filler16 _ | .intelE0 | .intelE1 _ _ | .blockVerbatim _ | .blockAligned _ | .blockUncompressed _
  | .blockInvalid0 _ | .blockInvalid4 _ | .blockInvalid5 _ | .blockInvalid6 _ | .blockInvalid7 _
  | .pad _ | .realign | .rvals _ _ _ | .lit _ | .ext0 _ | .ext10 _ | .ext110 _ | .ext111 _ | .align16
  | .init _ _ _ _ _ _ | .decompress _ | .oneshot _ _ _ => true

/-- An instruction that some encoding stands for. -/
abbrev WellFormed (i : Instr) : Prop := wellFormed i = true

end Sys2Proof
end

