-- ==== Sys2Proof/Decode.lean ====
section
/-! DEFINITION. The decoder: at each place of the bitstream grammar, the element that the bits or bytes at the input cursor
stand for (30_encoding.md), with the refill points of R130; after it the encoder, written from the same encodings. Decoding
is total: it answers an element, a match header, or the error kind the spec raises there, with the fields read so far. -/

namespace Sys2Proof

open Sys2Proof.Machine

/-- What decoding depends on besides the place and the bits: the tables, the block kind, `P_ALIGNED_EXTRA3`, the match
header read just before (R99), and how many raw bytes the current run wants (R241). -/
structure DecodeContext where
  preTree        : Huff := {}
  mainTree       : Huff := {}
  lengthTree     : Huff := {}
  alignedTree    : Huff := {}
  lengthEmpty    : Bool := false
  alignedBlock   : Bool := false
  extra3Verbatim : Bool := false
  header         : Nat := 0
  runBytes       : Nat := 0
  deriving DecidableEq, Repr

/-- What decoding answers. -/
inductive Decoded where
  /-- an element, with the reader behind it -/
  | instr (i : Instr) (r : BitReader)
  /-- a match header `M(m)`, `m >= 256`: the first part of a match (R90, R99) -/
  | header (m : Nat) (r : BitReader)
  /-- the error raised while reading, with the fields of the element already read (R312) -/
  | raise (e : ErrKind) (r : BitReader) (fields : List Nat)
  /-- the place expects no element of the bitstream -/
  | nothing
  deriving DecidableEq, Repr

/-- Reads a list of `k`-bit fields, one after the other; on a raise it keeps the fields already read. -/
def decodeFields (k : Nat) : Nat → List Nat → BitReader → (List Nat → BitReader → Decoded) → Decoded
  | 0, done, r, f => f done r
  | n + 1, done, r, f =>
    match r.readBits k with
    | .raise e r1 => .raise e r1 done
    | .ok v r1 => decodeFields k n (done ++ [v]) r1 f

/-- Goes on with a value read from the bitstream. -/
def withRead {α : Type} (x : ReadResult α) (fields : List Nat) (f : α → BitReader → Decoded) : Decoded :=
  match x with
  | .ok v r => f v r
  | .raise e r => .raise e r fields

/-- FILLER16 (R253): `ensure(16)`, `remove(16)`. -/
def decodeFiller (r : BitReader) : Decoded :=
  withRead (r.ensure 16) [] fun _ r1 => .instr (.filler16 (BitVec.ofNat 16 (r1.peek 16))) (r1.remove 16)

/-- INTEL (R83, R254). -/
def decodeIntel (r : BitReader) : Decoded :=
  withRead (r.readBits 1) [] fun e r1 =>
    if e = 1 then
      withRead (r1.readBits 16) [] fun hi r2 => withRead (r2.readBits 16) [] fun lo r3 =>
        .instr (.intelE1 (BitVec.ofNat 16 hi) (BitVec.ofNat 16 lo)) r3
    else .instr .intelE0 r1

/-- The block header of a 3-bit type (R84). -/
def blockInstr (t : Nat) (len : BitVec 24) : Instr :=
  match t with
  | 0 => .blockInvalid0 len
  | 1 => .blockVerbatim len
  | 2 => .blockAligned len
  | 3 => .blockUncompressed len
  | 4 => .blockInvalid4 len
  | 5 => .blockInvalid5 len
  | 6 => .blockInvalid6 len
  | _ => .blockInvalid7 len

/-- BLOCK (R84, R182): the length is `(hi << 8) | lo`. -/
def decodeBlock (r : BitReader) : Decoded :=
  withRead (r.readBits 3) [] fun t r1 =>
    withRead (r1.readBits 16) [t] fun hi r2 => withRead (r2.readBits 8) [t] fun lo r3 =>
      .instr (blockInstr t (BitVec.ofNat 16 hi ++ BitVec.ofNat 8 lo)) r3

/-- PAD (R181): one byte, not through the bit accumulator. -/
def decodePad (r : BitReader) : Decoded := withRead r.inByte [] fun b r1 => .instr (.pad b) r1

/-- The values of RVALS (R186, R65). -/
def rvalsInstr (bytes : List Byte) : Instr :=
  match bytes with
  | [a0, a1, a2, a3, b0, b1, b2, b3, c0, c1, c2, c3] => .rvals (le32 a0 a1 a2 a3) (le32 b0 b1 b2 b3) (le32 c0 c1 c2 c3)
  | _ => .rvals 0 0 0

/-- RVALS (R186): twelve bytes, not through the bit accumulator. -/
def decodeRvals (r : BitReader) : Decoded := withRead (r.readBytes 12) [] fun bytes r1 => .instr (rvalsInstr bytes) r1

/-- RAW (R241): the bytes of the run that the input still gives; with none left, the error of the next `InByte`. -/
def decodeRaw (k : Nat) (r : BitReader) : Decoded :=
  match BitReader.takeBytes k r with
  | ([], r1) => .raise .unexpectedEndOfStream r1 []
  | (b :: bs, r1) => .instr (.raw (b :: bs)) r1

/-- A pretree item (R88, R160). -/
def decodeItem (pre : Huff) (r : BitReader) : Decoded :=
  withRead (readSym .pre pre r) [] fun z r1 =>
    match z with
    | 17 => withRead (r1.readBits 4) [] fun f r2 => .instr (.zeros4 f) r2
    | 18 => withRead (r1.readBits 5) [] fun f r2 => .instr (.zeros20 f) r2
    | 19 => withRead (r1.readBits 1) [] fun n r2 => withRead (readSym .pre pre r2) [] fun d r3 => .instr (.same n d) r3
    | _ => .instr (.delta z) r1

/-- A main symbol (R90, R200): a literal, or a match header. -/
def decodeMain (main : Huff) (r : BitReader) : Decoded :=
  withRead (readSym .main main r) [] fun m r1 =>
    if m < 256 then .instr (.lit (BitVec.ofNat 8 m)) r1 else .header m r1

/-- LEN (R202): with header 7 the empty length tree is refused before any bit is read. -/
def decodeLen (c : DecodeContext) (r : BitReader) : Decoded :=
  if lengthHeader c.header = 7 then
    if c.lengthEmpty then .raise .protocolViolation r []
    else withRead (readSym .length c.lengthTree r) [] fun lsym r1 => .instr (.lenLong lsym) r1
  else .instr (.lenShort (lengthHeader c.header)) r

/-- The offset fields of an explicit slot in an aligned block (R100, R209, D11). -/
def decodeAlignedOffset (c : DecodeContext) (slot lh : Nat) (r : BitReader) : Decoded :=
  if extraBits slot < 3 then
    withRead (r.readBits (extraBits slot)) [] fun v r1 => .instr (.matchAlignedShort slot lh v) r1
  else if extraBits slot = 3 ∧ c.extra3Verbatim = true then
    withRead (r.readBits 3) [] fun v r1 => .instr (.matchAlignedLong slot lh v none) r1
  else
    withRead (r.readBits (extraBits slot - 3)) [] fun v r1 =>
      withRead (readSym .aligned c.alignedTree r1) [] fun a r2 => .instr (.matchAlignedLong slot lh v (some a)) r2

/-- MATCH: the offset fields of the header's slot (R99 (2), R203 to R209). -/
def decodeMatch (c : DecodeContext) (r : BitReader) : Decoded :=
  let slot := offsetSlot c.header
  let lh := lengthHeader c.header
  match slot with
  | 0 => .instr (.matchSlot0 lh) r
  | 1 => .instr (.matchSlot1 lh) r
  | 2 => .instr (.matchSlot2 lh) r
  | 3 => if c.alignedBlock then .instr (.matchSlot3Aligned lh) r else .instr (.matchSlot3Verbatim lh) r
  | _ =>
    if c.alignedBlock then decodeAlignedOffset c slot lh r
    else withRead (r.readBits (extraBits slot)) [] fun v r1 => .instr (.matchVerbatim slot lh v) r1

/-- EXT (R98, R211): `ensure(3)`, then the prefix decides the field. -/
def decodeExt (r : BitReader) : Decoded :=
  withRead (r.ensure 3) [] fun _ r1 =>
    if r1.peek 1 = 0 then
      withRead ((r1.remove 1).readBits 8) [] fun x r2 => .instr (.ext0 (BitVec.ofNat 8 x)) r2
    else if r1.peek 2 = 2 then
      withRead ((r1.remove 2).readBits 10) [] fun x r2 => .instr (.ext10 (BitVec.ofNat 10 x)) r2
    else if r1.peek 3 = 6 then
      withRead ((r1.remove 3).readBits 12) [] fun x r2 => .instr (.ext110 (BitVec.ofNat 12 x)) r2
    else
      withRead ((r1.remove 3).readBits 15) [] fun x r2 => .instr (.ext111 (BitVec.ofNat 15 x)) r2

/-- The element at a place of the bitstream. `run` expects RAW in an uncompressed block (`uncompressed`), else a main
symbol (R251). -/
def decodeAt (p : Phase) (uncompressed : Bool) (c : DecodeContext) (r : BitReader) : Decoded :=
  match p with
  | .filler => decodeFiller r
  | .intel => decodeIntel r
  | .pad => decodePad r
  | .blockHead => decodeBlock r
  | .alignedLens => decodeFields 3 8 [] r fun lens r1 => .instr (.alignedLens lens) r1
  | .tree => decodeFields 4 20 [] r fun lens r1 => .instr (.tree lens) r1
  | .items => decodeItem c.preTree r
  | .realign => .instr .realign r
  | .rvals => decodeRvals r
  | .run => if uncompressed then decodeRaw c.runBytes r else decodeMain c.mainTree r
  | .length => decodeLen c r
  | .offset => decodeMatch c r
  | .ext => decodeExt r
  | .align16 => .instr .align16 r
  | .idle | .frameLoop | .frameOpen | .blockLoop | .runOpen | .stage => .nothing

/-- A host command is carried as itself (48_host_interface.md); the binding of the source is no command. -/
def decodeHost (h : HostCmd) : Option Instr :=
  match h with
  | .init wb ri hint len delta dict => some (.init wb ri hint len delta dict)
  | .decompress n => some (.decompress n)
  | .oneshot data dict size => some (.oneshot data dict size)
  | .bind _ => none

/-- What an instruction's own encoding is made of: bits of the bitstream, raw bytes, or a host command. -/
inductive Wire where
  | bits (b : List Bool)
  | bytes (b : List Byte)
  | host (h : HostCmd)
  deriving DecidableEq, Repr

/-- The header bits of a block: `ttt h16 l8` (R84). -/
def blockBits (t : Nat) (len : BitVec 24) : List Bool := fieldBits 3 t ++ fieldBits 24 len.toNat

/-- The codeword of a symbol; a symbol of length 0 has none (R89). -/
def codeBits (t : Tree) (h : Huff) (sym : Nat) : List Bool := (codeword t h.len sym).getD []

/-- The codeword `M(m)` of a match header: it stands before LEN and MATCH (R99). -/
def encodeHeader (c : DecodeContext) (m : Nat) : List Bool := codeBits .main c.mainTree m

/-- The encoder: the bits, bytes or command that stand at an instruction's own place. REALIGN and ALIGN16 have no field:
the bits they drop are dropped whatever they are (R128, R129). A match is encoded as its header (`encodeHeader`), then LEN,
then MATCH, then EXT, in the order of R99. -/
def encode (c : DecodeContext) (i : Instr) : Wire :=
  match i with
  | .filler16 f => .bits (fieldBits 16 f.toNat)
  | .intelE0 => .bits [false]
  | .intelE1 hi lo => .bits (true :: (fieldBits 16 hi.toNat ++ fieldBits 16 lo.toNat))
  | .blockVerbatim len => .bits (blockBits 1 len)
  | .blockAligned len => .bits (blockBits 2 len)
  | .blockUncompressed len => .bits (blockBits 3 len)
  | .blockInvalid0 len => .bits (blockBits 0 len)
  | .blockInvalid4 len => .bits (blockBits 4 len)
  | .blockInvalid5 len => .bits (blockBits 5 len)
  | .blockInvalid6 len => .bits (blockBits 6 len)
  | .blockInvalid7 len => .bits (blockBits 7 len)
  | .pad p => .bytes [p]
  | .realign => .bits []
  | .rvals r0 r1 r2 => .bytes (bytesOf32 r0 ++ bytesOf32 r1 ++ bytesOf32 r2)
  | .raw bytes => .bytes bytes
  | .alignedLens lens => .bits (lens.flatMap (fieldBits 3))
  | .tree lens => .bits (lens.flatMap (fieldBits 4))
  | .delta z => .bits (codeBits .pre c.preTree z)
  | .zeros4 f => .bits (codeBits .pre c.preTree 17 ++ fieldBits 4 f)
  | .zeros20 f => .bits (codeBits .pre c.preTree 18 ++ fieldBits 5 f)
  | .same n d => .bits (codeBits .pre c.preTree 19 ++ fieldBits 1 n ++ codeBits .pre c.preTree d)
  | .lit m => .bits (codeBits .main c.mainTree m.toNat)
  | .matchSlot0 _ => .bits []
  | .matchSlot1 _ => .bits []
  | .matchSlot2 _ => .bits []
  | .matchSlot3Verbatim _ => .bits []
  | .matchSlot3Aligned _ => .bits []
  | .matchVerbatim slot _ v => .bits (fieldBits (extraBits slot) v)
  | .matchAlignedShort slot _ v => .bits (fieldBits (extraBits slot) v)
  | .matchAlignedLong slot _ v (some a) => .bits (fieldBits (extraBits slot - 3) v ++ codeBits .aligned c.alignedTree a)
  | .matchAlignedLong _ _ v none => .bits (fieldBits 3 v)
  | .lenShort _ => .bits []
  | .lenLong lsym => .bits (codeBits .length c.lengthTree lsym)
  | .ext0 x => .bits (false :: fieldBits 8 x.toNat)
  | .ext10 x => .bits (true :: false :: fieldBits 10 x.toNat)
  | .ext110 x => .bits (true :: true :: false :: fieldBits 12 x.toNat)
  | .ext111 x => .bits (true :: true :: true :: fieldBits 15 x.toNat)
  | .align16 => .bits []
  | .init wb ri hint len delta dict => .host (.init wb ri hint len delta dict)
  | .decompress n => .host (.decompress n)
  | .oneshot data dict size => .host (.oneshot data dict size)

/-- The main symbol that a LEN or MATCH instruction of a match stands under (R90): what `encodeHeader` encodes. -/
def headerOf (slot lh : Nat) : Nat := 256 + 8 * slot + lh

/-- The value of the first `k` bits of a list, first bit most significant; a missing bit is 0. -/
def bitsValue (k : Nat) (b : List Bool) : Nat :=
  match k, b with
  | 0, _ => 0
  | k + 1, [] => bitsValue k []
  | k + 1, x :: rest => (if x then 2 ^ k else 0) + bitsValue k rest

/-- Lays bits out as the input stores them: 16-bit chunks, each as its low byte then its high byte (R63). -/
def packChunks : Nat → List Bool → List Byte
  | 0, _ => []
  | n + 1, b => BitVec.ofNat 8 (bitsValue 16 b) :: BitVec.ofNat 8 (bitsValue 16 b / 256) :: packChunks n (b.drop 16)

/-- A block-header row's word: bits 2..0 are the type field's value, as the table's match and mask number them, and the
bits from 3 on are the 24-bit length (log entry 20). -/
def tableWordBits (w : Nat) : List Bool := fieldBits 3 w ++ fieldBits 24 (w / 8)

/-- A reader over a block-header row's word, stored as the input stores it (R63, R84). -/
def tableWordReader (w : Nat) : BitReader := { input := packChunks 2 (tableWordBits w) }

/-- A main-symbol row's word is the symbol itself: it stands in the input as the codeword `0` of a table in which that
symbol's codeword is `0` (log entry 20). -/
def tableWordTree (w : Nat) : Huff := { len := NatArray.set [] w 1, table := NatArray.set [] 0 w }

/-- A reader that gives zero bits, for the operand fields the table gives no bits. -/
def zeroReader : BitReader := { input := List.replicate 8 0 }

/-- The element of a decoding. -/
def Decoded.instr? (d : Decoded) : Option Instr :=
  match d with
  | .instr i _ => some i
  | _ => none

/-- The instruction the decoder reads from a word numbered as spec/opcode_table.json numbers it. The table numbers two
kinds of words: the 3-bit type of the block-header rows (one byte, or the four bytes of a whole header), and the 16-bit
main symbol of the MATCH rows. Of the two slot-3 rows, which have one word, the verbatim one is answered. -/
def decodeTableWord (nbits w : Nat) : Option Instr :=
  if nbits = 16 then
    if w < 256 then (decodeAt .run false { mainTree := tableWordTree w } zeroReader).instr?
    else if w < mainMaxSyms then (decodeAt .offset false { header := w } zeroReader).instr?
    else none
  else if nbits = 8 ∨ nbits = 32 then (decodeAt .blockHead false {} (tableWordReader w)).instr?
  else none

end Sys2Proof
end

