-- ==== Sys2Proof/Machine/E8Filter.lean ====
section
/-! DEFINITION. The Intel E8 filter on the staged copy of a frame (47_e8_filter.md). -/

namespace Sys2Proof.Machine

/-- The four operand bytes after an 0xE8 at stream position `cur`, rewritten or left (R282, R283). -/
def e8Operand (fileSize cur : Int) (b1 b2 b3 b4 : Byte) : List Byte :=
  let a := s32 (le32 b1 b2 b3 b4)
  if -cur ≤ a ∧ a < fileSize then bytesOf32 (u32 (if 0 ≤ a then a - cur else a + fileSize))
  else [b1, b2, b3, b4]

/-- The scan (R282, R284) over the bytes from index `i` on, `left = fs - 10 - i` of which are still to be examined. -/
def e8Scan (fileSize : Int) : List Byte → Nat → Int → List Byte
  | b0 :: b1 :: b2 :: b3 :: b4 :: rest, left, cur =>
    if left = 0 then b0 :: b1 :: b2 :: b3 :: b4 :: rest
    else if b0 = 0xE8 then b0 :: (e8Operand fileSize cur b1 b2 b3 b4 ++ e8Scan fileSize rest (left - 5) (cur + 5))
    else b0 :: e8Scan fileSize (b1 :: b2 :: b3 :: b4 :: rest) (left - 1) (cur + 1)
  | bytes, _, _ => bytes

/-- `e8(buf)` (R282). -/
def e8Filter (fileSize cur : Int) (buf : List Byte) : List Byte := e8Scan fileSize buf (buf.length - e8Tail) cur

end Sys2Proof.Machine
end

