-- ==== Sys2Proof/Machine/Sequencing.lean ====
section
/-! DEFINITION. What runs between two elements of the bitstream: the frame loop (R292, R252, R350), the frame size (R255),
the block loop (R256 to R258), the ends of the tree transmissions (R185, R187), staging and the frame's end (R259, R262,
R281, R285, R261, R293). Each is the stretch of pseudocode from one place of R49 to the next. -/

namespace Sys2Proof.Machine

/-- `resetIntervalClear()` (R350); the `LEN_SAFETY` entries are not cleared. -/
def State.resetIntervalClear (s : State) : State :=
  { s with
    r0 := 1
    r1 := 1
    r2 := 1
    blockType := 0
    blockLength := 0
    blockRemaining := 0
    mainTree := { s.mainTree with len := Cells.upward s.mainTree.len mainMaxSyms }
    lengthTree := { s.lengthTree with len := Cells.upward s.lengthTree.len lengthMaxSyms }
    headerRead := s.headerRead && !s.par.rereadHeaderOnReset }

/-- The condition of the reset-interval step (R252). -/
def State.resetDue (s : State) : Bool := s.cfg.resetInterval != 0 && s.frame.toNat % s.cfg.resetInterval == 0

/-- The place after the reset-interval step: the delta filler in delta mode, else the Intel header or the frame size
(R251, R253, R254). -/
def State.frameStart (s : State) : State := s.goto (if s.cfg.isDelta then .filler else s.afterFiller)

/-- "while s.frame < endFrame" (R292), and the reset-interval step of the frame that starts (R252). -/
def seqFrameLoop (s : State) : Answer :=
  if s.frame.toNat < s.endFrame then
    if s.resetDue then
      if s.blockRemaining ≠ 0 then raised s .protocolViolation
      else .next s.resetIntervalClear.frameStart
    else .next s.frameStart
  else .next s.complete

/-- `frameSize()` (R255). -/
def State.frameSize (s : State) : Int :=
  if s.cfg.totalLength ≠ 0 ∧ (s.cfg.totalLength : Int) - s.delivered < frameBytes then
    (s.cfg.totalLength : Int) - s.delivered
  else frameBytes

/-- `fs <- frameSize(); todo <- framePos + fs - windowPos` (R251, R255). -/
def seqFrameOpen (s : State) : Answer :=
  .next { s with fs := s.frameSize, todo := s.framePos + s.frameSize - s.windowPos, phase := .blockLoop }

/-- "while todo > 0" (R251): a header when the block is exhausted (R256), the pad byte before it when due (R181); at the
loop's end the frame-size check (R258). -/
def seqBlockLoop (s : State) : Answer :=
  if 0 < s.todo then
    if s.blockRemaining = 0 then .next (s.goto (if s.padDue then .pad else .blockHead))
    else .next (s.goto .runOpen)
  else if (s.windowPos : Int) - s.framePos ≠ s.fs then raised s .frameSizeMismatch
  else .next (s.goto .align16)

/-- `build(MAIN)` and the E8 test (R185). -/
def State.buildMain (s : State) : Answer :=
  let built := buildTable s.par.earlyReturn .main s.mainTree.len s.mainTree.table
  let s1 := { s with mainTree := { s.mainTree with table := built.1 } }
  if requiredBuilt built.2 then
    .next { s1 with intelStarted := s1.e8Seen, treeSel := .length, phase := .tree }
  else raised s1 .malformedTable

/-- `build(LENGTH)` (R187). -/
def State.buildLength (s : State) : Answer :=
  let built := buildTable s.par.earlyReturn .length s.lengthTree.len s.lengthTree.table
  let s1 := { s with lengthTree := { s.lengthTree with table := built.1 } }
  if lengthBuilt built.2 then .next { s1 with lengthEmpty := built.2 == .empty, phase := .runOpen }
  else raised s1 .malformedTable

/-- The end of a tree transmission (R185). -/
def seqTreeEnd (s : State) : Answer :=
  match s.treeSel with
  | .mainLow => .next { s with treeSel := .mainHigh, phase := .tree }
  | .mainHigh => s.buildMain
  | .length => s.buildLength

/-- `thisRun <- min(blockRemaining, todo)` and the two budgets (R251, R256). -/
def seqRunOpen (s : State) : Answer :=
  let thisRun := min (s.blockRemaining : Int) s.todo
  .next { s with
    thisRun := thisRun
    todo := s.todo - thisRun
    blockRemaining := (s.blockRemaining - thisRun).toNat
    phase := .run }

/-- The end of a run: overrun accounting (R257). -/
def seqRunEnd (s : State) : Answer :=
  if s.thisRun < 0 then
    if (s.blockRemaining : Int) < -s.thisRun then raised s .blockOverrun
    else .next { s with blockRemaining := (s.blockRemaining + s.thisRun).toNat, phase := .blockLoop }
  else .next (s.goto .blockLoop)

/-- `stageFrame(fs)` (R262): the frame's window bytes, filtered when the gate holds (R281), go to the staging buffer; the
cumulative position advances (R285). `none` when a window byte holds no value (R61). -/
def State.stageFrame (s : State) : Option State :=
  (Cells.readRange s.win s.framePos s.fs.toNat).map fun slice =>
    let staged := if s.filterOn then e8Filter (s32 s.intelFileSize) s.intelCurPos slice else slice
    { s with
      stage := Cells.splice s.stage 0 staged
      stageLen := s.fs.toNat
      stagePtr := 0
      intelCurPos := if s.intelFileSize ≠ 0 then s.intelCurPos + s.fs else s.intelCurPos }

/-- A window cursor, wrapped to 0 exactly at `W` (R261). -/
def wrapCursor (windowSize p : Nat) : Nat := if p = windowSize then 0 else p

/-- `advanceFrame(fs)` (R261). -/
def State.advanceFrame (s : State) : State :=
  { s with
    framePos := wrapCursor s.cfg.windowSize ((s.framePos : Int) + s.fs).toNat
    windowPos := wrapCursor s.cfg.windowSize s.windowPos
    frame := s.frame + 1 }

/-- The frame's end: staging check (R259), staging (R262), advance (R261), and the delivery of DECOMPRESS's loop (R292,
R293). A window byte that holds no value raises MatchOutOfBounds (R61). -/
def seqStage (s : State) : Answer :=
  if s.stagePtr ≠ s.stageLen then raised s .protocolViolation
  else
    match s.stageFrame with
    | none => raised s .matchOutOfBounds
    | some s1 =>
      let s2 := s1.advanceFrame
      let k := min s2.want s2.stageLen
      match s2.deliver k with
      | none => .fault .stageNoValue
      | some s3 => .next { s3 with want := s3.want - k, phase := .frameLoop }

/-- The host binds the decoder's input sequence (R342 (2), R76); a second binding is "undefined if a host swaps sources"
(D5; log entry 9). -/
def seqBind (source : List Byte) (s : State) : Answer :=
  if s.present then
    if s.bound then .refused .sourceSwapped
    else .next { s with rd := { s.rd with input := source }, bound := true }
  else .refused .noDecoder

end Sys2Proof.Machine
end

