-- ==== Sys2Proof/Machine/Fetch.lean ====
section
/-! DEFINITION. Finding the next thing to do from the place reached (R49): an element decoded at the input cursor, a host
command, or a sequencing step; and the placing of a table word where the next step reads it. -/

namespace Sys2Proof.Machine

/-- What decoding reads of the state. -/
def State.decodeContext (s : State) : DecodeContext where
  preTree := s.preTree
  mainTree := s.mainTree
  lengthTree := s.lengthTree
  alignedTree := s.alignedTree
  lengthEmpty := s.lengthEmpty
  alignedBlock := s.alignedBlock
  extra3Verbatim := s.par.alignedExtra3 == .verbatim
  header := s.mSym
  runBytes := s.thisRun.toNat

/-- What the next step does: it runs an instruction in the state its reading has left, or it is a sequencing step. -/
inductive Fetched where
  | run (i : Instr) (s : State)
  | sequence (o : Answer)

/-- The fields of an element that were stored before its reading raised an error (R312): the pretree and aligned-tree lengths
are stored one by one (R160, R184), the block type before the length (R182). -/
def State.storeFields (s : State) (fields : List Nat) : State :=
  match s.phase with
  | .tree => { s with preTree := { s.preTree with len := NatArray.setAll s.preTree.len 0 fields } }
  | .alignedLens => { s with alignedTree := { s.alignedTree with len := NatArray.setAll s.alignedTree.len 0 fields } }
  | .blockHead => { s with blockType := match fields with | t :: _ => BitVec.ofNat 3 t | [] => s.blockType }
  | _ => s

/-- The element expected at the place reached. A match header leads to LEN (R99). -/
def fetchElement (s : State) : Fetched :=
  match decodeAt s.phase (!s.coded) s.decodeContext s.rd with
  | .instr i r => .run i (s.withReader r)
  | .header m r => .sequence (.next { s.withReader r with mSym := m, phase := .length })
  | .raise e r fields => .sequence (raised ((s.withReader r).storeFields fields) e)
  | .nothing => .sequence (.next s)

/-- The next host command; with none the block waits (R297; log entry 23). -/
def fetchCommand (s : State) : Fetched :=
  match s.queue with
  | [] => .sequence (.next s)
  | .bind source :: rest => .sequence (seqBind source { s with queue := rest })
  | .init wb ri hint len delta dict :: rest => .run (.init wb ri hint len delta dict) { s with queue := rest }
  | .decompress n :: rest => .run (.decompress n) { s with queue := rest }
  | .oneshot data dict size :: rest => .run (.oneshot data dict size) { s with queue := rest }

/-- The next thing to do. -/
def fetch (s : State) : Fetched :=
  match s.phase with
  | .idle => fetchCommand s
  | .frameLoop => .sequence (seqFrameLoop s)
  | .frameOpen => .sequence (seqFrameOpen s)
  | .blockLoop => .sequence (seqBlockLoop s)
  | .runOpen => .sequence (seqRunOpen s)
  | .stage => .sequence (seqStage s)
  | .items => if s.lenPos < s.rangeEnd then fetchElement s else .sequence (seqTreeEnd s)
  | .run => if 0 < s.thisRun then fetchElement s else .sequence (seqRunEnd s)
  | .filler | .intel | .pad | .blockHead | .alignedLens | .tree | .realign | .rvals | .length | .offset | .ext
  | .align16 => fetchElement s

/-- A state whose next step reads a table word (log entry 20): a block header stands at the input cursor at its place; a
literal's symbol stands in the input of a verbatim run whose main table gives it the codeword `0`; a match symbol is the
header just read, with its length latched, at the place of MATCH in a verbatim block. -/
def placeTableWord (s : State) (nbits w : Nat) : State :=
  if nbits = 16 then
    if w < 256 then
      { s with phase := .run, thisRun := 1, blockType := 1, mainTree := tableWordTree w, rd := zeroReader }
    else 
      { s with
        phase := .offset, blockType := 1, mSym := w, mLen := lengthHeader w + minMatch, rd := zeroReader }
  else { s with phase := .blockHead, rd := tableWordReader w }

end Sys2Proof.Machine
end

