-- ==== Sys2Proof/Safety.lean ====
section
/-! DEFINITION. What counts as a sound state and a sound step, in the terms the claims use: the bits a reader still gives
(R120), the canonical forms, the invariants of 10_state.md, the places of the elements, and what a match copies (R215). -/

namespace Sys2Proof.Machine

/-- The bytes a reader still gives: the rest of the input, then the synthetic zero bytes (R123). -/
def BitReader.restBytes (r : BitReader) : List Byte :=
  r.input.drop r.inPos ++ List.replicate (r.fakeLeft + if r.inputEnd then 0 else 2) 0

/-- The bits of bytes taken two at a time as chunks (R63); a last byte alone makes no chunk. -/
def chunkBits : List Byte → List Bool
  | b0 :: b1 :: rest => fieldBits 16 (chunkOf b0 b1).toNat ++ chunkBits rest
  | _ => []

/-- The valid bits of the accumulator, the next stream bit first (R21). -/
def BitReader.validBits (r : BitReader) : List Bool :=
  fieldBits r.bitsLeft (r.bitBuf.toNat / 2 ^ (32 - r.bitsLeft))

/-- The bits a reader still gives, in stream order (R120). -/
def BitReader.pending (r : BitReader) : List Bool := r.validBits ++ chunkBits r.restBytes

/-- The reader's invariant (R120): at most 32 valid bits, every bit below them 0; at most one synthetic byte is left (R23). -/
abbrev BitReader.wf (r : BitReader) : Prop :=
  r.bitsLeft ≤ 32 ∧ r.bitBuf.toNat % 2 ^ (32 - r.bitsLeft) = 0 ∧ r.fakeLeft ≤ 1

/-- A table's arrays are canonical and no code length exceeds 16 (R33, R148). -/
abbrev Huff.wf (h : Huff) : Prop :=
  NatArray.wf h.len ∧ NatArray.wf h.table ∧ ∀ c ∈ h.len, c.2 ≤ 16

/-- The code space taken by the codes of at most `upTo` bits, in units of `2^-16`: the Kraft sum of R142 and R144 is
`codeSpace t len 16 / 2^16`. -/
def codeSpace (t : Tree) (len : NatArray) (upTo : Nat) : Nat :=
  ((len.filter (fun c => c.1 < maxSyms t && c.2 != 0 && c.2 ≤ upTo)).map (fun c => 2 ^ (16 - c.2))).sum

/-- How many symbols have a code longer than the direct entries hold (R141, R145). -/
def longCodes (t : Tree) (len : NatArray) : Nat :=
  (len.filter (fun c => c.1 < maxSyms t && decide (tableBits t < c.2))).length

/-- The pseudocode of `e8(buf)` as R282 writes it: the buffer is rewritten in place at index `i`, with at most `turns` turns
of the loop left. -/
def e8Loop (fileSize cur0 : Int) : Nat → Nat → List Byte → List Byte
  | 0, _, buf => buf
  | turns + 1, i, buf =>
    if i + e8Tail < buf.length then
      if buf.getD i 0 ≠ 0xE8 then e8Loop fileSize cur0 turns (i + 1) buf
      else
        let a := s32 (BitVec.ofNat 32 ((buf.getD (i + 1) 0).toNat + (buf.getD (i + 2) 0).toNat * 2 ^ 8
          + (buf.getD (i + 3) 0).toNat * 2 ^ 16 + (buf.getD (i + 4) 0).toNat * 2 ^ 24))
        let cur := cur0 + i
        let rel := u32 (if 0 ≤ a then a - cur else a + fileSize)
        let buf1 :=
          if -cur ≤ a ∧ a < fileSize then
            (((buf.set (i + 1) (BitVec.ofNat 8 rel.toNat)).set (i + 2) (BitVec.ofNat 8 (rel.toNat / 2 ^ 8))).set (i + 3)
              (BitVec.ofNat 8 (rel.toNat / 2 ^ 16))).set (i + 4) (BitVec.ofNat 8 (rel.toNat / 2 ^ 24))
          else buf
        e8Loop fileSize cur0 turns (i + 5) buf1
    else buf

/-- The window sizes INIT accepts (R6, R290). -/
abbrev Cfg.legal (c : Cfg) : Prop :=
  (15 ≤ c.windowBits ∧ c.windowBits ≤ 21 ∧ c.isDelta = false)
    ∨ (17 ≤ c.windowBits ∧ c.windowBits ≤ 25 ∧ c.isDelta = true)

/-- The places of a block header, from its pad byte to the opening of the block's run (R181 to R187): the block loop enters
them only while the frame wants bytes (R256). -/
def headerPlace (p : Phase) : Bool :=
  match p with
  | .pad | .blockHead | .alignedLens | .tree | .items | .realign | .rvals | .runOpen => true
  | _ => false

/-- What holds of every state: configuration (R20), bit reader (R120), window and staging buffer (R61, R39), cursors (R24),
tables (R33), block registers (R31, R32), the frame's budget in a block header (R256), and the count of delivered bytes (R28). -/
structure State.Sound (s : State) : Prop where
  cfgLegal    : s.cfg.legal
  dictFits    : s.cfg.refDataSize ≤ s.cfg.windowSize
  reader      : s.rd.wf
  window      : Memory.wf s.win
  windowRange : ∀ c ∈ s.win, c.1 < s.cfg.windowSize
  cursor      : s.windowPos ≤ s.cfg.windowSize
  staging     : Memory.wf s.stage
  stageRange  : ∀ c ∈ s.stage, c.1 < frameBytes
  staged      : s.stagePtr ≤ s.stageLen ∧ s.stageLen ≤ frameBytes
  stagedBytes : ∀ i, i < s.stageLen → (Cells.find s.stage i).isSome
  frameFits   : s.fs ≤ frameBytes
  pre         : s.preTree.wf
  main        : s.mainTree.wf
  length      : s.lengthTree.wf
  aligned     : s.alignedTree.wf
  blockKind   : s.err = none → s.blockType.toNat < 4
  blockBudget : s.blockRemaining ≤ s.blockLength.toNat
  frameWants  : headerPlace s.phase = true → 0 < s.todo
  counted     : s.delivered = s.out.length

/-- The bit accumulator holds no bit or one whole chunk (R22). -/
abbrev State.chunkAligned (s : State) : Prop := s.rd.bitsLeft = 0 ∨ s.rd.bitsLeft = 16

/-- Where the window cursor stands at the places of a frame (R22, R24, R49): at the frame cursor between two frames and up to
the block loop; a frame's size after it once the frame-size check is passed (R258). After an error nothing is claimed. -/
def State.AtBoundary (s : State) : Prop :=
  match s.phase with
  | .idle => s.err = none → s.windowPos = s.framePos ∧ s.windowPos < s.cfg.windowSize ∧ s.chunkAligned
  | .frameLoop => s.windowPos = s.framePos ∧ s.windowPos < s.cfg.windowSize ∧ s.chunkAligned
  | .filler | .intel | .frameOpen => s.windowPos = s.framePos
  | .align16 => (s.windowPos : Int) = s.framePos + s.fs
  | .stage => (s.windowPos : Int) = s.framePos + s.fs ∧ s.chunkAligned
  | _ => True

/-- The frame-boundary invariant: the cursor never leaves `[0, W]` (R24), and stands where R49 says. -/
structure State.Framed (s : State) : Prop where
  cursor   : s.windowPos ≤ s.cfg.windowSize
  boundary : s.AtBoundary

/-- The window, in canonical form, holds its history (R61, R62, R215): every byte below the cursor has been written; the dictionary's tail holds
values; and once more has been output than stands before the current frame, the window has wrapped and is full. -/
structure State.History (s : State) : Prop where
  window     : Memory.wf s.win
  frameStart : s.framePos ≤ s.windowPos
  dictFits   : s.cfg.refDataSize ≤ s.cfg.windowSize
  written    : ∀ a, a < s.windowPos → (Cells.find s.win a).isSome
  dictionary : ∀ a, s.cfg.windowSize - s.cfg.refDataSize ≤ a → a < s.cfg.windowSize → (Cells.find s.win a).isSome
  wrapped    : s.delivered + (s.stageLen - s.stagePtr) ≤ s.framePos
                 ∨ ∀ a, a < s.cfg.windowSize → (Cells.find s.win a).isSome

/-- The place where an instruction stands in the bitstream; a host command stands between commands. -/
def placeOf (i : Instr) : Phase :=
  match i with
  | .filler16 _ => .filler
  | .intelE0 | .intelE1 _ _ => .intel
  | .blockVerbatim _ | .blockAligned _ | .blockUncompressed _ | .blockInvalid0 _ | .blockInvalid4 _ | .blockInvalid5 _
  | .blockInvalid6 _ | .blockInvalid7 _ => .blockHead
  | .pad _ => .pad
  | .realign => .realign
  | .rvals _ _ _ => .rvals
  | .raw _ | .lit _ => .run
  | .alignedLens _ => .alignedLens
  | .tree _ => .tree
  | .delta _ | .zeros4 _ | .zeros20 _ | .same _ _ => .items
  | .matchSlot0 _ | .matchSlot1 _ | .matchSlot2 _ | .matchSlot3Verbatim _ | .matchSlot3Aligned _ | .matchVerbatim _ _ _
  | .matchAlignedShort _ _ _ | .matchAlignedLong _ _ _ _ => .offset
  | .lenShort _ | .lenLong _ => .length
  | .ext0 _ | .ext10 _ | .ext110 _ | .ext111 _ => .ext
  | .align16 => .align16
  | .init _ _ _ _ _ _ | .decompress _ | .oneshot _ _ _ => .idle

/-- The instructions whose encoding is bit fields of fixed widths, no Huffman code (R82 to R84, R86, R88, R98). -/
def fixedFields (i : Instr) : Bool :=
  match i with
  | .filler16 _ | .intelE0 | .intelE1 _ _ | .blockVerbatim _ | .blockAligned _ | .blockUncompressed _ | .blockInvalid0 _
  | .blockInvalid4 _ | .blockInvalid5 _ | .blockInvalid6 _ | .blockInvalid7 _ | .alignedLens _ | .tree _ | .ext0 _ | .ext10 _
  | .ext110 _ | .ext111 _ => true
  | _ => false

/-- A table can read a symbol: it has been built from lengths that fill the code space (R144), and the symbol has a code. -/
def Huff.Decodes (t : Tree) (h : Huff) (sym : Nat) : Prop :=
  h.wf ∧ (∃ early before, NatArray.wf before ∧ buildTable early t h.len before = (h.table, .complete))
    ∧ codeSpace t h.len 16 = 2 ^ 16 ∧ NatArray.get h.len sym ≠ 0

/-- The tables a coded element is read with, in the context it stands in (R88, R90, R93, R100); false of every other
instruction. -/
def CodedIn (c : DecodeContext) (i : Instr) : Prop :=
  match i with
  | .delta z => Huff.Decodes .pre c.preTree z
  | .zeros4 _ => Huff.Decodes .pre c.preTree 17
  | .zeros20 _ => Huff.Decodes .pre c.preTree 18
  | .same _ d => Huff.Decodes .pre c.preTree 19 ∧ Huff.Decodes .pre c.preTree d
  | .lit m => Huff.Decodes .main c.mainTree m.toNat
  | .lenLong lsym => lengthHeader c.header = 7 ∧ c.lengthEmpty = false ∧ Huff.Decodes .length c.lengthTree lsym
  | .matchAlignedLong slot lh _ (some a) =>
    c.header = headerOf slot lh ∧ c.alignedBlock = true ∧ (extraBits slot = 3 → c.extra3Verbatim = false)
      ∧ Huff.Decodes .aligned c.alignedTree a
  | _ => False

/-- A match's LEN or MATCH without a Huffman codeword, in the context it stands in: under its header, in its kind of block
(R93, R100, R204 to R209); false of every other instruction. -/
def UncodedIn (c : DecodeContext) (i : Instr) : Prop :=
  match i with
  | .lenShort lh => lengthHeader c.header = lh
  | .matchSlot0 lh => c.header = headerOf 0 lh
  | .matchSlot1 lh => c.header = headerOf 1 lh
  | .matchSlot2 lh => c.header = headerOf 2 lh
  | .matchSlot3Verbatim lh => c.header = headerOf 3 lh ∧ c.alignedBlock = false
  | .matchSlot3Aligned lh => c.header = headerOf 3 lh ∧ c.alignedBlock = true
  | .matchVerbatim slot lh _ => c.header = headerOf slot lh ∧ c.alignedBlock = false
  | .matchAlignedShort slot lh _ => c.header = headerOf slot lh ∧ c.alignedBlock = true
  | .matchAlignedLong slot lh _ none => c.header = headerOf slot lh ∧ c.alignedBlock = true ∧ c.extra3Verbatim = true
  | _ => False

/-- The length header of a match instruction; `none` for every other instruction. -/
def matchHeader (i : Instr) : Option Nat :=
  match i with
  | .matchSlot0 lh | .matchSlot1 lh | .matchSlot2 lh | .matchSlot3Verbatim lh | .matchSlot3Aligned lh
  | .matchVerbatim _ lh _ | .matchAlignedShort _ lh _ | .matchAlignedLong _ lh _ _ => some lh
  | _ => none

/-- The offset of a match (R204 to R209): a cache value, 1, or `POSITION_BASE(slot) - 2` and the extra-bits value. -/
def matchOffset (i : Instr) (s : State) : Nat :=
  match i with
  | .matchSlot0 _ => s.r0.toNat
  | .matchSlot1 _ => s.r1.toNat
  | .matchSlot2 _ => s.r2.toNat
  | .matchVerbatim slot _ v => positionBase slot - 2 + v
  | .matchAlignedShort slot _ v => positionBase slot - 2 + v
  | .matchAlignedLong slot _ v (some a) => positionBase slot - 2 + (8 * v + a)
  | .matchAlignedLong slot _ v none => positionBase slot - 2 + v
  | _ => 1

/-- The cache a match leaves, `(r0, r1, r2)` (R204 to R207, R210). -/
def matchCache (i : Instr) (s : State) : Word32 × Word32 × Word32 :=
  match i with
  | .matchSlot0 _ => (s.r0, s.r1, s.r2)
  | .matchSlot1 _ => (s.r1, s.r0, s.r2)
  | .matchSlot2 _ => (s.r2, s.r1, s.r0)
  | _ => (BitVec.ofNat 32 (matchOffset i s), s.r0, s.r1)

/-- The state a match's offset part leaves (R200 to R210): its cache, and the locals `off` and `len`. -/
def State.offsetRead (s : State) (i : Instr) (off len : Nat) : State :=
  { s with r0 := (matchCache i s).1, r1 := (matchCache i s).2.1, r2 := (matchCache i s).2.2, mOff := off, mLen := len }

/-- The value an extension prefix adds (R98, R211); `none` for every other instruction. -/
def extensionValue (i : Instr) : Option Nat :=
  match i with
  | .ext0 x => some x.toNat
  | .ext10 x => some (x.toNat + 0x100)
  | .ext110 x => some (x.toNat + 0x500)
  | .ext111 x => some x.toNat
  | _ => none

/-- The window index a match's byte `k` is read from, `(windowPos + k - off) mod W` (R215). -/
def State.sourceIndex (s : State) (off k : Nat) : Nat :=
  ((((s.windowPos + k : Nat) : Int) - (off : Int)) % (s.cfg.windowSize : Int)).toNat

/-- The checks (a) to (d) of a match in the order of R315: the window end (R212), the zero offset (R213), and for an offset
above the cursor the history and the window (R214). -/
def State.OffsetLegal (s : State) (off len : Nat) : Prop :=
  s.windowPos + len ≤ s.cfg.windowSize ∧ off ≠ 0 ∧
    (s.windowPos < off →
      (off ≤ s.delivered ∨ off - s.windowPos ≤ s.cfg.refDataSize) ∧ off - s.windowPos ≤ s.cfg.windowSize)

/-- A match's copy can run: it passes the checks (a) to (d) (R315), and every byte it reads is one the match has written by
then or a window byte that holds a value (R61, R73). -/
def State.CopyRuns (s : State) (off len : Nat) : Prop :=
  s.OffsetLegal off len ∧
    ∀ k, k < len →
      (s.windowPos ≤ s.sourceIndex off k ∧ s.sourceIndex off k < s.windowPos + k)
        ∨ (Cells.find s.win (s.sourceIndex off k)).isSome

/-- `t` is `s` after a match's copy (R215, R200): each byte is the one at its source index as the earlier bytes of the same
match have left it (R73); every other window byte, and every register but the cursor, the run's count and the place, is
unchanged. -/
def State.Copied (s : State) (off len : Nat) (t : State) : Prop :=
  (∀ k, k < len →
      Cells.find t.win (s.windowPos + k) =
        if s.windowPos ≤ s.sourceIndex off k ∧ s.sourceIndex off k < s.windowPos + k then
          Cells.find t.win (s.sourceIndex off k)
        else Cells.find s.win (s.sourceIndex off k))
    ∧ (∀ a, a < s.windowPos ∨ s.windowPos + len ≤ a → Cells.find t.win a = Cells.find s.win a)
    ∧ t = { s with
        win := t.win
        windowPos := s.windowPos + len
        thisRun := s.thisRun - len
        phase := .run }

end Sys2Proof.Machine
end

