-- ==== Sys2Proof/Certificates/Slice0/Obligations.lean ====
section
/-! DEFINITION. The statements for the provers, from the numbered rules of spec/. -/

open Sys2Proof Sys2Proof.Machine

/-! ## Encoding -/

/-- Words decode to the instructions they stand for. The first eleven are table words, numbered as the model's log entry 20
(DESIGN CHOICE) numbers them: block-header types (R84) in bits 2..0, main symbols (R90) as 16-bit words. The rest are input bytes
written out from the spec's encodings: the Intel flag and the header of R127's example, an extension (R98), a filler (R82), the
three values (R87). -/
def Obligations.SpecWordsDecode : Prop :=
  decodeTableWord 8 0 = some (.blockInvalid0 0) ∧ decodeTableWord 8 1 = some (.blockVerbatim 0)
    ∧ decodeTableWord 8 2 = some (.blockAligned 0) ∧ decodeTableWord 8 3 = some (.blockUncompressed 0)
    ∧ decodeTableWord 8 5 = some (.blockInvalid5 0) ∧ decodeTableWord 16 97 = some (.lit 97)
    ∧ decodeTableWord 16 256 = some (.matchSlot0 0) ∧ decodeTableWord 16 265 = some (.matchSlot1 1)
    ∧ decodeTableWord 16 278 = some (.matchSlot2 6) ∧ decodeTableWord 16 287 = some (.matchSlot3Verbatim 7)
    ∧ decodeTableWord 16 291 = some (.matchVerbatim 4 3 0)
    ∧ (decodeAt .intel false {} { input := [0x00, 0x10, 0xf2, 0x00] }).instr? = some .intelE0
    ∧ (decodeAt .blockHead false {} { bitBuf := 0x20000000, bitsLeft := 15, input := [0xf2, 0x00] }).instr?
        = some (.blockVerbatim 15)
    ∧ (decodeAt .ext false {} { input := [0x10, 0x80] }).instr? = some (.ext10 1)
    ∧ (decodeAt .filler false {} { input := [0x34, 0x12] }).instr? = some (.filler16 0x1234)
    ∧ (decodeAt .rvals false {} { input := [7, 0, 0, 0, 8, 1, 0, 0, 9, 0, 0, 0x80] }).instr?
        = some (.rvals 7 0x108 0x80000009)

/-- Every instruction whose encoding is fields of fixed widths decodes from its encoding, at every value of its operands and
whatever the chunk boundaries (R82 to R84, R86, R88, R98). -/
def Obligations.FixedFieldsRoundTrip : Prop :=
  ∀ (i : Instr) (uncompressed : Bool) (c : DecodeContext) (r : BitReader) (b rest : List Bool),
    fixedFields i = true → WellFormed i → r.wf → encode c i = .bits b → r.pending = b ++ rest →
      ∃ r', decodeAt (placeOf i) uncompressed c r = .instr i r' ∧ r'.wf ∧ r'.pending = rest

/-- The elements read as raw bytes (PAD, RVALS, RAW) decode from their bytes, past the bit accumulator (R87, R65, R241). -/
def Obligations.RawBytesRoundTrip : Prop :=
  ∀ (i : Instr) (c : DecodeContext) (r : BitReader) (bytes rest : List Byte),
    WellFormed i → r.wf → encode c i = .bytes bytes → (placeOf i = .run → c.runBytes = bytes.length) →
    r.restBytes = bytes ++ rest →
      ∃ r', decodeAt (placeOf i) true c r = .instr i r' ∧ r'.wf ∧ r'.restBytes = rest
        ∧ r'.bitBuf = r.bitBuf ∧ r'.bitsLeft = r.bitsLeft

/-- A match's short LEN and its offset fields without an aligned symbol decode from their encoding under the match's header
(R93, R99, R100). The slots have the extra bits and the base offsets of R94 to R96: 17 bits and steps of 131072 from slot 36 on,
below it each base twice that of two slots before; the slots of a window size are those of R92, and their offsets end at `W`. -/
def Obligations.OffsetFieldsRoundTrip : Prop :=
  (∀ (i : Instr) (uncompressed : Bool) (c : DecodeContext) (r : BitReader) (b rest : List Bool),
    UncodedIn c i → WellFormed i → r.wf → encode c i = .bits b → r.pending = b ++ rest →
      ∃ r', decodeAt (placeOf i) uncompressed c r = .instr i r' ∧ r'.wf ∧ r'.pending = rest)
  ∧ (∀ slot : Nat, slot < 290 →
      (extraBits slot : Int) = min 17 (max 0 ((slot : Int) / 2 - 1))
      ∧ positionBase (slot + 1) = positionBase slot + 2 ^ extraBits slot
      ∧ (slot < 2 → positionBase slot = slot)
      ∧ (2 ≤ slot → slot < 36 → positionBase slot = (2 + slot % 2) * 2 ^ (slot / 2 - 1))
      ∧ (36 ≤ slot → extraBits slot = 17 ∧ positionBase slot = 262144 + (slot - 36) * 131072))
  ∧ ∀ p ∈ [(15, 30), (16, 32), (17, 34), (18, 36), (19, 38), (20, 42), (21, 50), (22, 66), (23, 98), (24, 162), (25, 290)],
      positionSlots p.1 = p.2 ∧ positionBase p.2 = 2 ^ p.1

/-- A table built from lengths that fill the code space reads back the canonical codeword of every symbol that has one, and
consumes exactly its bits (R144, R89, R146). A decode refills to 16 bits first: with fewer to come it raises
UnexpectedEndOfStream, whatever the table and however short the codeword (R130, R146). -/
def Obligations.CodewordsDecode : Prop :=
  (∀ (t : Tree) (h : Huff) (sym : Nat) (r : BitReader) (rest : List Bool),
    Huff.Decodes t h sym → sym < maxSyms t → r.wf → 16 ≤ r.pending.length → r.pending = codeBits t h sym ++ rest →
      (codeBits t h sym).length = NatArray.get h.len sym
        ∧ ∃ r', readSym t h r = .ok sym r' ∧ r'.wf ∧ r'.pending = rest)
  ∧ ∀ (t : Tree) (h : Huff) (r : BitReader), r.wf → r.pending.length < 16 →
      ∃ r', readSym t h r = .raise .unexpectedEndOfStream r'

/-- Every element with a Huffman codeword decodes from its encoding: the pretree items, the literal, the long LEN and the
aligned offset (R88, R90, R93, R100), the 16 bits after it standing for the refills of R130; and so does every match header
(R90, R99). At each of their places fewer than the 16 bits of a refill raise UnexpectedEndOfStream (R130). -/
def Obligations.CodedElementsRoundTrip : Prop :=
  (∀ (i : Instr) (c : DecodeContext) (r : BitReader) (b rest : List Bool),
    CodedIn c i → WellFormed i → r.wf → encode c i = .bits b → 16 ≤ rest.length → r.pending = b ++ rest →
      ∃ r', decodeAt (placeOf i) false c r = .instr i r' ∧ r'.wf ∧ r'.pending = rest)
  ∧ (∀ (m : Nat) (c : DecodeContext) (r : BitReader) (rest : List Bool), 256 ≤ m → m < 2576 →
      Huff.Decodes .main c.mainTree m → r.wf → 16 ≤ r.pending.length → r.pending = encodeHeader c m ++ rest →
        ∃ r', decodeAt .run false c r = .header m r' ∧ r'.wf ∧ r'.pending = rest)
  ∧ ∀ (c : DecodeContext) (r : BitReader), r.wf →
      (r.pending.length < 16 →
        (∃ r', decodeAt .items false c r = .raise .unexpectedEndOfStream r' [])
        ∧ (∃ r', decodeAt .run false c r = .raise .unexpectedEndOfStream r' [])
        ∧ (c.header % 8 = 7 → c.lengthEmpty = false → ∃ r', decodeAt .length false c r = .raise .unexpectedEndOfStream r' []))
      ∧ (c.alignedBlock = true → 8 ≤ offsetSlot c.header → (extraBits (offsetSlot c.header) = 3 → c.extra3Verbatim = false) →
          r.pending.length < extraBits (offsetSlot c.header) - 3 + 16 →
            ∃ r', decodeAt .offset false c r = .raise .unexpectedEndOfStream r' [])

/-- Whatever the decoder answers is a well-formed instruction: every operand in the range its encoding admits, under a header
that is a main symbol (R84 to R101). -/
def Obligations.DecodedIsWellFormed : Prop :=
  ∀ (p : Phase) (uncompressed : Bool) (c : DecodeContext) (r r' : BitReader) (i : Instr),
    c.header < mainMaxSyms → decodeAt p uncompressed c r = .instr i r' → WellFormed i

/-! ## The bit reader -/

/-- `readBits(k)` answers the next `k` bits of the stream, the first most significant, whatever the chunk boundaries; and it
raises UnexpectedEndOfStream exactly when the reader has fewer; `k = 0` reads nothing (R127, with R63, R64, R124). -/
def Obligations.ReadBitsIsMsbFirst : Prop :=
  ∀ (r : BitReader) (k : Nat), r.wf → k ≤ 17 →
    (k ≤ r.pending.length →
      ∃ v r', r.readBits k = .ok v r' ∧ v < 2 ^ k ∧ fieldBits k v = r.pending.take k ∧ r'.pending = r.pending.drop k ∧ r'.wf)
    ∧ (r.pending.length < k → ∃ r', r.readBits k = .raise .unexpectedEndOfStream r')
    ∧ r.readBits 0 = .ok 0 r

/-- `InByte()`: the next input byte; past the end two synthetic zero bytes; then UnexpectedEndOfStream (R123). A fresh reader
over any input gives exactly its bytes, two zero bytes, and the error. -/
def Obligations.InputEndsInOneZeroChunk : Prop :=
  (∀ r : BitReader,
    (∀ h : r.inPos < r.input.length, r.inByte = .ok r.input[r.inPos] { r with inPos := r.inPos + 1 })
    ∧ (r.input.length ≤ r.inPos → r.fakeLeft = 1 → r.inByte = .ok 0 { r with fakeLeft := 0 })
    ∧ (r.input.length ≤ r.inPos → r.fakeLeft ≠ 1 → r.inputEnd = false →
        r.inByte = .ok 0 { r with inputEnd := true, fakeLeft := 1 })
    ∧ (r.input.length ≤ r.inPos → r.fakeLeft ≠ 1 → r.inputEnd = true → r.inByte = .raise .unexpectedEndOfStream r))
  ∧ ∀ input : List Byte, ∃ r,
      BitReader.readBytes (input.length + 2) { input := input } = .ok (input ++ [0, 0]) r
        ∧ r.inByte = .raise .unexpectedEndOfStream r

/-- ALIGN16: the frame-end realign drops the bits that are not a multiple of 16 and leaves 0 bits when there were none, else
16; it goes on to the staging; it raises UnexpectedEndOfStream when it needs a chunk the input does not give (R128, R260). -/
def Obligations.FrameEndRealigns : Prop :=
  ∀ s : State, s.rd.wf → s.rd.bitsLeft < 32 →
    ((0 < s.rd.bitsLeft → s.rd.bitsLeft < 16 → 2 ≤ s.rd.restBytes.length) →
      ∃ r, exec .align16 s = .next { s with rd := r, phase := .stage } ∧ r.wf
        ∧ r.bitsLeft = (if s.rd.bitsLeft = 0 then 0 else 16) ∧ r.pending = s.rd.pending.drop (s.rd.bitsLeft % 16))
    ∧ (0 < s.rd.bitsLeft → s.rd.bitsLeft < 16 → s.rd.restBytes.length < 2 →
        ∃ r, exec .align16 s = .next ({ s with rd := r }.raise .unexpectedEndOfStream))

/-- REALIGN: the accumulator is emptied; a whole chunk is dropped when it was empty already; no other byte is taken; without
that chunk UnexpectedEndOfStream is raised (R129). -/
def Obligations.RawRealignEmptiesAccumulator : Prop :=
  ∀ s : State, s.rd.wf →
    ((s.rd.bitsLeft = 0 → 2 ≤ s.rd.restBytes.length) →
      ∃ r, exec .realign s = .next { s with rd := r, phase := .rvals } ∧ r.bitsLeft = 0 ∧ r.bitBuf = 0
        ∧ r.restBytes = if s.rd.bitsLeft = 0 then s.rd.restBytes.drop 2 else s.rd.restBytes)
    ∧ (s.rd.bitsLeft = 0 → s.rd.restBytes.length < 2 →
        ∃ r, exec .realign s = .next ({ s with rd := r }.raise .unexpectedEndOfStream))

/-! ## Tables -/

/-- The code space that the lengths take decides how a build ends (R141, R142, R144): none of it taken, empty; filled, complete,
in the main tree when fewer than 2050 codes are long (R145: the other trees never meet the node capacity); over-subscribed, a
failure; and a build overflows only when it is over-subscribed, and is incomplete only in between. Only where the short codes
alone fill it and longer ones follow do R141, which returns complete, and R142 and R144, by which it fails, differ: that is the
model's own parameter `early` (log entry 25, DESIGN CHOICE), and both are stated. -/
def Obligations.KraftDecidesBuild : Prop :=
  ∀ (early : EarlyReturn) (t : Tree) (len before : NatArray), NatArray.wf len → NatArray.wf before → (∀ c ∈ len, c.2 ≤ 16) →
    (codeSpace t len 16 = 0 → (buildTable early t len before).2 = .empty)
    ∧ (codeSpace t len 16 = 2 ^ 16 → (t = .main → longCodes t len < 2050) → (buildTable early t len before).2 = .complete)
    ∧ (2 ^ 16 < codeSpace t len 16 → codeSpace t len (tableBits t) ≠ 2 ^ 16 →
        (buildTable early t len before).2 = .overflow ∨ (buildTable early t len before).2 = .capacity)
    ∧ (2 ^ 16 < codeSpace t len 16 → codeSpace t len (tableBits t) = 2 ^ 16 →
        (buildTable early t len before).2 = if early = .always then .complete else .overflow)
    ∧ match (buildTable early t len before).2 with
      | .complete => codeSpace t len 16 = 2 ^ 16
          ∨ (early = .always ∧ codeSpace t len (tableBits t) = 2 ^ 16 ∧ 2 ^ 16 < codeSpace t len 16)
      | .empty => codeSpace t len 16 = 0
      | .overflow => 2 ^ 16 < codeSpace t len 16
      | .incomplete => 0 < codeSpace t len 16 ∧ codeSpace t len 16 < 2 ^ 16
      | .capacity => 0 < codeSpace t len 16

/-- A table without a code is legal only for the length tree, which it marks empty; the pretree, the aligned tree and the main
tree raise MalformedTable (R143, R187). -/
def Obligations.OnlyTheLengthTreeMayBeEmpty : Prop :=
  ∀ s : State, s.preTree.wf → s.alignedTree.wf → s.mainTree.wf → s.lengthTree.wf →
    (∃ t, exec (.tree (List.replicate 20 0)) s = .next t ∧ t.err = some .malformedTable ∧ t.phase = .idle)
    ∧ (∃ t, exec (.alignedLens (List.replicate 8 0)) s = .next t ∧ t.err = some .malformedTable ∧ t.phase = .idle)
    ∧ ((∀ sym, sym < mainMaxSyms → NatArray.get s.mainTree.len sym = 0) →
        ∃ t, s.buildMain = .next t ∧ t.err = some .malformedTable ∧ t.phase = .idle)
    ∧ ((∀ sym, sym < lengthMaxSyms → NatArray.get s.lengthTree.len sym = 0) →
        ∃ t, s.buildLength = .next t ∧ t.lengthEmpty = true ∧ t.err = s.err ∧ t.phase = .runOpen)

/-- TREE and ALIGNEDLENS store their lengths, symbol 0 first, and build their table; a complete table goes on, any other
raises MalformedTable with the lengths stored (R161, R184, R143). -/
def Obligations.TableHeadersBuild : Prop :=
  ∀ (s : State) (pre ali : List Nat), s.preTree.wf → s.alignedTree.wf → pre.length = 20 → ali.length = 8 →
    let preLen := NatArray.setAll s.preTree.len 0 pre
    let aliLen := NatArray.setAll s.alignedTree.len 0 ali
    let preBuilt := buildTable s.par.earlyReturn .pre preLen s.preTree.table
    let aliBuilt := buildTable s.par.earlyReturn .aligned aliLen s.alignedTree.table
    (∀ sym, sym < 20 → NatArray.get preLen sym = pre.getD sym 0)
    ∧ (∀ sym, sym < 8 → NatArray.get aliLen sym = ali.getD sym 0)
    ∧ (preBuilt.2 = .complete → exec (.tree pre) s = .next { s with
        preTree := { len := preLen, table := preBuilt.1 }
        lenPos := if s.treeSel = .mainHigh then 256 else 0
        phase := .items })
    ∧ (preBuilt.2 ≠ .complete → exec (.tree pre) s =
        .next ({ s with preTree := { len := preLen, table := preBuilt.1 } }.raise .malformedTable))
    ∧ (aliBuilt.2 = .complete → exec (.alignedLens ali) s = .next { s with
        alignedTree := { len := aliLen, table := aliBuilt.1 }
        treeSel := .mainLow
        phase := .tree })
    ∧ (aliBuilt.2 ≠ .complete → exec (.alignedLens ali) s =
        .next ({ s with alignedTree := { len := aliLen, table := aliBuilt.1 } }.raise .malformedTable))

/-- DELTA: `A[x] <- (A[x] - z) mod 17; x <- x + 1`; every other entry and register is unchanged (R164). -/
def Obligations.DeltaSubtractsModulo17 : Prop :=
  ∀ (s : State) (z : Nat), NatArray.wf s.lenArray → z ≤ 16 → s.lenPos < s.rangeEnd →
      ∃ a, exec (.delta z) s = .next { s.withLenArray a with lenPos := s.lenPos + 1, phase := .items }
        ∧ NatArray.get a s.lenPos ≤ 16
        ∧ (NatArray.get a s.lenPos + z) % 17 = NatArray.get s.lenArray s.lenPos % 17
        ∧ ∀ x, x ≠ s.lenPos → NatArray.get a x = NatArray.get s.lenArray x

/-- ZEROS4 and ZEROS20: runs of `f + 4` and `f + 20` absolute zeros, written in full even past `last` (R162, R163, R166);
with `P_LEN_OVERRUN = fault`, where they do not pass it (D9). -/
def Obligations.ZeroRunsWriteZeros : Prop :=
  ∀ (s : State) (f : Nat), NatArray.wf s.lenArray →
    (f < 16 → (s.par.lenOverrun = .fault → s.lenPos + (f + 4) ≤ s.rangeEnd) →
      ∃ a, exec (.zeros4 f) s = .next { s.withLenArray a with lenPos := s.lenPos + (f + 4), phase := .items }
        ∧ ∀ x, NatArray.get a x = if s.lenPos ≤ x ∧ x < s.lenPos + (f + 4) then 0 else NatArray.get s.lenArray x)
    ∧ (f < 32 → (s.par.lenOverrun = .fault → s.lenPos + (f + 20) ≤ s.rangeEnd) →
      ∃ a, exec (.zeros20 f) s = .next { s.withLenArray a with lenPos := s.lenPos + (f + 20), phase := .items }
        ∧ ∀ x, NatArray.get a x = if s.lenPos ≤ x ∧ x < s.lenPos + (f + 20) then 0 else NatArray.get s.lenArray x)

/-- SAME: a run of `r + 4` times the one value `(A[x] - d) mod 17` of its first position, `d` in 0..19, in full even past
`last` (R165, R166); with `P_LEN_OVERRUN = fault`, where it does not pass it (D9). -/
def Obligations.SameRunRepeatsOneValue : Prop :=
  ∀ (s : State) (r d : Nat), NatArray.wf s.lenArray → r < 2 → d < 20 →
    (s.par.lenOverrun = .fault → s.lenPos + (r + 4) ≤ s.rangeEnd) →
    ∃ (a : NatArray) (v : Nat), exec (.same r d) s = .next { s.withLenArray a with lenPos := s.lenPos + (r + 4), phase := .items }
      ∧ v ≤ 16 ∧ ((v : Int) - (NatArray.get s.lenArray s.lenPos - d)) % 17 = 0
      ∧ ∀ x, NatArray.get a x = if s.lenPos ≤ x ∧ x < s.lenPos + (r + 4) then v else NatArray.get s.lenArray x

/-- With `P_LEN_OVERRUN = fault` a run that passes `last` raises MalformedTable (R166, D9). That it does so at the first write past
`last`, after the writes before it (zeros, or SAME's one value), is the model's reading of R312 (log entry 26, DEDUCED). -/
def Obligations.OverrunFaultsAtTheFirstWritePast : Prop :=
  ∀ (s : State) (i : Instr) (y : Nat), NatArray.wf s.lenArray → s.par.lenOverrun = .fault → s.lenPos < s.rangeEnd →
    s.rangeEnd < s.lenPos + y →
    (∃ f, f < 16 ∧ i = .zeros4 f ∧ y = f + 4) ∨ (∃ f, f < 32 ∧ i = .zeros20 f ∧ y = f + 20)
      ∨ (∃ r d, r < 2 ∧ d < 20 ∧ i = .same r d ∧ y = r + 4) →
      ∃ (a : NatArray) (v : Nat), exec i s = .next ({ s.withLenArray a with lenPos := s.rangeEnd }.raise .malformedTable)
        ∧ (∀ x, NatArray.get a x = if s.lenPos ≤ x ∧ x < s.rangeEnd then v else NatArray.get s.lenArray x)
        ∧ (∀ r d, i = .same r d → v ≤ 16 ∧ ((v : Int) - (NatArray.get s.lenArray s.lenPos - d)) % 17 = 0)
        ∧ ((∀ r d, i ≠ .same r d) → v = 0)

/-! ## Frame and block elements -/

/-- FILLER16 discards its bits; INTEL sets the hint to 0, or to `(hi << 16) | lo` kept as 32 bits, and the header counts as
read (R253, R254). Nothing else changes. -/
def Obligations.FramePrefixElements : Prop :=
  ∀ (s : State) (f hi lo : BitVec 16),
    exec (.filler16 f) s = .next { s with phase := if s.headerRead = true then .frameOpen else .intel }
    ∧ exec .intelE0 s = .next { s with intelFileSize := 0, headerRead := true, phase := .frameOpen }
    ∧ ∃ hint : Word32, hint.toNat = hi.toNat * 2 ^ 16 + lo.toNat
        ∧ exec (.intelE1 hi lo) s = .next { s with intelFileSize := hint, headerRead := true, phase := .frameOpen }

/-- BLOCK of a valid type: type, length and remaining count are set; the trees follow, or the aligned lengths, or the realign,
with the E8 filter armed (R182, R184 to R186). -/
def Obligations.BlockHeadersOpenTheBlock : Prop :=
  ∀ (s : State) (len : BitVec 24),
    exec (.blockVerbatim len) s = .next { s with
      blockType := 1, blockLength := len, blockRemaining := len.toNat, treeSel := .mainLow, phase := .tree }
    ∧ exec (.blockAligned len) s = .next { s with
      blockType := 2, blockLength := len, blockRemaining := len.toNat, phase := .alignedLens }
    ∧ exec (.blockUncompressed len) s = .next { s with
      blockType := 3, blockLength := len, blockRemaining := len.toNat, intelStarted := true, phase := .realign }

/-- A block header of type 0, 4, 5, 6 or 7 raises ProtocolViolation after its 27 bits: they are consumed, and nothing after
them is; the block registers hold what was read (R183, R312). -/
def Obligations.InvalidBlockTypesRaise : Prop :=
  ∀ (s : State) (len : BitVec 24),
    (∀ p ∈ [(Instr.blockInvalid0 len, (0 : BitVec 3)), (.blockInvalid4 len, 4), (.blockInvalid5 len, 5),
        (.blockInvalid6 len, 6), (.blockInvalid7 len, 7)],
      exec p.1 s = .next { s with
        blockType := p.2, blockLength := len, blockRemaining := len.toNat
        err := some .protocolViolation, results := s.results ++ [.error .protocolViolation]
        phase := .idle, oneshot := false })
    ∧ ∀ (t : Nat) (rest : List Bool), t ∈ [0, 4, 5, 6, 7] → s.rd.wf → s.phase = .blockHead →
        s.rd.pending = fieldBits 3 t ++ fieldBits 24 len.toNat ++ rest →
          ∃ r, r.pending = rest ∧ step s = .next { s with
            rd := r, blockType := BitVec.ofNat 3 t, blockLength := len, blockRemaining := len.toNat
            err := some .protocolViolation, results := s.results ++ [.error .protocolViolation]
            phase := .idle, oneshot := false }

/-- PAD: before a new header one byte is taken exactly when the previous block was uncompressed with an odd length; its value
is discarded (R181, R244). -/
def Obligations.PadByteOnlyAfterOddRawBlock : Prop :=
  (∀ (s : State) (p : Byte), exec (.pad p) s = .next { s with phase := .blockHead })
    ∧ (∀ s : State, s.phase = .blockLoop → 0 < s.todo → s.blockRemaining = 0 →
        step s = .next { s with
          phase := if s.blockType = 3 ∧ s.blockLength.toNat % 2 = 1 then .pad else .blockHead })
    ∧ ∀ (s : State) (b : Byte) (rest : List Byte), s.phase = .pad → s.rd.wf → s.rd.restBytes = b :: rest →
        ∃ r, r.restBytes = rest ∧ r.bitBuf = s.rd.bitBuf ∧ r.bitsLeft = s.rd.bitsLeft
          ∧ step s = .next { s with rd := r, phase := .blockHead }

/-- RVALS: the cache is loaded from twelve bytes, three little-endian values, unvalidated; nothing else changes (R186, R65). -/
def Obligations.RawHeaderLoadsTheCache : Prop :=
  (∀ (s : State) (v0 v1 v2 : Word32),
    exec (.rvals v0 v1 v2) s = .next { s with r0 := v0, r1 := v1, r2 := v2, phase := .runOpen })
  ∧ ∀ (s : State) (b0 b1 b2 b3 b4 b5 b6 b7 b8 b9 b10 b11 : Byte) (rest : List Byte), s.phase = .rvals → s.rd.wf →
      s.rd.restBytes = b0 :: b1 :: b2 :: b3 :: b4 :: b5 :: b6 :: b7 :: b8 :: b9 :: b10 :: b11 :: rest →
        ∃ (r : BitReader) (v0 v1 v2 : Word32), step s = .next { s with rd := r, r0 := v0, r1 := v1, r2 := v2, phase := .runOpen }
          ∧ r.restBytes = rest
          ∧ v0.toNat = b0.toNat + b1.toNat * 2 ^ 8 + b2.toNat * 2 ^ 16 + b3.toNat * 2 ^ 24
          ∧ v1.toNat = b4.toNat + b5.toNat * 2 ^ 8 + b6.toNat * 2 ^ 16 + b7.toNat * 2 ^ 24
          ∧ v2.toNat = b8.toNat + b9.toNat * 2 ^ 8 + b10.toNat * 2 ^ 16 + b11.toNat * 2 ^ 24

/-- LIT: the byte is stored at the window cursor, which advances; no other window byte changes, nor any register but the run's
count and the place (R201). -/
def Obligations.LiteralWritesOneByte : Prop :=
  ∀ (s : State) (m : Byte), Memory.wf s.win → s.windowPos < s.cfg.windowSize →
    ∃ win, exec (.lit m) s = .next { s with
        win := win, windowPos := s.windowPos + 1, thisRun := s.thisRun - 1, phase := .run }
      ∧ ∀ a, Cells.find win a = if a = s.windowPos then some m else Cells.find s.win a

/-- RAW: the bytes are stored in order from the window cursor on; no other window byte changes, nor any register but the
cursor, the run's count and the place (R241). A run that the input ends in stores the bytes still given, and the step after
that raises UnexpectedEndOfStream (R241, R123); that these are two steps is log entry 16. -/
def Obligations.RawWritesItsBytes : Prop :=
  (∀ (s : State) (bytes : List Byte), Memory.wf s.win → s.windowPos + bytes.length ≤ s.cfg.windowSize →
    ∃ win, exec (.raw bytes) s = .next { s with
        win := win, windowPos := s.windowPos + bytes.length, thisRun := s.thisRun - bytes.length, phase := .run }
      ∧ ∀ a, Cells.find win a =
          if s.windowPos ≤ a ∧ a < s.windowPos + bytes.length then bytes[a - s.windowPos]? else Cells.find s.win a)
  ∧ ∀ s : State, s.phase = .run → s.coded = false → s.rd.wf → (s.rd.restBytes.length : Int) < s.thisRun → Memory.wf s.win →
      s.windowPos + s.rd.restBytes.length ≤ s.cfg.windowSize →
      (s.rd.restBytes ≠ [] → ∃ r win, r.restBytes = [] ∧ r.wf ∧ step s = .next { s with
          rd := r, win := win, windowPos := s.windowPos + s.rd.restBytes.length
          thisRun := s.thisRun - s.rd.restBytes.length, phase := .run }
        ∧ ∀ a, Cells.find win a = if s.windowPos ≤ a ∧ a < s.windowPos + s.rd.restBytes.length then
            s.rd.restBytes[a - s.windowPos]? else Cells.find s.win a)
      ∧ (s.rd.restBytes = [] → step s = .next (s.raise .unexpectedEndOfStream))

/-- LIT and RAW stop in the fault windowIndex when they would store at an index outside `[0, W)`, which "does not occur"
(R61); the fault is the model's choice (log entry 6). -/
def Obligations.WritesOutsideTheWindowFault : Prop :=
  ∀ (s : State) (m : Byte) (bytes : List Byte),
    (s.cfg.windowSize ≤ s.windowPos → exec (.lit m) s = .fault .windowIndex)
    ∧ (s.cfg.windowSize < s.windowPos + bytes.length → exec (.raw bytes) s = .fault .windowIndex)

/-! ## Literals and matches -/

/-- LEN: header 0..6 gives the length 2..8; header 7 gives `7 + lsym + 2`, or raises ProtocolViolation while the length tree
is empty, before any bit of the symbol is read (R202). -/
def Obligations.LengthHeaderGivesTheLength : Prop :=
  ∀ (s : State) (lh lsym : Nat),
    exec (.lenShort lh) s = .next { s with mLen := lh + 2, phase := .offset }
    ∧ (s.lengthEmpty = false → exec (.lenLong lsym) s = .next { s with mLen := 7 + lsym + 2, phase := .offset })
    ∧ (s.lengthEmpty = true → exec (.lenLong lsym) s = .next (s.raise .protocolViolation))
    ∧ (s.lengthEmpty = true → s.phase = .length → s.mSym % 8 = 7 → step s = .next (s.raise .protocolViolation))

/-- Every match form completes when its copy can run: the offset and the cache are those of its slot, the bytes are copied
forward one by one, and nothing else changes (R204 to R210, R215). -/
def Obligations.MatchesCopy : Prop :=
  ∀ (i : Instr) (s : State) (lh len : Nat), WellFormed i → matchHeader i = some lh →
    len = (if lh = 7 then s.mLen else lh + 2) → ¬ (len = 257 ∧ s.cfg.isDelta = true) → s.CopyRuns (matchOffset i s) len →
      ∃ t, exec i s = .next t ∧ (s.offsetRead i (matchOffset i s) len).Copied (matchOffset i s) len t

/-- A match of length 257 in delta mode waits for its extension: cache, offset and length are set, and nothing is copied
yet (R211, R99). -/
def Obligations.LongDeltaMatchesAwaitTheirExtension : Prop :=
  ∀ (i : Instr) (s : State) (lh : Nat), WellFormed i → matchHeader i = some lh → lh = 7 → s.mLen = 257 →
    s.cfg.isDelta = true → exec i s = .next { s.offsetRead i (matchOffset i s) 257 with phase := .ext }

/-- EXT adds its field and bias to the length and copies the match with the offset resolved before; nothing else changes
(R211, R215). -/
def Obligations.ExtensionLengthensTheMatch : Prop :=
  ∀ (i : Instr) (s : State) (x : Nat), extensionValue i = some x → s.CopyRuns s.mOff (s.mLen + x) →
    ∃ t, exec i s = .next t ∧ { s with mLen := s.mLen + x }.Copied s.mOff (s.mLen + x) t

/-- A match, or a match with its extension, that would write past the window's end, has offset 0, or reaches before the
history and the dictionary or beyond the window raises MatchOutOfBounds, and no byte of it is written; its cache update
stays (R212 to R214, R312). -/
def Obligations.MatchChecksRaiseBeforeWriting : Prop :=
  ∀ (i : Instr) (s : State) (len off : Nat),
    (s.cfg.windowSize < s.windowPos + len ∨ off = 0
      ∨ (s.windowPos < off ∧ s.delivered < off ∧ s.cfg.refDataSize < off - s.windowPos)
      ∨ (s.windowPos < off ∧ s.cfg.windowSize < off - s.windowPos)) →
      (∀ lh, WellFormed i → matchHeader i = some lh → off = matchOffset i s →
        len = (if lh = 7 then s.mLen else lh + 2) → ¬ (len = 257 ∧ s.cfg.isDelta = true) →
          exec i s = .next ((s.offsetRead i off len).raise .matchOutOfBounds))
      ∧ (∀ x, extensionValue i = some x → off = s.mOff → len = s.mLen + x →
          exec i s = .next ({ s with mLen := len }.raise .matchOutOfBounds))

/-- After any match the cache holds the used offset as `r0`: no instruction of the match rows answers a state in which
`r0` is not `off` (R217). -/
def Obligations.UsedOffsetBecomesR0 : Prop :=
  ∀ (i : Instr) (s t : State), WellFormed i → matchHeader i ≠ none → exec i s = .next t →
    t.r0.toNat = matchOffset i s ∧ t.mOff = matchOffset i s

/-- Where the window holds its history, an accepted match always copies: its checks leave no byte without a value to be read
(R215, R214, R62), so that every match form whose offset passes them completes. -/
def Obligations.AcceptedMatchesReadOnlyHistory : Prop :=
  (∀ (s : State) (off len : Nat), s.History → s.OffsetLegal off len → s.CopyRuns off len)
  ∧ ∀ (i : Instr) (s : State) (lh len : Nat), WellFormed i → matchHeader i = some lh →
      len = (if lh = 7 then s.mLen else lh + 2) → ¬ (len = 257 ∧ s.cfg.isDelta = true) → s.History →
      s.OffsetLegal (matchOffset i s) len →
        ∃ t, exec i s = .next t ∧ (s.offsetRead i (matchOffset i s) len).Copied (matchOffset i s) len t

/-! ## The host commands -/

/-- INIT with legal operands makes the initial decoder of R340 over the given configuration: the dictionary in the window's
tail and no other window byte, every register at its initial value; the parameters, the queue and the earlier return
values stay (R290, R291, R340). What the spec leaves open here is the model's choice: tables and lengths that R340 gives no value
(log entry 3), the decoder before it replaced (7), no source bound yet (9), OUT empty (10), the locals 0 (18). -/
def Obligations.InitMakesTheInitialDecoder : Prop :=
  ∀ (s : State) (wb ri hint len : Int) (delta : Bool) (dict : Option (List Byte)),
    (delta = false → 15 ≤ wb ∧ wb ≤ 21) → (delta = true → 17 ≤ wb ∧ wb ≤ 25) → 0 ≤ ri → 0 ≤ len → 1 ≤ hint →
    (dict ≠ none → delta = false → s.par.dictNonDelta = .accept) → (dict.getD []).length ≤ 2 ^ wb.toNat →
      ∃ win, exec (.init wb ri hint len delta dict) s = .next { State.reset with
          par := s.par
          cfg := {
            windowBits := wb.toNat, resetInterval := ri.toNat, totalLength := len.toNat, isDelta := delta
            refDataSize := (dict.getD []).length, inputBufferHint := hint.toNat }
          win := win
          present := true
          queue := s.queue
          results := s.results ++ [.ok] }
        ∧ ∀ a, Cells.find win a =
            if 2 ^ wb.toNat - (dict.getD []).length ≤ a then (dict.getD [])[a - (2 ^ wb.toNat - (dict.getD []).length)]?
            else none

/-- INIT with an illegal operand returns ConfigurationError, creates no decoder and latches nothing (R290, R311, R312). -/
def Obligations.InitRefusesIllegalOperands : Prop :=
  ∀ (s : State) (wb ri hint len : Int) (delta : Bool) (dict : Option (List Byte)),
    ((delta = false ∧ ¬ (15 ≤ wb ∧ wb ≤ 21)) ∨ (delta = true ∧ ¬ (17 ≤ wb ∧ wb ≤ 25)) ∨ ri < 0 ∨ len < 0 ∨ hint < 1
      ∨ (dict ≠ none ∧ delta = false ∧ s.par.dictNonDelta = .refuse) ∨ 2 ^ wb.toNat < (dict.getD []).length) →
      exec (.init wb ri hint len delta dict) s = .next { s with results := s.results ++ [.error .configurationError] }

/-- After any error of a DECOMPRESS, at once or in a later step, the latch holds its kind; and a latched error answers every
DECOMPRESS, without reading input or delivering output (R295). -/
def Obligations.LatchedErrorsAnswerEveryDecompress : Prop :=
  (∀ (s : State) (n : Int) (e : ErrKind), s.present = true → s.err = some e →
    exec (.decompress n) s = .next { s with results := s.results ++ [.error e] })
  ∧ (∀ (s t : State) (n : Int) (e : ErrKind), exec (.decompress n) s = .next t → t.results = s.results ++ [.error e] →
      t.err = some e)
  ∧ (∀ (s t : State) (e : ErrKind), s.phase ≠ .idle → step s = .next t → t.results = s.results ++ [.error e] →
      t.err = some e)

/-- DECOMPRESS refuses a negative count, then a request beyond the declared length, before it reads or delivers anything
(R292, R294, R319); with `P_UNDECLARED_LENGTH = zero-is-zero` a length of 0 is declared too, and every positive count is beyond
it (D18). -/
def Obligations.DecompressChecksItsRequest : Prop :=
  ∀ (s : State) (n : Int), s.present = true → s.err = none →
    (n < 0 → exec (.decompress n) s = .next (s.raise .configurationError))
    ∧ (0 ≤ n → (s.cfg.totalLength ≠ 0 ∨ s.par.undeclaredLength = .zeroIsZero) →
        (s.cfg.totalLength : Int) < s.delivered + n →
          exec (.decompress n) s = .next (s.raise .unexpectedEndOfStream))
    ∧ (0 < n → s.cfg.totalLength = 0 → s.par.undeclaredLength = .zeroIsZero →
        exec (.decompress n) s = .next (s.raise .unexpectedEndOfStream))

/-- DECOMPRESS first delivers what is staged, in order; a request that it satisfies returns `Ok`; a larger one goes on to the
frame loop with the rest still wanted and the end frame of its formula (R292, R293); with an undeclared length, or within the
declared one, whatever `P_UNDECLARED_LENGTH` is (D18). -/
def Obligations.DecompressDeliversStagedBytesFirst : Prop :=
  ∀ (s : State) (n k : Nat) (bytes : List Byte), s.present = true → s.err = none → s.oneshot = false →
    Memory.wf s.stage →
    (s.cfg.totalLength = 0 ∧ s.par.undeclaredLength = .zeroMeansUndeclared ∨ s.delivered + n ≤ s.cfg.totalLength) →
    k = min (s.stageLen - s.stagePtr) n → bytes.length = k →
    (∀ j, j < k → Cells.find s.stage (s.stagePtr + j) = bytes[j]?) →
      (k = n → exec (.decompress n) s = .next { s with
        out := s.out ++ bytes, stagePtr := s.stagePtr + k, delivered := s.delivered + k
        results := s.results ++ [.ok], phase := .idle })
      ∧ (k < n → exec (.decompress n) s = .next { s with
        out := s.out ++ bytes, stagePtr := s.stagePtr + k, delivered := s.delivered + k, want := n - k
        endFrame := match s.par.frameLookahead with
          | .upstream => (s.delivered + n) / 32768 + 1
          | .exact => (s.delivered + n + 32767) / 32768
        phase := .frameLoop })

/-- ONESHOT makes its own decoder over the data, with reset interval 0 and hint 1, and turns to decode `size` bytes; with size
0 it returns the empty output at once; operands that INIT refuses return ConfigurationError (R296, R290). The window
size and the delta flag are the parameters of D41 (log entry 13). That the host holds no decoder afterwards, and that a decoder
before it ends, is the model's choice (log entry 11, DESIGN CHOICE). -/
def Obligations.OneshotInitialisesAndDecodes : Prop :=
  ∀ (s : State) (data : List Byte) (dict : Option (List Byte)) (size : Int),
    let wb := s.par.oneshotWindowBits
    let delta := s.par.oneshotDelta.getD dict.isSome
    let fresh := { s.newDecoder wb 0 1 size delta dict with rd := { input := data }, present := false }
    (initRefused s.par wb 0 1 size delta dict = true →
      exec (.oneshot data dict size) s = .next { s with results := s.results ++ [.error .configurationError] })
    ∧ (initRefused s.par wb 0 1 size delta dict = false → size = 0 →
      exec (.oneshot data dict size) s = .next { fresh with results := s.results ++ [.bytes []] })
    ∧ (initRefused s.par wb 0 1 size delta dict = false → 0 < size →
      exec (.oneshot data dict size) s = .next { fresh with
        oneshot := true
        want := size.toNat
        endFrame := match s.par.frameLookahead with
          | .upstream => size.toNat / 32768 + 1
          | .exact => (size.toNat + 32767) / 32768
        phase := .frameLoop })

/-- DECOMPRESS without a decoder, and a binding of the source without a decoder or a second time, are refused; the first
binding gives the decoder its input (R342, R76). The refusals are the model's choice (log entries 8 and 9). -/
def Obligations.TheHostNeedsADecoderAndOneSource : Prop :=
  ∀ (s : State) (n : Int) (source : List Byte) (rest : List HostCmd),
    (s.present = false → exec (.decompress n) s = .refused .noDecoder)
    ∧ (s.phase = .idle → s.queue = .bind source :: rest →
        (s.present = false → step s = .refused .noDecoder)
        ∧ (s.present = true → s.bound = true → step s = .refused .sourceSwapped)
        ∧ (s.present = true → s.bound = false →
            step s = .next { s with rd := { s.rd with input := source }, bound := true, queue := rest }))

/-! ## Frame and block sequencing -/

/-- At the start of a frame, every `resetInterval`-th one: a pending block raises ProtocolViolation; else the caches, the block
registers and the persistent lengths are cleared, and nothing else is (R252, R350, R351). -/
def Obligations.ResetIntervalClearsTheTrees : Prop :=
  ∀ s : State, s.phase = .frameLoop → s.frame.toNat < s.endFrame → s.cfg.resetInterval ≠ 0 →
    s.frame.toNat % s.cfg.resetInterval = 0 → NatArray.wf s.mainTree.len → NatArray.wf s.lengthTree.len →
      (s.blockRemaining ≠ 0 → step s = .next (s.raise .protocolViolation))
      ∧ (s.blockRemaining = 0 → ∃ mainLen lengthLen headerRead phase, step s = .next { s with
          r0 := 1, r1 := 1, r2 := 1, blockType := 0, blockLength := 0, blockRemaining := 0
          mainTree := { s.mainTree with len := mainLen }
          lengthTree := { s.lengthTree with len := lengthLen }
          headerRead := headerRead
          phase := phase }
        ∧ (∀ x, NatArray.get mainLen x = if x < 2576 then 0 else NatArray.get s.mainTree.len x)
        ∧ (∀ x, NatArray.get lengthLen x = if x < 250 then 0 else NatArray.get s.lengthTree.len x)
        ∧ (s.par.rereadHeaderOnReset = false → headerRead = s.headerRead)
        ∧ (s.par.rereadHeaderOnReset = true → headerRead = false)
        ∧ phase = (if s.cfg.isDelta = true then .filler else if headerRead = true then .frameOpen else .intel))

/-- A frame starts only while `frame < endFrame`: without a reset it turns to the delta filler, the Intel header or the frame
size; else the command returns `Ok`, or ONESHOT its output (R251, R292, R296). -/
def Obligations.FramesRunUntilTheEndFrame : Prop :=
  ∀ s : State, s.phase = .frameLoop →
    (s.endFrame ≤ s.frame.toNat → step s = .next { s with
      results := s.results ++ [if s.oneshot = true then .bytes s.out else .ok], phase := .idle, oneshot := false })
    ∧ (s.frame.toNat < s.endFrame → (s.cfg.resetInterval = 0 ∨ s.frame.toNat % s.cfg.resetInterval ≠ 0) →
        step s = .next { s with
          phase := if s.cfg.isDelta = true then .filler else if s.headerRead = true then .frameOpen else .intel })

/-- The frame size is 32768, or what is left of a declared length when that is less; the frame's budget is what it lacks
(R255, R251). -/
def Obligations.FrameSizeIsBoundedByTheLength : Prop :=
  ∀ s : State, s.phase = .frameOpen → ∃ fs : Int,
    step s = .next { s with fs := fs, todo := s.framePos + fs - s.windowPos, phase := .blockLoop }
    ∧ (s.cfg.totalLength = 0 → fs = 32768)
    ∧ (s.cfg.totalLength ≠ 0 → fs = min 32768 ((s.cfg.totalLength : Int) - s.delivered))

/-- The run's budget is the least of the block's and the frame's, taken off both; a run that ends has its overrun charged to
the block, or raises BlockOverrun when it exceeds what remains (R256, R257). -/
def Obligations.RunsAreChargedToBlockAndFrame : Prop :=
  (∀ s : State, s.phase = .runOpen → 0 ≤ s.todo → ∃ k : Nat, (k : Int) = min (s.blockRemaining : Int) s.todo
    ∧ step s = .next { s with
        thisRun := k, todo := s.todo - k, blockRemaining := s.blockRemaining - k, phase := .run })
  ∧ (∀ (s : State) (excess : Nat), s.phase = .run → s.thisRun = -(excess : Int) →
      (excess ≤ s.blockRemaining →
        step s = .next { s with blockRemaining := s.blockRemaining - excess, phase := .blockLoop })
      ∧ (s.blockRemaining < excess → step s = .next (s.raise .blockOverrun)))

/-- The block loop ends with the frame-size check: FrameSizeMismatch when the frame did not get exactly its bytes, else the
realign follows (R258, R317); until then a block in progress goes on without a header (R256). -/
def Obligations.FrameMustGetExactlyItsBytes : Prop :=
  ∀ s : State, s.phase = .blockLoop →
    (s.todo ≤ 0 → (s.windowPos : Int) - s.framePos ≠ s.fs → step s = .next (s.raise .frameSizeMismatch))
    ∧ (s.todo ≤ 0 → (s.windowPos : Int) - s.framePos = s.fs → step s = .next { s with phase := .align16 })
    ∧ (0 < s.todo → s.blockRemaining ≠ 0 → step s = .next { s with phase := .runOpen })

/-- The transmissions of a block end at 256, at `256 + 8 * POSITION_SLOTS(windowBits)` and at 249 (R85, R90, R92); at each end: the
second main range, then the main table, whose code for literal 0xE8 arms the E8 filter, then the length tree, which may be
empty (R185, R187, R280). -/
def Obligations.TreeTransmissionsFollowInOrder : Prop :=
  (∀ s : State, (s.treeSel = .mainLow → s.rangeEnd = 256) ∧ (s.treeSel = .length → s.rangeEnd = 249)
    ∧ (s.treeSel = .mainHigh →
        ∀ p ∈ [(15, 30), (16, 32), (17, 34), (18, 36), (19, 38), (20, 42), (21, 50), (22, 66), (23, 98), (24, 162), (25, 290)],
          s.cfg.windowBits = p.1 → s.rangeEnd = 256 + 8 * p.2))
  ∧ ∀ s : State, s.phase = .items → s.rangeEnd ≤ s.lenPos →
    let main := buildTable s.par.earlyReturn .main s.mainTree.len s.mainTree.table
    let length := buildTable s.par.earlyReturn .length s.lengthTree.len s.lengthTree.table
    let withMain := { s with mainTree := { s.mainTree with table := main.1 } }
    let withLength := { s with lengthTree := { s.lengthTree with table := length.1 } }
    (s.treeSel = .mainLow → step s = .next { s with treeSel := .mainHigh, phase := .tree })
    ∧ (s.treeSel = .mainHigh → main.2 = .complete → step s = .next { withMain with
        intelStarted := s.intelStarted || NatArray.get s.mainTree.len 0xE8 != 0, treeSel := .length, phase := .tree })
    ∧ (s.treeSel = .mainHigh → main.2 ≠ .complete → step s = .next (withMain.raise .malformedTable))
    ∧ (s.treeSel = .length → length.2 = .complete → step s = .next { withLength with lengthEmpty := false, phase := .runOpen })
    ∧ (s.treeSel = .length → length.2 = .empty → step s = .next { withLength with lengthEmpty := true, phase := .runOpen })
    ∧ (s.treeSel = .length → length.2 ≠ .complete → length.2 ≠ .empty → step s = .next (withLength.raise .malformedTable))

/-- A frame about to be staged while the previous one is not fully delivered raises ProtocolViolation (R259). -/
def Obligations.StagingMustBeDrained : Prop :=
  ∀ s : State, s.phase = .stage → s.stagePtr ≠ s.stageLen → step s = .next (s.raise .protocolViolation)

/-- The frame's end: the frame's window bytes, filtered exactly when the gate of R281 holds, become the staged frame; the
window is untouched; the cumulative position, the cursors and the counter advance; the bytes wanted are delivered
(R262, R281, R285, R261, R293, R74). -/
def Obligations.FramesAreStagedAdvancedAndDelivered : Prop :=
  ∀ (s : State) (size k : Nat) (slice staged : List Byte), s.phase = .stage → s.stagePtr = s.stageLen →
    Memory.wf s.win → Memory.wf s.stage → s.fs = size → s.windowPos = s.framePos + size → slice.length = size →
    (∀ j, j < size → Cells.find s.win (s.framePos + j) = slice[j]?) →
    staged = (if s.intelStarted = true ∧ s.intelFileSize.toInt ≠ 0 ∧ s.frame.toNat ≤ 32768 ∧ 10 < size then
      e8Loop s.intelFileSize.toInt s.intelCurPos size 0 slice else slice) →
    k = min s.want size →
      ∃ stage, step s = .next { s with
          stage := stage
          stageLen := size
          stagePtr := k
          intelCurPos := if s.intelFileSize.toInt ≠ 0 then s.intelCurPos + size else s.intelCurPos
          framePos := if s.windowPos = s.cfg.windowSize then 0 else s.windowPos
          windowPos := if s.windowPos = s.cfg.windowSize then 0 else s.windowPos
          frame := BitVec.ofNat 32 (s.frame.toNat + 1)
          out := s.out ++ staged.take k
          delivered := s.delivered + k
          want := s.want - k
          phase := .frameLoop }
        ∧ ∀ j, j < size → Cells.find stage j = staged[j]?

/-- The filter that runs over the staged bytes is the in-place loop of R282: same rewriting test, same form, same stride
(R282 to R284). -/
def Obligations.FilterIsTheScanOfTheSpec : Prop :=
  ∀ (fileSize cur : Int) (buf : List Byte), e8Filter fileSize cur buf = e8Loop fileSize cur buf.length 0 buf

/-- The filter keeps the frame's size and its last six bytes; a byte it changes is one of the four after an 0xE8 byte that stands
before the tail; so it leaves a frame without such a byte as it is (R282, R284). -/
def Obligations.FilterTouchesOnlyOperands : Prop :=
  ∀ (fileSize cur : Int) (buf : List Byte),
    (e8Filter fileSize cur buf).length = buf.length
    ∧ (∀ j, buf.length ≤ j + 6 → (e8Filter fileSize cur buf)[j]? = buf[j]?)
    ∧ (∀ i, (e8Filter fileSize cur buf)[i]? ≠ buf[i]? →
        ∃ j, buf[j]? = some 0xE8 ∧ j + 10 < buf.length ∧ j < i ∧ i ≤ j + 4)
    ∧ ((∀ j, j + 10 < buf.length → buf[j]? ≠ some 0xE8) → e8Filter fileSize cur buf = buf)

/-! ## The whole machine -/

/-- A step runs the instruction decoded at the place reached, in the state its reading has left; a host command is the next of
the queue (R49). That a match header is a step of its own that leads to LEN is the model's reading of R99 (log entry 14, DEDUCED),
and that an error in reading is raised with the fields read so far stored is its reading of R312 (log entry 15, DEDUCED). -/
def Obligations.StepRunsTheDecodedInstruction : Prop :=
  ∀ s : State,
    (s.phase ≠ .idle → (s.phase = .items → s.lenPos < s.rangeEnd) → (s.phase = .run → 0 < s.thisRun) →
      (∀ i r, decodeAt s.phase (!s.coded) s.decodeContext s.rd = .instr i r → step s = exec i { s with rd := r })
      ∧ (∀ m r, decodeAt s.phase (!s.coded) s.decodeContext s.rd = .header m r →
          step s = .next { s with rd := r, mSym := m, phase := .length })
      ∧ (∀ e r fields, decodeAt s.phase (!s.coded) s.decodeContext s.rd = .raise e r fields →
          step s = .next (({ s with rd := r }.storeFields fields).raise e)))
    ∧ (∀ h i rest, s.phase = .idle → s.queue = h :: rest → decodeHost h = some i →
        step s = exec i { s with queue := rest })

/-- Taking an error: a step that latches a new error ends the command at once and returns exactly that error; output, staging,
cursors, counters, configuration and filter stay as they are, and so do the cache, the window, the block registers and the
trees, except at the places whose own element writes them before it raises (R312, R320). That an error of staging a window byte
without a value, too, leaves the staging buffer as it is (nothing staged) is the model's choice (log entry 22, DEDUCED). -/
def Obligations.ErrorsEndTheCommand : Prop :=
  ∀ s t : State, s.phase ≠ .idle → step s = .next t → t.err ≠ s.err →
    ∃ e, t.err = some e ∧ t.phase = .idle ∧ t.results = s.results ++ [.error e] ∧ t.oneshot = false
      ∧ t.out = s.out ∧ t.delivered = s.delivered ∧ t.rd.input = s.rd.input ∧ t.cfg = s.cfg ∧ t.frame = s.frame
      ∧ t.windowPos = s.windowPos ∧ t.framePos = s.framePos ∧ t.headerRead = s.headerRead ∧ t.lengthEmpty = s.lengthEmpty
      ∧ t.intelFileSize = s.intelFileSize ∧ t.intelCurPos = s.intelCurPos ∧ t.intelStarted = s.intelStarted
      ∧ t.stage = s.stage ∧ t.stageLen = s.stageLen ∧ t.stagePtr = s.stagePtr
      ∧ (s.phase ≠ .offset → t.r0 = s.r0 ∧ t.r1 = s.r1 ∧ t.r2 = s.r2)
      ∧ (s.phase ≠ .offset → s.phase ≠ .ext → t.win = s.win)
      ∧ (s.phase ≠ .blockHead →
          t.blockType = s.blockType ∧ t.blockLength = s.blockLength ∧ t.blockRemaining = s.blockRemaining)
      ∧ (s.phase ≠ .tree → t.preTree = s.preTree) ∧ (s.phase ≠ .alignedLens → t.alignedTree = s.alignedTree)
      ∧ (s.phase ≠ .items → t.mainTree = s.mainTree ∧ t.lengthTree = s.lengthTree)

/-- The configuration, the parameters and the host's queue never change inside a command (R20, R6, R8). -/
def Obligations.ConfigurationIsFixed : Prop :=
  ∀ s t : State, s.phase ≠ .idle → step s = .next t →
    t.cfg = s.cfg ∧ t.par = s.par ∧ t.queue = s.queue ∧ t.present = s.present ∧ t.bound = s.bound

/-- Inside a command output is only appended, and counted; the input stays the same and its cursor never goes back; the E8
flag is never cleared (R69, R293, R28, R76, R38). -/
def Obligations.StreamsOnlyAdvance : Prop :=
  ∀ s t : State, s.phase ≠ .idle → step s = .next t →
    (∃ bytes : List Byte, t.out = s.out ++ bytes ∧ t.delivered = s.delivered + bytes.length)
    ∧ t.rd.input = s.rd.input ∧ s.rd.inPos ≤ t.rd.inPos ∧ (s.intelStarted = true → t.intelStarted = true)

/-- Only literals, raw bytes, matches and their extensions write the window: the filter, the staging, the headers, the reset
clear and the delivery leave it as it is (R74, R351, R60). -/
def Obligations.OnlyRunsWriteTheWindow : Prop :=
  ∀ s t : State, s.phase ≠ .idle → s.phase ≠ .run → s.phase ≠ .offset → s.phase ≠ .ext → step s = .next t → t.win = s.win

/-- A sound state never stops in the fault stageNoValue (log entry 4): every staged byte holds a value. -/
def Obligations.StagedBytesHoldValues : Prop :=
  ∀ s : State, s.Sound → step s ≠ .fault .stageNoValue

/-- Every step keeps the invariants of the data: legal configuration, bit reader, window, staging buffer, tables, block
registers, budgets and counts (R20, R120, R61, R39, R33, R31, R32, R256, R28). -/
def Obligations.StepsKeepSound : Prop := ∀ s t : State, s.Sound → step s = .next t → t.Sound

/-- Every step keeps the frame-boundary invariant: between frames and between commands the cursor stands at the frame cursor,
below `W`, with 0 or 16 bits in the accumulator (R49, R24, R22). -/
def Obligations.StepsKeepFramed : Prop := ∀ s t : State, s.Framed → step s = .next t → t.Framed

/-- Every step keeps the history invariant of the window, where the frame-boundary invariant holds (R61, R62, R215). -/
def Obligations.StepsKeepHistory : Prop := ∀ s t : State, s.Framed → s.History → step s = .next t → t.History

/-- The state at reset has the three invariants. Its configuration, before any INIT, and its place are the model's choice (log
entries 2 and 18, DESIGN CHOICE); R340 speaks of the state after INIT. -/
def Obligations.ResetMeetsTheInvariants : Prop := State.reset.Sound ∧ State.reset.Framed ∧ State.reset.History
end

