-- ==== Sys2Proof/Laws/BitReader.lean ====
section
/-! SUPPORT. The laws of the bit reader: what each operation answers in terms of the bits and bytes the reader still gives,
and that each keeps the reader's invariant (R120). -/

namespace Sys2Proof.Machine

@[simp] theorem fieldBits_zero (v : Nat) : fieldBits 0 v = [] := rfl

@[simp] theorem fieldBits_length (k v : Nat) : (fieldBits k v).length = k := by
  induction k with
  | zero => rfl
  | succ k ih => simp [fieldBits, ih]

theorem fieldBits_mod (k v : Nat) : fieldBits k (v % 2 ^ k) = fieldBits k v := by
  suffices h : ∀ n, k ≤ n → fieldBits k (v % 2 ^ n) = fieldBits k v from h k (Nat.le_refl k)
  induction k with
  | zero => intros; rfl
  | succ k ih =>
    intro n hn
    simp only [fieldBits, Nat.testBit_mod_two_pow, ih n (by omega)]
    simp [show k < n by omega]

/-- The bits of a field are those of its upper part, then those of its lower part. -/
theorem fieldBits_append (j k v : Nat) : fieldBits (j + k) v = fieldBits j (v / 2 ^ k) ++ fieldBits k v := by
  induction j with
  | zero => simp
  | succ j ih =>
    rw [show j + 1 + k = (j + k) + 1 by omega]
    simp only [fieldBits, ih, List.cons_append, Nat.testBit_div_two_pow]

theorem fieldBits_injective {k v w : Nat} (hv : v < 2 ^ k) (hw : w < 2 ^ k) (h : fieldBits k v = fieldBits k w) : v = w := by
  induction k generalizing v w with
  | zero => simp at hv hw; omega
  | succ k ih =>
    simp only [fieldBits, List.cons.injEq] at h
    obtain ⟨ht, hr⟩ := h
    have hm := ih (Nat.mod_lt v (by positivity)) (Nat.mod_lt w (by positivity)) (by rw [fieldBits_mod, fieldBits_mod, hr])
    refine Nat.eq_of_testBit_eq fun i => ?_
    by_cases hi : i < k
    · have := congrArg (fun x => Nat.testBit x i) hm
      simpa [Nat.testBit_mod_two_pow, hi] using this
    · by_cases hk : i = k
      · subst hk; exact ht
      · rw [Nat.testBit_lt_two_pow (Nat.lt_of_lt_of_le hv (Nat.pow_le_pow_right (by omega) (by omega))),
          Nat.testBit_lt_two_pow (Nat.lt_of_lt_of_le hw (Nat.pow_le_pow_right (by omega) (by omega)))]

/-- The next byte is the first of those the reader still gives; with none left the read raises, and leaves the reader. -/
theorem BitReader.inByte_eq (r : BitReader) (hr : r.fakeLeft ≤ 1) :
    match r.restBytes with
    | [] => r.inByte = .raise .unexpectedEndOfStream r
    | b :: rest => ∃ r', r.inByte = .ok b r' ∧ r'.restBytes = rest ∧ r'.fakeLeft ≤ 1 ∧ r'.input = r.input
        ∧ r'.bitBuf = r.bitBuf ∧ r'.bitsLeft = r.bitsLeft ∧ r.inPos ≤ r'.inPos := by
  unfold BitReader.restBytes BitReader.inByte
  rcases h : r.input[r.inPos]? with _ | b
  · have hd : r.input.drop r.inPos = [] := by
      rw [List.drop_eq_nil_iff]; simpa using h
    have hlen : r.input.length ≤ r.inPos := by simpa using hd
    simp only [hd, List.nil_append]
    by_cases hf : r.fakeLeft = 1
    · simp only [hf, if_true]
      cases hE : r.inputEnd <;> simp [hlen, List.replicate_succ]
    · have hf0 : r.fakeLeft = 0 := by omega
      simp only [hf0]
      cases hE : r.inputEnd <;> simp [hd, List.replicate_succ]
  · have hlt : r.inPos < r.input.length := by
      by_contra hc
      rw [List.getElem?_eq_none (by omega)] at h
      cases h
    have hb : r.input.drop r.inPos = b :: r.input.drop (r.inPos + 1) := by
      rw [List.drop_eq_getElem_cons hlt]
      rw [List.getElem?_eq_getElem hlt] at h
      simp at h
      rw [h]
    simp only [hb, List.cons_append]
    exact ⟨_, rfl, by simp, hr, rfl, rfl, rfl, by simp⟩

theorem BitReader.restBytes_congr {r r' : BitReader} (h1 : r'.input = r.input) (h2 : r'.inPos = r.inPos)
    (h3 : r'.inputEnd = r.inputEnd) (h4 : r'.fakeLeft = r.fakeLeft) : r'.restBytes = r.restBytes := by
  simp [BitReader.restBytes, h1, h2, h3, h4]

@[simp] theorem BitReader.remove_restBytes (r : BitReader) (k : Nat) : (r.remove k).restBytes = r.restBytes := rfl

@[simp] theorem BitReader.inject_restBytes (r : BitReader) (c : BitVec 16) : (r.inject c).restBytes = r.restBytes := rfl

/-- The accumulator with a chunk injected, as a number. -/
theorem BitReader.inject_toNat (r : BitReader) (c : BitVec 16) (hw : r.wf) (h : r.bitsLeft ≤ 16) :
    (r.inject c).bitBuf.toNat = r.bitBuf.toNat + c.toNat * 2 ^ (16 - r.bitsLeft) := by
  obtain ⟨-, hz, -⟩ := hw
  unfold BitReader.inject
  simp only [BitVec.toNat_or, BitVec.toNat_shiftLeft, BitVec.toNat_setWidth]
  have hc := c.isLt
  have hsmall : c.toNat * 2 ^ (16 - r.bitsLeft) < 2 ^ (32 - r.bitsLeft) := by
    rw [show 32 - r.bitsLeft = 16 + (16 - r.bitsLeft) by omega, Nat.pow_add]
    exact Nat.mul_lt_mul_of_pos_right hc (by positivity)
  have hle : 2 ^ (32 - r.bitsLeft) ≤ 2 ^ 32 := Nat.pow_le_pow_right (by omega) (by omega)
  rw [Nat.mod_eq_of_lt (show c.toNat < 2 ^ 32 by omega), Nat.shiftLeft_eq, Nat.mod_eq_of_lt (by omega)]
  obtain ⟨q, hq⟩ := Nat.dvd_of_mod_eq_zero hz
  rw [hq, Nat.mul_comm (2 ^ (32 - r.bitsLeft)) q, ← Nat.shiftLeft_eq q]
  exact (Nat.shiftLeft_add_eq_or_of_lt hsmall q).symm

theorem BitReader.inject_wf (r : BitReader) (c : BitVec 16) (hw : r.wf) (h : r.bitsLeft ≤ 16) : (r.inject c).wf := by
  refine ⟨by simp only [BitReader.inject]; omega, ?_, hw.2.2⟩
  rw [BitReader.inject_toNat r c hw h]
  have hb : (r.inject c).bitsLeft = r.bitsLeft + 16 := rfl
  rw [hb, show 32 - (r.bitsLeft + 16) = 16 - r.bitsLeft by omega]
  have hz := hw.2.1
  rw [show 32 - r.bitsLeft = 16 + (16 - r.bitsLeft) by omega, Nat.pow_add] at hz
  have : r.bitBuf.toNat % 2 ^ (16 - r.bitsLeft) = 0 :=
    Nat.mod_eq_zero_of_dvd (Nat.dvd_trans ⟨2 ^ 16, by ring⟩ (Nat.dvd_of_mod_eq_zero hz))
  rw [Nat.add_mod, this, Nat.mul_mod_left, Nat.zero_mod]

theorem BitReader.inject_validBits (r : BitReader) (c : BitVec 16) (hw : r.wf) (h : r.bitsLeft ≤ 16) :
    (r.inject c).validBits = r.validBits ++ fieldBits 16 c.toNat := by
  unfold BitReader.validBits
  have hb : (r.inject c).bitsLeft = r.bitsLeft + 16 := rfl
  have hc := c.isLt
  rw [BitReader.inject_toNat r c hw h, hb, fieldBits_append, show 32 - (r.bitsLeft + 16) = 16 - r.bitsLeft by omega]
  have hz := hw.2.1
  obtain ⟨q, hq⟩ := Nat.dvd_of_mod_eq_zero hz
  have hp : 2 ^ (32 - r.bitsLeft) = 2 ^ 16 * 2 ^ (16 - r.bitsLeft) := by
    rw [show 32 - r.bitsLeft = 16 + (16 - r.bitsLeft) by omega, Nat.pow_add]
  have hdiv : (r.bitBuf.toNat + c.toNat * 2 ^ (16 - r.bitsLeft)) / 2 ^ (16 - r.bitsLeft) = q * 2 ^ 16 + c.toNat := by
    rw [hq, hp, show 2 ^ 16 * 2 ^ (16 - r.bitsLeft) * q + c.toNat * 2 ^ (16 - r.bitsLeft)
      = (q * 2 ^ 16 + c.toNat) * 2 ^ (16 - r.bitsLeft) by ring]
    exact Nat.mul_div_cancel _ (by positivity)
  rw [hdiv]
  congr 1
  · congr 1
    rw [hq, Nat.mul_div_cancel_left q (show 0 < 2 ^ (32 - r.bitsLeft) by positivity)]
    omega
  · rw [← fieldBits_mod 16 (q * 2 ^ 16 + c.toNat)]
    congr 1
    omega

/-- A refill takes the next two bytes: their chunk joins the valid bits, and the bits still to come stay the same. -/
theorem BitReader.refill_ok (r : BitReader) (hw : r.wf) (h : r.bitsLeft ≤ 16) (hb : 2 ≤ r.restBytes.length) :
    ∃ r', r.refill = .ok () r' ∧ r'.wf ∧ r'.bitsLeft = r.bitsLeft + 16 ∧ r'.pending = r.pending
      ∧ r'.restBytes = r.restBytes.drop 2 ∧ r'.input = r.input ∧ r.inPos ≤ r'.inPos := by
  have h1 := BitReader.inByte_eq r hw.2.2
  rcases hr : r.restBytes with _ | ⟨b0, _ | ⟨b1, rest⟩⟩
  · simp [hr] at hb
  · simp [hr] at hb
  · simp only [hr] at h1
    obtain ⟨r1, e1, hr1, hf1, hi1, hbb1, hbl1, hp1⟩ := h1
    have h2 := BitReader.inByte_eq r1 hf1
    simp only [hr1] at h2
    obtain ⟨r2, e2, hr2, hf2, hi2, hbb2, hbl2, hp2⟩ := h2
    have hw2 : r2.wf := ⟨by rw [hbl2, hbl1]; exact hw.1, by rw [hbb2, hbb1, hbl2, hbl1]; exact hw.2.1, hf2⟩
    have hl2 : r2.bitsLeft ≤ 16 := by rw [hbl2, hbl1]; exact h
    refine ⟨r2.inject (chunkOf b0 b1), ?_, BitReader.inject_wf _ _ hw2 hl2, ?_, ?_, ?_, ?_, ?_⟩
    · simp [BitReader.refill, e1, e2, ReadResult.andThen]
    · simp [BitReader.inject, hbl2, hbl1]
    · unfold BitReader.pending
      rw [BitReader.inject_validBits _ _ hw2 hl2, BitReader.inject_restBytes, hr2, hr]
      simp only [chunkBits, List.append_assoc]
      congr 1
      unfold BitReader.validBits
      rw [hbb2, hbb1, hbl2, hbl1]
    · simp [hr2]
    · simp [BitReader.inject, hi2, hi1]
    · simp only [BitReader.inject]; omega

theorem chunkBits_length (bs : List Byte) : (chunkBits bs).length = bs.length / 2 * 16 := by
  induction bs using chunkBits.induct with
  | case1 b0 b1 rest ih => simp only [chunkBits, List.length_append, fieldBits_length, ih, List.length_cons]; omega
  | case2 bs h =>
    match bs, h with
    | [], _ => simp [chunkBits]
    | [b], _ => simp [chunkBits]
    | b0 :: b1 :: rest, h => exact absurd rfl (h b0 b1 rest)

@[simp] theorem BitReader.validBits_length (r : BitReader) : r.validBits.length = r.bitsLeft := by
  simp [BitReader.validBits]

/-- `ensure` finds its bits when the reader still gives so many: it keeps the bits to come and the invariant (R124). -/
theorem BitReader.ensureTurns_ok (turns k : Nat) (r : BitReader) (hw : r.wf) (hk : k ≤ 17)
    (ht : k ≤ r.bitsLeft + 16 * turns) (hp : k ≤ r.pending.length) :
    ∃ r', BitReader.ensureTurns turns k r = .ok () r' ∧ r'.wf ∧ k ≤ r'.bitsLeft ∧ r'.pending = r.pending
      ∧ r'.input = r.input ∧ r.inPos ≤ r'.inPos ∧ (r.bitsLeft < k → r'.bitsLeft ≤ k + 15)
      ∧ (k ≤ r.bitsLeft → r' = r) := by
  induction turns generalizing r with
  | zero => exact ⟨r, rfl, hw, by omega, rfl, rfl, Nat.le_refl _, by omega, fun _ => rfl⟩
  | succ turns ih =>
    unfold BitReader.ensureTurns
    split
    · next hlt =>
      have hbytes : 2 ≤ r.restBytes.length := by
        by_contra hc
        have hl : (chunkBits r.restBytes).length = 0 := by rw [chunkBits_length]; omega
        simp only [BitReader.pending, List.length_append, BitReader.validBits_length, hl] at hp
        omega
      obtain ⟨r1, e1, hw1, hb1, hp1, -, hi1, hpos1⟩ := BitReader.refill_ok r hw (by omega) hbytes
      obtain ⟨r2, e2, hw2, hb2, hp2, hi2, hpos2, hle2, heq2⟩ := ih r1 hw1 (by omega) (by rw [hp1]; exact hp)
      refine ⟨r2, by simp [e1, ReadResult.andThen, e2], hw2, hb2, by rw [hp2, hp1], by rw [hi2, hi1], by omega, ?_, by omega⟩
      intro _
      by_cases hc : r1.bitsLeft < k
      · exact hle2 hc
      · rw [heq2 (by omega), hb1]; omega
    · next hge => exact ⟨r, rfl, hw, by omega, rfl, rfl, Nat.le_refl _, by omega, fun _ => rfl⟩

theorem BitReader.ensure_ok (k : Nat) (r : BitReader) (hw : r.wf) (hk : k ≤ 17) (hp : k ≤ r.pending.length) :
    ∃ r', r.ensure k = .ok () r' ∧ r'.wf ∧ k ≤ r'.bitsLeft ∧ r'.pending = r.pending
      ∧ r'.input = r.input ∧ r.inPos ≤ r'.inPos ∧ (r.bitsLeft < k → r'.bitsLeft ≤ k + 15)
      ∧ (k ≤ r.bitsLeft → r' = r) := BitReader.ensureTurns_ok 2 k r hw hk (by omega) hp

/-- The peeked value, as a number. -/
theorem BitReader.peek_eq (r : BitReader) (k : Nat) (hk : k ≤ 32) : r.peek k = r.bitBuf.toNat / 2 ^ (32 - k) := by
  unfold BitReader.peek
  split
  · next h => subst h; rw [Nat.div_eq_of_lt r.bitBuf.isLt]
  · simp [Nat.shiftRight_eq_div_pow]

theorem BitReader.peek_lt (r : BitReader) (k : Nat) (hk : k ≤ 32) : r.peek k < 2 ^ k := by
  rw [BitReader.peek_eq r k hk, Nat.div_lt_iff_lt_mul (by positivity), ← Nat.pow_add, show k + (32 - k) = 32 by omega]
  exact r.bitBuf.isLt

/-- What is removed is what is peeked: the valid bits are the peeked field's bits and those left after the removal (R125,
R126). -/
theorem BitReader.validBits_remove (r : BitReader) (k : Nat) (hw : r.wf) (hk : k ≤ r.bitsLeft) :
    r.validBits = fieldBits k (r.peek k) ++ (r.remove k).validBits := by
  have h32 := hw.1
  unfold BitReader.validBits
  have hb : (r.remove k).bitsLeft = r.bitsLeft - k := rfl
  have hbuf : (r.remove k).bitBuf.toNat = r.bitBuf.toNat * 2 ^ k % 2 ^ 32 := by
    simp [BitReader.remove, Nat.shiftLeft_eq]
  rw [hb, hbuf, BitReader.peek_eq r k (by omega)]
  have hsplit := fieldBits_append k (r.bitsLeft - k) (r.bitBuf.toNat / 2 ^ (32 - r.bitsLeft))
  rw [show k + (r.bitsLeft - k) = r.bitsLeft by omega, Nat.div_div_eq_div_mul, ← Nat.pow_add,
    show 32 - r.bitsLeft + (r.bitsLeft - k) = 32 - k by omega] at hsplit
  rw [hsplit]
  congr 1
  rw [← fieldBits_mod (r.bitsLeft - k) (r.bitBuf.toNat / 2 ^ (32 - r.bitsLeft))]
  congr 1
  have hz := hw.2.1
  obtain ⟨q, hq⟩ := Nat.dvd_of_mod_eq_zero hz
  rw [hq, Nat.mul_div_cancel_left q (show 0 < 2 ^ (32 - r.bitsLeft) by positivity)]
  have e1 : 2 ^ 32 = 2 ^ (32 - (r.bitsLeft - k)) * 2 ^ (r.bitsLeft - k) := by rw [← Nat.pow_add]; congr 1; omega
  have e2 : 2 ^ (32 - r.bitsLeft) * q * 2 ^ k = 2 ^ (32 - (r.bitsLeft - k)) * q := by
    rw [show 32 - (r.bitsLeft - k) = 32 - r.bitsLeft + k by omega, Nat.pow_add]; ring
  rw [e2, e1, Nat.mul_mod_mul_left, Nat.mul_div_cancel_left _ (show 0 < 2 ^ (32 - (r.bitsLeft - k)) by positivity)]

theorem BitReader.remove_wf (r : BitReader) (k : Nat) (hw : r.wf) (hk : k ≤ r.bitsLeft) : (r.remove k).wf := by
  have h32 := hw.1
  refine ⟨by simp only [BitReader.remove]; omega, ?_, hw.2.2⟩
  have hbuf : (r.remove k).bitBuf.toNat = r.bitBuf.toNat * 2 ^ k % 2 ^ 32 := by
    simp [BitReader.remove, Nat.shiftLeft_eq]
  have hb : (r.remove k).bitsLeft = r.bitsLeft - k := rfl
  rw [hbuf, hb]
  obtain ⟨q, hq⟩ := Nat.dvd_of_mod_eq_zero hw.2.1
  have e2 : 2 ^ (32 - r.bitsLeft) * q * 2 ^ k = 2 ^ (32 - (r.bitsLeft - k)) * q := by
    rw [show 32 - (r.bitsLeft - k) = 32 - r.bitsLeft + k by omega, Nat.pow_add]; ring
  have e1 : 2 ^ 32 = 2 ^ (32 - (r.bitsLeft - k)) * 2 ^ (r.bitsLeft - k) := by rw [← Nat.pow_add]; congr 1; omega
  rw [hq, e2, e1, Nat.mul_mod_mul_left, Nat.mul_mod_right]

theorem BitReader.pending_remove (r : BitReader) (k : Nat) (hw : r.wf) (hk : k ≤ r.bitsLeft) :
    r.pending = fieldBits k (r.peek k) ++ (r.remove k).pending := by
  unfold BitReader.pending
  rw [BitReader.validBits_remove r k hw hk, BitReader.remove_restBytes, List.append_assoc]

/-- A field read answers the next `k` bits, whatever the chunk boundaries (R127). -/
theorem BitReader.readBits_ok (r : BitReader) (k v : Nat) (rest : List Bool) (hw : r.wf) (hk : k ≤ 17) (hv : v < 2 ^ k)
    (hp : r.pending = fieldBits k v ++ rest) : ∃ r', r.readBits k = .ok v r' ∧ r'.wf ∧ r'.pending = rest := by
  unfold BitReader.readBits
  split
  · next h =>
    subst h
    exact ⟨r, by simp at hv; rw [hv], hw, by simpa using hp⟩
  · obtain ⟨r1, e1, hw1, hb1, hp1, -⟩ := BitReader.ensure_ok k r hw hk (by simp [hp])
    have hrm := BitReader.pending_remove r1 k hw1 hb1
    rw [hp1, hp] at hrm
    have := List.append_inj hrm (by simp)
    have hpk := fieldBits_injective hv (BitReader.peek_lt r1 k (by omega)) this.1
    refine ⟨r1.remove k, ?_, BitReader.remove_wf r1 k hw1 hb1, this.2.symm⟩
    simp [e1, ReadResult.andThen, hpk]

end Sys2Proof.Machine
end

