-- ==== Sys2Proof/Laws/Cells.lean ====
section
/-! SUPPORT. The laws of indexed storage: a read after a write, what a write leaves alone, and that every operation keeps
the canonical form. -/

namespace Sys2Proof.Machine

variable {α : Type}

@[simp] theorem Cells.find_nil (a : Nat) : Cells.find ([] : Cells α) a = none := rfl

theorem Cells.find_cons (c : Nat × α) (t : Cells α) (a : Nat) :
    Cells.find (c :: t) a = if a = c.1 then some c.2 else Cells.find t a := rfl

theorem Cells.find_append (m n : Cells α) (a : Nat) :
    Cells.find (m ++ n) a = (Cells.find m a).or (Cells.find n a) := by
  induction m with
  | nil => simp
  | cons c t ih =>
    simp only [List.cons_append, Cells.find_cons]
    split <;> simp [ih]

theorem Cells.find_none_of_forall_ne {m : Cells α} {a : Nat} (h : ∀ c ∈ m, c.1 ≠ a) : Cells.find m a = none := by
  induction m with
  | nil => rfl
  | cons c t ih =>
    rw [Cells.find_cons, if_neg (fun e => h c (by simp) e.symm)]
    exact ih fun d hd => h d (by simp [hd])

theorem Cells.mem_of_find {m : Cells α} {a : Nat} {v : α} (h : Cells.find m a = some v) : (a, v) ∈ m := by
  induction m with
  | nil => simp at h
  | cons c t ih =>
    rw [Cells.find_cons] at h
    split at h
    · next e => cases h; simp [e]
    · exact List.mem_cons_of_mem _ (ih h)

theorem Cells.find_of_mem {m : Cells α} {a : Nat} {v : α} (hm : Cells.wf m) (h : (a, v) ∈ m) :
    Cells.find m a = some v := by
  induction m with
  | nil => simp at h
  | cons c t ih =>
    have hm := List.pairwise_cons.1 hm
    rw [Cells.find_cons]
    rcases List.mem_cons.1 h with rfl | ht
    · simp
    · rw [if_neg (by have := hm.1 _ ht; simp only at this; omega), ih hm.2 ht]

/-- A store is seen at its own index and nowhere else. -/
theorem Cells.find_put (m : Cells α) (a b : Nat) (v : α) :
    Cells.find (Cells.put m a v) b = if b = a then some v else Cells.find m b := by
  induction m with
  | nil => simp [Cells.put, Cells.find_cons]
  | cons c t ih =>
    obtain ⟨i, w⟩ := c
    unfold Cells.put
    split
    · simp [Cells.find_cons]
    · split
      · next h => subst h; simp only [Cells.find_cons]; split <;> simp_all
      · next h => simp only [Cells.find_cons, ih]; split <;> split <;> simp_all

theorem Cells.mem_put {m : Cells α} {a : Nat} {v : α} {c : Nat × α} (h : c ∈ Cells.put m a v) : c = (a, v) ∨ c ∈ m := by
  induction m with
  | nil => simpa [Cells.put] using h
  | cons d t ih =>
    unfold Cells.put at h
    split at h
    · simpa using h
    · split at h
      · rcases List.mem_cons.1 h with h | h
        · exact .inl h
        · exact .inr (List.mem_cons_of_mem _ h)
      · rcases List.mem_cons.1 h with h | h
        · exact .inr (by simp [h])
        · exact (ih h).imp id (List.mem_cons_of_mem _)

theorem Cells.wf_put {m : Cells α} (hm : Cells.wf m) (a : Nat) (v : α) : Cells.wf (Cells.put m a v) := by
  induction m with
  | nil => simp [Cells.put]
  | cons c t ih =>
    have hc := List.pairwise_cons.1 hm
    unfold Cells.put
    split
    · next h =>
      refine List.pairwise_cons.2 ⟨fun d hd => ?_, hm⟩
      rcases List.mem_cons.1 hd with rfl | hd
      · exact h
      · exact Nat.lt_trans h (hc.1 d hd)
    · split
      · next h => exact List.pairwise_cons.2 ⟨fun d hd => by have := hc.1 d hd; simp only at *; omega, hc.2⟩
      · next h1 h2 =>
        refine List.pairwise_cons.2 ⟨fun d hd => ?_, ih hc.2⟩
        rcases Cells.mem_put hd with rfl | hd
        · simp only at *; omega
        · exact hc.1 d hd

theorem Cells.mem_below {m : Cells α} {a : Nat} {c : Nat × α} (h : c ∈ Cells.below m a) : c.1 < a := by
  have := List.mem_takeWhile_imp h
  simpa using this

theorem Cells.below_subset (m : Cells α) (a : Nat) : (Cells.below m a).Sublist m := List.takeWhile_sublist _

theorem Cells.upward_subset (m : Cells α) (a : Nat) : (Cells.upward m a).Sublist m := List.dropWhile_sublist _

theorem Cells.mem_upward {m : Cells α} (hm : Cells.wf m) {a : Nat} {c : Nat × α} (h : c ∈ Cells.upward m a) :
    a ≤ c.1 := by
  induction m with
  | nil => simp [Cells.upward] at h
  | cons d t ih =>
    have hd := List.pairwise_cons.1 hm
    unfold Cells.upward at h
    rw [List.dropWhile_cons] at h
    split at h
    · exact ih hd.2 h
    · next hlt =>
      simp only [decide_eq_true_eq, Nat.not_lt] at hlt
      rcases List.mem_cons.1 h with rfl | h
      · exact hlt
      · exact Nat.le_trans hlt (Nat.le_of_lt (hd.1 c h))

theorem Cells.find_below {m : Cells α} (hm : Cells.wf m) (a b : Nat) :
    Cells.find (Cells.below m a) b = if b < a then Cells.find m b else none := by
  induction m with
  | nil => simp [Cells.below]
  | cons c t ih =>
    have hc := List.pairwise_cons.1 hm
    unfold Cells.below
    rw [List.takeWhile_cons]
    split
    · next h =>
      simp only [decide_eq_true_eq] at h
      have := ih hc.2
      unfold Cells.below at this
      rw [Cells.find_cons, Cells.find_cons, this]
      split <;> split <;> first | rfl | omega
    · next h =>
      simp only [decide_eq_true_eq, Nat.not_lt] at h
      split
      · next hb =>
        rw [Cells.find_cons, if_neg (by omega), Cells.find_none_of_forall_ne (m := t)]
        · rfl
        · intro d hd; have := hc.1 d hd; omega
      · rfl

theorem Cells.find_upward {m : Cells α} (hm : Cells.wf m) (a b : Nat) :
    Cells.find (Cells.upward m a) b = if a ≤ b then Cells.find m b else none := by
  induction m with
  | nil => simp [Cells.upward]
  | cons c t ih =>
    have hc := List.pairwise_cons.1 hm
    unfold Cells.upward
    rw [List.dropWhile_cons]
    split
    · next h =>
      simp only [decide_eq_true_eq] at h
      have := ih hc.2
      unfold Cells.upward at this
      rw [this, Cells.find_cons]
      split
      · rw [if_neg (by omega)]
      · rfl
    · next h =>
      simp only [decide_eq_true_eq, Nat.not_lt] at h
      split
      · rfl
      · next hb =>
        apply Cells.find_none_of_forall_ne
        intro d hd
        rcases List.mem_cons.1 hd with rfl | hd
        · omega
        · have := hc.1 d hd; omega

theorem Cells.find_enumerate (a b : Nat) (vs : List α) :
    Cells.find (Cells.enumerate a vs) b = if a ≤ b then vs[b - a]? else none := by
  induction vs generalizing a with
  | nil => simp [Cells.enumerate]
  | cons v vs ih =>
    rw [Cells.enumerate, Cells.find_cons, ih]
    by_cases h : b = a
    · subst h; simp
    · rw [if_neg h]
      by_cases h2 : a ≤ b
      · rw [if_pos h2, if_pos (by omega), show b - a = (b - (a + 1)) + 1 by omega]
        simp
      · rw [if_neg h2, if_neg (by omega)]

theorem Cells.mem_enumerate {a : Nat} {vs : List α} {c : Nat × α} (h : c ∈ Cells.enumerate a vs) :
    a ≤ c.1 ∧ c.1 < a + vs.length ∧ c.2 ∈ vs := by
  induction vs generalizing a with
  | nil => simp [Cells.enumerate] at h
  | cons v vs ih =>
    rcases List.mem_cons.1 h with rfl | h
    · simp
    · have := ih h
      simp only [List.length_cons, List.mem_cons]
      exact ⟨by omega, by omega, .inr this.2.2⟩

theorem Cells.wf_enumerate (a : Nat) (vs : List α) : Cells.wf (Cells.enumerate a vs) := by
  induction vs generalizing a with
  | nil => simp [Cells.enumerate]
  | cons v vs ih =>
    refine List.pairwise_cons.2 ⟨fun c hc => ?_, ih _⟩
    have := (Cells.mem_enumerate hc).1
    simp only; omega

/-- A run of stores is seen at its own indexes and nowhere else. -/
theorem Cells.find_splice {m : Cells α} (hm : Cells.wf m) (a b : Nat) (vs : List α) :
    Cells.find (Cells.splice m a vs) b =
      if a ≤ b ∧ b < a + vs.length then vs[b - a]? else Cells.find m b := by
  unfold Cells.splice
  rw [Cells.find_append, Cells.find_append, Cells.find_below hm, Cells.find_upward hm, Cells.find_enumerate]
  by_cases h1 : b < a
  · rw [if_pos h1, if_neg (by omega), if_neg (by omega), if_neg (by omega)]; simp
  · rw [if_neg h1, if_pos (by omega)]
    by_cases h2 : b < a + vs.length
    · rw [if_neg (by omega), if_pos (by omega)]; simp
    · rw [if_pos (by omega), if_neg (by omega), List.getElem?_eq_none (by omega)]; simp

theorem Cells.wf_append {m n : Cells α} (hm : Cells.wf m) (hn : Cells.wf n)
    (h : ∀ c ∈ m, ∀ d ∈ n, c.1 < d.1) : Cells.wf (m ++ n) := List.pairwise_append.2 ⟨hm, hn, h⟩

theorem Cells.wf_below {m : Cells α} (hm : Cells.wf m) (a : Nat) : Cells.wf (Cells.below m a) :=
  List.Pairwise.sublist (Cells.below_subset m a) hm

theorem Cells.wf_upward {m : Cells α} (hm : Cells.wf m) (a : Nat) : Cells.wf (Cells.upward m a) :=
  List.Pairwise.sublist (Cells.upward_subset m a) hm

theorem Cells.wf_splice {m : Cells α} (hm : Cells.wf m) (a : Nat) (vs : List α) : Cells.wf (Cells.splice m a vs) := by
  refine Cells.wf_append (Cells.wf_append (Cells.wf_below hm a) (Cells.wf_enumerate a vs) ?_) (Cells.wf_upward hm _) ?_
  · intro c hc d hd
    have := Cells.mem_below hc
    have := (Cells.mem_enumerate hd).1
    omega
  · intro c hc d hd
    have hd := Cells.mem_upward hm hd
    rcases List.mem_append.1 hc with hc | hc
    · have := Cells.mem_below hc; omega
    · have := (Cells.mem_enumerate hc).2.1; omega

theorem Cells.mem_splice {m : Cells α} {a : Nat} {vs : List α} {c : Nat × α} (h : c ∈ Cells.splice m a vs) :
    (a ≤ c.1 ∧ c.1 < a + vs.length ∧ c.2 ∈ vs) ∨ c ∈ m := by
  unfold Cells.splice at h
  rcases List.mem_append.1 h with h | h
  · rcases List.mem_append.1 h with h | h
    · exact .inr ((Cells.below_subset m a).subset h)
    · exact .inl (Cells.mem_enumerate h)
  · exact .inr ((Cells.upward_subset m _).subset h)

theorem Cells.takeFrom_length {m : Cells α} {a k : Nat} {vs : List α} (h : Cells.takeFrom m a k = some vs) :
    vs.length = k := by
  induction k generalizing m a vs with
  | zero => cases m <;> (simp [Cells.takeFrom] at h; simp [← h])
  | succ k ih =>
    cases m with
    | nil => simp [Cells.takeFrom] at h
    | cons c t =>
      simp only [Cells.takeFrom] at h
      split at h
      · simp only [Option.map_eq_some_iff] at h
        obtain ⟨us, hu, rfl⟩ := h
        simp [ih hu]
      · simp at h

/-- A range read gives as many values as asked for. -/
theorem Cells.readRange_length {m : Cells α} {a k : Nat} {vs : List α} (h : Cells.readRange m a k = some vs) :
    vs.length = k := Cells.takeFrom_length h

theorem Cells.takeFrom_eq_some {m : Cells α} (hm : Cells.wf m) {a k : Nat} (ha : ∀ c ∈ m, a ≤ c.1) (vs : List α) :
    Cells.takeFrom m a k = some vs ↔ vs.length = k ∧ ∀ i, i < k → Cells.find m (a + i) = vs[i]? := by
  induction k generalizing m a vs with
  | zero =>
    cases m <;> simp [Cells.takeFrom, eq_comm]
  | succ k ih =>
    cases m with
    | nil =>
      simp only [Cells.takeFrom, Cells.find_nil, reduceCtorEq, false_iff, not_and]
      intro hl hf
      have := hf 0 (by omega)
      cases vs <;> simp at *
    | cons c t =>
      obtain ⟨b, v⟩ := c
      have hc := List.pairwise_cons.1 hm
      have hab := ha (b, v) (by simp)
      simp only [Cells.takeFrom]
      split
      · next e =>
        subst e
        have ht : ∀ d ∈ t, b + 1 ≤ d.1 := fun d hd => hc.1 d hd
        constructor
        · intro h
          simp only [Option.map_eq_some_iff] at h
          obtain ⟨us, hu, rfl⟩ := h
          have hu' := (ih hc.2 ht us).1 hu
          refine ⟨by simp [hu'.1], fun i hi => ?_⟩
          cases i with
          | zero => simp [Cells.find_cons]
          | succ i =>
            rw [Cells.find_cons, if_neg (by simp), show b + (i + 1) = b + 1 + i by omega, hu'.2 i (by omega)]
            simp
        · rintro ⟨hl, hf⟩
          cases vs with
          | nil => simp at hl
          | cons u us =>
            have h0 := hf 0 (by omega)
            simp only [Nat.add_zero, Cells.find_cons, if_true, List.getElem?_cons_zero, Option.some.injEq] at h0
            subst h0
            simp only [Option.map_eq_some_iff]
            refine ⟨us, (ih hc.2 ht us).2 ⟨by simpa using hl, fun i hi => ?_⟩, rfl⟩
            have := hf (i + 1) (by omega)
            rw [Cells.find_cons, if_neg (by simp), show b + (i + 1) = b + 1 + i by omega] at this
            rw [this]; simp
      · next e =>
        simp only [reduceCtorEq, false_iff, not_and]
        intro hl hf
        have h0 := hf 0 (by omega)
        rw [Nat.add_zero, Cells.find_none_of_forall_ne] at h0
        · cases vs <;> simp at *
        · intro d hd
          rcases List.mem_cons.1 hd with rfl | hd
          · simpa using e
          · have := hc.1 d hd; simp only at this hab; omega

/-- A range read answers exactly the bytes that the single reads answer. -/
theorem Cells.readRange_eq_some {m : Cells α} (hm : Cells.wf m) (a k : Nat) (vs : List α) :
    Cells.readRange m a k = some vs ↔ vs.length = k ∧ ∀ i, i < k → Cells.find m (a + i) = vs[i]? := by
  unfold Cells.readRange
  rw [Cells.takeFrom_eq_some (Cells.wf_upward hm a) (fun c hc => Cells.mem_upward hm hc)]
  simp only [Cells.find_upward hm]
  simp

/-- A range read answers when every index of the range holds a value. -/
theorem Cells.readRange_isSome {m : Cells α} (hm : Cells.wf m) (a k : Nat)
    (h : ∀ i, i < k → (Cells.find m (a + i)).isSome) : ∃ vs, Cells.readRange m a k = some vs := by
  refine ⟨(List.range k).pmap (fun i hi => (Cells.find m (a + i)).get (h i hi)) (fun i hi => List.mem_range.1 hi), ?_⟩
  rw [Cells.readRange_eq_some hm]
  refine ⟨by simp, fun i hi => ?_⟩
  simp [hi]

@[simp] theorem NatArray.get_nil (a : Nat) : NatArray.get [] a = 0 := rfl

theorem NatArray.find_replicate (a b k v : Nat) :
    Cells.find (Cells.enumerate a (List.replicate k v)) b = if a ≤ b ∧ b < a + k then some v else none := by
  rw [Cells.find_enumerate]
  by_cases h : a ≤ b
  · simp only [h, if_true, true_and, List.getElem?_replicate]
    by_cases h2 : b < a + k
    · rw [if_pos (by omega), if_pos h2]
    · rw [if_neg (by omega), if_neg h2]
  · simp [h]

/-- A fill is seen at its own indexes and nowhere else. -/
theorem NatArray.get_fill {m : NatArray} (hm : NatArray.wf m) (a k v b : Nat) :
    NatArray.get (NatArray.fill m a k v) b = if a ≤ b ∧ b < a + k then v else NatArray.get m b := by
  unfold NatArray.get NatArray.fill
  rw [Cells.find_append, Cells.find_append, Cells.find_below hm.1, Cells.find_upward hm.1]
  by_cases hv : v = 0
  · simp only [hv, if_true, Cells.find_nil]
    by_cases h1 : b < a
    · simp [show ¬ a ≤ b by omega, show ¬ a + k ≤ b by omega, h1]
    · by_cases h2 : b < a + k
      · simp [h1, show ¬ a + k ≤ b by omega, h2, show a ≤ b by omega]
      · simp [h1, h2, show a + k ≤ b by omega]
  · rw [if_neg hv, NatArray.find_replicate]
    by_cases h1 : b < a
    · simp [show ¬ a ≤ b by omega, show ¬ a + k ≤ b by omega, h1]
    · by_cases h2 : b < a + k
      · simp [h1, show a ≤ b by omega, h2]
      · simp [h1, h2, show a + k ≤ b by omega]

theorem NatArray.mem_fill {m : NatArray} {a k v : Nat} {c : Nat × Nat} (h : c ∈ NatArray.fill m a k v) :
    (a ≤ c.1 ∧ c.1 < a + k ∧ c.2 = v ∧ v ≠ 0) ∨ c ∈ m := by
  unfold NatArray.fill at h
  rcases List.mem_append.1 h with h | h
  · rcases List.mem_append.1 h with h | h
    · exact .inr ((Cells.below_subset m a).subset h)
    · split at h
      · simp at h
      · next hv =>
        have := Cells.mem_enumerate h
        rw [List.length_replicate] at this
        exact .inl ⟨this.1, this.2.1, List.eq_of_mem_replicate this.2.2, hv⟩
  · exact .inr ((Cells.upward_subset m _).subset h)

theorem NatArray.wf_fill {m : NatArray} (hm : NatArray.wf m) (a k v : Nat) : NatArray.wf (NatArray.fill m a k v) := by
  refine ⟨?_, fun c hc => ?_⟩
  · unfold NatArray.fill
    have hmid : Cells.wf (if v = 0 then [] else Cells.enumerate a (List.replicate k v)) := by
      split
      · simp
      · exact Cells.wf_enumerate _ _
    have hin : ∀ c ∈ (if v = 0 then [] else Cells.enumerate a (List.replicate k v) : Cells Nat), a ≤ c.1 ∧ c.1 < a + k := by
      intro c hc
      split at hc
      · simp at hc
      · have := Cells.mem_enumerate hc
        rw [List.length_replicate] at this
        exact ⟨this.1, this.2.1⟩
    refine Cells.wf_append (Cells.wf_append (Cells.wf_below hm.1 a) hmid ?_) (Cells.wf_upward hm.1 _) ?_
    · intro c hc d hd
      have := Cells.mem_below hc
      have := hin d hd
      omega
    · intro c hc d hd
      have hd := Cells.mem_upward hm.1 hd
      rcases List.mem_append.1 hc with hc | hc
      · have := Cells.mem_below hc; omega
      · have := hin c hc; omega
  · rcases NatArray.mem_fill hc with h | h
    · rw [h.2.2.1]; exact h.2.2.2
    · exact hm.2 c h

theorem NatArray.get_set {m : NatArray} (hm : NatArray.wf m) (a v b : Nat) :
    NatArray.get (NatArray.set m a v) b = if b = a then v else NatArray.get m b := by
  unfold NatArray.set
  rw [NatArray.get_fill hm]
  by_cases h : b = a
  · simp [h]
  · rw [if_neg (by omega), if_neg h]

theorem NatArray.wf_set {m : NatArray} (hm : NatArray.wf m) (a v : Nat) : NatArray.wf (NatArray.set m a v) :=
  NatArray.wf_fill hm a 1 v

theorem NatArray.wf_setAll {m : NatArray} (hm : NatArray.wf m) (a : Nat) (vs : List Nat) :
    NatArray.wf (NatArray.setAll m a vs) := by
  induction vs generalizing m a with
  | nil => exact hm
  | cons v vs ih => exact ih (NatArray.wf_set hm a v) _

/-- Consecutive entries written one after the other are seen at their own indexes and nowhere else. -/
theorem NatArray.get_setAll {m : NatArray} (hm : NatArray.wf m) (a : Nat) (vs : List Nat) (b : Nat) :
    NatArray.get (NatArray.setAll m a vs) b =
      if a ≤ b ∧ b < a + vs.length then vs[b - a]?.getD 0 else NatArray.get m b := by
  induction vs generalizing m a with
  | nil => simp only [NatArray.setAll, List.length_nil, Nat.add_zero]; rw [if_neg (by omega)]
  | cons v vs ih =>
    rw [NatArray.setAll, ih (NatArray.wf_set hm a v), NatArray.get_set hm]
    simp only [List.length_cons]
    by_cases h : b = a
    · subst h
      rw [if_neg (by omega), if_pos rfl, if_pos (by omega)]; simp
    · rw [if_neg h]
      by_cases h2 : a ≤ b ∧ b < a + (vs.length + 1)
      · rw [if_pos (by omega), if_pos h2, show b - a = (b - (a + 1)) + 1 by omega]; simp
      · rw [if_neg (by omega), if_neg h2]

theorem NatArray.mem_setAll {m : NatArray} {a : Nat} {vs : List Nat} {c : Nat × Nat}
    (h : c ∈ NatArray.setAll m a vs) : (a ≤ c.1 ∧ c.1 < a + vs.length ∧ c.2 ∈ vs) ∨ c ∈ m := by
  induction vs generalizing m a with
  | nil => exact .inr h
  | cons v vs ih =>
    simp only [List.length_cons, List.mem_cons]
    rcases ih h with h | h
    · exact .inl ⟨by omega, by omega, .inr h.2.2⟩
    · rcases NatArray.mem_fill h with h | h
      · exact .inl ⟨by omega, by omega, .inl h.2.2.1⟩
      · exact .inr h

theorem NatArray.wf_nil : NatArray.wf [] := ⟨List.Pairwise.nil, fun c hc => by simp at hc⟩

/-- A bound on every listed value bounds every read. -/
theorem NatArray.get_le {m : NatArray} {n : Nat} (h : ∀ c ∈ m, c.2 ≤ n) (a : Nat) : NatArray.get m a ≤ n := by
  unfold NatArray.get
  cases hf : Cells.find m a with
  | none => simp
  | some v => simpa using h _ (Cells.mem_of_find hf)

end Sys2Proof.Machine
end

