-- ==== Sys2Proof/Laws/Huffman.lean ====
section
/-! SUPPORT. The laws of the tables: which symbols a length selects, that a build keeps the canonical form, and what a
decoded symbol is bounded by. -/

namespace Sys2Proof.Machine

/-- The symbols of one length, as the array's reads give them. -/
theorem mem_symsWithLength {len : NatArray} (hl : NatArray.wf len) {n bl sym : Nat} (hbl : bl ≠ 0) :
    sym ∈ symsWithLength len n bl ↔ sym < n ∧ NatArray.get len sym = bl := by
  unfold symsWithLength
  simp only [List.mem_map, List.mem_filter, Bool.and_eq_true, decide_eq_true_eq, beq_iff_eq]
  constructor
  · rintro ⟨c, ⟨hc, hn, hb⟩, rfl⟩
    refine ⟨hn, ?_⟩
    unfold NatArray.get
    rw [Cells.find_of_mem hl.1 hc, ← hb]; rfl
  · rintro ⟨hn, hg⟩
    unfold NatArray.get at hg
    cases hf : Cells.find len sym with
    | none => rw [hf] at hg; exact absurd hg.symm hbl
    | some v =>
      rw [hf] at hg
      exact ⟨(sym, v), ⟨Cells.mem_of_find hf, hn, hg⟩, rfl⟩

/-- They come in rising order (R141). -/
theorem symsWithLength_sorted {len : NatArray} (hl : NatArray.wf len) (n bl : Nat) :
    (symsWithLength len n bl).Pairwise (fun a b => a < b) := by
  unfold symsWithLength
  rw [List.pairwise_map]
  exact List.Pairwise.sublist List.filter_sublist hl.1

/-- A build step keeps the canonical form of the decode array. -/
def BuildStep.TableWf (x : BuildStep) : Prop :=
  match x with
  | .go b => NatArray.wf b.table
  | .fail table _ => NatArray.wf table

theorem BuildStep.andThen_tableWf {x : BuildStep} {f : BuildState → BuildStep} (hx : x.TableWf)
    (hf : ∀ b, NatArray.wf b.table → (f b).TableWf) : (x.andThen f).TableWf := by
  cases x with
  | go b => exact hf b hx
  | fail table why => exact hx

theorem forSyms_tableWf {f : Nat → BuildState → BuildStep} (hf : ∀ sym b, NatArray.wf b.table → (f sym b).TableWf)
    (syms : List Nat) (b : BuildState) (hb : NatArray.wf b.table) : (forSyms f syms b).TableWf := by
  induction syms generalizing b with
  | nil => exact hb
  | cons sym rest ih => exact BuildStep.andThen_tableWf (hf sym b hb) fun b1 h1 => ih b1 h1

theorem placeDirect_tableWf (tb bmask sym : Nat) (b : BuildState) (hb : NatArray.wf b.table) :
    (placeDirect tb bmask sym b).TableWf := by
  unfold placeDirect
  split
  · exact hb
  · exact NatArray.wf_fill hb _ _ _

theorem nodeChain_tableWf (t : Tree) (pos k fill leaf : Nat) (b : BuildState) (done : BuildState → Nat → BuildStep)
    (hb : NatArray.wf b.table) (hd : ∀ b1 l, NatArray.wf b1.table → (done b1 l).TableWf) :
    (nodeChain t pos k fill leaf b done).TableWf := by
  induction k generalizing fill leaf b with
  | zero => exact hd b leaf hb
  | succ k ih =>
    unfold nodeChain
    simp only
    split
    · split
      · exact hb
      · exact ih _ _ _ (NatArray.wf_set (NatArray.wf_set (NatArray.wf_set hb _ _) _ _) _ _)
    · exact ih _ _ _ hb

theorem placeNode_tableWf (t : Tree) (bl bmask sym : Nat) (b : BuildState) (hb : NatArray.wf b.table) :
    (placeNode t bl bmask sym b).TableWf := by
  unfold placeNode
  split
  · exact hb
  · exact nodeChain_tableWf _ _ _ _ _ _ _ hb fun b1 l h1 => NatArray.wf_set h1 _ _

theorem placeShort_tableWf (t : Tree) (len : NatArray) (k bl : Nat) (b : BuildState) (hb : NatArray.wf b.table) :
    (placeShort t len k bl b).TableWf := by
  induction k generalizing bl b with
  | zero => exact hb
  | succ k ih =>
    exact BuildStep.andThen_tableWf (forSyms_tableWf (fun sym b h => placeDirect_tableWf _ _ sym b h) _ b hb)
      fun b1 h1 => ih _ b1 h1

theorem placeLong_tableWf (t : Tree) (len : NatArray) (k bl : Nat) (b : BuildState) (hb : NatArray.wf b.table) :
    (placeLong t len k bl b).TableWf := by
  induction k generalizing bl b with
  | zero => exact hb
  | succ k ih =>
    exact BuildStep.andThen_tableWf (forSyms_tableWf (fun sym b h => placeNode_tableWf t _ _ sym b h) _ b hb)
      fun b1 h1 => ih _ b1 h1

/-- Every build, complete or failed, leaves a canonical decode array. -/
theorem buildTable_wf (early : EarlyReturn) (t : Tree) (len table : NatArray) (h : NatArray.wf table) :
    NatArray.wf (buildTable early t len table).1 := by
  have hs := placeShort_tableWf t len (tableBits t) 1 { table := table, pos := 0, next := 0 } h
  unfold buildTable
  split
  · next e => rw [e] at hs; exact hs
  · next b e =>
    rw [e] at hs
    split
    · exact hs
    · have hl := placeLong_tableWf t len (16 - tableBits t) (tableBits t + 1)
        { table := NatArray.fill b.table b.pos (2 ^ tableBits t - b.pos) unusedEntry
          pos := b.pos * 65536
          next := max (maxSyms t) (2 ^ (tableBits t - 1)) } (NatArray.wf_fill hs _ _ _)
      unfold buildLong
      simp only
      split
      · next e2 => rw [e2] at hl; exact hl
      · next e2 =>
        rw [e2] at hl
        split
        · exact hl
        · split <;> exact hl

theorem walkNodes_lt {t : Tree} {table : NatArray} {buf : BitVec 32} {j sym x : Nat}
    (h : walkNodes t table buf j sym = some x) : x < maxSyms t := by
  induction j generalizing sym with
  | zero => simp [walkNodes] at h
  | succ j ih =>
    unfold walkNodes at h
    simp only at h
    generalize NatArray.get table (2 * sym + if buf.getLsbD j = true then 1 else 0) = y at h
    split at h
    · next hlt => cases h; exact hlt
    · exact ih h

theorem lookupSym_lt {t : Tree} {table : NatArray} {r : BitReader} {x : Nat} (h : lookupSym t table r = some x) :
    x < maxSyms t := by
  unfold lookupSym at h
  simp only at h
  split at h
  · next hlt => cases h; exact hlt
  · exact walkNodes_lt h

/-- A decoded symbol is one of the table's (R140, R146). -/
theorem readSym_lt {t : Tree} {h : Huff} {r r' : BitReader} {x : Nat} (hx : readSym t h r = .ok x r') : x < maxSyms t := by
  unfold readSym at hx
  cases he : r.ensure 16 with
  | raise e r1 => rw [he] at hx; cases hx
  | ok u r1 =>
    rw [he] at hx
    simp only [ReadResult.andThen] at hx
    cases hs : lookupSym t h.table r1 with
    | none => rw [hs] at hx; cases hx
    | some sym =>
      rw [hs] at hx
      cases hx
      exact lookupSym_lt hs

end Sys2Proof.Machine
end

