-- ==== Sys2Proof/Laws/CodeSpace.lean ====
section
/-! SUPPORT. The code space that the codes of each length take (R142, R144). -/

namespace Sys2Proof.Machine

theorem codeSpace_zero (t : Tree) (len : NatArray) : codeSpace t len 0 = 0 := by
  unfold codeSpace
  have : len.filter (fun c => c.1 < maxSyms t && c.2 != 0 && c.2 ≤ 0) = [] := by
    rw [List.filter_eq_nil_iff]; intro c _; simp
  rw [this]; rfl

/-- Each length adds its symbols' shares. -/
theorem codeSpace_succ (t : Tree) (len : NatArray) (n : Nat) :
    codeSpace t len (n + 1) =
      codeSpace t len n + (symsWithLength len (maxSyms t) (n + 1)).length * 2 ^ (16 - (n + 1)) := by
  unfold codeSpace symsWithLength
  induction len with
  | nil => simp
  | cons c len ih =>
    simp only [List.filter_cons, List.length_map] at ih ⊢
    by_cases h1 : c.1 < maxSyms t
    · by_cases h0 : c.2 = 0
      · simp [h1, h0]; simpa using ih
      · by_cases h2 : c.2 ≤ n
        · have : c.2 ≠ n + 1 := by omega
          have : c.2 ≤ n + 1 := by omega
          simp [*] at ih ⊢; omega
        · by_cases h3 : c.2 = n + 1
          · simp [h1, h3] at ih ⊢; rw [ih]; ring
          · have : ¬ c.2 ≤ n + 1 := by omega
            simp [h1, h2, h3, this] at ih ⊢; omega
    · simp [h1]; simpa using ih

theorem codeSpace_mono (t : Tree) (len : NatArray) {a b : Nat} (h : a ≤ b) : codeSpace t len a ≤ codeSpace t len b := by
  induction b with
  | zero => have : a = 0 := by omega
            rw [this]
  | succ b ih =>
    by_cases he : a = b + 1
    · rw [he]
    · rw [codeSpace_succ t len b]
      have := ih (by omega); omega

end Sys2Proof.Machine
end

