-- ==== Sys2Proof/Laws/CodeTree.lean ====
section
/-! SUPPORT. The code tree that a decode array under construction holds (R140, R141): storing a symbol, taking a node pair,
and placing one long code. -/

namespace Sys2Proof.Machine

/-- What stands at a spot of the code tree: nothing yet, an inner node, or a symbol. -/
inductive Spot where
  | free
  | node
  | leaf (sym : Nat)

/-- The spot of depth `k` below the direct region with leading bits `p` exists: its parent is a node. -/
def LiveAt (t : Tree) (g : Nat → Nat → Spot) (k p : Nat) : Prop :=
  match k with
  | 0 => p < 2 ^ tableBits t
  | k + 1 => g k (p / 2) = .node

/-- The first node number (R140). -/
def firstNode (t : Tree) : Nat := max (maxSyms t) (2 ^ (tableBits t - 1))

/-- A decode array under construction holds the code tree `g` (R140, R141): each spot has an entry of its own, `idx`. -/
structure TreeShape (t : Tree) (b : BuildState) (g : Nat → Nat → Spot) (idx : Nat → Nat → Nat) : Prop where
  wf : NatArray.wf b.table
  low : firstNode t ≤ b.next
  high : b.next ≤ 5000
  base : ∀ p, idx 0 p = p
  bound : ∀ k p, LiveAt t g k p → idx k p < 2 * b.next
  inj : ∀ k p k' p', LiveAt t g k p → LiveAt t g k' p' → idx k p = idx k' p' → k = k' ∧ p = p'
  dead : ∀ k p, ¬ LiveAt t g k p → g k p = .free
  free : ∀ k p, LiveAt t g k p → g k p = .free → NatArray.get b.table (idx k p) = unusedEntry
  leaf : ∀ k p s, g k p = .leaf s → NatArray.get b.table (idx k p) = s ∧ s < maxSyms t
  node : ∀ k p, g k p = .node → firstNode t ≤ NatArray.get b.table (idx k p)
    ∧ NatArray.get b.table (idx k p) < b.next
    ∧ ∀ x, x < 2 → idx (k + 1) (2 * p + x) = 2 * NatArray.get b.table (idx k p) + x

/-- The tree with one spot changed. -/
def markSpot (g : Nat → Nat → Spot) (k p : Nat) (v : Spot) : Nat → Nat → Spot :=
  fun k' p' => if k' = k ∧ p' = p then v else g k' p'

theorem markSpot_self (g : Nat → Nat → Spot) (k p : Nat) (v : Spot) : markSpot g k p v k p = v := by simp [markSpot]

theorem markSpot_other {g : Nat → Nat → Spot} {k p : Nat} {v : Spot} {k' p' : Nat} (h : ¬ (k' = k ∧ p' = p)) :
    markSpot g k p v k' p' = g k' p' := by simp [markSpot, h]

/-- A spot that is not free exists. -/
theorem TreeShape.live {t b g idx} (h : TreeShape t b g idx) {k p} (hg : g k p ≠ .free) : LiveAt t g k p := by
  by_contra hc; exact hg (h.dead k p hc)

/-- A leaf changes no liveness. -/
theorem live_leaf {t g k p s} (hf : g k p = .free) (k' p' : Nat) :
    LiveAt t (markSpot g k p (.leaf s)) k' p' ↔ LiveAt t g k' p' := by
  cases k' with
  | zero => rfl
  | succ k' =>
    simp only [LiveAt]
    by_cases h : k' = k ∧ p' / 2 = p
    · obtain ⟨rfl, rfl⟩ := h
      rw [markSpot_self, hf]; simp
    · rw [markSpot_other h]

/-- Storing a symbol at a free spot. -/
theorem TreeShape.setLeaf {t b g idx} (h : TreeShape t b g idx) {k p s} (hl : LiveAt t g k p) (hf : g k p = .free)
    (hs : s < maxSyms t) (pos : Nat) :
    TreeShape t { b with table := NatArray.set b.table (idx k p) s, pos := pos } (markSpot g k p (.leaf s)) idx where
  wf := NatArray.wf_set h.wf _ _
  low := h.low
  high := h.high
  base := h.base
  bound k' p' hl' := h.bound k' p' ((live_leaf hf _ _).1 hl')
  inj k' p' k'' p'' h1 h2 := h.inj _ _ _ _ ((live_leaf hf _ _).1 h1) ((live_leaf hf _ _).1 h2)
  dead k' p' hd := by
    have hd' := fun hx => hd ((live_leaf hf k' p').2 hx)
    rw [markSpot_other (by rintro ⟨rfl, rfl⟩; exact hd' hl)]
    exact h.dead _ _ hd'
  free k' p' hl' hg := by
    by_cases he : k' = k ∧ p' = p
    · obtain ⟨rfl, rfl⟩ := he; rw [markSpot_self] at hg; cases hg
    · rw [markSpot_other he] at hg
      have hl2 := (live_leaf hf _ _).1 hl'
      simp only
      rw [NatArray.get_set h.wf, if_neg (fun e => he (h.inj _ _ _ _ hl2 hl e))]
      exact h.free _ _ hl2 hg
  leaf k' p' s' hg := by
    by_cases he : k' = k ∧ p' = p
    · obtain ⟨rfl, rfl⟩ := he; rw [markSpot_self] at hg; cases hg
      simp only
      rw [NatArray.get_set h.wf, if_pos rfl]; exact ⟨rfl, hs⟩
    · rw [markSpot_other he] at hg
      have hl2 := h.live (by rw [hg]; simp)
      simp only
      rw [NatArray.get_set h.wf, if_neg (fun e => he (h.inj _ _ _ _ hl2 hl e))]
      exact h.leaf _ _ _ hg
  node k' p' hg := by
    by_cases he : k' = k ∧ p' = p
    · obtain ⟨rfl, rfl⟩ := he; rw [markSpot_self] at hg; cases hg
    · rw [markSpot_other he] at hg
      have hl2 := h.live (by rw [hg]; simp)
      simp only
      rw [NatArray.get_set h.wf, if_neg (fun e => he (h.inj _ _ _ _ hl2 hl e))]
      exact h.node _ _ hg

/-- The decode array after a node pair is taken (R141). -/
def allocTable (b : BuildState) (l : Nat) : NatArray :=
  NatArray.set (NatArray.set (NatArray.set b.table (2 * b.next) unusedEntry) (2 * b.next + 1) unusedEntry) l b.next

theorem get_alloc {b : BuildState} (h : NatArray.wf b.table) (l a : Nat) :
    NatArray.get (allocTable b l) a = if a = l then b.next else if a = 2 * b.next ∨ a = 2 * b.next + 1 then unusedEntry
      else NatArray.get b.table a := by
  unfold allocTable
  rw [NatArray.get_set (NatArray.wf_set (NatArray.wf_set h _ _) _ _), NatArray.get_set (NatArray.wf_set h _ _),
    NatArray.get_set h]
  split
  · rfl
  · split
    · simp [*]
    · split <;> simp [*]

/-- The entries of a new node's two children. -/
def childIdx (idx : Nat → Nat → Nat) (k p n : Nat) : Nat → Nat → Nat :=
  fun k' p' => if k' = k + 1 ∧ p' / 2 = p then 2 * n + p' % 2 else idx k' p'

/-- A node mark adds its two children. -/
theorem live_node {t g k p} (k' p' : Nat) :
    LiveAt t (markSpot g k p .node) k' p' ↔ LiveAt t g k' p' ∨ (k' = k + 1 ∧ p' / 2 = p) := by
  cases k' with
  | zero => simp [LiveAt]
  | succ k' =>
    simp only [LiveAt]
    by_cases h : k' = k ∧ p' / 2 = p
    · obtain ⟨rfl, rfl⟩ := h
      rw [markSpot_self]; simp
    · rw [markSpot_other h]; simp only [Nat.add_right_cancel_iff, h, or_false]

/-- Taking a node pair for a free spot. -/
theorem TreeShape.alloc {t b g idx} (h : TreeShape t b g idx) {k p} (hl : LiveAt t g k p) (hf : g k p = .free)
    (hn : b.next < 5000) :
    TreeShape t { b with table := allocTable b (idx k p), next := b.next + 1 } (markSpot g k p .node)
      (childIdx idx k p b.next) := by
  have hb := h.bound _ _ hl
  have hnl : ∀ p', p' / 2 = p → ¬ LiveAt t g (k + 1) p' := by
    intro p' hp hx; simp only [LiveAt, hp, hf] at hx; cases hx
  have hold : ∀ k' p', LiveAt t g k' p' → childIdx idx k p b.next k' p' = idx k' p' := by
    intro k' p' hx
    unfold childIdx
    rw [if_neg]; rintro ⟨rfl, hp⟩; exact hnl _ hp hx
  have hnew : ∀ p', p' / 2 = p → childIdx idx k p b.next (k + 1) p' = 2 * b.next + p' % 2 := by
    intro p' hp; simp [childIdx, hp]
  have hget : ∀ k' p', LiveAt t g k' p' → ¬ (k' = k ∧ p' = p) →
      NatArray.get (allocTable b (idx k p)) (idx k' p') = NatArray.get b.table (idx k' p') := by
    intro k' p' hx he
    have := h.bound _ _ hx
    rw [get_alloc h.wf _ _, if_neg (fun e => he (h.inj _ _ _ _ hx hl e)), if_neg (by omega)]
  constructor
  · exact NatArray.wf_set (NatArray.wf_set (NatArray.wf_set h.wf _ _) _ _) _ _
  · have := h.low; simp only; omega
  · simp only; omega
  · intro p'; rw [show childIdx idx k p b.next 0 p' = idx 0 p' by simp [childIdx]]; exact h.base p'
  · intro k' p' hx
    rcases (live_node _ _).1 hx with hx | ⟨rfl, hp⟩
    · rw [hold _ _ hx]; have := h.bound _ _ hx; simp only; omega
    · rw [hnew _ hp]; simp only; omega
  · intro k' p' k'' p'' h1 h2 he
    rcases (live_node _ _).1 h1 with h1 | ⟨rfl, hp⟩ <;> rcases (live_node _ _).1 h2 with h2 | ⟨rfl, hp2⟩
    · rw [hold _ _ h1, hold _ _ h2] at he; exact h.inj _ _ _ _ h1 h2 he
    · rw [hold _ _ h1, hnew _ hp2] at he; have := h.bound _ _ h1; omega
    · rw [hold _ _ h2, hnew _ hp] at he; have := h.bound _ _ h2; omega
    · rw [hnew _ hp, hnew _ hp2] at he; exact ⟨rfl, by omega⟩
  · intro k' p' hx
    have h1 : ¬ LiveAt t g k' p' := fun hy => hx ((live_node _ _).2 (.inl hy))
    rw [markSpot_other (by rintro ⟨rfl, rfl⟩; exact h1 hl)]
    exact h.dead _ _ h1
  · intro k' p' hx hg
    by_cases he : k' = k ∧ p' = p
    · obtain ⟨rfl, rfl⟩ := he; rw [markSpot_self] at hg; cases hg
    · rw [markSpot_other he] at hg
      rcases (live_node _ _).1 hx with hx | ⟨rfl, hp⟩
      · simp only; rw [hold _ _ hx, hget _ _ hx he]; exact h.free _ _ hx hg
      · simp only; rw [hnew _ hp, get_alloc h.wf _ _, if_neg (by omega), if_pos (by omega)]
  · intro k' p' s hg
    by_cases he : k' = k ∧ p' = p
    · obtain ⟨rfl, rfl⟩ := he; rw [markSpot_self] at hg; cases hg
    · rw [markSpot_other he] at hg
      have hx := h.live (by rw [hg]; simp)
      simp only; rw [hold _ _ hx, hget _ _ hx he]; exact h.leaf _ _ _ hg
  · intro k' p' hg
    by_cases he : k' = k ∧ p' = p
    · obtain ⟨rfl, rfl⟩ := he
      simp only
      have := h.low
      rw [hold _ _ hl, get_alloc h.wf _ _, if_pos rfl]
      refine ⟨by omega, by omega, fun x hx => ?_⟩
      rw [hnew _ (by omega)]; omega
    · rw [markSpot_other he] at hg
      have hx := h.live (by rw [hg]; simp)
      obtain ⟨n1, n2, n3⟩ := h.node _ _ hg
      simp only; rw [hold _ _ hx, hget _ _ hx he]
      refine ⟨n1, by omega, fun x hx2 => ?_⟩
      rw [← n3 x hx2]
      apply hold
      simp only [LiveAt]; rw [show (2 * p' + x) / 2 = p' by omega]; exact hg

/-- The leading bits of a 16-bit value at depth `k` below the direct region. -/
def headBits (t : Tree) (k w : Nat) : Nat := w / 2 ^ (16 - tableBits t - k)

theorem tableBits_bounds (t : Tree) : 1 ≤ tableBits t ∧ tableBits t ≤ 12 := by cases t <;> decide

theorem headBits_succ (t : Tree) (k w : Nat) (hk : k < 16 - tableBits t) :
    headBits t (k + 1) w = 2 * headBits t k w + w / 2 ^ (16 - tableBits t - (k + 1)) % 2 := by
  unfold headBits
  rw [show 16 - tableBits t - k = 16 - tableBits t - (k + 1) + 1 by omega, Nat.pow_succ, ← Nat.div_div_eq_div_mul]
  omega

theorem firstNode_bound (t : Tree) : tableSize t ≤ 9300 ∧ firstNode t ≤ 5000 ∧ 2 ^ tableBits t ≤ 2 * firstNode t
    ∧ maxSyms t ≤ firstNode t := by
  cases t <;> decide

/-- The nodes taken so far, as spots of the tree, each with a property `P`. -/
def Counted (t : Tree) (P : Nat → Nat → Prop) (g : Nat → Nat → Spot) (next : Nat) : Prop :=
  ∃ taken : Finset (Nat × Nat), taken.card + firstNode t = next ∧ ∀ q ∈ taken, g q.1 q.2 = .node ∧ P q.1 q.2

/-- So many spots with the property `P` that the array has no room for a node at each (R142's capacity bound). -/
def Exhausted (t : Tree) (P : Nat → Nat → Prop) : Prop :=
  ∃ taken : Finset (Nat × Nat), (∀ q ∈ taken, P q.1 q.2) ∧ tableSize t + 1 ≤ 2 * (taken.card + firstNode t)

theorem Counted.add {t : Tree} {P : Nat → Nat → Prop} {g : Nat → Nat → Spot} {next k p : Nat} (h : Counted t P g next)
    (hf : g k p = .free) (hp : P k p) :
    Counted t P (markSpot g k p .node) (next + 1) ∧ (tableSize t ≤ 2 * next + 1 → Exhausted t P) := by
  obtain ⟨taken, hc, hn⟩ := h
  have hnot : (k, p) ∉ taken := fun hm => by have := (hn _ hm).1; simp only [hf] at this; cases this
  have hcard := Finset.card_insert_of_notMem hnot
  refine ⟨⟨insert (k, p) taken, by omega, fun q hq => ?_⟩, fun hfull => ⟨insert (k, p) taken, fun q hq => ?_, by omega⟩⟩
  · rcases Finset.mem_insert.1 hq with rfl | hq
    · exact ⟨markSpot_self _ _ _ _, hp⟩
    · refine ⟨?_, (hn q hq).2⟩
      rw [markSpot_other, (hn q hq).1]
      rintro ⟨h1, h2⟩
      exact hnot (by rw [← h1, ← h2]; exact hq)
  · rcases Finset.mem_insert.1 hq with rfl | hq
    · exact hp
    · exact (hn q hq).2

/-- What a chain does: from a live spot it makes every free spot down to depth `d` a node, or finds no room for one. -/
theorem nodeChain_shape (t : Tree) (P : Nat → Nat → Prop) (pos : Nat) (d : Nat) (hd : d ≤ 16 - tableBits t) (k j : Nat)
    (hj : j + k = d) (b : BuildState) (g : Nat → Nat → Spot) (idx : Nat → Nat → Nat) (h : TreeShape t b g idx)
    (hc : Counted t P g b.next) (hP : ∀ i, i < d → P i (headBits t i pos))
    (hl : LiveAt t g j (headBits t j pos)) (hkind : ∀ i, j ≤ i → i < d → LiveAt t g i (headBits t i pos) →
      g i (headBits t i pos) = .free ∨ g i (headBits t i pos) = .node) (done : BuildState → Nat → BuildStep) :
    (∃ tab, nodeChain t (pos * 2 ^ tableBits t) k j (idx j (headBits t j pos)) b done = .fail tab .capacity
      ∧ Exhausted t P)
    ∨ ∃ b1 g1 idx1, TreeShape t b1 g1 idx1 ∧ Counted t P g1 b1.next ∧ b1.pos = b.pos
      ∧ nodeChain t (pos * 2 ^ tableBits t) k j (idx j (headBits t j pos)) b done = done b1 (idx1 d (headBits t d pos))
      ∧ LiveAt t g1 d (headBits t d pos)
      ∧ (∀ i, j ≤ i → i < d → g1 i (headBits t i pos) = .node)
      ∧ ∀ k' p', g1 k' p' = g k' p' ∨ (g k' p' = .free ∧ k' < d ∧ p' = headBits t k' pos ∧ g1 k' p' = .node) := by
  induction k generalizing j b g idx with
  | zero =>
    have : j = d := by omega
    subst this
    exact .inr ⟨b, g, idx, h, hc, rfl, rfl, hl, fun i h1 h2 => by omega, fun _ _ => .inl rfl⟩
  | succ k ih =>
    have htb := tableBits_bounds t
    have hbit : (pos * 2 ^ tableBits t) >>> (15 - j) % 2 = pos / 2 ^ (16 - tableBits t - (j + 1)) % 2 := by
      rw [Nat.shiftRight_eq_div_pow, show 15 - j = tableBits t + (16 - tableBits t - (j + 1)) by omega, Nat.pow_add,
        ← Nat.div_div_eq_div_mul, Nat.mul_div_cancel _ (by positivity)]
    have hstep := headBits_succ t j pos (by omega)
    have hx : pos / 2 ^ (16 - tableBits t - (j + 1)) % 2 < 2 := Nat.mod_lt _ (by omega)
    have hhalf : headBits t (j + 1) pos / 2 = headBits t j pos := by omega
    rw [nodeChain]
    simp only [hbit]
    rcases hkind j (Nat.le_refl _) (by omega) hl with hf | hn
    · rw [if_pos (h.free _ _ hl hf)]
      obtain ⟨hc1, hfull⟩ := hc.add hf (hP j (by omega))
      split
      · next hcap => exact .inl ⟨_, rfl, hfull hcap⟩
      · next hcap =>
        have hb := firstNode_bound t
        have h1 := h.alloc hl hf (by omega)
        have hidx : childIdx idx j (headBits t j pos) b.next (j + 1) (headBits t (j + 1) pos)
            = 2 * b.next + pos / 2 ^ (16 - tableBits t - (j + 1)) % 2 := by
          unfold childIdx; rw [if_pos ⟨rfl, hhalf⟩]; omega
        rw [← hidx]
        have hnode : markSpot g j (headBits t j pos) .node j (headBits t j pos) = .node := markSpot_self _ _ _ _
        rcases ih (j + 1) (by omega) _ _ _ h1 hc1
          (by simp only [LiveAt, hhalf]; exact hnode)
          (fun i hi1 hi2 hi3 => by
            rw [markSpot_other (by omega)]
            rcases (live_node _ _).1 hi3 with hi3 | ⟨hi4, hi5⟩
            · exact hkind i (by omega) hi2 hi3
            · left; apply h.dead; intro hc; subst hi4; simp only [LiveAt, hi5, hf] at hc; cases hc)
          with hfail | ⟨b1, g1, idx1, s1, sc, s2, s3, s4, s5, s6⟩
        · exact .inl hfail
        refine .inr ⟨b1, g1, idx1, s1, sc, s2, s3, s4, fun i hi1 hi2 => ?_, fun k' p' => ?_⟩
        · by_cases hij : i = j
          · subst hij
            rcases s6 i (headBits t i pos) with s | s
            · rw [s]; exact hnode
            · exact s.2.2.2
          · exact s5 i (by omega) hi2
        · by_cases hkp : k' = j ∧ p' = headBits t j pos
          · obtain ⟨rfl, rfl⟩ := hkp
            refine .inr ⟨hf, by omega, rfl, ?_⟩
            rcases s6 k' (headBits t k' pos) with s | s
            · rw [s]; exact hnode
            · exact s.2.2.2
          · have := s6 k' p'
            rw [markSpot_other hkp] at this; exact this
    · obtain ⟨n1, n2, n3⟩ := h.node _ _ hn
      have hh := h.high
      rw [if_neg (by unfold unusedEntry; omega), ← n3 _ hx, ← hstep]
      rcases ih (j + 1) (by omega) _ _ _ h hc
        (by simp only [LiveAt, hhalf]; exact hn) (fun i hi1 => hkind i (by omega))
        with hfail | ⟨b1, g1, idx1, s1, sc, s2, s3, s4, s5, s6⟩
      · exact .inl hfail
      refine .inr ⟨b1, g1, idx1, s1, sc, s2, s3, s4, fun i hi1 hi2 => ?_, s6⟩
      by_cases hij : i = j
      · subst hij
        rcases s6 i (headBits t i pos) with s | s
        · rw [s]; exact hn
        · exact s.2.2.2
      · exact s5 i (by omega) hi2

/-- A build step goes on to a state that meets `Q`, or fails: over-subscribed with `tooMuch`, or out of room with `full`. -/
def BuildStep.Meets (x : BuildStep) (tooMuch full : Prop) (Q : BuildState → Prop) : Prop :=
  match x with
  | .go b => Q b
  | .fail _ why => (why = .overflow ∧ tooMuch) ∨ (why = .capacity ∧ full)

theorem BuildStep.Meets.andThen {x : BuildStep} {f : BuildState → BuildStep} {tooMuch full : Prop} {Q R : BuildState → Prop}
    (hx : x.Meets tooMuch full Q) (hf : ∀ b, Q b → (f b).Meets tooMuch full R) : (x.andThen f).Meets tooMuch full R := by
  cases x with
  | go b => exact hf b hx
  | fail tab why => exact hx

/-- A 16-bit value is found: nodes down its leading bits, then a leaf. -/
def FindsSym (t : Tree) (g : Nat → Nat → Spot) (w sym : Nat) : Prop :=
  ∃ k, k ≤ 16 - tableBits t ∧ (∀ j, j < k → g j (headBits t j w) = .node) ∧ g k (headBits t k w) = .leaf sym

/-- The symbols, in order, each with its length and where its share of the code space begins. -/
def codeStarts : List (Nat × Nat) → Nat → List (Nat × Nat × Nat)
  | [], _ => []
  | (sym, bl) :: rest, pos => (sym, bl, pos) :: codeStarts rest (pos + 2 ^ (16 - bl))

/-- A long phase: what is placed is found; before `pos` spots are taken, from `pos` on they are free. -/
def LongInv (t : Tree) (P : Nat → Nat → Prop) (b : BuildState) (placed : List (Nat × Nat × Nat)) (pos : Nat) : Prop :=
  ∃ g idx, TreeShape t b g idx ∧ Counted t P g b.next ∧ b.pos = pos * 2 ^ tableBits t ∧ pos ≤ 2 ^ 16
    ∧ (∀ k p, k ≤ 16 - tableBits t → LiveAt t g k p → pos ≤ p * 2 ^ (16 - tableBits t - k) → g k p = .free)
    ∧ (∀ k p, k ≤ 16 - tableBits t → p * 2 ^ (16 - tableBits t - k) < pos →
        pos < (p + 1) * 2 ^ (16 - tableBits t - k) → g k p = .node)
    ∧ ∀ x ∈ placed, ∀ w, x.2.2 ≤ w → w < x.2.2 + 2 ^ (16 - x.2.1) → FindsSym t g w x.1

/-- The values of an aligned share of the code space agree in their leading bits. -/
theorem headBits_of_aligned (t : Tree) (d pos w j : Nat) (hd : d ≤ 16 - tableBits t) (hj : j ≤ d)
    (ha : 2 ^ (16 - tableBits t - d) ∣ pos) (h1 : pos ≤ w) (h2 : w < pos + 2 ^ (16 - tableBits t - d)) :
    headBits t j w = headBits t j pos := by
  obtain ⟨m, rfl⟩ := ha
  have e : ∀ v, headBits t j v = v / 2 ^ (16 - tableBits t - d) / 2 ^ (d - j) := by
    intro v
    unfold headBits
    rw [Nat.div_div_eq_div_mul, ← Nat.pow_add]; congr 2; omega
  rw [e, e]
  congr 1
  rw [Nat.mul_div_cancel_left _ (by positivity)]
  have hp : 0 < 2 ^ (16 - tableBits t - d) := by positivity
  obtain ⟨r, rfl⟩ := Nat.exists_eq_add_of_le h1
  rw [Nat.mul_add_div hp, Nat.div_eq_of_lt (by omega), Nat.add_zero]

/-- What is asked of one symbol's share `(sym, bl, start)`: that it says `tooMuch` when it ends beyond the code space, and that
the spots above its leaf have the property `P`. -/
def ShareOk (t : Tree) (P : Nat → Nat → Prop) (tooMuch : Prop) (x : Nat × Nat × Nat) : Prop :=
  (2 ^ 16 < x.2.2 + 2 ^ (16 - x.2.1) → tooMuch) ∧ ∀ i, i < x.2.1 - tableBits t → P i (headBits t i x.2.2)

/-- One long code keeps what is placed and places its own share, or fails. -/
theorem placeNode_meets {t : Tree} {P : Nat → Nat → Prop} {tooMuch : Prop} {b : BuildState} {placed : List (Nat × Nat × Nat)}
    {pos bl sym : Nat} (h : LongInv t P b placed pos) (hbl : tableBits t < bl) (hbl2 : bl ≤ 16) (ha : 2 ^ (16 - bl) ∣ pos)
    (hs : sym < maxSyms t) (hok : ShareOk t P tooMuch (sym, bl, pos)) :
    (placeNode t bl (2 ^ (16 + tableBits t - bl)) sym b).Meets tooMuch (Exhausted t P)
      (fun b' => LongInv t P b' (placed ++ [(sym, bl, pos)]) (pos + 2 ^ (16 - bl))) := by
  obtain ⟨g, idx, hsh, hcnt, hpos, hle, hfree, hnode, hpl⟩ := h
  have htb := tableBits_bounds t
  unfold placeNode
  split
  · next hov =>
    refine .inl ⟨rfl, hok.1 ?_⟩
    rw [hpos, Nat.mul_comm] at hov
    have := Nat.le_of_mul_le_mul_right hov (show 0 < 2 ^ tableBits t by positivity)
    have : 0 < 2 ^ (16 - bl) := by positivity
    simp only; omega
  next hov =>
  have hP := hok.2
  simp only at hP
  have hlt : pos < 2 ^ 16 := by
    by_contra hc
    apply hov
    rw [hpos, Nat.mul_comm]; exact Nat.mul_le_mul_right _ (by omega)
  -- names
  obtain ⟨d, hd⟩ : ∃ d, bl = tableBits t + d := ⟨bl - tableBits t, by omega⟩
  subst hd
  have hd16 : 16 - (tableBits t + d) = 16 - tableBits t - d := by omega
  have hdD : d ≤ 16 - tableBits t := by omega
  rw [hd16] at ha ⊢
  rw [show tableBits t + d - tableBits t = d by omega] at hP ⊢
  have hidx0 : b.pos >>> 16 = idx 0 (headBits t 0 pos) := by
    rw [hsh.base, hpos, Nat.shiftRight_eq_div_pow]
    unfold headBits
    rw [show (2:Nat) ^ 16 = 2 ^ tableBits t * 2 ^ (16 - tableBits t - 0) by rw [← Nat.pow_add]; congr 1; omega,
      ← Nat.div_div_eq_div_mul, Nat.mul_div_cancel _ (by positivity)]
  have hlive0 : LiveAt t g 0 (headBits t 0 pos) := by
    simp only [LiveAt, headBits]
    rw [Nat.div_lt_iff_lt_mul (by positivity), ← Nat.pow_add, show tableBits t + (16 - tableBits t - 0) = 16 by omega]
    exact hlt
  have hlow : ∀ i, headBits t i pos * 2 ^ (16 - tableBits t - i) ≤ pos := fun i => Nat.div_mul_le_self _ _
  have hupp : ∀ i, pos < (headBits t i pos + 1) * 2 ^ (16 - tableBits t - i) := by
    intro i
    have := Nat.lt_mul_div_succ pos (show 0 < 2 ^ (16 - tableBits t - i) by positivity)
    rw [Nat.mul_comm]; exact this
  have hkind : ∀ i, i ≤ d → LiveAt t g i (headBits t i pos) →
      g i (headBits t i pos) = .free ∨ g i (headBits t i pos) = .node := by
    intro i hi hli
    rcases Nat.lt_or_ge (headBits t i pos * 2 ^ (16 - tableBits t - i)) pos with hc | hc
    · exact .inr (hnode _ _ (by omega) hc (hupp i))
    · exact .inl (hfree _ _ (by omega) hli hc)
  have hbase : headBits t d pos * 2 ^ (16 - tableBits t - d) = pos := Nat.div_mul_cancel ha
  rw [hidx0, hpos]
  rcases nodeChain_shape t P pos d hdD d 0 (by omega) b g idx hsh hcnt hP hlive0
    (fun i _ hi hli => hkind i (by omega) hli) (fun b1 leaf => .go { b1 with
      table := NatArray.set b1.table leaf sym, pos := b1.pos + 2 ^ (16 + tableBits t - (tableBits t + d)) })
    with ⟨tab, e, hx⟩ | ⟨b1, g1, idx1, s1, sc, s2, s3, s4, s5, s6⟩
  · rw [e]; exact .inr ⟨rfl, hx⟩
  rw [s3]
  -- the leaf's spot was free
  have hgd : g d (headBits t d pos) = .free := by
    by_cases hl : LiveAt t g d (headBits t d pos)
    · exact hfree _ _ hdD hl (by omega)
    · exact hsh.dead _ _ hl
  have hg1d : g1 d (headBits t d pos) = .free := by
    rcases s6 d (headBits t d pos) with s | s
    · rw [s]; exact hgd
    · omega
  have hsh2 := s1.setLeaf s4 hg1d hs (b1.pos + 2 ^ (16 + tableBits t - (tableBits t + d)))
  have hmono : ∀ k p, g k p ≠ .free → markSpot g1 d (headBits t d pos) (.leaf sym) k p = g k p := by
    intro k p hne
    have h1 : g1 k p = g k p := by
      rcases s6 k p with s | s
      · exact s
      · exact absurd s.1 hne
    rw [markSpot_other, h1]
    rintro ⟨rfl, rfl⟩; exact hne hgd
  refine ⟨_, _, hsh2, ?_, ?_, ?_, ?_, ?_, ?_⟩
  · obtain ⟨taken, c1, c2⟩ := sc
    refine ⟨taken, c1, fun q hq => ⟨?_, (c2 q hq).2⟩⟩
    rw [markSpot_other, (c2 q hq).1]
    rintro ⟨h1, h2⟩
    have := (c2 q hq).1
    rw [h1, h2, hg1d] at this; cases this
  · simp only [s2, hpos]
    rw [Nat.add_mul, ← Nat.pow_add]; congr 2; omega
  · obtain ⟨m, hm⟩ := ha
    have h16 : (2:Nat) ^ 16 = 2 ^ (16 - tableBits t - d) * 2 ^ (tableBits t + d) := by rw [← Nat.pow_add]; congr 1; omega
    rw [hm] at hlt ⊢
    rw [h16] at hlt ⊢
    have := Nat.lt_of_mul_lt_mul_left hlt
    calc _ = 2 ^ (16 - tableBits t - d) * (m + 1) := by ring
      _ ≤ _ := Nat.mul_le_mul_left _ this
  · intro k p hk hl hge
    have hp0 : 0 < 2 ^ (16 - tableBits t - d) := by positivity
    have hne : ¬ (k ≤ d ∧ p = headBits t k pos) := by
      rintro ⟨-, rfl⟩; have := hlow k; omega
    rw [markSpot_other (by rintro ⟨rfl, rfl⟩; exact hne ⟨Nat.le_refl _, rfl⟩)]
    have h1 : g1 k p = g k p := by
      rcases s6 k p with s | s
      · exact s
      · exact absurd ⟨by omega, s.2.2.1⟩ hne
    rw [h1]
    by_cases hlg : LiveAt t g k p
    · exact hfree _ _ hk hlg (by omega)
    · exact hsh.dead _ _ hlg
  · intro k p hk hlo hup
    by_cases hkd : d ≤ k
    · exfalso
      have hdv : 2 ^ (16 - tableBits t - k) ∣ pos + 2 ^ (16 - tableBits t - d) :=
        Nat.dvd_add (Nat.dvd_trans (Nat.pow_dvd_pow 2 (by omega)) ha) (Nat.pow_dvd_pow 2 (by omega))
      obtain ⟨m, hm⟩ := hdv
      rw [hm] at hlo hup
      rw [Nat.mul_comm] at hlo hup
      have a1 := Nat.lt_of_mul_lt_mul_left hlo
      rw [Nat.mul_comm (p + 1)] at hup
      have a2 := Nat.lt_of_mul_lt_mul_left (by rw [Nat.mul_comm m] at hup; exact hup)
      omega
    · rcases Nat.lt_or_ge (p * 2 ^ (16 - tableBits t - k)) pos with hc | hc
      · have hgn := hnode k p hk hc (by have : 0 < 2 ^ (16 - tableBits t - d) := by positivity
                                        omega)
        rw [hmono k p (by rw [hgn]; simp), hgn]
      · have hdv : 2 ^ (16 - tableBits t - d) ∣ p * 2 ^ (16 - tableBits t - k) :=
          Nat.dvd_trans (Nat.pow_dvd_pow 2 (by omega)) (Nat.dvd_mul_left _ _)
        have heq : p * 2 ^ (16 - tableBits t - k) = pos := by
          obtain ⟨m, hm⟩ := ha
          obtain ⟨m', hm'⟩ := hdv
          rw [hm'] at hlo hc ⊢
          rw [hm] at hlo hc ⊢
          have hp0 : 0 < 2 ^ (16 - tableBits t - d) := by positivity
          have a1 := Nat.le_of_mul_le_mul_left hc hp0
          have a2 : m' < m + 1 := Nat.lt_of_mul_lt_mul_left (a := 2 ^ (16 - tableBits t - d))
            (by rw [Nat.mul_add, Nat.mul_one]; exact hlo)
          rw [show m' = m by omega]
        have hpp : p = headBits t k pos := by
          unfold headBits; rw [← heq, Nat.mul_div_cancel _ (by positivity)]
        subst hpp
        rw [markSpot_other (by omega)]
        exact s5 k (by omega) (by omega)
  · intro x hx w hw1 hw2
    rcases List.mem_append.1 hx with hx | hx
    · obtain ⟨k, k1, k2, k3⟩ := hpl x hx w hw1 hw2
      exact ⟨k, k1, fun j hj => by rw [hmono _ _ (by rw [k2 j hj]; simp), k2 j hj],
        by rw [hmono _ _ (by rw [k3]; simp), k3]⟩
    · simp only [List.mem_singleton] at hx
      subst hx
      simp only at hw1 hw2
      rw [hd16] at hw2
      refine ⟨d, hdD, fun j hj => ?_, ?_⟩
      · rw [headBits_of_aligned t d pos w j hdD (by omega) ha hw1 hw2, markSpot_other (by omega)]
        exact s5 j (by omega) hj
      · rw [headBits_of_aligned t d pos w d hdD (Nat.le_refl _) ha hw1 hw2, markSpot_self]

end Sys2Proof.Machine
end

