-- ==== Sys2Proof/Laws/Codewords.lean ====
section
/-! SUPPORT. A complete build finds every symbol from its share of the code space (R144), and a symbol's canonical codeword is
the first bits of that share (R89). -/

namespace Sys2Proof.Machine

/-- Where the shares of symbols in code order end. -/
def codeEnd : List (Nat × Nat) → Nat → Nat
  | [], pos => pos
  | (_, bl) :: rest, pos => codeEnd rest (pos + 2 ^ (16 - bl))

theorem codeStarts_append (a b : List (Nat × Nat)) (pos : Nat) :
    codeStarts (a ++ b) pos = codeStarts a pos ++ codeStarts b (codeEnd a pos) := by
  induction a generalizing pos with
  | nil => rfl
  | cons x a ih => simp only [List.cons_append, codeStarts, codeEnd, ih]

theorem codeEnd_append (a b : List (Nat × Nat)) (pos : Nat) : codeEnd (a ++ b) pos = codeEnd b (codeEnd a pos) := by
  induction a generalizing pos with
  | nil => rfl
  | cons x a ih => simp only [List.cons_append, codeEnd, ih]

/-- The symbols of lengths `bl` to `bl + k - 1` in code order. -/
def lengthsFrom (t : Tree) (len : NatArray) : Nat → Nat → List (Nat × Nat)
  | 0, _ => []
  | k + 1, bl => (symsWithLength len (maxSyms t) bl).map (fun sym => (sym, bl)) ++ lengthsFrom t len k (bl + 1)

theorem lengthsFrom_add (t : Tree) (len : NatArray) (a b bl : Nat) :
    lengthsFrom t len (a + b) bl = lengthsFrom t len a bl ++ lengthsFrom t len b (bl + a) := by
  induction a generalizing bl with
  | zero => simp [lengthsFrom]
  | succ a ih =>
    rw [show a + 1 + b = (a + b) + 1 by omega]
    simp only [lengthsFrom, ih, List.append_assoc, show bl + 1 + a = bl + (a + 1) by omega]

theorem codeOrder_eq (t : Tree) (len : NatArray) : codeOrder t len = lengthsFrom t len 16 1 := by
  unfold codeOrder
  simp [List.range_succ, lengthsFrom]

theorem syms_lt {len : NatArray} {n bl sym : Nat} (h : sym ∈ symsWithLength len n bl) : sym < n := by
  unfold symsWithLength at h
  simp only [List.mem_map, List.mem_filter] at h
  obtain ⟨c, ⟨-, hc⟩, rfl⟩ := h
  simp at hc; exact hc.1

/-- All codes of one long length. -/
theorem forSyms_long {t : Tree} {P : Nat → Nat → Prop} {tooMuch : Prop} {bl : Nat} (hbl : tableBits t < bl) (hbl2 : bl ≤ 16)
    (syms : List Nat) (hs : ∀ s ∈ syms, s < maxSyms t) (b : BuildState) (placed : List (Nat × Nat × Nat)) (pos : Nat)
    (h : LongInv t P b placed pos) (ha : 2 ^ (16 - bl) ∣ pos)
    (hok : ∀ x ∈ codeStarts (syms.map (fun s => (s, bl))) pos, ShareOk t P tooMuch x) :
    (forSyms (placeNode t bl (2 ^ (16 + tableBits t - bl))) syms b).Meets tooMuch (Exhausted t P) (fun b' =>
      LongInv t P b' (placed ++ codeStarts (syms.map (fun s => (s, bl))) pos) (codeEnd (syms.map (fun s => (s, bl))) pos)
        ∧ 2 ^ (16 - bl) ∣ codeEnd (syms.map (fun s => (s, bl))) pos) := by
  induction syms generalizing b placed pos with
  | nil => simpa [codeStarts, codeEnd] using ⟨h, ha⟩
  | cons s syms ih =>
    simp only [List.map_cons, codeStarts, List.mem_cons, forall_eq_or_imp] at hok
    simp only [forSyms]
    refine (placeNode_meets h hbl hbl2 ha (hs s (by simp)) hok.1).andThen fun b1 h1 => ?_
    have := ih (fun x hx => hs x (by simp [hx])) b1 _ _ h1 (Nat.dvd_add ha (Nat.dvd_refl _)) hok.2
    simpa [codeStarts, codeEnd] using this

/-- The long phase places the symbols of its lengths. -/
theorem placeLong_meets {t : Tree} {P : Nat → Nat → Prop} {tooMuch : Prop} {len : NatArray} (k bl : Nat)
    (hbl : tableBits t < bl) (hbl2 : bl + k ≤ 17) (b : BuildState) (placed : List (Nat × Nat × Nat)) (pos : Nat)
    (h : LongInv t P b placed pos) (ha : 2 ^ (17 - bl) ∣ pos)
    (hok : ∀ x ∈ codeStarts (lengthsFrom t len k bl) pos, ShareOk t P tooMuch x) :
    (placeLong t len k bl b).Meets tooMuch (Exhausted t P) (fun b' =>
      LongInv t P b' (placed ++ codeStarts (lengthsFrom t len k bl) pos) (codeEnd (lengthsFrom t len k bl) pos)) := by
  induction k generalizing bl b placed pos with
  | zero => simpa [codeStarts, codeEnd, lengthsFrom, placeLong, BuildStep.Meets] using h
  | succ k ih =>
    simp only [lengthsFrom, codeStarts_append, List.mem_append] at hok
    simp only [placeLong]
    refine (forSyms_long hbl (by omega) _ (fun s hs => syms_lt hs) _ _ _ h
      (Nat.dvd_trans (Nat.pow_dvd_pow 2 (by omega)) ha) (fun x hx => hok x (.inl hx))).andThen fun b1 h1 => ?_
    have := ih (bl + 1) (by omega) (by omega) b1 _ _ h1.1 (by rw [show 17 - (bl + 1) = 16 - bl by omega]; exact h1.2)
      (fun x hx => hok x (.inr hx))
    simpa [codeStarts_append, codeEnd_append, lengthsFrom] using this

/-- The short phase: the direct entries below `pos` hold symbols, each share its own. -/
def ShortInv (t : Tree) (b : BuildState) (placed : List (Nat × Nat × Nat)) (pos : Nat) : Prop :=
  NatArray.wf b.table ∧ pos = b.pos * 2 ^ (16 - tableBits t) ∧ b.pos ≤ 2 ^ tableBits t
    ∧ (∀ p, p < b.pos → NatArray.get b.table p < maxSyms t)
    ∧ ∀ x ∈ placed, x.2.2 + 2 ^ (16 - x.2.1) ≤ pos ∧ ∀ w, x.2.2 ≤ w → w < x.2.2 + 2 ^ (16 - x.2.1) →
        NatArray.get b.table (w / 2 ^ (16 - tableBits t)) = x.1

/-- One short code keeps what is placed and places its own share, or fails. -/
theorem placeDirect_meets {t : Tree} {P : Nat → Nat → Prop} {tooMuch full : Prop} {b : BuildState}
    {placed : List (Nat × Nat × Nat)} {pos bl sym : Nat} (h : ShortInv t b placed pos) (hbl : bl ≤ tableBits t)
    (hs : sym < maxSyms t) (hok : ShareOk t P tooMuch (sym, bl, pos)) :
    (placeDirect (tableBits t) (2 ^ (tableBits t - bl)) sym b).Meets tooMuch full
      (fun b' => ShortInv t b' (placed ++ [(sym, bl, pos)]) (pos + 2 ^ (16 - bl))) := by
  obtain ⟨hw, hpos, hle, hlt, hpl⟩ := h
  have htb := tableBits_bounds t
  have hsz : 2 ^ (16 - bl) = 2 ^ (tableBits t - bl) * 2 ^ (16 - tableBits t) := by
    rw [← Nat.pow_add]; congr 1; omega
  have h16 : (2:Nat) ^ 16 = 2 ^ tableBits t * 2 ^ (16 - tableBits t) := by rw [← Nat.pow_add]; congr 1; omega
  have hp0 : 0 < 2 ^ (16 - tableBits t) := by positivity
  unfold placeDirect
  split
  · next hov =>
    refine .inl ⟨rfl, hok.1 ?_⟩
    simp only
    rw [hpos, hsz, ← Nat.add_mul, h16]
    exact Nat.mul_lt_mul_of_pos_right hov hp0
  next hov =>
  refine ⟨NatArray.wf_fill hw _ _ _, ?_, by simp only; omega, fun p hp => ?_, fun x hx => ?_⟩
  · simp only [hpos, hsz]; ring
  · simp only at hp ⊢
    rw [NatArray.get_fill hw]
    split
    · exact hs
    · exact hlt p (by omega)
  · rcases List.mem_append.1 hx with hx | hx
    · obtain ⟨h1, h2⟩ := hpl x hx
      refine ⟨by omega, fun w hw1 hw2 => ?_⟩
      simp only
      have hwlt : w / 2 ^ (16 - tableBits t) < b.pos := by
        rw [Nat.div_lt_iff_lt_mul hp0]; omega
      rw [NatArray.get_fill hw, if_neg (by omega)]
      exact h2 w hw1 hw2
    · simp only [List.mem_singleton] at hx
      subst hx
      refine ⟨Nat.le_refl _, fun w hw1 hw2 => ?_⟩
      simp only at hw1 hw2 ⊢
      rw [NatArray.get_fill hw, if_pos]
      constructor
      · rw [Nat.le_div_iff_mul_le hp0]; omega
      · rw [Nat.div_lt_iff_lt_mul hp0, Nat.add_mul, ← hsz]; omega

/-- All codes of one short length. -/
theorem forSyms_short {t : Tree} {P : Nat → Nat → Prop} {tooMuch full : Prop} {bl : Nat} (hbl : bl ≤ tableBits t)
    (syms : List Nat) (hs : ∀ s ∈ syms, s < maxSyms t) (b : BuildState) (placed : List (Nat × Nat × Nat)) (pos : Nat)
    (h : ShortInv t b placed pos) (hok : ∀ x ∈ codeStarts (syms.map (fun s => (s, bl))) pos, ShareOk t P tooMuch x) :
    (forSyms (placeDirect (tableBits t) (2 ^ (tableBits t - bl))) syms b).Meets tooMuch full (fun b' =>
      ShortInv t b' (placed ++ codeStarts (syms.map (fun s => (s, bl))) pos)
        (codeEnd (syms.map (fun s => (s, bl))) pos)) := by
  induction syms generalizing b placed pos with
  | nil => simpa [codeStarts, codeEnd, forSyms, BuildStep.Meets] using h
  | cons s syms ih =>
    simp only [List.map_cons, codeStarts, List.mem_cons, forall_eq_or_imp] at hok
    simp only [forSyms]
    refine (placeDirect_meets h hbl (hs s (by simp)) hok.1).andThen fun b1 h1 => ?_
    have := ih (fun x hx => hs x (by simp [hx])) b1 _ _ h1 hok.2
    simpa [codeStarts, codeEnd] using this

/-- The short phase places the symbols of its lengths. -/
theorem placeShort_meets {t : Tree} {P : Nat → Nat → Prop} {tooMuch full : Prop} {len : NatArray} (k bl : Nat)
    (hbl2 : bl + k ≤ tableBits t + 1) (b : BuildState) (placed : List (Nat × Nat × Nat)) (pos : Nat)
    (h : ShortInv t b placed pos) (hok : ∀ x ∈ codeStarts (lengthsFrom t len k bl) pos, ShareOk t P tooMuch x) :
    (placeShort t len k bl b).Meets tooMuch full (fun b' =>
      ShortInv t b' (placed ++ codeStarts (lengthsFrom t len k bl) pos) (codeEnd (lengthsFrom t len k bl) pos)) := by
  induction k generalizing bl b placed pos with
  | zero => simpa [codeStarts, codeEnd, lengthsFrom, placeShort, BuildStep.Meets] using h
  | succ k ih =>
    simp only [lengthsFrom, codeStarts_append, List.mem_append] at hok
    simp only [placeShort]
    refine (forSyms_short (by omega) _ (fun s hs => syms_lt hs) _ _ _ h (fun x hx => hok x (.inl hx))).andThen
      fun b1 h1 => ?_
    have := ih (bl + 1) (by omega) b1 _ _ h1 (fun x hx => hok x (.inr hx))
    simpa [codeStarts_append, codeEnd_append, lengthsFrom] using this

/-- The long phase begins with the direct entries that the short codes filled. -/
theorem LongInv.begin {t : Tree} (P : Nat → Nat → Prop) {b : BuildState} {placed : List (Nat × Nat × Nat)} {pos : Nat}
    (h : ShortInv t b placed pos) :
    LongInv t P
      { table := NatArray.fill b.table b.pos (2 ^ tableBits t - b.pos) unusedEntry
        pos := b.pos * 65536
        next := max (maxSyms t) (2 ^ (tableBits t - 1)) } placed pos := by
  obtain ⟨hw, hpos, hle, hlt, hpl⟩ := h
  have htb := tableBits_bounds t
  have hfn := firstNode_bound t
  have hp0 : 0 < 2 ^ (16 - tableBits t) := by positivity
  have h16 : (2:Nat) ^ 16 = 2 ^ tableBits t * 2 ^ (16 - tableBits t) := by rw [← Nat.pow_add]; congr 1; omega
  have hget : ∀ p, NatArray.get (NatArray.fill b.table b.pos (2 ^ tableBits t - b.pos) unusedEntry) p =
      if b.pos ≤ p ∧ p < 2 ^ tableBits t then unusedEntry else NatArray.get b.table p := by
    intro p; rw [NatArray.get_fill hw]; congr 2; rw [show b.pos + (2 ^ tableBits t - b.pos) = 2 ^ tableBits t by omega]
  have hlive : ∀ k p, LiveAt t (fun k p => if k = 0 ∧ p < b.pos then Spot.leaf (NatArray.get b.table p) else .free) k p ↔
      k = 0 ∧ p < 2 ^ tableBits t := by
    intro k p
    cases k with
    | zero => simp [LiveAt]
    | succ k => simp only [LiveAt]; split <;> simp
  refine ⟨fun k p => if k = 0 ∧ p < b.pos then .leaf (NatArray.get b.table p) else .free, fun _ p => p,
    ?_, ⟨∅, by simp [firstNode], fun q hq => by simp at hq⟩, ?_, ?_, ?_, ?_, ?_⟩
  · constructor
    · exact NatArray.wf_fill hw _ _ _
    · exact Nat.le_refl _
    · exact hfn.2.1
    · intro p; rfl
    · intro k p hl; obtain ⟨-, hl⟩ := (hlive _ _).1 hl; have := hfn.2.2.1; simp only; unfold firstNode at this; omega
    · intro k p k' p' h1 h2 he
      have h1 := ((hlive _ _).1 h1).1
      have h2 := ((hlive _ _).1 h2).1
      exact ⟨by omega, he⟩
    · intro k p hl
      rw [if_neg]; rintro ⟨hk, hp⟩; exact hl ((hlive _ _).2 ⟨hk, by omega⟩)
    · intro k p hl hg
      obtain ⟨hk, hp⟩ := (hlive _ _).1 hl
      simp only at hg ⊢
      rw [hget, if_pos]
      refine ⟨?_, hp⟩
      by_contra hc
      rw [if_pos ⟨hk, by omega⟩] at hg; cases hg
    · intro k p s hg
      simp only at hg ⊢
      split at hg
      · next hc =>
        cases hg
        rw [hget, if_neg (by omega)]
        exact ⟨rfl, hlt p hc.2⟩
      · cases hg
    · intro k p hg
      split at hg <;> cases hg
  · simp only [hpos]; rw [Nat.mul_assoc, ← Nat.pow_add, show 16 - tableBits t + tableBits t = 16 by omega]
  · rw [hpos, h16]; exact Nat.mul_le_mul_right _ hle
  · intro k p hk hl hge
    obtain ⟨hk0, hp⟩ := (hlive _ _).1 hl
    subst hk0
    simp only
    rw [if_neg]
    rintro ⟨-, hc⟩
    rw [hpos] at hge
    have := Nat.le_of_mul_le_mul_right hge hp0
    omega
  · intro k p hk h1 h2
    exfalso
    have hd : 2 ^ (16 - tableBits t - k) ∣ pos := by
      rw [hpos]; exact Nat.dvd_trans (Nat.pow_dvd_pow 2 (by omega)) (Nat.dvd_mul_left _ _)
    obtain ⟨m, hm⟩ := hd
    rw [hm, Nat.mul_comm (2 ^ _)] at h1 h2
    have a1 := Nat.lt_of_mul_lt_mul_right h1
    have a2 := Nat.lt_of_mul_lt_mul_right h2
    omega
  · intro x hx w hw1 hw2
    obtain ⟨h1, h2⟩ := hpl x hx
    have hwlt : w / 2 ^ (16 - tableBits t) < b.pos := by
      rw [Nat.div_lt_iff_lt_mul hp0]; omega
    refine ⟨0, by omega, fun j hj => by omega, ?_⟩
    simp only [headBits, Nat.sub_zero]
    rw [if_pos ⟨trivial, hwlt⟩, h2 w hw1 hw2]

/-- What the accumulator's lookup answers, by its top 16 bits. -/
theorem lookup_finds {t : Tree} {b : BuildState} {g idx} (h : TreeShape t b g idx) (r : BitReader) (sym : Nat)
    (hf : FindsSym t g (r.bitBuf.toNat / 2 ^ 16) sym) : lookupSym t b.table r = some sym := by
  have htb := tableBits_bounds t
  obtain ⟨k, hk, hn, hl⟩ := hf
  generalize hwd : r.bitBuf.toNat / 2 ^ 16 = w at hn hl
  have walk : ∀ i j, i + j = k → 0 < i → walkNodes t b.table r.bitBuf (32 - tableBits t - j)
      (NatArray.get b.table (idx j (headBits t j w))) = some sym := by
    intro i
    induction i with
    | zero => intro j _ h0; omega
    | succ i ih =>
      intro j hij _
      rw [show 32 - tableBits t - j = (31 - tableBits t - j) + 1 by omega, walkNodes]
      obtain ⟨n1, n2, n3⟩ := h.node _ _ (hn j (by omega))
      have hbit : (if r.bitBuf.getLsbD (31 - tableBits t - j) = true then 1 else 0)
          = w / 2 ^ (16 - tableBits t - (j + 1)) % 2 := by
        have e : w / 2 ^ (16 - tableBits t - (j + 1)) = r.bitBuf.toNat / 2 ^ (31 - tableBits t - j) := by
          rw [← hwd, Nat.div_div_eq_div_mul, ← Nat.pow_add]; congr 2; omega
        rw [e, BitVec.getLsbD, Nat.testBit_eq_decide_div_mod_eq]
        split
        · next hh => simp at hh; omega
        · next hh => simp at hh; omega
      have hx : w / 2 ^ (16 - tableBits t - (j + 1)) % 2 < 2 := Nat.mod_lt _ (by omega)
      simp only [hbit]
      rw [← n3 _ hx, ← headBits_succ t j w (by omega)]
      by_cases hi : i = 0
      · have hjk : j + 1 = k := by omega
        rw [hjk]
        obtain ⟨l1, l2⟩ := h.leaf _ _ _ hl
        rw [l1, if_pos l2]
      · obtain ⟨m1, m2, -⟩ := h.node _ _ (hn (j + 1) (by omega))
        have := (firstNode_bound t).2.2.2
        rw [if_neg (by omega)]
        have := ih (j + 1) (by omega) (by omega)
        rwa [show 32 - tableBits t - (j + 1) = 31 - tableBits t - j by omega] at this
  have hpk : r.peek (tableBits t) = idx 0 (headBits t 0 w) := by
    rw [h.base, BitReader.peek_eq _ _ (by omega), ← hwd]
    unfold headBits
    rw [Nat.div_div_eq_div_mul, ← Nat.pow_add]; congr 2; omega
  unfold lookupSym
  simp only [hpk]
  by_cases hk0 : k = 0
  · subst hk0
    obtain ⟨l1, l2⟩ := h.leaf _ _ _ hl
    rw [l1, if_pos l2]
  · obtain ⟨m1, -, -⟩ := h.node _ _ (hn 0 (by omega))
    have := (firstNode_bound t).2.2.2
    rw [if_neg (by omega)]
    exact walk k 0 (by omega) (by omega)

/-- A share lies inside the code space its list takes. -/
theorem codeStarts_bounds {l : List (Nat × Nat)} {pos : Nat} {x : Nat × Nat × Nat} (h : x ∈ codeStarts l pos) :
    pos ≤ x.2.2 ∧ x.2.2 + 2 ^ (16 - x.2.1) ≤ codeEnd l pos := by
  have hmono : ∀ (l : List (Nat × Nat)) pos, pos ≤ codeEnd l pos := by
    intro l
    induction l with
    | nil => intro pos; exact Nat.le_refl _
    | cons y l ih => intro pos; exact Nat.le_trans (Nat.le_add_right _ _) (ih _)
  induction l generalizing pos with
  | nil => simp [codeStarts] at h
  | cons y l ih =>
    simp only [codeStarts, List.mem_cons] at h
    simp only [codeEnd]
    rcases h with rfl | h
    · exact ⟨Nat.le_refl _, hmono _ _⟩
    · have := ih h; exact ⟨Nat.le_trans (Nat.le_add_right _ _) this.1, this.2⟩

theorem codeEnd_map (syms : List Nat) (bl pos : Nat) :
    codeEnd (syms.map (fun s => (s, bl))) pos = pos + syms.length * 2 ^ (16 - bl) := by
  induction syms generalizing pos with
  | nil => simp [codeEnd]
  | cons s syms ih => simp only [List.map_cons, codeEnd, ih, List.length_cons]; ring

/-- Symbols in code order take the code space of their lengths. -/
theorem codeEnd_codeSpace (t : Tree) (len : NatArray) (k : Nat) :
    codeEnd (lengthsFrom t len k 1) 0 = codeSpace t len k := by
  induction k with
  | zero => simp [lengthsFrom, codeEnd, codeSpace_zero]
  | succ k ih =>
    rw [lengthsFrom_add, codeEnd_append, ih, codeSpace_succ]
    simp only [lengthsFrom, List.append_nil, codeEnd_map, show 1 + k = k + 1 by omega]

/-- The canonical code follows the shares of the code space: a codeword is its share's first bits (R89). -/
theorem assignCodes_eq (l : List (Nat × Nat)) (next l0 pos : Nat) (hl0 : l0 ≤ 16) (hpos : next * 2 ^ (16 - l0) = pos)
    (hsort : ∀ y ∈ l, l0 ≤ y.2 ∧ y.2 ≤ 16) (hs : l.Pairwise (fun a b => a.2 ≤ b.2)) :
    assignCodes l next l0 = (codeStarts l pos).map (fun x => (x.1, fieldBits x.2.1 (x.2.2 / 2 ^ (16 - x.2.1)))) := by
  induction l generalizing next l0 pos with
  | nil => rfl
  | cons y l ih =>
    obtain ⟨sym, bl⟩ := y
    obtain ⟨h1, h2⟩ := hsort _ (List.mem_cons_self ..)
    simp only at h1 h2
    have hc : next * 2 ^ (bl - l0) * 2 ^ (16 - bl) = pos := by
      rw [Nat.mul_assoc, ← Nat.pow_add, ← hpos]; congr 2; omega
    simp only [assignCodes, codeStarts, List.map_cons]
    rw [← hc, Nat.mul_div_cancel _ (by positivity), hc]
    congr 1
    rw [List.pairwise_cons] at hs
    exact ih _ bl _ h2 (by rw [Nat.add_mul, hc, Nat.one_mul]) (fun z hz => ⟨hs.1 z hz, (hsort z (by simp [hz])).2⟩) hs.2

theorem lengthsFrom_mem {t : Tree} {len : NatArray} {k bl : Nat} {y : Nat × Nat} (h : y ∈ lengthsFrom t len k bl) :
    bl ≤ y.2 ∧ y.2 < bl + k ∧ y.1 ∈ symsWithLength len (maxSyms t) y.2 := by
  induction k generalizing bl with
  | zero => simp [lengthsFrom] at h
  | succ k ih =>
    simp only [lengthsFrom, List.mem_append, List.mem_map] at h
    rcases h with ⟨s, hs, rfl⟩ | h
    · exact ⟨Nat.le_refl _, by simp only; omega, hs⟩
    · have := ih h; exact ⟨by omega, by omega, this.2.2⟩

theorem lengthsFrom_sorted (t : Tree) (len : NatArray) (k bl : Nat) :
    (lengthsFrom t len k bl).Pairwise (fun a b => a.2 ≤ b.2) := by
  induction k generalizing bl with
  | zero => exact List.Pairwise.nil
  | succ k ih =>
    simp only [lengthsFrom]
    rw [List.pairwise_append]
    refine ⟨?_, ih _, ?_⟩
    · rw [List.pairwise_map]; exact List.pairwise_of_forall (fun _ _ => Nat.le_refl _)
    · intro a ha c hc
      simp only [List.mem_map] at ha
      obtain ⟨s, -, rfl⟩ := ha
      have := (lengthsFrom_mem hc).1
      simp only; omega

theorem mem_lengthsFrom {t : Tree} {len : NatArray} {k bl j sym : Nat} (hj : bl ≤ j) (hj2 : j < bl + k)
    (h : sym ∈ symsWithLength len (maxSyms t) j) : (sym, j) ∈ lengthsFrom t len k bl := by
  induction k generalizing bl with
  | zero => omega
  | succ k ih =>
    simp only [lengthsFrom, List.mem_append, List.mem_map]
    by_cases hb : j = bl
    · subst hb; exact .inl ⟨sym, h, rfl⟩
    · exact .inr (ih (by omega) (by omega))

theorem codeStarts_mem_order {l : List (Nat × Nat)} {pos : Nat} {x : Nat × Nat × Nat} (h : x ∈ codeStarts l pos) :
    (x.1, x.2.1) ∈ l := by
  induction l generalizing pos with
  | nil => simp [codeStarts] at h
  | cons y l ih =>
    simp only [codeStarts, List.mem_cons] at h
    rcases h with rfl | h
    · simp
    · exact List.mem_cons_of_mem _ (ih h)

theorem codeStarts_of_mem {l : List (Nat × Nat)} {y : Nat × Nat} (pos : Nat) (h : y ∈ l) :
    ∃ st, (y.1, y.2, st) ∈ codeStarts l pos := by
  induction l generalizing pos with
  | nil => simp at h
  | cons z l ih =>
    simp only [List.mem_cons] at h
    simp only [codeStarts, List.mem_cons]
    rcases h with rfl | h
    · exact ⟨pos, .inl rfl⟩
    · obtain ⟨st, hst⟩ := ih (pos + 2 ^ (16 - z.2)) h
      exact ⟨st, .inr hst⟩

theorem anyLonger_iff {t : Tree} {len : NatArray} (h16 : ∀ c ∈ len, c.2 ≤ 16) {bl : Nat} (hbl : bl ≤ 16) :
    anyLonger len (maxSyms t) bl = true ↔ lengthsFrom t len (16 - bl) (bl + 1) ≠ [] := by
  unfold anyLonger
  rw [List.any_eq_true]
  constructor
  · rintro ⟨c, hc, hh⟩ hnil
    simp only [Bool.and_eq_true, decide_eq_true_eq] at hh
    have := mem_lengthsFrom (t := t) (len := len) (k := 16 - bl) (bl := bl + 1) (j := c.2) (sym := c.1) (by omega)
      (by have := h16 c hc; omega) (by
        unfold symsWithLength
        exact List.mem_map.2 ⟨c, List.mem_filter.2 ⟨hc, by simp [hh.1]⟩, rfl⟩)
    rw [hnil] at this; cases this
  · intro hne
    obtain ⟨y, hy⟩ := List.exists_mem_of_ne_nil _ hne
    obtain ⟨h1, -, h3⟩ := lengthsFrom_mem hy
    unfold symsWithLength at h3
    obtain ⟨c, hc, -⟩ := List.mem_map.1 h3
    obtain ⟨hc1, hc2⟩ := List.mem_filter.1 hc
    simp only [Bool.and_eq_true, decide_eq_true_eq, beq_iff_eq] at hc2
    exact ⟨c, hc1, by simp only [Bool.and_eq_true, decide_eq_true_eq]; omega⟩

/-- All that a build can do (R141, R142, R144), for any `tooMuch` that follows from a share beyond the code space and any `P` of
the spots above the leaves: it ends complete with the code space filled, and finds every symbol from every accumulator that
begins with its code, or, by R141's early return, with only the short codes' space filled; empty or incomplete with the space
that is taken; or it fails. -/
theorem build_cases {early : EarlyReturn} {t : Tree} {P : Nat → Nat → Prop} {tooMuch : Prop} {len before : NatArray} (hb : NatArray.wf before)
    (h16 : ∀ c ∈ len, c.2 ≤ 16) (hok : ∀ x ∈ codeStarts (codeOrder t len) 0, ShareOk t P tooMuch x) :
    match (buildTable early t len before).2 with
    | .complete =>
      (codeSpace t len 16 = 2 ^ 16 ∧ ∀ x ∈ codeStarts (codeOrder t len) 0, ∀ r : BitReader,
        x.2.2 ≤ r.bitBuf.toNat / 2 ^ 16 → r.bitBuf.toNat / 2 ^ 16 < x.2.2 + 2 ^ (16 - x.2.1) →
          lookupSym t (buildTable early t len before).1 r = some x.1)
      ∨ (early = .always ∧ codeSpace t len (tableBits t) = 2 ^ 16 ∧ 2 ^ 16 < codeSpace t len 16)
    | .empty => codeSpace t len 16 = 0
    | .overflow => tooMuch
    | .incomplete => 0 < codeSpace t len 16 ∧ codeSpace t len 16 < 2 ^ 16
    | .capacity => Exhausted t P := by
  have htb := tableBits_bounds t
  have hsplit : codeOrder t len = lengthsFrom t len (tableBits t) 1 ++ lengthsFrom t len (16 - tableBits t) (tableBits t + 1) := by
    rw [codeOrder_eq, ← Nat.add_comm 1, ← lengthsFrom_add, show tableBits t + (16 - tableBits t) = 16 by omega]
  have hall : codeEnd (codeOrder t len) 0 = codeSpace t len 16 := by rw [codeOrder_eq, codeEnd_codeSpace]
  rw [hsplit, codeStarts_append] at hok ⊢
  rw [hsplit, codeEnd_append] at hall
  simp only [List.mem_append] at hok ⊢
  have hshort := placeShort_meets (t := t) (len := len) (P := P) (tooMuch := tooMuch) (full := Exhausted t P) (tableBits t) 1
    (by omega) { table := before, pos := 0, next := 0 } [] 0 ⟨hb, by simp, by simp, by simp, by simp⟩
    (fun x hx => hok x (.inl hx))
  unfold buildTable
  cases hs : placeShort t len (tableBits t) 1 { table := before, pos := 0, next := 0 } with
  | fail tab why =>
    rw [hs] at hshort
    rcases hshort with ⟨rfl, h⟩ | ⟨rfl, h⟩ <;> exact h
  | go b =>
    rw [hs] at hshort
    have hsi : ShortInv t b _ _ := hshort
    rw [List.nil_append] at hsi
    have hsi' := hsi
    obtain ⟨hw, hpos, hle, hlt, hpl⟩ := hsi'
    have h16' : (2:Nat) ^ 16 = 2 ^ tableBits t * 2 ^ (16 - tableBits t) := by rw [← Nat.pow_add]; congr 1; omega
    simp only
    by_cases hfull : b.pos = 2 ^ tableBits t
    · rw [if_pos hfull]
      have hend : codeEnd (lengthsFrom t len (tableBits t) 1) 0 = 2 ^ 16 := by rw [hpos, hfull, h16']
      by_cases hlong : anyLonger len (maxSyms t) (tableBits t) = true
      · have hne := (anyLonger_iff h16 (by omega)).1 hlong
        cases hl : lengthsFrom t len (16 - tableBits t) (tableBits t + 1) with
        | nil => exact absurd hl hne
        | cons y l =>
          have hy : (y.1, y.2, codeEnd (lengthsFrom t len (tableBits t) 1) 0) ∈
              codeStarts (lengthsFrom t len (16 - tableBits t) (tableBits t + 1)) (codeEnd (lengthsFrom t len (tableBits t) 1) 0) := by
            rw [hl]; exact List.mem_cons_self ..
          have h0 : 0 < 2 ^ (16 - y.2) := by positivity
          cases early with
          | noneLonger =>
            simp only [hlong, and_self, if_true]
            exact (hok _ (.inr hy)).1 (by simp only [hend]; omega)
          | always =>
            have hbd := (codeStarts_bounds hy).2
            rw [hall] at hbd
            simp only [hend] at hbd
            exact .inr ⟨rfl, by rw [← codeEnd_codeSpace, hend], by omega⟩
      · rw [if_neg (fun h => hlong h.2)]
        have hnil : lengthsFrom t len (16 - tableBits t) (tableBits t + 1) = [] := by
          by_contra hne; exact hlong ((anyLonger_iff h16 (by omega)).2 hne)
        rw [hnil] at hall ⊢
        refine .inl ⟨by rw [← hall, ← hend]; rfl, fun x hx r h1 h2 => ?_⟩
        rcases hx with hx | hx
        · obtain ⟨-, hq⟩ := hpl x hx
          have hq := hq _ h1 h2
          have hpk : r.peek (tableBits t) = r.bitBuf.toNat / 2 ^ 16 / 2 ^ (16 - tableBits t) := by
            rw [BitReader.peek_eq _ _ (by omega), Nat.div_div_eq_div_mul, ← Nat.pow_add]; congr 2; omega
          have hpl2 : r.peek (tableBits t) < b.pos := by
            rw [hfull]; exact BitReader.peek_lt _ _ (by omega)
          have := hlt _ hpl2
          unfold lookupSym
          simp only
          rw [hpk] at this ⊢
          rw [hq] at this ⊢
          rw [if_pos this]
        · cases hx
    · rw [if_neg hfull]
      have hlm := placeLong_meets (t := t) (len := len) (tooMuch := tooMuch) (16 - tableBits t) (tableBits t + 1) (by omega)
        (by omega) _ _ _ (LongInv.begin P hsi) ⟨b.pos, by rw [hpos, Nat.mul_comm]; congr 2; omega⟩
        (fun x hx => hok x (.inr hx))
      unfold buildLong
      simp only
      generalize placeLong t len (16 - tableBits t) (tableBits t + 1) _ = x at hlm ⊢
      cases x with
      | fail tab why => rcases hlm with ⟨rfl, h⟩ | ⟨rfl, h⟩ <;> exact h
      | go b2 =>
        simp only
        obtain ⟨g, idx, hsh, -, hp2, hle2, -, -, hpl2⟩ := hlm
        rw [hall] at hp2 hle2
        by_cases hc : b2.pos = 2 ^ tableBits t * 65536
        · rw [if_pos hc]
          refine .inl ⟨?_, fun x hx r h1 h2 => lookup_finds hsh r _ (hpl2 x (List.mem_append.2 hx) _ h1 h2)⟩
          rw [hp2, Nat.mul_comm] at hc
          exact Nat.eq_of_mul_eq_mul_left (by positivity) hc
        · rw [if_neg hc]
          have hlt16 : codeSpace t len 16 < 2 ^ 16 := by
            rcases Nat.lt_or_ge (codeSpace t len 16) (2 ^ 16) with h | h
            · exact h
            · exfalso; apply hc; rw [hp2, show codeSpace t len 16 = 2 ^ 16 by omega, Nat.mul_comm]; rfl
          by_cases ha : anyLonger len (maxSyms t) 0 = true
          · rw [if_pos ha]
            refine ⟨?_, hlt16⟩
            have hne := (anyLonger_iff h16 (by omega)).1 ha
            obtain ⟨y, hy⟩ := List.exists_mem_of_ne_nil _ hne
            obtain ⟨st, hst⟩ := codeStarts_of_mem 0 hy
            have hbd := (codeStarts_bounds hst).2
            rw [show 16 - 0 = 16 by rfl, show 0 + 1 = 1 by rfl, codeEnd_codeSpace] at hbd
            have : 0 < 2 ^ (16 - y.2) := by positivity
            simp only at hbd; omega
          · rw [if_neg ha]
            have hnil : lengthsFrom t len (16 - 0) (0 + 1) = [] := by
              by_contra hne; exact ha ((anyLonger_iff h16 (by omega)).2 hne)
            simp only
            rw [← codeEnd_codeSpace, show lengthsFrom t len 16 1 = [] from hnil]; rfl

/-- A build whose short codes fill the direct entries ends there: complete, or with an overflow when a longer code counts (R141,
R142). -/
theorem build_filled {early : EarlyReturn} {t : Tree} {len before : NatArray} (hb : NatArray.wf before)
    (hk : codeSpace t len (tableBits t) = 2 ^ 16) :
    (buildTable early t len before).2 =
      if early = .noneLonger ∧ anyLonger len (maxSyms t) (tableBits t) = true then .overflow else .complete := by
  have htb := tableBits_bounds t
  have hshort := placeShort_meets (t := t) (len := len) (P := fun _ _ => True) (tooMuch := False) (full := False) (tableBits t) 1
    (by omega) { table := before, pos := 0, next := 0 } [] 0 ⟨hb, by simp, by simp, by simp, by simp⟩
    (fun x hx => ⟨fun h => by
      have := (codeStarts_bounds hx).2
      rw [codeEnd_codeSpace, hk] at this; omega, fun _ _ => trivial⟩)
  unfold buildTable
  cases hs : placeShort t len (tableBits t) 1 { table := before, pos := 0, next := 0 } with
  | fail tab why => rw [hs] at hshort; rcases hshort with ⟨-, h⟩ | ⟨-, h⟩ <;> exact h.elim
  | go b =>
    rw [hs] at hshort
    obtain ⟨-, hpos, -⟩ := hshort
    rw [codeEnd_codeSpace, hk, show (2 : Nat) ^ 16 = 2 ^ tableBits t * 2 ^ (16 - tableBits t) by
      rw [← Nat.pow_add]; congr 1; omega] at hpos
    simp only
    rw [if_pos (Nat.eq_of_mul_eq_mul_right (by positivity) hpos).symm]

theorem codeStarts_dvd {l : List (Nat × Nat)} {pos : Nat} (h : ∀ y ∈ l, 2 ^ (16 - y.2) ∣ pos)
    (hs : l.Pairwise (fun a b => a.2 ≤ b.2)) {x : Nat × Nat × Nat} (hx : x ∈ codeStarts l pos) :
    2 ^ (16 - x.2.1) ∣ x.2.2 := by
  induction l generalizing pos with
  | nil => simp [codeStarts] at hx
  | cons y l ih =>
    rw [List.pairwise_cons] at hs
    simp only [codeStarts, List.mem_cons] at hx
    rcases hx with rfl | hx
    · exact h _ (by simp)
    · exact ih (fun z hz => Nat.dvd_add (h z (by simp [hz])) (Nat.pow_dvd_pow 2 (by have := hs.1 z hz; omega))) hs.2 hx

/-- A share of the code space begins at a multiple of its size. -/
theorem codeStarts_aligned {t : Tree} {len : NatArray} {x : Nat × Nat × Nat} (hx : x ∈ codeStarts (codeOrder t len) 0) :
    2 ^ (16 - x.2.1) ∣ x.2.2 :=
  codeStarts_dvd (fun _ _ => Nat.dvd_zero _) (by rw [codeOrder_eq]; exact lengthsFrom_sorted _ _ _ _) hx

/-- A symbol's codeword is the first bits of its share of the code space. -/
theorem codeword_codeStarts {t : Tree} {len : NatArray} (hw : NatArray.wf len) {sym : Nat} (hs : sym < maxSyms t)
    (h0 : NatArray.get len sym ≠ 0) (h16 : NatArray.get len sym ≤ 16) :
    ∃ st, (sym, NatArray.get len sym, st) ∈ codeStarts (codeOrder t len) 0
      ∧ codeword t len sym = some (fieldBits (NatArray.get len sym) (st / 2 ^ (16 - NatArray.get len sym))) := by
  have hm : (sym, NatArray.get len sym) ∈ codeOrder t len := by
    rw [codeOrder_eq]
    exact mem_lengthsFrom (by omega) (by omega) ((mem_symsWithLength hw h0).2 ⟨hs, rfl⟩)
  have hall : ∀ x ∈ codeStarts (codeOrder t len) 0, 1 ≤ x.2.1 ∧ x.2.1 ≤ 16 ∧ x.2.1 = NatArray.get len x.1 := by
    intro x hx
    have := codeStarts_mem_order hx
    rw [codeOrder_eq] at this
    obtain ⟨a1, a2, a3⟩ := lengthsFrom_mem this
    simp only at a1 a2 a3
    exact ⟨a1, by omega, ((mem_symsWithLength hw (by omega)).1 a3).2.symm⟩
  have heq := assignCodes_eq (codeOrder t len) 0 0 0 (by omega) (by simp)
    (fun y hy => by rw [codeOrder_eq] at hy; have := lengthsFrom_mem hy; omega)
    (by rw [codeOrder_eq]; exact lengthsFrom_sorted _ _ _ _)
  unfold codeword
  rw [heq, List.find?_map]
  obtain ⟨st, hst⟩ := codeStarts_of_mem 0 hm
  cases hf : (codeStarts (codeOrder t len) 0).find? ((fun c : Nat × List Bool => c.1 == sym) ∘
      fun x : Nat × Nat × Nat => (x.1, fieldBits x.2.1 (x.2.2 / 2 ^ (16 - x.2.1)))) with
  | none =>
    rw [List.find?_eq_none] at hf
    exact absurd (by simp) (hf _ hst)
  | some x =>
    have hx := List.mem_of_find?_eq_some hf
    have hp := List.find?_some hf
    simp only [Function.comp, beq_iff_eq] at hp
    obtain ⟨s, bl, st'⟩ := x
    simp only at hp
    subst hp
    have h3 := (hall _ hx).2.2
    simp only at h3
    subst h3
    exact ⟨st', hx, rfl⟩

end Sys2Proof.Machine
end

