-- ==== Sys2Proof/Laws/Capacity.lean ====
section
/-! SUPPORT. The node capacity of a decode array (R145): when the codes fill the code space, each node's middle is the start
of a long code, so that there are fewer nodes than long codes. -/

namespace Sys2Proof.Machine

/-- A spot that some longer code's share begins in: an inner node of the canonical code. -/
def Straddled (t : Tree) (l : List (Nat × Nat)) (k p : Nat) : Prop :=
  ∃ x ∈ codeStarts l 0, p * 2 ^ (16 - tableBits t - k) ≤ x.2.2 ∧ x.2.2 < (p + 1) * 2 ^ (16 - tableBits t - k)
    ∧ tableBits t + k < x.2.1

theorem straddled_above {t : Tree} {l : List (Nat × Nat)} {x : Nat × Nat × Nat} (hx : x ∈ codeStarts l 0) (i : Nat)
    (hi : i < x.2.1 - tableBits t) : Straddled t l i (headBits t i x.2.2) := by
  refine ⟨x, hx, Nat.div_mul_le_self _ _, ?_, by omega⟩
  have := Nat.lt_mul_div_succ x.2.2 (show 0 < 2 ^ (16 - tableBits t - i) by positivity)
  rw [Nat.mul_comm]; exact this

/-- The shares cover the space they take. -/
theorem codeStarts_cover {l : List (Nat × Nat)} {pos w : Nat} (h1 : pos ≤ w) (h2 : w < codeEnd l pos) :
    ∃ y ∈ codeStarts l pos, y.2.2 ≤ w ∧ w < y.2.2 + 2 ^ (16 - y.2.1) := by
  induction l generalizing pos with
  | nil => simp only [codeEnd] at h2; omega
  | cons y l ih =>
    simp only [codeEnd] at h2
    simp only [codeStarts, List.mem_cons]
    rcases Nat.lt_or_ge w (pos + 2 ^ (16 - y.2)) with h | h
    · exact ⟨_, .inl rfl, h1, h⟩
    · obtain ⟨z, hz, hz2⟩ := ih h h2
      exact ⟨z, .inr hz, hz2⟩

/-- The shares are disjoint. -/
theorem codeStarts_unique {l : List (Nat × Nat)} {pos : Nat} {x y : Nat × Nat × Nat} (hx : x ∈ codeStarts l pos)
    (hy : y ∈ codeStarts l pos) (h1 : y.2.2 ≤ x.2.2) (h2 : x.2.2 < y.2.2 + 2 ^ (16 - y.2.1)) : x = y := by
  induction l generalizing pos with
  | nil => simp [codeStarts] at hx
  | cons z l ih =>
    simp only [codeStarts, List.mem_cons] at hx hy
    have hp : 0 < 2 ^ (16 - z.2) := Nat.two_pow_pos _
    rcases hx with rfl | hx <;> rcases hy with rfl | hy
    · rfl
    · have := (codeStarts_bounds hy).1; simp only at h1; omega
    · have := (codeStarts_bounds hx).1; simp only at h2; omega
    · exact ih hx hy

/-- The middle of a straddled spot is the start of a code longer than the spot is deep. -/
theorem middle_start {t : Tree} {len : NatArray} (hk : codeSpace t len 16 = 2 ^ 16) {k p : Nat}
    (h : Straddled t (codeOrder t len) k p) :
    k < 16 - tableBits t ∧ ∃ y ∈ codeStarts (codeOrder t len) 0,
      y.2.2 = (2 * p + 1) * 2 ^ (16 - tableBits t - (k + 1)) ∧ tableBits t + k < y.2.1 := by
  obtain ⟨x, hx, hlo, hup, hlen⟩ := h
  have hend : codeEnd (codeOrder t len) 0 = 2 ^ 16 := by rw [codeOrder_eq, codeEnd_codeSpace, hk]
  have hx16 : x.2.1 < 17 := by
    have := codeStarts_mem_order hx
    rw [codeOrder_eq] at this
    have := lengthsFrom_mem this
    simp only at this; omega
  have hkD : k < 16 - tableBits t := by omega
  refine ⟨hkD, ?_⟩
  obtain ⟨e, he⟩ : ∃ e, 16 - tableBits t - k = e + 1 := ⟨16 - tableBits t - (k + 1), by omega⟩
  have he2 : 16 - tableBits t - (k + 1) = e := by omega
  rw [he, Nat.pow_succ] at hlo hup
  rw [he2]
  have hp0 : 0 < 2 ^ e := Nat.two_pow_pos _
  have hmid : p * (2 ^ e * 2) + 2 ^ e = (2 * p + 1) * 2 ^ e := by ring
  have hupE : (p + 1) * (2 ^ e * 2) = (2 * p + 1) * 2 ^ e + 2 ^ e := by ring
  have hbx := (codeStarts_bounds hx).2
  rw [hend] at hbx
  have hfit : (p + 1) * (2 ^ e * 2) ≤ 2 ^ 16 := by
    have e16 : (2:Nat) ^ 16 = 2 ^ (16 - (e + 1)) * (2 ^ e * 2) := by rw [← Nat.pow_succ, ← Nat.pow_add]; congr 1; omega
    have : p * (2 ^ e * 2) < 2 ^ (16 - (e + 1)) * (2 ^ e * 2) := by
      rw [← e16]; have := Nat.two_pow_pos (16 - x.2.1); omega
    rw [e16]; exact Nat.mul_le_mul_right _ (Nat.lt_of_mul_lt_mul_right this)
  obtain ⟨y, hy, hy1, hy2⟩ := codeStarts_cover (l := codeOrder t len) (pos := 0) (w := (2 * p + 1) * 2 ^ e) (Nat.zero_le _)
    (by rw [hend]; omega)
  have hal := codeStarts_aligned hy
  by_cases hlong : tableBits t + k < y.2.1
  · refine ⟨y, hy, ?_, hlong⟩
    have hdv : 2 ^ (16 - y.2.1) ∣ (2 * p + 1) * 2 ^ e :=
      Nat.dvd_trans (Nat.pow_dvd_pow 2 (by omega)) (Nat.dvd_mul_left _ _)
    obtain ⟨a, ha⟩ := hal
    obtain ⟨c, hc⟩ := hdv
    rw [ha, hc] at hy1 hy2 ⊢
    have a1 := Nat.le_of_mul_le_mul_left hy1 (Nat.two_pow_pos _)
    have a2 : c < a + 1 := Nat.lt_of_mul_lt_mul_left (a := 2 ^ (16 - y.2.1)) (by rw [Nat.mul_add, Nat.mul_one]; exact hy2)
    rw [show c = a by omega]
  · exfalso
    have hdv : 2 ^ e * 2 ∣ 2 ^ (16 - y.2.1) := by rw [← Nat.pow_succ]; exact Nat.pow_dvd_pow 2 (by omega)
    have hd1 := Nat.dvd_trans hdv hal
    obtain ⟨a, ha⟩ := hd1
    obtain ⟨c, hc⟩ := hdv
    have b1 : a ≤ p := by
      have : 2 ^ e * 2 * a < 2 ^ e * 2 * (p + 1) := by rw [← ha, Nat.mul_comm _ (p + 1)]; omega
      have := Nat.lt_of_mul_lt_mul_left this; omega
    have b2 : p + 1 ≤ a + c := by
      have : 2 ^ e * 2 * p < 2 ^ e * 2 * (a + c) := by
        rw [Nat.mul_add, ← ha, ← hc, Nat.mul_comm _ p]; omega
      exact Nat.lt_of_mul_lt_mul_left this
    have c1 : y.2.2 ≤ x.2.2 := by
      have := Nat.mul_le_mul_left (2 ^ e * 2) b1
      rw [← ha, Nat.mul_comm _ p] at this; omega
    have c2 : x.2.2 < y.2.2 + 2 ^ (16 - y.2.1) := by
      have := Nat.mul_le_mul_left (2 ^ e * 2) b2
      rw [Nat.mul_add _ a c, ← ha, ← hc, Nat.mul_comm _ (p + 1)] at this; omega
    have := codeStarts_unique hx hy c1 c2
    subst this; omega

/-- The codes of given lengths, counted in the array. -/
theorem lengthsFrom_length (t : Tree) (len : NatArray) (k bl : Nat) :
    (lengthsFrom t len k (bl + 1)).length
      = (len.filter (fun c => c.1 < maxSyms t && (decide (bl < c.2) && decide (c.2 ≤ bl + k)))).length := by
  induction k generalizing bl with
  | zero =>
    simp only [lengthsFrom, List.length_nil]
    symm
    rw [List.length_eq_zero_iff, List.filter_eq_nil_iff]
    intro c _; simp
  | succ k ih =>
    simp only [lengthsFrom, List.length_append, List.length_map, ih]
    unfold symsWithLength
    rw [List.length_map]
    clear ih
    induction len with
    | nil => rfl
    | cons c len ihl =>
      simp only [List.filter_cons]
      by_cases h1 : c.1 < maxSyms t
      · rcases Nat.lt_trichotomy c.2 (bl + 1) with h2 | h2 | h2
        · simp [h1, show ¬ c.2 = bl + 1 by omega, show ¬ bl < c.2 by omega, show ¬ bl + 1 < c.2 by omega]
          simpa using ihl
        · simp [h1, h2] at ihl ⊢; omega
        · by_cases h3 : c.2 ≤ bl + 1 + k
          · simp [h1, h2, h3, show ¬ c.2 = bl + 1 by omega, show bl < c.2 by omega, show c.2 ≤ bl + (k + 1) by omega]
              at ihl ⊢
            omega
          · simp [h1, h2, h3, show ¬ c.2 = bl + 1 by omega, show ¬ c.2 ≤ bl + (k + 1) by omega]
            simpa using ihl
      · simp [h1] at ihl ⊢; omega

/-- The long codes of the code order are those of the array. -/
theorem longCodes_eq {t : Tree} {len : NatArray} (h16 : ∀ c ∈ len, c.2 ≤ 16) :
    (lengthsFrom t len (16 - tableBits t) (tableBits t + 1)).length = longCodes t len := by
  have htb := tableBits_bounds t
  rw [lengthsFrom_length]
  unfold longCodes
  congr 1
  apply List.filter_congr
  intro c hc
  have := h16 c hc
  simp only [show tableBits t + (16 - tableBits t) = 16 by omega, this, decide_true, Bool.and_true]

theorem longCodes_le {t : Tree} {len : NatArray} (hw : NatArray.wf len) : longCodes t len ≤ maxSyms t := by
  unfold longCodes
  rw [← List.length_map (fun c : Nat × Nat => c.1)]
  have hnd : ((len.filter (fun c => c.1 < maxSyms t && decide (tableBits t < c.2))).map (fun c => c.1)).Nodup := by
    rw [List.Nodup, List.pairwise_map]
    exact (List.Pairwise.sublist List.filter_sublist hw.1).imp (fun h => Nat.ne_of_lt h)
  have hsub : (len.filter (fun c => c.1 < maxSyms t && decide (tableBits t < c.2))).map (fun c => c.1)
      ⊆ List.range (maxSyms t) := by
    intro a ha
    obtain ⟨c, hc, rfl⟩ := List.mem_map.1 ha
    have := (List.mem_filter.1 hc).2
    simp only [Bool.and_eq_true, decide_eq_true_eq] at this
    exact List.mem_range.2 this.1
  have := (hnd.subperm hsub).length_le
  rwa [List.length_range] at this

/-- A straddled spot's middle. -/
def middle (t : Tree) (q : Nat × Nat) : Nat := (2 * q.2 + 1) * 2 ^ (16 - tableBits t - (q.1 + 1))

/-- An odd number times a power of two determines both. -/
theorem odd_pow_inj {a b m n : Nat} (h : (2 * a + 1) * 2 ^ m = (2 * b + 1) * 2 ^ n) : a = b ∧ m = n := by
  induction m generalizing n with
  | zero =>
    cases n with
    | zero => simp at h; exact ⟨h, rfl⟩
    | succ n => rw [Nat.pow_succ] at h; exfalso; have := congrArg (· % 2) h; simp [← Nat.mul_assoc] at this
  | succ m ih =>
    cases n with
    | zero => rw [Nat.pow_succ] at h; exfalso; have := congrArg (· % 2) h; simp [← Nat.mul_assoc] at this
    | succ n =>
      rw [Nat.pow_succ, Nat.pow_succ, ← Nat.mul_assoc, ← Nat.mul_assoc] at h
      have := ih (Nat.eq_of_mul_eq_mul_right (by omega) h)
      exact ⟨this.1, by omega⟩

/-- Where the codes fill the code space there are fewer straddled spots than long codes. -/
theorem straddled_card {t : Tree} {len : NatArray} (hk : codeSpace t len 16 = 2 ^ 16) (h16 : ∀ c ∈ len, c.2 ≤ 16)
    (taken : Finset (Nat × Nat)) (h : ∀ q ∈ taken, Straddled t (codeOrder t len) q.1 q.2) (hne : taken.Nonempty) :
    taken.card + 1 ≤ longCodes t len := by
  have htb := tableBits_bounds t
  have hsplit : codeOrder t len = lengthsFrom t len (tableBits t) 1 ++ lengthsFrom t len (16 - tableBits t) (tableBits t + 1) := by
    rw [codeOrder_eq, ← Nat.add_comm 1, ← lengthsFrom_add, show tableBits t + (16 - tableBits t) = 16 by omega]
  let long := lengthsFrom t len (16 - tableBits t) (tableBits t + 1)
  let first := codeEnd (lengthsFrom t len (tableBits t) 1) 0
  let begins : Finset Nat := ((codeStarts long first).map (fun x => x.2.2)).toFinset
  have hlen : ∀ (l : List (Nat × Nat)) pos, (codeStarts l pos).length = l.length := by
    intro l; induction l with
    | nil => intro pos; rfl
    | cons y l ih => intro pos; simp only [codeStarts, List.length_cons, ih]
  have hcard : begins.card ≤ longCodes t len := by
    rw [← longCodes_eq h16]
    refine Nat.le_trans (List.toFinset_card_le _) ?_
    rw [List.length_map, hlen]
  have hmem : ∀ q ∈ taken, middle t q ∈ begins := by
    intro q hq
    obtain ⟨-, y, hy, hys, hyl⟩ := middle_start hk (h q hq)
    rw [hsplit, codeStarts_append] at hy
    refine List.mem_toFinset.2 (List.mem_map.2 ⟨y, ?_, hys⟩)
    rcases List.mem_append.1 hy with hy | hy
    · have := (lengthsFrom_mem (codeStarts_mem_order hy)).2.1
      simp only at this; omega
    · exact hy
  have hfd : 2 ^ (16 - tableBits t) ∣ first := by
    have : ∀ (k bl pos : Nat), bl + k ≤ tableBits t + 1 → 2 ^ (16 - tableBits t) ∣ pos →
        2 ^ (16 - tableBits t) ∣ codeEnd (lengthsFrom t len k bl) pos := by
      intro k
      induction k with
      | zero => intro bl pos _ hd; exact hd
      | succ k ih =>
        intro bl pos hbl hd
        simp only [lengthsFrom, codeEnd_append, codeEnd_map]
        exact ih _ _ (by omega) (Nat.dvd_add hd (Nat.dvd_trans (Nat.pow_dvd_pow 2 (by omega)) (Nat.dvd_mul_left _ _)))
    exact this _ _ _ (by omega) (Nat.dvd_zero _)
  have hfirst : first ∈ begins := by
    obtain ⟨q, hq⟩ := hne
    have := hmem q hq
    obtain ⟨y, hy, -⟩ := List.mem_map.1 (List.mem_toFinset.1 this)
    refine List.mem_toFinset.2 (List.mem_map.2 ?_)
    cases hl : long with
    | nil => rw [hl] at hy; simp [codeStarts] at hy
    | cons z l => exact ⟨(z.1, z.2, first), by rw [codeStarts]; exact List.mem_cons_self .., rfl⟩
  have hnot : first ∉ taken.image (middle t) := by
    intro hm
    obtain ⟨q, hq, he⟩ := Finset.mem_image.1 hm
    have hq1 := (middle_start hk (h q hq)).1
    rw [← he] at hfd
    obtain ⟨m, hm⟩ := hfd
    unfold middle at hm
    have e : 2 ^ (16 - tableBits t) * m = (2 ^ q.1 * m) * 2 * 2 ^ (16 - tableBits t - (q.1 + 1)) := by
      rw [Nat.mul_assoc, show 2 * 2 ^ (16 - tableBits t - (q.1 + 1)) = 2 ^ (16 - tableBits t - q.1) by
        rw [← Nat.pow_succ']; congr 1; omega, Nat.mul_right_comm, ← Nat.pow_add]; congr 2; omega
    rw [e] at hm
    have := Nat.eq_of_mul_eq_mul_right (Nat.two_pow_pos _) hm
    omega
  have hinj : (taken.image (middle t)).card = taken.card := by
    refine Finset.card_image_of_injOn ?_
    intro a ha c hc heq
    have ha1 := (middle_start hk (h a ha)).1
    have hc1 := (middle_start hk (h c hc)).1
    obtain ⟨e1, e2⟩ := odd_pow_inj heq
    exact Prod.ext (by omega) e1
  have hsub : insert first (taken.image (middle t)) ⊆ begins := by
    intro a ha
    rcases Finset.mem_insert.1 ha with rfl | ha
    · exact hfirst
    · obtain ⟨q, hq, rfl⟩ := Finset.mem_image.1 ha
      exact hmem q hq
  have := Finset.card_le_card hsub
  rw [Finset.card_insert_of_notMem hnot, hinj] at this
  omega

/-- Codes that fill the code space leave room for every node: in the main tree when fewer than 2050 are long (R145). -/
theorem not_exhausted {t : Tree} {len : NatArray} (hw : NatArray.wf len) (hk : codeSpace t len 16 = 2 ^ 16)
    (h16 : ∀ c ∈ len, c.2 ≤ 16) (hm : t = .main → longCodes t len < 2050) :
    ¬ Exhausted t (Straddled t (codeOrder t len)) := by
  rintro ⟨taken, h, hfull⟩
  have hle := longCodes_le (t := t) hw
  rcases Finset.eq_empty_or_nonempty taken with rfl | hne
  · revert hfull; cases t <;> decide
  · have hc := straddled_card hk h16 taken h hne
    cases t with
    | main =>
      have := hm rfl
      simp only [tableSize, tableBits, maxSyms, firstNode, mainMaxSyms] at hfull; omega
    | pre => simp only [tableSize, tableBits, maxSyms, firstNode] at hfull hle; omega
    | length => simp only [tableSize, tableBits, maxSyms, firstNode, lengthMaxSyms] at hfull hle; omega
    | aligned => simp only [tableSize, tableBits, maxSyms, firstNode] at hfull hle; omega

end Sys2Proof.Machine
end

