-- ==== Sys2Proof/Laws/Decode.lean ====
section
/-! SUPPORT. What any read of the input, and any decoding, leaves of the reader: its invariant, its input, and a cursor that
never goes back. -/

namespace Sys2Proof.Machine

/-- `r'` is `r` after some reading: the input is the same (R76), the cursor only advances (R69), and where the code lengths
in use are `sound` the invariant is kept (R120). -/
structure BitReader.Follows (sound : Prop) (r r' : BitReader) : Prop where
  wf    : sound → r.wf → r'.wf
  input : r'.input = r.input
  inPos : r.inPos ≤ r'.inPos

variable {sound : Prop}

theorem BitReader.Follows.refl (r : BitReader) : r.Follows sound r := ⟨fun _ h => h, rfl, Nat.le_refl _⟩

theorem BitReader.Follows.trans {a b c : BitReader} (h1 : a.Follows sound b) (h2 : b.Follows sound c) : a.Follows sound c :=
  ⟨fun hs h => h2.wf hs (h1.wf hs h), h2.input.trans h1.input, Nat.le_trans h1.inPos h2.inPos⟩

/-- The reader a read leaves. -/
def ReadResult.reader {α : Type} (x : ReadResult α) : BitReader :=
  match x with
  | .ok _ r => r
  | .raise _ r => r

@[simp] theorem ReadResult.reader_ok {α : Type} (v : α) (r : BitReader) : (ReadResult.ok v r).reader = r := rfl

@[simp] theorem ReadResult.reader_raise {α : Type} (e : ErrKind) (r : BitReader) :
    (ReadResult.raise e r : ReadResult α).reader = r := rfl

theorem ReadResult.andThen_follows {α β : Type} {r : BitReader} {x : ReadResult α} {f : α → BitReader → ReadResult β}
    (hx : r.Follows sound x.reader) (hf : ∀ v r1, x = .ok v r1 → r1.Follows sound (f v r1).reader) :
    r.Follows sound (x.andThen f).reader := by
  cases x with
  | ok v r1 => exact hx.trans (hf v r1 rfl)
  | raise e r1 => exact hx

theorem BitReader.inByte_follows (r : BitReader) : r.Follows sound r.inByte.reader := by
  unfold BitReader.inByte
  split
  · exact ⟨fun _ h => h, rfl, Nat.le_succ _⟩
  · split
    · exact ⟨fun _ h => ⟨h.1, h.2.1, Nat.zero_le 1⟩, rfl, Nat.le_refl _⟩
    · split
      · exact ⟨fun _ h => ⟨h.1, h.2.1, Nat.le_refl 1⟩, rfl, Nat.le_refl _⟩
      · exact .refl r

theorem BitReader.inByte_bits {r r' : BitReader} {b : Byte} (h : r.inByte = .ok b r') :
    r'.bitBuf = r.bitBuf ∧ r'.bitsLeft = r.bitsLeft := by
  unfold BitReader.inByte at h
  split at h
  · cases h; exact ⟨rfl, rfl⟩
  · split at h
    · cases h; exact ⟨rfl, rfl⟩
    · split at h <;> cases h
      exact ⟨rfl, rfl⟩

theorem BitReader.refill_follows (r : BitReader) (h : r.bitsLeft ≤ 16) : r.Follows sound r.refill.reader := by
  unfold BitReader.refill
  refine ReadResult.andThen_follows (BitReader.inByte_follows r) fun b0 r1 e1 => ?_
  refine ReadResult.andThen_follows (BitReader.inByte_follows r1) fun b1 r2 e2 => ?_
  have h1 := (BitReader.inByte_bits e1).2
  have h2 := (BitReader.inByte_bits e2).2
  exact ⟨fun _ hw => BitReader.inject_wf r2 _ hw (by omega), rfl, Nat.le_refl _⟩

theorem BitReader.refill_bitsLeft {r r' : BitReader} (h : r.refill = .ok () r') : r'.bitsLeft = r.bitsLeft + 16 := by
  unfold BitReader.refill at h
  cases e1 : r.inByte with
  | raise e r1 => rw [e1] at h; cases h
  | ok b0 r1 =>
    rw [e1] at h
    simp only [ReadResult.andThen] at h
    cases e2 : r1.inByte with
    | raise e r2 => rw [e2] at h; cases h
    | ok b1 r2 =>
      rw [e2] at h
      cases h
      simp only [BitReader.inject, (BitReader.inByte_bits e1).2, (BitReader.inByte_bits e2).2]

theorem BitReader.ensureTurns_follows (turns k : Nat) (r : BitReader) (hk : k ≤ 17) :
    r.Follows sound (BitReader.ensureTurns turns k r).reader := by
  induction turns generalizing r with
  | zero => exact .refl r
  | succ turns ih =>
    unfold BitReader.ensureTurns
    split
    · exact ReadResult.andThen_follows (BitReader.refill_follows r (by omega)) fun _ r1 _ => ih r1
    · exact .refl r

theorem BitReader.ensureTurns_bitsLeft {turns k : Nat} {r r' : BitReader} (ht : k ≤ r.bitsLeft + 16 * turns)
    (h : BitReader.ensureTurns turns k r = .ok () r') : k ≤ r'.bitsLeft := by
  induction turns generalizing r with
  | zero => cases h; omega
  | succ turns ih =>
    unfold BitReader.ensureTurns at h
    split at h
    · cases e : r.refill with
      | raise e1 r1 => rw [e] at h; cases h
      | ok u r1 =>
        rw [e] at h
        have := BitReader.refill_bitsLeft e
        exact ih (by omega) h
    · cases h; omega

theorem BitReader.ensure_follows (r : BitReader) {k : Nat} (hk : k ≤ 17) : r.Follows sound (r.ensure k).reader :=
  BitReader.ensureTurns_follows 2 k r hk

/-- After `ensure(k)` at least `k` bits are valid (R124). -/
theorem BitReader.ensure_bitsLeft {r r' : BitReader} {k : Nat} (hk : k ≤ 17) (h : r.ensure k = .ok () r') :
    k ≤ r'.bitsLeft := BitReader.ensureTurns_bitsLeft (by omega) h

theorem BitReader.remove_follows (r : BitReader) {k : Nat} (hk : k ≤ r.bitsLeft) : r.Follows sound (r.remove k) :=
  ⟨fun _ h => BitReader.remove_wf r k h hk, rfl, Nat.le_refl _⟩

theorem BitReader.readBits_follows (r : BitReader) {k : Nat} (hk : k ≤ 17) : r.Follows sound (r.readBits k).reader := by
  unfold BitReader.readBits
  split
  · exact .refl r
  · exact ReadResult.andThen_follows (BitReader.ensure_follows r hk)
      fun _ r1 e => BitReader.remove_follows r1 (BitReader.ensure_bitsLeft hk e)

theorem BitReader.alignRaw_follows (r : BitReader) : r.Follows sound r.alignRaw.reader := by
  unfold BitReader.alignRaw
  refine ReadResult.andThen_follows ?_ fun _ r1 _ =>
    ⟨fun _ h => ⟨Nat.zero_le 32, by simp, h.2.2⟩, rfl, Nat.le_refl _⟩
  split
  · exact BitReader.ensure_follows r (by omega)
  · exact .refl r

theorem BitReader.alignFrame_follows (r : BitReader) : r.Follows sound r.alignFrame.reader := by
  unfold BitReader.alignFrame
  refine ReadResult.andThen_follows ?_ fun _ r1 _ => ?_
  · split
    · exact BitReader.ensure_follows r (by omega)
    · exact .refl r
  · simp only
    have hr : r1.Follows sound (if r1.bitsLeft % 16 ≠ 0 then r1.remove (r1.bitsLeft % 16) else r1) := by
      split
      · exact BitReader.remove_follows r1 (Nat.mod_le _ _)
      · exact .refl r1
    generalize (if r1.bitsLeft % 16 ≠ 0 then r1.remove (r1.bitsLeft % 16) else r1) = r2 at hr ⊢
    split <;> exact hr

/-- After a realign the accumulator holds no bit or one whole chunk (R128). -/
theorem BitReader.alignFrame_bitsLeft {r r' : BitReader} (h : r.alignFrame = .ok () r') :
    r'.bitsLeft = 0 ∨ r'.bitsLeft = 16 := by
  unfold BitReader.alignFrame at h
  cases e : (if 0 < r.bitsLeft then r.ensure 16 else .ok () r) with
  | raise e1 r1 => rw [e] at h; cases h
  | ok u r1 =>
    rw [e] at h
    simp only [ReadResult.andThen] at h
    generalize (if r1.bitsLeft % 16 ≠ 0 then r1.remove (r1.bitsLeft % 16) else r1) = r2 at h
    split at h
    · next hb => cases h; exact hb
    · cases h

theorem BitReader.takeBytes_follows (k : Nat) (r : BitReader) : r.Follows sound (BitReader.takeBytes k r).2 := by
  induction k generalizing r with
  | zero => exact .refl r
  | succ k ih =>
    have h := BitReader.inByte_follows (sound := sound) r
    unfold BitReader.takeBytes
    split
    · next e => rw [e] at h; exact h.trans (ih _)
    · next e => rw [e] at h; exact h

theorem BitReader.takeBytes_length (k : Nat) (r : BitReader) : (BitReader.takeBytes k r).1.length ≤ k := by
  induction k generalizing r with
  | zero => simp [BitReader.takeBytes]
  | succ k ih =>
    unfold BitReader.takeBytes
    split
    · next b r1 _ => have := ih r1; simp only [List.length_cons]; omega
    · simp

theorem BitReader.readBytes_follows (k : Nat) (r : BitReader) : r.Follows sound (BitReader.readBytes k r).reader := by
  induction k generalizing r with
  | zero => exact .refl r
  | succ k ih =>
    exact ReadResult.andThen_follows (BitReader.inByte_follows r) fun b r1 _ =>
      ReadResult.andThen_follows (ih r1) fun bs r2 _ => .refl r2

theorem readSym_follows (t : Tree) (h : Huff) (hl : sound → ∀ c ∈ h.len, c.2 ≤ 16) (r : BitReader) :
    r.Follows sound (readSym t h r).reader := by
  unfold readSym
  refine ReadResult.andThen_follows (BitReader.ensure_follows r (by omega)) fun _ r1 e => ?_
  have hb := BitReader.ensure_bitsLeft (by omega) e
  split
  · exact .refl r1
  · next sym _ =>
    exact ⟨fun hs hw => BitReader.remove_wf r1 _ hw (Nat.le_trans (NatArray.get_le (hl hs) sym) hb), rfl, Nat.le_refl _⟩

end Sys2Proof.Machine

namespace Sys2Proof

open Sys2Proof.Machine

variable {sound : Prop}

/-- What holds of the reader a decoding answers. -/
def Decoded.ForReader (P : BitReader → Prop) (d : Decoded) : Prop :=
  match d with
  | .instr _ r => P r
  | .header _ r => P r
  | .raise _ r _ => P r
  | .nothing => True

theorem withRead_follows {α : Type} {r : BitReader} {x : ReadResult α} {fields : List Nat} {f : α → BitReader → Decoded}
    (hx : r.Follows sound x.reader) (hf : ∀ v r1, (f v r1).ForReader (BitReader.Follows sound r1)) : (withRead x fields f).ForReader (BitReader.Follows sound r) := by
  have hmono : ∀ (d : Decoded) (r1 : BitReader), r.Follows sound r1 → d.ForReader (BitReader.Follows sound r1) → d.ForReader (BitReader.Follows sound r) := by
    intro d r1 h1 h2
    cases d with
    | instr i r2 => exact h1.trans h2
    | header m r2 => exact h1.trans h2
    | raise e r2 fs => exact h1.trans h2
    | nothing => trivial
  cases x with
  | ok v r1 => exact hmono _ r1 hx (hf v r1)
  | raise e r1 => exact hx

theorem decodeFields_follows (k n : Nat) (done : List Nat) (r : BitReader) (f : List Nat → BitReader → Decoded)
    (hk : k ≤ 17) (hf : ∀ v r1, (f v r1).ForReader (BitReader.Follows sound r1)) : (decodeFields k n done r f).ForReader (BitReader.Follows sound r) := by
  induction n generalizing done r with
  | zero => exact hf done r
  | succ n ih =>
    have heq : decodeFields k (n + 1) done r f = withRead (r.readBits k) done fun v r1 => decodeFields k n (done ++ [v]) r1 f := by
      rw [decodeFields]
      cases r.readBits k <;> rfl
    rw [heq]
    exact withRead_follows (BitReader.readBits_follows r hk) fun v r1 => ih (done ++ [v]) r1

/-- No code length of the context's tables exceeds 16 (R148). -/
def DecodeContext.Short (c : DecodeContext) : Prop :=
  (∀ x ∈ c.preTree.len, x.2 ≤ 16) ∧ (∀ x ∈ c.mainTree.len, x.2 ≤ 16) ∧ (∀ x ∈ c.lengthTree.len, x.2 ≤ 16)
    ∧ ∀ x ∈ c.alignedTree.len, x.2 ≤ 16

theorem extraBits_le (slot : Nat) : extraBits slot ≤ 17 := Nat.min_le_left _ _

theorem decodeMatch_follows (c : DecodeContext) (hc : sound → c.Short) (r : BitReader) : (decodeMatch c r).ForReader (BitReader.Follows sound r) := by
  have hrefl : ∀ (i : Instr) (r1 : BitReader), (Decoded.instr i r1).ForReader (BitReader.Follows sound r1) := fun _ r1 => .refl r1
  unfold decodeMatch decodeAlignedOffset
  simp only
  split
  · exact hrefl _ _
  · exact hrefl _ _
  · exact hrefl _ _
  · split <;> exact hrefl _ _
  · have hx := extraBits_le (offsetSlot c.header)
    split
    · split
      · exact withRead_follows (BitReader.readBits_follows r hx) fun v r1 => hrefl _ r1
      · split
        · exact withRead_follows (BitReader.readBits_follows r (by omega)) fun v r1 => hrefl _ r1
        · refine withRead_follows (BitReader.readBits_follows r (by omega)) fun v r1 => ?_
          exact withRead_follows (readSym_follows _ _ (fun h => (hc h).2.2.2) r1) fun a r2 => hrefl _ r2
    · exact withRead_follows (BitReader.readBits_follows r hx) fun v r1 => hrefl _ r1

/-- LEN with a length header below 7 reads nothing (R202). -/
theorem decodeLen_short (c : DecodeContext) (r : BitReader) (h : ¬ lengthHeader c.header = 7) :
    decodeLen c r = .instr (.lenShort (lengthHeader c.header)) r := by
  unfold decodeLen
  rw [if_neg h]

/-- LEN with length header 7 (R202). -/
theorem decodeLen_long (c : DecodeContext) (r : BitReader) (h : lengthHeader c.header = 7) :
    decodeLen c r = if c.lengthEmpty then .raise .protocolViolation r []
      else withRead (readSym .length c.lengthTree r) [] fun lsym r1 => .instr (.lenLong lsym) r1 := by
  unfold decodeLen
  rw [if_pos h]

theorem decodeLen_follows (c : DecodeContext) (hc : sound → c.Short) (r : BitReader) : (decodeLen c r).ForReader (BitReader.Follows sound r) := by
  by_cases h7 : lengthHeader c.header = 7
  · rw [decodeLen_long c r h7]
    split
    · exact BitReader.Follows.refl r
    · exact withRead_follows (readSym_follows _ _ (fun h => (hc h).2.2.1) r) fun v r1 => BitReader.Follows.refl r1
  · rw [decodeLen_short c r h7]
    exact BitReader.Follows.refl r

/-- Whatever a place decodes, it leaves a reader that follows the one it found. -/
theorem decodeAt_follows (p : Phase) (u : Bool) (c : DecodeContext) (hc : sound → c.Short) (r : BitReader) :
    (decodeAt p u c r).ForReader (BitReader.Follows sound r) := by
  have hrefl : ∀ (i : Instr) (r1 : BitReader), (Decoded.instr i r1).ForReader (BitReader.Follows sound r1) := fun _ r1 => .refl r1
  have hbits : ∀ {k : Nat} (r1 : BitReader) {fs : List Nat} {f : Nat → BitReader → Decoded}, k ≤ 17 →
      (∀ v r2, (f v r2).ForReader (BitReader.Follows sound r2)) → (withRead (r1.readBits k) fs f).ForReader (BitReader.Follows sound r1) :=
    fun r1 _ _ hk hf => withRead_follows (BitReader.readBits_follows r1 hk) hf
  cases p with
  | idle => trivial
  | frameLoop => trivial
  | frameOpen => trivial
  | blockLoop => trivial
  | runOpen => trivial
  | stage => trivial
  | realign => exact hrefl _ _
  | align16 => exact hrefl _ _
  | alignedLens => exact decodeFields_follows _ _ _ _ _ (by omega) fun v r1 => hrefl _ r1
  | tree => exact decodeFields_follows _ _ _ _ _ (by omega) fun v r1 => hrefl _ r1
  | pad => exact withRead_follows (BitReader.inByte_follows r) fun v r1 => hrefl _ r1
  | rvals => exact withRead_follows (BitReader.readBytes_follows 12 r) fun v r1 => hrefl _ r1
  | intel =>
    refine hbits r (by omega) fun v r1 => ?_
    split
    · exact hbits r1 (by omega) fun v r2 => hbits r2 (by omega) fun v r3 => hrefl _ r3
    · exact hrefl _ _
  | blockHead => exact hbits r (by omega) fun v r1 => hbits r1 (by omega) fun v r2 => hbits r2 (by omega) fun v r3 => hrefl _ r3
  | filler =>
    have h := BitReader.ensure_follows (sound := sound) r (k := 16) (by omega)
    simp only [decodeAt, decodeFiller]
    cases e : r.ensure 16 with
    | raise e1 r1 => rw [e] at h; exact h
    | ok v r1 =>
      rw [e] at h
      exact h.trans (BitReader.remove_follows r1 (BitReader.ensure_bitsLeft (by omega) e))
  | items =>
    refine withRead_follows (readSym_follows _ _ (fun h => (hc h).1) r) fun z r1 => ?_
    split
    · exact hbits r1 (by omega) fun v r2 => hrefl _ r2
    · exact hbits r1 (by omega) fun v r2 => hrefl _ r2
    · exact hbits r1 (by omega) fun v r2 =>
        withRead_follows (readSym_follows _ _ (fun h => (hc h).1) r2) fun d r3 => hrefl _ r3
    · exact hrefl _ _
  | run =>
    simp only [decodeAt]
    split
    · have h := BitReader.takeBytes_follows (sound := sound) c.runBytes r
      unfold decodeRaw
      split
      · next e => rw [e] at h; exact h
      · next e => rw [e] at h; exact h
    · refine withRead_follows (readSym_follows _ _ (fun h => (hc h).2.1) r) fun m r1 => ?_
      split
      · exact hrefl _ _
      · exact BitReader.Follows.refl r1
  | length => exact decodeLen_follows c hc r
  | offset => exact decodeMatch_follows c hc r
  | ext =>
    have h := BitReader.ensure_follows (sound := sound) r (k := 3) (by omega)
    simp only [decodeAt, decodeExt]
    cases e : r.ensure 3 with
    | raise e1 r1 => rw [e] at h; exact h
    | ok v r1 =>
      rw [e] at h
      have hb := BitReader.ensure_bitsLeft (by omega) e
      have hrm : ∀ k j, k ≤ 3 → j ≤ 17 → ∀ (f : Nat → BitReader → Decoded), (∀ v r2, (f v r2).ForReader (BitReader.Follows sound r2)) →
          (withRead ((r1.remove k).readBits j) [] f).ForReader (BitReader.Follows sound r) := by
        intro k j hk hj f hf
        refine withRead_follows ?_ hf
        exact h.trans ((BitReader.remove_follows r1 (by omega)).trans (BitReader.readBits_follows _ hj))
      simp only [withRead]
      split
      · exact hrm 1 8 (by omega) (by omega) _ fun v r2 => hrefl _ r2
      · split
        · exact hrm 2 10 (by omega) (by omega) _ fun v r2 => hrefl _ r2
        · split
          · exact hrm 3 12 (by omega) (by omega) _ fun v r2 => hrefl _ r2
          · exact hrm 3 15 (by omega) (by omega) _ fun v r2 => hrefl _ r2

/-- An instruction decoded after a read: the read succeeded. -/
theorem withRead_instr {α : Type} {x : ReadResult α} {fields : List Nat} {f : α → BitReader → Decoded} {i : Instr}
    {r' : BitReader} (h : withRead x fields f = .instr i r') : ∃ v r1, x = .ok v r1 ∧ f v r1 = .instr i r' := by
  cases x with
  | ok v r1 => exact ⟨v, r1, rfl, h⟩
  | raise e r1 => exact absurd h (by simp [withRead])

/-- A raise after a read: the read's own, or a later one. -/
theorem withRead_raise {α : Type} {x : ReadResult α} {fields fields' : List Nat} {f : α → BitReader → Decoded} {e : ErrKind}
    {r' : BitReader} (h : withRead x fields f = .raise e r' fields') :
    (x = .raise e r' ∧ fields' = fields) ∨ ∃ v r1, x = .ok v r1 ∧ f v r1 = .raise e r' fields' := by
  cases x with
  | ok v r1 => exact .inr ⟨v, r1, rfl, h⟩
  | raise e1 r1 =>
    simp only [withRead, Decoded.raise.injEq] at h
    obtain ⟨rfl, rfl, rfl⟩ := h
    exact .inl ⟨rfl, rfl⟩

theorem BitReader.readBits_lt {r r' : BitReader} {k v : Nat} (hk : k ≤ 32) (h : r.readBits k = .ok v r') : v < 2 ^ k := by
  unfold BitReader.readBits at h
  split at h
  · cases h; exact Nat.two_pow_pos k
  · cases e : r.ensure k with
    | raise e1 r1 => rw [e] at h; cases h
    | ok u r1 => rw [e] at h; cases h; exact BitReader.peek_lt r1 k hk

/-- A list of fields is decoded as its values in order, each in its field's range. -/
theorem decodeFields_instr {k : Nat} (hk : k ≤ 32) (n : Nat) (done : List Nat) (r r' : BitReader) (i : Instr)
    (f : List Nat → BitReader → Decoded) (hd : ∀ v ∈ done, v < 2 ^ k) (h : decodeFields k n done r f = .instr i r') :
    ∃ vs r1, vs.length = done.length + n ∧ (∀ v ∈ vs, v < 2 ^ k) ∧ f vs r1 = .instr i r' := by
  induction n generalizing done r with
  | zero => exact ⟨done, r, rfl, hd, h⟩
  | succ n ih =>
    rw [decodeFields] at h
    split at h
    · cases h
    · next v r1 e =>
      have hv := BitReader.readBits_lt hk e
      obtain ⟨vs, r2, h1, h2, h3⟩ := ih (done ++ [v]) r1 (by
        intro w hw
        rcases List.mem_append.1 hw with hw | hw
        · exact hd w hw
        · simp at hw; omega) h
      exact ⟨vs, r2, by simp at h1; omega, h2, h3⟩

/-- The fields kept by a raise are in their range, and fewer than were wanted. -/
theorem decodeFields_raise {k : Nat} (hk : k ≤ 32) (n : Nat) (done fields : List Nat) (r r' : BitReader) (e : ErrKind)
    (f : List Nat → BitReader → Decoded) (hd : ∀ v ∈ done, v < 2 ^ k) (hf : ∀ vs r1 e1 r2 fs, f vs r1 ≠ .raise e1 r2 fs)
    (h : decodeFields k n done r f = .raise e r' fields) : ∀ v ∈ fields, v < 2 ^ k := by
  induction n generalizing done r with
  | zero => exact absurd h (hf _ _ _ _ _)
  | succ n ih =>
    rw [decodeFields] at h
    split at h
    · cases h; exact hd
    · next v r1 e1 =>
      have hv := BitReader.readBits_lt hk e1
      exact ih (done ++ [v]) r1 (by
        intro w hw
        rcases List.mem_append.1 hw with hw | hw
        · exact hd w hw
        · simp at hw; omega) h

/-- An instruction is decoded only at its own place. -/
theorem decodeAt_place {p : Phase} {u : Bool} {c : DecodeContext} {r r' : BitReader} {i : Instr}
    (h : decodeAt p u c r = .instr i r') : placeOf i = p := by
  cases p <;> simp only [decodeAt, reduceCtorEq] at h
  case filler | pad =>
    obtain ⟨v, r1, -, h⟩ := withRead_instr h
    cases h; rfl
  case intel =>
    obtain ⟨v, r1, -, h⟩ := withRead_instr h
    split at h
    · obtain ⟨v, r1, -, h⟩ := withRead_instr h
      obtain ⟨v, r1, -, h⟩ := withRead_instr h
      cases h; rfl
    · cases h; rfl
  case blockHead =>
    obtain ⟨v, r1, -, h⟩ := withRead_instr h
    obtain ⟨v, r1, -, h⟩ := withRead_instr h
    obtain ⟨v, r1, -, h⟩ := withRead_instr h
    cases h
    unfold blockInstr
    split <;> rfl
  case realign | align16 => cases h; rfl
  case rvals =>
    obtain ⟨v, r1, -, h⟩ := withRead_instr h
    cases h
    unfold rvalsInstr
    split <;> rfl
  case alignedLens =>
    obtain ⟨vs, r1, -, -, h⟩ := decodeFields_instr (by omega) 8 [] r r' i _ (by simp) h
    cases h; rfl
  case tree =>
    obtain ⟨vs, r1, -, -, h⟩ := decodeFields_instr (by omega) 20 [] r r' i _ (by simp) h
    cases h; rfl
  case items =>
    obtain ⟨z, r1, -, h⟩ := withRead_instr h
    split at h
    · obtain ⟨v, r1, -, h⟩ := withRead_instr h
      cases h; rfl
    · obtain ⟨v, r1, -, h⟩ := withRead_instr h
      cases h; rfl
    · obtain ⟨v, r1, -, h⟩ := withRead_instr h
      obtain ⟨v, r1, -, h⟩ := withRead_instr h
      cases h; rfl
    · cases h; rfl
  case run =>
    split at h
    · unfold decodeRaw at h
      split at h <;> cases h
      rfl
    · obtain ⟨v, r1, -, h⟩ := withRead_instr h
      split at h <;> cases h
      rfl
  case length =>
    unfold decodeLen at h
    split at h
    · split at h
      · cases h
      · obtain ⟨v, r1, -, h⟩ := withRead_instr h
        cases h; rfl
    · cases h; rfl
  case offset =>
    unfold decodeMatch at h
    simp only at h
    split at h
    · cases h; rfl
    · cases h; rfl
    · cases h; rfl
    · split at h <;> cases h <;> rfl
    · split at h
      · unfold decodeAlignedOffset at h
        split at h
        · obtain ⟨v, r1, -, h⟩ := withRead_instr h
          cases h; rfl
        · split at h
          · obtain ⟨v, r1, -, h⟩ := withRead_instr h
            cases h; rfl
          · obtain ⟨v, r1, -, h⟩ := withRead_instr h
            obtain ⟨v, r1, -, h⟩ := withRead_instr h
            cases h; rfl
      · obtain ⟨v, r1, -, h⟩ := withRead_instr h
        cases h; rfl
  case ext =>
    obtain ⟨v, r1, -, h⟩ := withRead_instr h
    repeat' split at h
    all_goals
      obtain ⟨v, r1, -, h⟩ := withRead_instr h
      cases h; rfl

end Sys2Proof
end

