-- ==== Sys2Proof/Laws/E8Filter.lean ====
section
/-! SUPPORT. The E8 scan, one lemma for each way it goes on (R282), and what it leaves alone (R284). -/

namespace Sys2Proof.Machine

theorem e8Operand_length (F cur : Int) (b1 b2 b3 b4 : Byte) : (e8Operand F cur b1 b2 b3 b4).length = 4 := by
  unfold e8Operand
  simp only
  split <;> rfl

/-- Fewer than five bytes hold no operand. -/
theorem e8Scan_short (F : Int) (buf : List Byte) (left : Nat) (cur : Int) (h : buf.length < 5) : e8Scan F buf left cur = buf := by
  match buf, h with
  | [], _ => rfl
  | [a], _ => rfl
  | [a, b], _ => rfl
  | [a, b, c], _ => rfl
  | [a, b, c, d], _ => rfl

/-- With nothing left to examine the scan changes nothing. -/
theorem e8Scan_zero (F : Int) (buf : List Byte) (cur : Int) : e8Scan F buf 0 cur = buf := by
  match buf with
  | [] => rfl
  | [a] => rfl
  | [a, b] => rfl
  | [a, b, c] => rfl
  | [a, b, c, d] => rfl
  | a :: b :: c :: d :: e :: r => rw [e8Scan]; simp

/-- A byte other than 0xE8 is passed over. -/
theorem e8Scan_skip (F : Int) (b : Byte) (rest : List Byte) (left : Nat) (cur : Int) (h : b ≠ 0xE8) (hl : 4 ≤ rest.length) :
    e8Scan F (b :: rest) (left + 1) cur = b :: e8Scan F rest left (cur + 1) := by
  match rest, hl with
  | b1 :: b2 :: b3 :: b4 :: rest, _ =>
    rw [e8Scan]
    simp
    intro hb
    exact absurd hb h

/-- The four bytes of a value, by division (R65). -/
theorem bytesOf32_div (v : Word32) : bytesOf32 v =
    [BitVec.ofNat 8 v.toNat, BitVec.ofNat 8 (v.toNat / 2 ^ 8), BitVec.ofNat 8 (v.toNat / 2 ^ 16),
      BitVec.ofNat 8 (v.toNat / 2 ^ 24)] := by
  unfold bytesOf32
  have h : ∀ k, BitVec.extractLsb' k 8 v = BitVec.ofNat 8 (v.toNat / 2 ^ k) := by
    intro k
    apply BitVec.eq_of_toNat_eq; simp [Nat.shiftRight_eq_div_pow]
  rw [h, h, h, h]
  simp

/-- An 0xE8 has its operand rewritten or left, and the scan goes on behind it. -/
theorem e8Scan_hit (F : Int) (b1 b2 b3 b4 : Byte) (rest : List Byte) (left : Nat) (cur : Int) (hl : left ≠ 0) :
    e8Scan F (0xE8 :: b1 :: b2 :: b3 :: b4 :: rest) left cur =
      0xE8 :: (e8Operand F cur b1 b2 b3 b4 ++ e8Scan F rest (left - 5) (cur + 5)) := by
  rw [e8Scan]
  simp [hl]

theorem exists_five {buf : List Byte} (h : 5 ≤ buf.length) :
    ∃ b0 b1 b2 b3 b4 rest, buf = b0 :: b1 :: b2 :: b3 :: b4 :: rest := by
  rcases buf with _ | ⟨b0, _ | ⟨b1, _ | ⟨b2, _ | ⟨b3, _ | ⟨b4, rest⟩⟩⟩⟩⟩ <;>
    simp only [List.length_nil, List.length_cons] at h <;> first | omega | exact ⟨_, _, _, _, _, _, rfl⟩

theorem e8Scan_length (F : Int) (buf : List Byte) (left : Nat) (cur : Int) : (e8Scan F buf left cur).length = buf.length := by
  induction hn : buf.length using Nat.strongRecOn generalizing buf left cur with
  | ind n ih =>
    by_cases h5 : buf.length < 5
    · rw [e8Scan_short F buf left cur h5]; exact hn
    · cases left with
      | zero => rw [e8Scan_zero]; exact hn
      | succ left =>
        obtain ⟨b0, b1, b2, b3, b4, rest, rfl⟩ := exists_five (by omega : 5 ≤ buf.length)
        simp only [List.length_cons] at hn
        by_cases hb : b0 = 0xE8
        · subst hb
          rw [e8Scan_hit F b1 b2 b3 b4 rest (left + 1) cur (by omega)]
          simp only [List.length_cons, List.length_append, e8Operand_length]
          rw [ih rest.length (by omega) rest _ _ rfl]
          omega
        · rw [e8Scan_skip F b0 _ left cur hb (by simp)]
          rw [List.length_cons, ih _ (by simp; omega) (b1 :: b2 :: b3 :: b4 :: rest) left (cur + 1) rfl]
          simp only [List.length_cons]; omega

end Sys2Proof.Machine
end

