-- ==== Sys2Proof/Laws/State.lean ====
section
/-! SUPPORT. The laws of the state updates the meanings share: one lemma per field per update. -/

namespace Sys2Proof.Machine

variable (s : State)


@[simp] theorem State.goto_par (p : Phase) : (s.goto p).par = s.par := rfl
@[simp] theorem State.goto_cfg (p : Phase) : (s.goto p).cfg = s.cfg := rfl
@[simp] theorem State.goto_rd (p : Phase) : (s.goto p).rd = s.rd := rfl
@[simp] theorem State.goto_windowPos (p : Phase) : (s.goto p).windowPos = s.windowPos := rfl
@[simp] theorem State.goto_framePos (p : Phase) : (s.goto p).framePos = s.framePos := rfl
@[simp] theorem State.goto_win (p : Phase) : (s.goto p).win = s.win := rfl
@[simp] theorem State.goto_frame (p : Phase) : (s.goto p).frame = s.frame := rfl
@[simp] theorem State.goto_delivered (p : Phase) : (s.goto p).delivered = s.delivered := rfl
@[simp] theorem State.goto_headerRead (p : Phase) : (s.goto p).headerRead = s.headerRead := rfl
@[simp] theorem State.goto_r0 (p : Phase) : (s.goto p).r0 = s.r0 := rfl
@[simp] theorem State.goto_r1 (p : Phase) : (s.goto p).r1 = s.r1 := rfl
@[simp] theorem State.goto_r2 (p : Phase) : (s.goto p).r2 = s.r2 := rfl
@[simp] theorem State.goto_blockType (p : Phase) : (s.goto p).blockType = s.blockType := rfl
@[simp] theorem State.goto_blockLength (p : Phase) : (s.goto p).blockLength = s.blockLength := rfl
@[simp] theorem State.goto_blockRemaining (p : Phase) : (s.goto p).blockRemaining = s.blockRemaining := rfl
@[simp] theorem State.goto_preTree (p : Phase) : (s.goto p).preTree = s.preTree := rfl
@[simp] theorem State.goto_mainTree (p : Phase) : (s.goto p).mainTree = s.mainTree := rfl
@[simp] theorem State.goto_lengthTree (p : Phase) : (s.goto p).lengthTree = s.lengthTree := rfl
@[simp] theorem State.goto_alignedTree (p : Phase) : (s.goto p).alignedTree = s.alignedTree := rfl
@[simp] theorem State.goto_lengthEmpty (p : Phase) : (s.goto p).lengthEmpty = s.lengthEmpty := rfl
@[simp] theorem State.goto_intelFileSize (p : Phase) : (s.goto p).intelFileSize = s.intelFileSize := rfl
@[simp] theorem State.goto_intelCurPos (p : Phase) : (s.goto p).intelCurPos = s.intelCurPos := rfl
@[simp] theorem State.goto_intelStarted (p : Phase) : (s.goto p).intelStarted = s.intelStarted := rfl
@[simp] theorem State.goto_stage (p : Phase) : (s.goto p).stage = s.stage := rfl
@[simp] theorem State.goto_stageLen (p : Phase) : (s.goto p).stageLen = s.stageLen := rfl
@[simp] theorem State.goto_stagePtr (p : Phase) : (s.goto p).stagePtr = s.stagePtr := rfl
@[simp] theorem State.goto_err (p : Phase) : (s.goto p).err = s.err := rfl
@[simp] theorem State.goto_out (p : Phase) : (s.goto p).out = s.out := rfl
@[simp] theorem State.goto_phase (p : Phase) : (s.goto p).phase = p := rfl
@[simp] theorem State.goto_fs (p : Phase) : (s.goto p).fs = s.fs := rfl
@[simp] theorem State.goto_todo (p : Phase) : (s.goto p).todo = s.todo := rfl
@[simp] theorem State.goto_thisRun (p : Phase) : (s.goto p).thisRun = s.thisRun := rfl
@[simp] theorem State.goto_treeSel (p : Phase) : (s.goto p).treeSel = s.treeSel := rfl
@[simp] theorem State.goto_lenPos (p : Phase) : (s.goto p).lenPos = s.lenPos := rfl
@[simp] theorem State.goto_mSym (p : Phase) : (s.goto p).mSym = s.mSym := rfl
@[simp] theorem State.goto_mLen (p : Phase) : (s.goto p).mLen = s.mLen := rfl
@[simp] theorem State.goto_mOff (p : Phase) : (s.goto p).mOff = s.mOff := rfl
@[simp] theorem State.goto_want (p : Phase) : (s.goto p).want = s.want := rfl
@[simp] theorem State.goto_endFrame (p : Phase) : (s.goto p).endFrame = s.endFrame := rfl
@[simp] theorem State.goto_present (p : Phase) : (s.goto p).present = s.present := rfl
@[simp] theorem State.goto_bound (p : Phase) : (s.goto p).bound = s.bound := rfl
@[simp] theorem State.goto_oneshot (p : Phase) : (s.goto p).oneshot = s.oneshot := rfl
@[simp] theorem State.goto_queue (p : Phase) : (s.goto p).queue = s.queue := rfl
@[simp] theorem State.goto_results (p : Phase) : (s.goto p).results = s.results := rfl

@[simp] theorem State.withReader_par (r : BitReader) : (s.withReader r).par = s.par := rfl
@[simp] theorem State.withReader_cfg (r : BitReader) : (s.withReader r).cfg = s.cfg := rfl
@[simp] theorem State.withReader_rd (r : BitReader) : (s.withReader r).rd = r := rfl
@[simp] theorem State.withReader_windowPos (r : BitReader) : (s.withReader r).windowPos = s.windowPos := rfl
@[simp] theorem State.withReader_framePos (r : BitReader) : (s.withReader r).framePos = s.framePos := rfl
@[simp] theorem State.withReader_win (r : BitReader) : (s.withReader r).win = s.win := rfl
@[simp] theorem State.withReader_frame (r : BitReader) : (s.withReader r).frame = s.frame := rfl
@[simp] theorem State.withReader_delivered (r : BitReader) : (s.withReader r).delivered = s.delivered := rfl
@[simp] theorem State.withReader_headerRead (r : BitReader) : (s.withReader r).headerRead = s.headerRead := rfl
@[simp] theorem State.withReader_r0 (r : BitReader) : (s.withReader r).r0 = s.r0 := rfl
@[simp] theorem State.withReader_r1 (r : BitReader) : (s.withReader r).r1 = s.r1 := rfl
@[simp] theorem State.withReader_r2 (r : BitReader) : (s.withReader r).r2 = s.r2 := rfl
@[simp] theorem State.withReader_blockType (r : BitReader) : (s.withReader r).blockType = s.blockType := rfl
@[simp] theorem State.withReader_blockLength (r : BitReader) : (s.withReader r).blockLength = s.blockLength := rfl
@[simp] theorem State.withReader_blockRemaining (r : BitReader) : (s.withReader r).blockRemaining = s.blockRemaining := rfl
@[simp] theorem State.withReader_preTree (r : BitReader) : (s.withReader r).preTree = s.preTree := rfl
@[simp] theorem State.withReader_mainTree (r : BitReader) : (s.withReader r).mainTree = s.mainTree := rfl
@[simp] theorem State.withReader_lengthTree (r : BitReader) : (s.withReader r).lengthTree = s.lengthTree := rfl
@[simp] theorem State.withReader_alignedTree (r : BitReader) : (s.withReader r).alignedTree = s.alignedTree := rfl
@[simp] theorem State.withReader_lengthEmpty (r : BitReader) : (s.withReader r).lengthEmpty = s.lengthEmpty := rfl
@[simp] theorem State.withReader_intelFileSize (r : BitReader) : (s.withReader r).intelFileSize = s.intelFileSize := rfl
@[simp] theorem State.withReader_intelCurPos (r : BitReader) : (s.withReader r).intelCurPos = s.intelCurPos := rfl
@[simp] theorem State.withReader_intelStarted (r : BitReader) : (s.withReader r).intelStarted = s.intelStarted := rfl
@[simp] theorem State.withReader_stage (r : BitReader) : (s.withReader r).stage = s.stage := rfl
@[simp] theorem State.withReader_stageLen (r : BitReader) : (s.withReader r).stageLen = s.stageLen := rfl
@[simp] theorem State.withReader_stagePtr (r : BitReader) : (s.withReader r).stagePtr = s.stagePtr := rfl
@[simp] theorem State.withReader_err (r : BitReader) : (s.withReader r).err = s.err := rfl
@[simp] theorem State.withReader_out (r : BitReader) : (s.withReader r).out = s.out := rfl
@[simp] theorem State.withReader_phase (r : BitReader) : (s.withReader r).phase = s.phase := rfl
@[simp] theorem State.withReader_fs (r : BitReader) : (s.withReader r).fs = s.fs := rfl
@[simp] theorem State.withReader_todo (r : BitReader) : (s.withReader r).todo = s.todo := rfl
@[simp] theorem State.withReader_thisRun (r : BitReader) : (s.withReader r).thisRun = s.thisRun := rfl
@[simp] theorem State.withReader_treeSel (r : BitReader) : (s.withReader r).treeSel = s.treeSel := rfl
@[simp] theorem State.withReader_lenPos (r : BitReader) : (s.withReader r).lenPos = s.lenPos := rfl
@[simp] theorem State.withReader_mSym (r : BitReader) : (s.withReader r).mSym = s.mSym := rfl
@[simp] theorem State.withReader_mLen (r : BitReader) : (s.withReader r).mLen = s.mLen := rfl
@[simp] theorem State.withReader_mOff (r : BitReader) : (s.withReader r).mOff = s.mOff := rfl
@[simp] theorem State.withReader_want (r : BitReader) : (s.withReader r).want = s.want := rfl
@[simp] theorem State.withReader_endFrame (r : BitReader) : (s.withReader r).endFrame = s.endFrame := rfl
@[simp] theorem State.withReader_present (r : BitReader) : (s.withReader r).present = s.present := rfl
@[simp] theorem State.withReader_bound (r : BitReader) : (s.withReader r).bound = s.bound := rfl
@[simp] theorem State.withReader_oneshot (r : BitReader) : (s.withReader r).oneshot = s.oneshot := rfl
@[simp] theorem State.withReader_queue (r : BitReader) : (s.withReader r).queue = s.queue := rfl
@[simp] theorem State.withReader_results (r : BitReader) : (s.withReader r).results = s.results := rfl

@[simp] theorem State.raise_par (e : ErrKind) : (s.raise e).par = s.par := rfl
@[simp] theorem State.raise_cfg (e : ErrKind) : (s.raise e).cfg = s.cfg := rfl
@[simp] theorem State.raise_rd (e : ErrKind) : (s.raise e).rd = s.rd := rfl
@[simp] theorem State.raise_windowPos (e : ErrKind) : (s.raise e).windowPos = s.windowPos := rfl
@[simp] theorem State.raise_framePos (e : ErrKind) : (s.raise e).framePos = s.framePos := rfl
@[simp] theorem State.raise_win (e : ErrKind) : (s.raise e).win = s.win := rfl
@[simp] theorem State.raise_frame (e : ErrKind) : (s.raise e).frame = s.frame := rfl
@[simp] theorem State.raise_delivered (e : ErrKind) : (s.raise e).delivered = s.delivered := rfl
@[simp] theorem State.raise_headerRead (e : ErrKind) : (s.raise e).headerRead = s.headerRead := rfl
@[simp] theorem State.raise_r0 (e : ErrKind) : (s.raise e).r0 = s.r0 := rfl
@[simp] theorem State.raise_r1 (e : ErrKind) : (s.raise e).r1 = s.r1 := rfl
@[simp] theorem State.raise_r2 (e : ErrKind) : (s.raise e).r2 = s.r2 := rfl
@[simp] theorem State.raise_blockType (e : ErrKind) : (s.raise e).blockType = s.blockType := rfl
@[simp] theorem State.raise_blockLength (e : ErrKind) : (s.raise e).blockLength = s.blockLength := rfl
@[simp] theorem State.raise_blockRemaining (e : ErrKind) : (s.raise e).blockRemaining = s.blockRemaining := rfl
@[simp] theorem State.raise_preTree (e : ErrKind) : (s.raise e).preTree = s.preTree := rfl
@[simp] theorem State.raise_mainTree (e : ErrKind) : (s.raise e).mainTree = s.mainTree := rfl
@[simp] theorem State.raise_lengthTree (e : ErrKind) : (s.raise e).lengthTree = s.lengthTree := rfl
@[simp] theorem State.raise_alignedTree (e : ErrKind) : (s.raise e).alignedTree = s.alignedTree := rfl
@[simp] theorem State.raise_lengthEmpty (e : ErrKind) : (s.raise e).lengthEmpty = s.lengthEmpty := rfl
@[simp] theorem State.raise_intelFileSize (e : ErrKind) : (s.raise e).intelFileSize = s.intelFileSize := rfl
@[simp] theorem State.raise_intelCurPos (e : ErrKind) : (s.raise e).intelCurPos = s.intelCurPos := rfl
@[simp] theorem State.raise_intelStarted (e : ErrKind) : (s.raise e).intelStarted = s.intelStarted := rfl
@[simp] theorem State.raise_stage (e : ErrKind) : (s.raise e).stage = s.stage := rfl
@[simp] theorem State.raise_stageLen (e : ErrKind) : (s.raise e).stageLen = s.stageLen := rfl
@[simp] theorem State.raise_stagePtr (e : ErrKind) : (s.raise e).stagePtr = s.stagePtr := rfl
@[simp] theorem State.raise_err (e : ErrKind) : (s.raise e).err = some e := rfl
@[simp] theorem State.raise_out (e : ErrKind) : (s.raise e).out = s.out := rfl
@[simp] theorem State.raise_phase (e : ErrKind) : (s.raise e).phase = .idle := rfl
@[simp] theorem State.raise_fs (e : ErrKind) : (s.raise e).fs = s.fs := rfl
@[simp] theorem State.raise_todo (e : ErrKind) : (s.raise e).todo = s.todo := rfl
@[simp] theorem State.raise_thisRun (e : ErrKind) : (s.raise e).thisRun = s.thisRun := rfl
@[simp] theorem State.raise_treeSel (e : ErrKind) : (s.raise e).treeSel = s.treeSel := rfl
@[simp] theorem State.raise_lenPos (e : ErrKind) : (s.raise e).lenPos = s.lenPos := rfl
@[simp] theorem State.raise_mSym (e : ErrKind) : (s.raise e).mSym = s.mSym := rfl
@[simp] theorem State.raise_mLen (e : ErrKind) : (s.raise e).mLen = s.mLen := rfl
@[simp] theorem State.raise_mOff (e : ErrKind) : (s.raise e).mOff = s.mOff := rfl
@[simp] theorem State.raise_want (e : ErrKind) : (s.raise e).want = s.want := rfl
@[simp] theorem State.raise_endFrame (e : ErrKind) : (s.raise e).endFrame = s.endFrame := rfl
@[simp] theorem State.raise_present (e : ErrKind) : (s.raise e).present = s.present := rfl
@[simp] theorem State.raise_bound (e : ErrKind) : (s.raise e).bound = s.bound := rfl
@[simp] theorem State.raise_oneshot (e : ErrKind) : (s.raise e).oneshot = false := rfl
@[simp] theorem State.raise_queue (e : ErrKind) : (s.raise e).queue = s.queue := rfl
@[simp] theorem State.raise_results (e : ErrKind) : (s.raise e).results = s.results ++ [.error e] := rfl

@[simp] theorem State.answerError_par (e : ErrKind) : (s.answerError e).par = s.par := rfl
@[simp] theorem State.answerError_cfg (e : ErrKind) : (s.answerError e).cfg = s.cfg := rfl
@[simp] theorem State.answerError_rd (e : ErrKind) : (s.answerError e).rd = s.rd := rfl
@[simp] theorem State.answerError_windowPos (e : ErrKind) : (s.answerError e).windowPos = s.windowPos := rfl
@[simp] theorem State.answerError_framePos (e : ErrKind) : (s.answerError e).framePos = s.framePos := rfl
@[simp] theorem State.answerError_win (e : ErrKind) : (s.answerError e).win = s.win := rfl
@[simp] theorem State.answerError_frame (e : ErrKind) : (s.answerError e).frame = s.frame := rfl
@[simp] theorem State.answerError_delivered (e : ErrKind) : (s.answerError e).delivered = s.delivered := rfl
@[simp] theorem State.answerError_headerRead (e : ErrKind) : (s.answerError e).headerRead = s.headerRead := rfl
@[simp] theorem State.answerError_r0 (e : ErrKind) : (s.answerError e).r0 = s.r0 := rfl
@[simp] theorem State.answerError_r1 (e : ErrKind) : (s.answerError e).r1 = s.r1 := rfl
@[simp] theorem State.answerError_r2 (e : ErrKind) : (s.answerError e).r2 = s.r2 := rfl
@[simp] theorem State.answerError_blockType (e : ErrKind) : (s.answerError e).blockType = s.blockType := rfl
@[simp] theorem State.answerError_blockLength (e : ErrKind) : (s.answerError e).blockLength = s.blockLength := rfl
@[simp] theorem State.answerError_blockRemaining (e : ErrKind) : (s.answerError e).blockRemaining = s.blockRemaining := rfl
@[simp] theorem State.answerError_preTree (e : ErrKind) : (s.answerError e).preTree = s.preTree := rfl
@[simp] theorem State.answerError_mainTree (e : ErrKind) : (s.answerError e).mainTree = s.mainTree := rfl
@[simp] theorem State.answerError_lengthTree (e : ErrKind) : (s.answerError e).lengthTree = s.lengthTree := rfl
@[simp] theorem State.answerError_alignedTree (e : ErrKind) : (s.answerError e).alignedTree = s.alignedTree := rfl
@[simp] theorem State.answerError_lengthEmpty (e : ErrKind) : (s.answerError e).lengthEmpty = s.lengthEmpty := rfl
@[simp] theorem State.answerError_intelFileSize (e : ErrKind) : (s.answerError e).intelFileSize = s.intelFileSize := rfl
@[simp] theorem State.answerError_intelCurPos (e : ErrKind) : (s.answerError e).intelCurPos = s.intelCurPos := rfl
@[simp] theorem State.answerError_intelStarted (e : ErrKind) : (s.answerError e).intelStarted = s.intelStarted := rfl
@[simp] theorem State.answerError_stage (e : ErrKind) : (s.answerError e).stage = s.stage := rfl
@[simp] theorem State.answerError_stageLen (e : ErrKind) : (s.answerError e).stageLen = s.stageLen := rfl
@[simp] theorem State.answerError_stagePtr (e : ErrKind) : (s.answerError e).stagePtr = s.stagePtr := rfl
@[simp] theorem State.answerError_err (e : ErrKind) : (s.answerError e).err = s.err := rfl
@[simp] theorem State.answerError_out (e : ErrKind) : (s.answerError e).out = s.out := rfl
@[simp] theorem State.answerError_phase (e : ErrKind) : (s.answerError e).phase = s.phase := rfl
@[simp] theorem State.answerError_fs (e : ErrKind) : (s.answerError e).fs = s.fs := rfl
@[simp] theorem State.answerError_todo (e : ErrKind) : (s.answerError e).todo = s.todo := rfl
@[simp] theorem State.answerError_thisRun (e : ErrKind) : (s.answerError e).thisRun = s.thisRun := rfl
@[simp] theorem State.answerError_treeSel (e : ErrKind) : (s.answerError e).treeSel = s.treeSel := rfl
@[simp] theorem State.answerError_lenPos (e : ErrKind) : (s.answerError e).lenPos = s.lenPos := rfl
@[simp] theorem State.answerError_mSym (e : ErrKind) : (s.answerError e).mSym = s.mSym := rfl
@[simp] theorem State.answerError_mLen (e : ErrKind) : (s.answerError e).mLen = s.mLen := rfl
@[simp] theorem State.answerError_mOff (e : ErrKind) : (s.answerError e).mOff = s.mOff := rfl
@[simp] theorem State.answerError_want (e : ErrKind) : (s.answerError e).want = s.want := rfl
@[simp] theorem State.answerError_endFrame (e : ErrKind) : (s.answerError e).endFrame = s.endFrame := rfl
@[simp] theorem State.answerError_present (e : ErrKind) : (s.answerError e).present = s.present := rfl
@[simp] theorem State.answerError_bound (e : ErrKind) : (s.answerError e).bound = s.bound := rfl
@[simp] theorem State.answerError_oneshot (e : ErrKind) : (s.answerError e).oneshot = s.oneshot := rfl
@[simp] theorem State.answerError_queue (e : ErrKind) : (s.answerError e).queue = s.queue := rfl
@[simp] theorem State.answerError_results (e : ErrKind) : (s.answerError e).results = s.results ++ [.error e] := rfl

@[simp] theorem State.complete_par : (s.complete).par = s.par := rfl
@[simp] theorem State.complete_cfg : (s.complete).cfg = s.cfg := rfl
@[simp] theorem State.complete_rd : (s.complete).rd = s.rd := rfl
@[simp] theorem State.complete_windowPos : (s.complete).windowPos = s.windowPos := rfl
@[simp] theorem State.complete_framePos : (s.complete).framePos = s.framePos := rfl
@[simp] theorem State.complete_win : (s.complete).win = s.win := rfl
@[simp] theorem State.complete_frame : (s.complete).frame = s.frame := rfl
@[simp] theorem State.complete_delivered : (s.complete).delivered = s.delivered := rfl
@[simp] theorem State.complete_headerRead : (s.complete).headerRead = s.headerRead := rfl
@[simp] theorem State.complete_r0 : (s.complete).r0 = s.r0 := rfl
@[simp] theorem State.complete_r1 : (s.complete).r1 = s.r1 := rfl
@[simp] theorem State.complete_r2 : (s.complete).r2 = s.r2 := rfl
@[simp] theorem State.complete_blockType : (s.complete).blockType = s.blockType := rfl
@[simp] theorem State.complete_blockLength : (s.complete).blockLength = s.blockLength := rfl
@[simp] theorem State.complete_blockRemaining : (s.complete).blockRemaining = s.blockRemaining := rfl
@[simp] theorem State.complete_preTree : (s.complete).preTree = s.preTree := rfl
@[simp] theorem State.complete_mainTree : (s.complete).mainTree = s.mainTree := rfl
@[simp] theorem State.complete_lengthTree : (s.complete).lengthTree = s.lengthTree := rfl
@[simp] theorem State.complete_alignedTree : (s.complete).alignedTree = s.alignedTree := rfl
@[simp] theorem State.complete_lengthEmpty : (s.complete).lengthEmpty = s.lengthEmpty := rfl
@[simp] theorem State.complete_intelFileSize : (s.complete).intelFileSize = s.intelFileSize := rfl
@[simp] theorem State.complete_intelCurPos : (s.complete).intelCurPos = s.intelCurPos := rfl
@[simp] theorem State.complete_intelStarted : (s.complete).intelStarted = s.intelStarted := rfl
@[simp] theorem State.complete_stage : (s.complete).stage = s.stage := rfl
@[simp] theorem State.complete_stageLen : (s.complete).stageLen = s.stageLen := rfl
@[simp] theorem State.complete_stagePtr : (s.complete).stagePtr = s.stagePtr := rfl
@[simp] theorem State.complete_err : (s.complete).err = s.err := rfl
@[simp] theorem State.complete_out : (s.complete).out = s.out := rfl
@[simp] theorem State.complete_phase : (s.complete).phase = .idle := rfl
@[simp] theorem State.complete_fs : (s.complete).fs = s.fs := rfl
@[simp] theorem State.complete_todo : (s.complete).todo = s.todo := rfl
@[simp] theorem State.complete_thisRun : (s.complete).thisRun = s.thisRun := rfl
@[simp] theorem State.complete_treeSel : (s.complete).treeSel = s.treeSel := rfl
@[simp] theorem State.complete_lenPos : (s.complete).lenPos = s.lenPos := rfl
@[simp] theorem State.complete_mSym : (s.complete).mSym = s.mSym := rfl
@[simp] theorem State.complete_mLen : (s.complete).mLen = s.mLen := rfl
@[simp] theorem State.complete_mOff : (s.complete).mOff = s.mOff := rfl
@[simp] theorem State.complete_want : (s.complete).want = s.want := rfl
@[simp] theorem State.complete_endFrame : (s.complete).endFrame = s.endFrame := rfl
@[simp] theorem State.complete_present : (s.complete).present = s.present := rfl
@[simp] theorem State.complete_bound : (s.complete).bound = s.bound := rfl
@[simp] theorem State.complete_oneshot : (s.complete).oneshot = false := rfl
@[simp] theorem State.complete_queue : (s.complete).queue = s.queue := rfl
@[simp] theorem State.complete_results : (s.complete).results = s.results ++ [if s.oneshot then .bytes s.out else .ok] := rfl

@[simp] theorem State.openBlock_par (t : BitVec 3) (len : BitVec 24) : (s.openBlock t len).par = s.par := rfl
@[simp] theorem State.openBlock_cfg (t : BitVec 3) (len : BitVec 24) : (s.openBlock t len).cfg = s.cfg := rfl
@[simp] theorem State.openBlock_rd (t : BitVec 3) (len : BitVec 24) : (s.openBlock t len).rd = s.rd := rfl
@[simp] theorem State.openBlock_windowPos (t : BitVec 3) (len : BitVec 24) : (s.openBlock t len).windowPos = s.windowPos := rfl
@[simp] theorem State.openBlock_framePos (t : BitVec 3) (len : BitVec 24) : (s.openBlock t len).framePos = s.framePos := rfl
@[simp] theorem State.openBlock_win (t : BitVec 3) (len : BitVec 24) : (s.openBlock t len).win = s.win := rfl
@[simp] theorem State.openBlock_frame (t : BitVec 3) (len : BitVec 24) : (s.openBlock t len).frame = s.frame := rfl
@[simp] theorem State.openBlock_delivered (t : BitVec 3) (len : BitVec 24) : (s.openBlock t len).delivered = s.delivered := rfl
@[simp] theorem State.openBlock_headerRead (t : BitVec 3) (len : BitVec 24) : (s.openBlock t len).headerRead = s.headerRead := rfl
@[simp] theorem State.openBlock_r0 (t : BitVec 3) (len : BitVec 24) : (s.openBlock t len).r0 = s.r0 := rfl
@[simp] theorem State.openBlock_r1 (t : BitVec 3) (len : BitVec 24) : (s.openBlock t len).r1 = s.r1 := rfl
@[simp] theorem State.openBlock_r2 (t : BitVec 3) (len : BitVec 24) : (s.openBlock t len).r2 = s.r2 := rfl
@[simp] theorem State.openBlock_blockType (t : BitVec 3) (len : BitVec 24) : (s.openBlock t len).blockType = t := rfl
@[simp] theorem State.openBlock_blockLength (t : BitVec 3) (len : BitVec 24) : (s.openBlock t len).blockLength = len := rfl
@[simp] theorem State.openBlock_blockRemaining (t : BitVec 3) (len : BitVec 24) : (s.openBlock t len).blockRemaining = len.toNat := rfl
@[simp] theorem State.openBlock_preTree (t : BitVec 3) (len : BitVec 24) : (s.openBlock t len).preTree = s.preTree := rfl
@[simp] theorem State.openBlock_mainTree (t : BitVec 3) (len : BitVec 24) : (s.openBlock t len).mainTree = s.mainTree := rfl
@[simp] theorem State.openBlock_lengthTree (t : BitVec 3) (len : BitVec 24) : (s.openBlock t len).lengthTree = s.lengthTree := rfl
@[simp] theorem State.openBlock_alignedTree (t : BitVec 3) (len : BitVec 24) : (s.openBlock t len).alignedTree = s.alignedTree := rfl
@[simp] theorem State.openBlock_lengthEmpty (t : BitVec 3) (len : BitVec 24) : (s.openBlock t len).lengthEmpty = s.lengthEmpty := rfl
@[simp] theorem State.openBlock_intelFileSize (t : BitVec 3) (len : BitVec 24) : (s.openBlock t len).intelFileSize = s.intelFileSize := rfl
@[simp] theorem State.openBlock_intelCurPos (t : BitVec 3) (len : BitVec 24) : (s.openBlock t len).intelCurPos = s.intelCurPos := rfl
@[simp] theorem State.openBlock_intelStarted (t : BitVec 3) (len : BitVec 24) : (s.openBlock t len).intelStarted = s.intelStarted := rfl
@[simp] theorem State.openBlock_stage (t : BitVec 3) (len : BitVec 24) : (s.openBlock t len).stage = s.stage := rfl
@[simp] theorem State.openBlock_stageLen (t : BitVec 3) (len : BitVec 24) : (s.openBlock t len).stageLen = s.stageLen := rfl
@[simp] theorem State.openBlock_stagePtr (t : BitVec 3) (len : BitVec 24) : (s.openBlock t len).stagePtr = s.stagePtr := rfl
@[simp] theorem State.openBlock_err (t : BitVec 3) (len : BitVec 24) : (s.openBlock t len).err = s.err := rfl
@[simp] theorem State.openBlock_out (t : BitVec 3) (len : BitVec 24) : (s.openBlock t len).out = s.out := rfl
@[simp] theorem State.openBlock_phase (t : BitVec 3) (len : BitVec 24) : (s.openBlock t len).phase = s.phase := rfl
@[simp] theorem State.openBlock_fs (t : BitVec 3) (len : BitVec 24) : (s.openBlock t len).fs = s.fs := rfl
@[simp] theorem State.openBlock_todo (t : BitVec 3) (len : BitVec 24) : (s.openBlock t len).todo = s.todo := rfl
@[simp] theorem State.openBlock_thisRun (t : BitVec 3) (len : BitVec 24) : (s.openBlock t len).thisRun = s.thisRun := rfl
@[simp] theorem State.openBlock_treeSel (t : BitVec 3) (len : BitVec 24) : (s.openBlock t len).treeSel = s.treeSel := rfl
@[simp] theorem State.openBlock_lenPos (t : BitVec 3) (len : BitVec 24) : (s.openBlock t len).lenPos = s.lenPos := rfl
@[simp] theorem State.openBlock_mSym (t : BitVec 3) (len : BitVec 24) : (s.openBlock t len).mSym = s.mSym := rfl
@[simp] theorem State.openBlock_mLen (t : BitVec 3) (len : BitVec 24) : (s.openBlock t len).mLen = s.mLen := rfl
@[simp] theorem State.openBlock_mOff (t : BitVec 3) (len : BitVec 24) : (s.openBlock t len).mOff = s.mOff := rfl
@[simp] theorem State.openBlock_want (t : BitVec 3) (len : BitVec 24) : (s.openBlock t len).want = s.want := rfl
@[simp] theorem State.openBlock_endFrame (t : BitVec 3) (len : BitVec 24) : (s.openBlock t len).endFrame = s.endFrame := rfl
@[simp] theorem State.openBlock_present (t : BitVec 3) (len : BitVec 24) : (s.openBlock t len).present = s.present := rfl
@[simp] theorem State.openBlock_bound (t : BitVec 3) (len : BitVec 24) : (s.openBlock t len).bound = s.bound := rfl
@[simp] theorem State.openBlock_oneshot (t : BitVec 3) (len : BitVec 24) : (s.openBlock t len).oneshot = s.oneshot := rfl
@[simp] theorem State.openBlock_queue (t : BitVec 3) (len : BitVec 24) : (s.openBlock t len).queue = s.queue := rfl
@[simp] theorem State.openBlock_results (t : BitVec 3) (len : BitVec 24) : (s.openBlock t len).results = s.results := rfl

@[simp] theorem State.shiftCache_par (off : Nat) : (s.shiftCache off).par = s.par := rfl
@[simp] theorem State.shiftCache_cfg (off : Nat) : (s.shiftCache off).cfg = s.cfg := rfl
@[simp] theorem State.shiftCache_rd (off : Nat) : (s.shiftCache off).rd = s.rd := rfl
@[simp] theorem State.shiftCache_windowPos (off : Nat) : (s.shiftCache off).windowPos = s.windowPos := rfl
@[simp] theorem State.shiftCache_framePos (off : Nat) : (s.shiftCache off).framePos = s.framePos := rfl
@[simp] theorem State.shiftCache_win (off : Nat) : (s.shiftCache off).win = s.win := rfl
@[simp] theorem State.shiftCache_frame (off : Nat) : (s.shiftCache off).frame = s.frame := rfl
@[simp] theorem State.shiftCache_delivered (off : Nat) : (s.shiftCache off).delivered = s.delivered := rfl
@[simp] theorem State.shiftCache_headerRead (off : Nat) : (s.shiftCache off).headerRead = s.headerRead := rfl
@[simp] theorem State.shiftCache_r0 (off : Nat) : (s.shiftCache off).r0 = BitVec.ofNat 32 off := rfl
@[simp] theorem State.shiftCache_r1 (off : Nat) : (s.shiftCache off).r1 = s.r0 := rfl
@[simp] theorem State.shiftCache_r2 (off : Nat) : (s.shiftCache off).r2 = s.r1 := rfl
@[simp] theorem State.shiftCache_blockType (off : Nat) : (s.shiftCache off).blockType = s.blockType := rfl
@[simp] theorem State.shiftCache_blockLength (off : Nat) : (s.shiftCache off).blockLength = s.blockLength := rfl
@[simp] theorem State.shiftCache_blockRemaining (off : Nat) : (s.shiftCache off).blockRemaining = s.blockRemaining := rfl
@[simp] theorem State.shiftCache_preTree (off : Nat) : (s.shiftCache off).preTree = s.preTree := rfl
@[simp] theorem State.shiftCache_mainTree (off : Nat) : (s.shiftCache off).mainTree = s.mainTree := rfl
@[simp] theorem State.shiftCache_lengthTree (off : Nat) : (s.shiftCache off).lengthTree = s.lengthTree := rfl
@[simp] theorem State.shiftCache_alignedTree (off : Nat) : (s.shiftCache off).alignedTree = s.alignedTree := rfl
@[simp] theorem State.shiftCache_lengthEmpty (off : Nat) : (s.shiftCache off).lengthEmpty = s.lengthEmpty := rfl
@[simp] theorem State.shiftCache_intelFileSize (off : Nat) : (s.shiftCache off).intelFileSize = s.intelFileSize := rfl
@[simp] theorem State.shiftCache_intelCurPos (off : Nat) : (s.shiftCache off).intelCurPos = s.intelCurPos := rfl
@[simp] theorem State.shiftCache_intelStarted (off : Nat) : (s.shiftCache off).intelStarted = s.intelStarted := rfl
@[simp] theorem State.shiftCache_stage (off : Nat) : (s.shiftCache off).stage = s.stage := rfl
@[simp] theorem State.shiftCache_stageLen (off : Nat) : (s.shiftCache off).stageLen = s.stageLen := rfl
@[simp] theorem State.shiftCache_stagePtr (off : Nat) : (s.shiftCache off).stagePtr = s.stagePtr := rfl
@[simp] theorem State.shiftCache_err (off : Nat) : (s.shiftCache off).err = s.err := rfl
@[simp] theorem State.shiftCache_out (off : Nat) : (s.shiftCache off).out = s.out := rfl
@[simp] theorem State.shiftCache_phase (off : Nat) : (s.shiftCache off).phase = s.phase := rfl
@[simp] theorem State.shiftCache_fs (off : Nat) : (s.shiftCache off).fs = s.fs := rfl
@[simp] theorem State.shiftCache_todo (off : Nat) : (s.shiftCache off).todo = s.todo := rfl
@[simp] theorem State.shiftCache_thisRun (off : Nat) : (s.shiftCache off).thisRun = s.thisRun := rfl
@[simp] theorem State.shiftCache_treeSel (off : Nat) : (s.shiftCache off).treeSel = s.treeSel := rfl
@[simp] theorem State.shiftCache_lenPos (off : Nat) : (s.shiftCache off).lenPos = s.lenPos := rfl
@[simp] theorem State.shiftCache_mSym (off : Nat) : (s.shiftCache off).mSym = s.mSym := rfl
@[simp] theorem State.shiftCache_mLen (off : Nat) : (s.shiftCache off).mLen = s.mLen := rfl
@[simp] theorem State.shiftCache_mOff (off : Nat) : (s.shiftCache off).mOff = s.mOff := rfl
@[simp] theorem State.shiftCache_want (off : Nat) : (s.shiftCache off).want = s.want := rfl
@[simp] theorem State.shiftCache_endFrame (off : Nat) : (s.shiftCache off).endFrame = s.endFrame := rfl
@[simp] theorem State.shiftCache_present (off : Nat) : (s.shiftCache off).present = s.present := rfl
@[simp] theorem State.shiftCache_bound (off : Nat) : (s.shiftCache off).bound = s.bound := rfl
@[simp] theorem State.shiftCache_oneshot (off : Nat) : (s.shiftCache off).oneshot = s.oneshot := rfl
@[simp] theorem State.shiftCache_queue (off : Nat) : (s.shiftCache off).queue = s.queue := rfl
@[simp] theorem State.shiftCache_results (off : Nat) : (s.shiftCache off).results = s.results := rfl

/-- A tree transmission's length array, as `withLenArray` has stored it. -/
@[simp] theorem State.lenArray_withLenArray (a : NatArray) : (s.withLenArray a).lenArray = a := by
  unfold State.withLenArray State.lenArray
  cases h : s.treeSel <;> simp

@[simp] theorem State.withLenArray_treeSel (a : NatArray) : (s.withLenArray a).treeSel = s.treeSel := by
  unfold State.withLenArray
  cases h : s.treeSel <;> simp

@[simp] theorem State.withLenArray_par (a : NatArray) : (s.withLenArray a).par = s.par := by
  unfold State.withLenArray; cases s.treeSel <;> rfl
@[simp] theorem State.withLenArray_cfg (a : NatArray) : (s.withLenArray a).cfg = s.cfg := by
  unfold State.withLenArray; cases s.treeSel <;> rfl
@[simp] theorem State.withLenArray_rd (a : NatArray) : (s.withLenArray a).rd = s.rd := by
  unfold State.withLenArray; cases s.treeSel <;> rfl
@[simp] theorem State.withLenArray_windowPos (a : NatArray) : (s.withLenArray a).windowPos = s.windowPos := by
  unfold State.withLenArray; cases s.treeSel <;> rfl
@[simp] theorem State.withLenArray_framePos (a : NatArray) : (s.withLenArray a).framePos = s.framePos := by
  unfold State.withLenArray; cases s.treeSel <;> rfl
@[simp] theorem State.withLenArray_win (a : NatArray) : (s.withLenArray a).win = s.win := by
  unfold State.withLenArray; cases s.treeSel <;> rfl
@[simp] theorem State.withLenArray_frame (a : NatArray) : (s.withLenArray a).frame = s.frame := by
  unfold State.withLenArray; cases s.treeSel <;> rfl
@[simp] theorem State.withLenArray_delivered (a : NatArray) : (s.withLenArray a).delivered = s.delivered := by
  unfold State.withLenArray; cases s.treeSel <;> rfl
@[simp] theorem State.withLenArray_headerRead (a : NatArray) : (s.withLenArray a).headerRead = s.headerRead := by
  unfold State.withLenArray; cases s.treeSel <;> rfl
@[simp] theorem State.withLenArray_r0 (a : NatArray) : (s.withLenArray a).r0 = s.r0 := by
  unfold State.withLenArray; cases s.treeSel <;> rfl
@[simp] theorem State.withLenArray_r1 (a : NatArray) : (s.withLenArray a).r1 = s.r1 := by
  unfold State.withLenArray; cases s.treeSel <;> rfl
@[simp] theorem State.withLenArray_r2 (a : NatArray) : (s.withLenArray a).r2 = s.r2 := by
  unfold State.withLenArray; cases s.treeSel <;> rfl
@[simp] theorem State.withLenArray_blockType (a : NatArray) : (s.withLenArray a).blockType = s.blockType := by
  unfold State.withLenArray; cases s.treeSel <;> rfl
@[simp] theorem State.withLenArray_blockLength (a : NatArray) : (s.withLenArray a).blockLength = s.blockLength := by
  unfold State.withLenArray; cases s.treeSel <;> rfl
@[simp] theorem State.withLenArray_blockRemaining (a : NatArray) : (s.withLenArray a).blockRemaining = s.blockRemaining := by
  unfold State.withLenArray; cases s.treeSel <;> rfl
@[simp] theorem State.withLenArray_preTree (a : NatArray) : (s.withLenArray a).preTree = s.preTree := by
  unfold State.withLenArray; cases s.treeSel <;> rfl
@[simp] theorem State.withLenArray_alignedTree (a : NatArray) : (s.withLenArray a).alignedTree = s.alignedTree := by
  unfold State.withLenArray; cases s.treeSel <;> rfl
@[simp] theorem State.withLenArray_lengthEmpty (a : NatArray) : (s.withLenArray a).lengthEmpty = s.lengthEmpty := by
  unfold State.withLenArray; cases s.treeSel <;> rfl
@[simp] theorem State.withLenArray_intelFileSize (a : NatArray) : (s.withLenArray a).intelFileSize = s.intelFileSize := by
  unfold State.withLenArray; cases s.treeSel <;> rfl
@[simp] theorem State.withLenArray_intelCurPos (a : NatArray) : (s.withLenArray a).intelCurPos = s.intelCurPos := by
  unfold State.withLenArray; cases s.treeSel <;> rfl
@[simp] theorem State.withLenArray_intelStarted (a : NatArray) : (s.withLenArray a).intelStarted = s.intelStarted := by
  unfold State.withLenArray; cases s.treeSel <;> rfl
@[simp] theorem State.withLenArray_stage (a : NatArray) : (s.withLenArray a).stage = s.stage := by
  unfold State.withLenArray; cases s.treeSel <;> rfl
@[simp] theorem State.withLenArray_stageLen (a : NatArray) : (s.withLenArray a).stageLen = s.stageLen := by
  unfold State.withLenArray; cases s.treeSel <;> rfl
@[simp] theorem State.withLenArray_stagePtr (a : NatArray) : (s.withLenArray a).stagePtr = s.stagePtr := by
  unfold State.withLenArray; cases s.treeSel <;> rfl
@[simp] theorem State.withLenArray_err (a : NatArray) : (s.withLenArray a).err = s.err := by
  unfold State.withLenArray; cases s.treeSel <;> rfl
@[simp] theorem State.withLenArray_out (a : NatArray) : (s.withLenArray a).out = s.out := by
  unfold State.withLenArray; cases s.treeSel <;> rfl
@[simp] theorem State.withLenArray_phase (a : NatArray) : (s.withLenArray a).phase = s.phase := by
  unfold State.withLenArray; cases s.treeSel <;> rfl
@[simp] theorem State.withLenArray_fs (a : NatArray) : (s.withLenArray a).fs = s.fs := by
  unfold State.withLenArray; cases s.treeSel <;> rfl
@[simp] theorem State.withLenArray_todo (a : NatArray) : (s.withLenArray a).todo = s.todo := by
  unfold State.withLenArray; cases s.treeSel <;> rfl
@[simp] theorem State.withLenArray_thisRun (a : NatArray) : (s.withLenArray a).thisRun = s.thisRun := by
  unfold State.withLenArray; cases s.treeSel <;> rfl
@[simp] theorem State.withLenArray_lenPos (a : NatArray) : (s.withLenArray a).lenPos = s.lenPos := by
  unfold State.withLenArray; cases s.treeSel <;> rfl
@[simp] theorem State.withLenArray_mSym (a : NatArray) : (s.withLenArray a).mSym = s.mSym := by
  unfold State.withLenArray; cases s.treeSel <;> rfl
@[simp] theorem State.withLenArray_mLen (a : NatArray) : (s.withLenArray a).mLen = s.mLen := by
  unfold State.withLenArray; cases s.treeSel <;> rfl
@[simp] theorem State.withLenArray_mOff (a : NatArray) : (s.withLenArray a).mOff = s.mOff := by
  unfold State.withLenArray; cases s.treeSel <;> rfl
@[simp] theorem State.withLenArray_want (a : NatArray) : (s.withLenArray a).want = s.want := by
  unfold State.withLenArray; cases s.treeSel <;> rfl
@[simp] theorem State.withLenArray_endFrame (a : NatArray) : (s.withLenArray a).endFrame = s.endFrame := by
  unfold State.withLenArray; cases s.treeSel <;> rfl
@[simp] theorem State.withLenArray_present (a : NatArray) : (s.withLenArray a).present = s.present := by
  unfold State.withLenArray; cases s.treeSel <;> rfl
@[simp] theorem State.withLenArray_bound (a : NatArray) : (s.withLenArray a).bound = s.bound := by
  unfold State.withLenArray; cases s.treeSel <;> rfl
@[simp] theorem State.withLenArray_oneshot (a : NatArray) : (s.withLenArray a).oneshot = s.oneshot := by
  unfold State.withLenArray; cases s.treeSel <;> rfl
@[simp] theorem State.withLenArray_queue (a : NatArray) : (s.withLenArray a).queue = s.queue := by
  unfold State.withLenArray; cases s.treeSel <;> rfl
@[simp] theorem State.withLenArray_results (a : NatArray) : (s.withLenArray a).results = s.results := by
  unfold State.withLenArray; cases s.treeSel <;> rfl

end Sys2Proof.Machine
end

