-- ==== Sys2Proof/Laws/Ops.lean ====
section
/-! SUPPORT. What each shared operation can do, said once: window writes, length-array writes, the match copy, delivery. -/

namespace Sys2Proof.Machine

/-- `produce` goes on exactly when its bytes fit below `W`. -/
theorem State.produce_eq (s : State) (bytes : List Byte) (h : s.windowPos + bytes.length ≤ s.cfg.windowSize) :
    s.produce bytes = .next { s with
      win := Cells.splice s.win s.windowPos bytes
      windowPos := s.windowPos + bytes.length
      thisRun := s.thisRun - bytes.length
      phase := .run } := by
  unfold State.produce
  rw [if_neg (by omega)]

theorem State.produce_fault (s : State) (bytes : List Byte) (h : s.cfg.windowSize < s.windowPos + bytes.length) :
    s.produce bytes = .fault .windowIndex := by
  unfold State.produce
  rw [if_pos h]

/-- `writeLens` writes its run in full, unless `P_LEN_OVERRUN = fault` and the run passes the range (R166, D9). -/
theorem State.writeLens_eq (s : State) (y v : Nat) (h : s.par.lenOverrun = .fault → s.lenPos + y ≤ s.rangeEnd) :
    s.writeLens y v = .next { s.withLenArray (NatArray.fill s.lenArray s.lenPos y v) with
      lenPos := s.lenPos + y, phase := .items } := by
  unfold State.writeLens
  rw [if_neg (fun hc => by have := h hc.1; omega)]

/-- The copy loop writes nothing below its first index. -/
theorem copyBytes_below (W off : Nat) (k pos : Nat) (win : Memory) (a : Nat) (ha : a < pos) :
    Cells.find (copyBytes W off k pos win).1 a = Cells.find win a := by
  induction k generalizing pos win with
  | zero => rfl
  | succ k ih =>
    unfold copyBytes
    split
    · rfl
    · rw [ih _ _ (by omega), Cells.find_put, if_neg (by omega)]

/-- The copy loop writes nothing at or above its last index. -/
theorem copyBytes_above (W off : Nat) (k pos : Nat) (win : Memory) (a : Nat) (ha : pos + k ≤ a) :
    Cells.find (copyBytes W off k pos win).1 a = Cells.find win a := by
  induction k generalizing pos win with
  | zero => rfl
  | succ k ih =>
    unfold copyBytes
    split
    · rfl
    · rw [ih _ _ (by omega), Cells.find_put, if_neg (by omega)]

theorem copyBytes_wf (W off : Nat) (k pos : Nat) (win : Memory) (h : Memory.wf win) :
    Memory.wf (copyBytes W off k pos win).1 := by
  induction k generalizing pos win with
  | zero => exact h
  | succ k ih =>
    unfold copyBytes
    split
    · exact h
    · exact ih _ _ (Cells.wf_put h _ _)

theorem copyBytes_mem (W off : Nat) (k pos : Nat) (win : Memory) (c : Host.Cell) (h : c ∈ (copyBytes W off k pos win).1) :
    (pos ≤ c.1 ∧ c.1 < pos + k) ∨ c ∈ win := by
  induction k generalizing pos win with
  | zero => exact .inr h
  | succ k ih =>
    unfold copyBytes at h
    split at h
    · exact .inr h
    · rcases ih _ _ h with h | h
      · exact .inl ⟨by omega, by omega⟩
      · rcases Cells.mem_put h with rfl | h
        · exact .inl ⟨Nat.le_refl _, by simp only; omega⟩
        · exact .inr h

/-- The source index of the byte at window index `p`. -/
def copySource (W off p : Nat) : Nat := (((p : Int) - (off : Int)) % (W : Int)).toNat

/-- The copy loop answers all its bytes when each source is readable in its turn, and each byte is its source's as the loop
has left it (R215, R73). -/
theorem copyBytes_copies (W off : Nat) (k pos : Nat) (win : Memory)
    (h : ∀ j, j < k → (pos ≤ copySource W off (pos + j) ∧ copySource W off (pos + j) < pos + j)
      ∨ (Cells.find win (copySource W off (pos + j))).isSome) :
    (copyBytes W off k pos win).2 = true ∧
      ∀ j, j < k → Cells.find (copyBytes W off k pos win).1 (pos + j) =
        if pos ≤ copySource W off (pos + j) ∧ copySource W off (pos + j) < pos + j then
          Cells.find (copyBytes W off k pos win).1 (copySource W off (pos + j))
        else Cells.find win (copySource W off (pos + j)) := by
  induction k generalizing pos win with
  | zero => exact ⟨rfl, fun j hj => absurd hj (by omega)⟩
  | succ k ih =>
    have h0 := h 0 (by omega)
    rw [Nat.add_zero] at h0
    have h0 : (Cells.find win (copySource W off pos)).isSome := h0.elim (fun h => by omega) id
    obtain ⟨b, hb⟩ := Option.isSome_iff_exists.1 h0
    have hstep : copyBytes W off (k + 1) pos win = copyBytes W off k (pos + 1) (Cells.put win pos b) := by
      rw [copyBytes]
      have hb' := hb
      unfold copySource at hb'
      rw [hb']
    have hput : ∀ a, Cells.find (Cells.put win pos b) a = if a = pos then some b else Cells.find win a :=
      fun a => Cells.find_put win pos a b
    obtain ⟨hf, hc⟩ := ih (pos + 1) (Cells.put win pos b) (by
      intro j hj
      have := h (j + 1) (by omega)
      rw [show pos + (j + 1) = pos + 1 + j by omega] at this
      rw [hput]
      rcases this with this | this
      · by_cases he : copySource W off (pos + 1 + j) = pos
        · right; simp [he]
        · left; omega
      · right
        split
        · simp
        · exact this)
    rw [hstep]
    refine ⟨hf, fun j hj => ?_⟩
    have hpos : Cells.find (copyBytes W off k (pos + 1) (Cells.put win pos b)).1 pos = some b := by
      rw [copyBytes_below _ _ _ _ _ _ (by omega), hput, if_pos rfl]
    cases j with
    | zero =>
      simp only [Nat.add_zero]
      rw [hpos, if_neg (by omega), hb]
    | succ j =>
      rw [show pos + (j + 1) = pos + 1 + j by omega, hc j (by omega), hput]
      by_cases he : copySource W off (pos + 1 + j) = pos
      · rw [he, if_neg (by omega), if_pos rfl, if_pos (by omega), hpos]
      · rw [if_neg he]
        by_cases h1 : pos ≤ copySource W off (pos + 1 + j) ∧ copySource W off (pos + 1 + j) < pos + 1 + j
        · rw [if_pos h1, if_pos (by omega)]
        · rw [if_neg h1, if_neg (by omega)]

/-- The checks of a match, as a proposition (R212 to R214). -/
theorem State.matchRefused_eq_false_iff (s : State) (off len : Nat) :
    s.matchRefused off len = false ↔ s.OffsetLegal off len := by
  unfold State.matchRefused State.OffsetLegal
  simp only [Bool.or_eq_false_iff, Bool.and_eq_false_iff, decide_eq_false_iff_not, beq_eq_false_iff_ne]
  omega

/-- A match whose copy can run completes, and its result is `Copied` (R212 to R215). -/
theorem State.copyMatch_runs (s : State) (off len : Nat) (h : s.CopyRuns off len) :
    ∃ t, s.copyMatch off len = .next t ∧ s.Copied off len t := by
  obtain ⟨hr, hs⟩ := h
  have hr := (State.matchRefused_eq_false_iff s off len).2 hr
  obtain ⟨hf, hc⟩ := copyBytes_copies s.cfg.windowSize off len s.windowPos s.win hs
  refine ⟨{ s with
        win := (copyBytes s.cfg.windowSize off len s.windowPos s.win).1
        windowPos := s.windowPos + len
        thisRun := s.thisRun - len
        phase := .run }, ?_, ?_, ?_, rfl⟩
  · unfold State.copyMatch
    rw [hr]
    simp [hf]
  · exact hc
  · rintro a (ha | ha)
    · exact copyBytes_below _ _ _ _ _ _ ha
    · exact copyBytes_above _ _ _ _ _ _ ha

/-- A match that fails a check writes nothing (R315). -/
theorem State.copyMatch_refused (s : State) (off len : Nat) (h : ¬ s.OffsetLegal off len) :
    s.copyMatch off len = raised s .matchOutOfBounds := by
  rw [← State.matchRefused_eq_false_iff, Bool.not_eq_false] at h
  unfold State.copyMatch
  rw [if_pos h]

/-- `copyMatch` answers a next state in every case, and changes nothing but the window, the cursor, the run's count, the
place, and what a raise changes. -/
theorem State.copyMatch_cases (s : State) (off len : Nat) :
    (s.matchRefused off len = true ∧ s.copyMatch off len = .next (s.raise .matchOutOfBounds)) ∨
    (s.matchRefused off len = false ∧ ∃ win, win = (copyBytes s.cfg.windowSize off len s.windowPos s.win).1 ∧
      (s.copyMatch off len = .next { s with
          win := win, windowPos := s.windowPos + len, thisRun := s.thisRun - len, phase := .run }
        ∨ s.copyMatch off len = .next ({ s with win := win }.raise .matchOutOfBounds))) := by
  unfold State.copyMatch
  by_cases h : s.matchRefused off len = true
  · exact .inl ⟨h, by rw [if_pos h]; rfl⟩
  · refine .inr ⟨by simpa using h, _, rfl, ?_⟩
    rw [if_neg h]
    by_cases h2 : (copyBytes s.cfg.windowSize off len s.windowPos s.win).2 = true
    · exact .inl (by simp [h2])
    · exact .inr (by simp [h2, raised])

/-- What a passed check bounds. -/
theorem State.matchRefused_false {s : State} {off len : Nat} (h : s.matchRefused off len = false) :
    s.windowPos + len ≤ s.cfg.windowSize ∧ off ≠ 0 := by
  unfold State.matchRefused at h
  simp only [Bool.or_eq_false_iff, decide_eq_false_iff_not, beq_eq_false_iff_ne] at h
  omega

/-- `deliver` appends the staged bytes it reads, in order (R293). -/
theorem State.deliver_eq_some {s t : State} {k : Nat} (hw : Memory.wf s.stage) (h : s.deliver k = some t) :
    ∃ bytes : List Byte, bytes.length = k ∧ (∀ i, i < k → Cells.find s.stage (s.stagePtr + i) = bytes[i]?) ∧
      t = { s with out := s.out ++ bytes, stagePtr := s.stagePtr + k, delivered := s.delivered + k } := by
  unfold State.deliver at h
  rw [Option.map_eq_some_iff] at h
  obtain ⟨bytes, hb, rfl⟩ := h
  have := (Cells.readRange_eq_some hw _ _ _).1 hb
  exact ⟨bytes, this.1, this.2, rfl⟩

/-- `deliver` succeeds when every staged byte it reads holds a value. -/
theorem State.deliver_isSome (s : State) (k : Nat) (hw : Memory.wf s.stage)
    (h : ∀ i, i < k → (Cells.find s.stage (s.stagePtr + i)).isSome) : ∃ t, s.deliver k = some t := by
  obtain ⟨vs, hv⟩ := Cells.readRange_isSome hw s.stagePtr k h
  exact ⟨_, by unfold State.deliver; rw [hv]; rfl⟩

end Sys2Proof.Machine
end

