-- ==== Sys2Proof/Laws/Matches.lean ====
section
/-! SUPPORT. What the eight match forms have in common: each is its offset and its cache, then the shared match (R200). -/

namespace Sys2Proof.Machine

/-- The cache of a match form, stored. -/
def State.withCache (s : State) (c : Word32 × Word32 × Word32) : State := { s with r0 := c.1, r1 := c.2.1, r2 := c.2.2 }

/-- Every match form is the shared match on its offset, in the state with its cache (R204 to R210). -/
theorem exec_match (i : Instr) (s : State) (lh : Nat) (h : matchHeader i = some lh) :
    exec i s = (s.withCache (matchCache i s)).matchWith (matchOffset i s) lh := by
  cases i <;> simp only [matchHeader, reduceCtorEq, Option.some.injEq] at h <;> subst h
  case matchAlignedLong slot lh v a =>
    cases a with
    | none => rfl
    | some a =>
      have e : explicitOffset slot (alignedValue v a) = positionBase slot - 2 + (8 * v + a) := by
        unfold explicitOffset alignedValue; omega
      show explicitMatch slot lh (alignedValue v a) s = _
      unfold explicitMatch
      rw [e]
      rfl
  all_goals rfl

/-- The shared match copies, unless its length is 257 in delta mode (R200, R211). -/
theorem State.matchWith_copies (s : State) (off lh len : Nat) (hl : len = (if lh = 7 then s.mLen else lh + 2))
    (hx : ¬ (len = 257 ∧ s.cfg.isDelta = true)) :
    s.matchWith off lh = { s with mOff := off, mLen := len }.copyMatch off len := by
  have e : s.matchLength lh = len := by rw [hl]; rfl
  unfold State.matchWith
  rw [e]
  exact if_neg hx

/-- The shared match waits for its extension when its length is 257 in delta mode (R211). -/
theorem State.matchWith_waits (s : State) (off lh : Nat) (hl : (if lh = 7 then s.mLen else lh + 2) = 257)
    (hd : s.cfg.isDelta = true) :
    s.matchWith off lh = .next { s with mOff := off, mLen := 257, phase := .ext } := by
  have e : s.matchLength lh = 257 := hl
  unfold State.matchWith
  rw [e]
  exact if_pos ⟨rfl, hd⟩

/-- The shared match always answers a next state, with the offset latched and the cache as it found it. -/
theorem State.matchWith_cases (s : State) (off lh : Nat) :
    s.matchWith off lh = .next { s with mOff := off, mLen := s.matchLength lh, phase := .ext }
      ∨ s.matchWith off lh = { s with mOff := off, mLen := s.matchLength lh }.copyMatch off (s.matchLength lh) := by
  unfold State.matchWith
  by_cases h : s.matchLength lh = maxMatch ∧ s.cfg.isDelta = true
  · exact .inl (if_pos h)
  · exact .inr (if_neg h)

/-- Every extension adds its value and copies (R211). -/
theorem exec_extension (i : Instr) (s : State) (x : Nat) (h : extensionValue i = some x) : exec i s = s.extendMatch x := by
  cases i <;> simp only [extensionValue, reduceCtorEq, Option.some.injEq] at h <;> subst h <;> rfl

/-- The bases of the slots rise, and stay below `2^26` for every slot a main symbol can name (R95, R96). -/
theorem positionBase_mono (a b : Nat) : positionBase a ≤ positionBase (a + b) := by
  induction b with
  | zero => exact Nat.le_refl _
  | succ b ih => exact Nat.le_trans ih (Nat.le_add_right _ _)

theorem positionBase_le (slot : Nat) (h : slot < 290) : positionBase slot ≤ 33423360 := by
  have hm := positionBase_mono slot (289 - slot)
  rw [show slot + (289 - slot) = 289 by omega] at hm
  exact Nat.le_trans hm (by decide +kernel)

end Sys2Proof.Machine
end

