-- ==== Sys2Proof/Laws/Step.lean ====
section
/-! SUPPORT. What an element and a sequencing step can do, said once: the registers they keep, and how a command ends. -/

namespace Sys2Proof.Machine

/-- What every element of the bitstream keeps: the configuration, the host side, the frame's registers, the staging and the
output; the reader goes on over the same input; the E8 flag is not cleared; and either the command goes on, or an error
ends it. -/
structure State.Kept (s t : State) : Prop where
  cfg         : t.cfg = s.cfg
  par         : t.par = s.par
  queue       : t.queue = s.queue
  present     : t.present = s.present
  bound       : t.bound = s.bound
  framePos    : t.framePos = s.framePos
  frame       : t.frame = s.frame
  delivered   : t.delivered = s.delivered
  out         : t.out = s.out
  stage       : t.stage = s.stage
  stageLen    : t.stageLen = s.stageLen
  stagePtr    : t.stagePtr = s.stagePtr
  want        : t.want = s.want
  endFrame    : t.endFrame = s.endFrame
  fs          : t.fs = s.fs
  intelCurPos : t.intelCurPos = s.intelCurPos
  reader      : s.rd.Follows True t.rd
  armed       : s.intelStarted = true → t.intelStarted = true
  ending      : (t.err = s.err ∧ t.results = s.results ∧ t.oneshot = s.oneshot ∧ t.phase ≠ .idle)
                  ∨ ∃ e, t.err = some e ∧ t.results = s.results ++ [.error e] ∧ t.oneshot = false ∧ t.phase = .idle

/-- A raise in a state that keeps everything and has answered nothing yet. -/
theorem State.Kept.raise {s t : State} (h : s.Kept t) (hr : t.results = s.results) (e : ErrKind) : s.Kept (t.raise e) :=
  { h with ending := .inr ⟨e, rfl, by rw [← hr]; rfl, rfl, rfl⟩ }

theorem State.copyMatch_kept (s t : State) (off len : Nat) (h : s.copyMatch off len = .next t) : s.Kept t := by
  rcases State.copyMatch_cases s off len with ⟨-, e⟩ | ⟨-, win, -, e | e⟩ <;> rw [e] at h <;> cases h
  · exact ⟨rfl, rfl, rfl, rfl, rfl, rfl, rfl, rfl, rfl, rfl, rfl, rfl, rfl, rfl, rfl, rfl, .refl _, id, .inr ⟨_, rfl, rfl, rfl, rfl⟩⟩
  · exact ⟨rfl, rfl, rfl, rfl, rfl, rfl, rfl, rfl, rfl, rfl, rfl, rfl, rfl, rfl, rfl, rfl, .refl _, id, .inl ⟨rfl, rfl, rfl, by simp⟩⟩
  · exact ⟨rfl, rfl, rfl, rfl, rfl, rfl, rfl, rfl, rfl, rfl, rfl, rfl, rfl, rfl, rfl, rfl, .refl _, id, .inr ⟨_, rfl, rfl, rfl, rfl⟩⟩

theorem State.produce_kept (s t : State) (bytes : List Byte) (h : s.produce bytes = .next t) : s.Kept t := by
  unfold State.produce at h
  split at h <;> cases h
  exact ⟨rfl, rfl, rfl, rfl, rfl, rfl, rfl, rfl, rfl, rfl, rfl, rfl, rfl, rfl, rfl, rfl, .refl _, id, .inl ⟨rfl, rfl, rfl, by simp⟩⟩

theorem State.writeLens_kept (s t : State) (y v : Nat) (h : s.writeLens y v = .next t) : s.Kept t := by
  unfold State.writeLens raised at h
  split at h <;> cases h
  · constructor <;> first | (simp; done) | (rw [show ∀ u : State, ∀ e, (u.raise e).rd = u.rd from fun _ _ => rfl]; simp [BitReader.Follows.refl])
  · constructor <;> simp [BitReader.Follows.refl]

theorem exec_kept (i : Instr) (s t : State) (hi : placeOf i ≠ .idle) (h : exec i s = .next t) : s.Kept t := by
  cases hm : matchHeader i with
  | some lh =>
    rw [exec_match i s lh hm] at h
    rcases State.matchWith_cases (s.withCache (matchCache i s)) (matchOffset i s) lh with e | e <;> rw [e] at h
    · cases h
      exact ⟨rfl, rfl, rfl, rfl, rfl, rfl, rfl, rfl, rfl, rfl, rfl, rfl, rfl, rfl, rfl, rfl, .refl _, id, .inl ⟨rfl, rfl, rfl, by simp⟩⟩
    · have k := State.copyMatch_kept _ _ _ _ h
      exact ⟨k.1, k.2, k.3, k.4, k.5, k.6, k.7, k.8, k.9, k.10, k.11, k.12, k.13, k.14, k.15, k.16, k.17, k.18, k.19⟩
  | none =>
    cases hx : extensionValue i with
    | some x =>
      rw [exec_extension i s x hx] at h
      have k := State.copyMatch_kept _ _ _ _ h
      exact ⟨k.1, k.2, k.3, k.4, k.5, k.6, k.7, k.8, k.9, k.10, k.11, k.12, k.13, k.14, k.15, k.16, k.17, k.18, k.19⟩
    | none =>
      cases i <;> simp only [matchHeader, extensionValue, reduceCtorEq] at hm hx <;> simp only [placeOf, ne_eq, not_true] at hi
      case lit m => exact State.produce_kept _ _ _ h
      case raw m => exact State.produce_kept _ _ _ h
      case delta | zeros4 | zeros20 | same => exact State.writeLens_kept _ _ _ _ h
      case realign =>
        have hf := BitReader.alignRaw_follows (sound := True) s.rd
        simp only [exec, execRealign, State.onRead] at h
        split at h <;> cases h <;> rename_i e <;> rw [e] at hf
        · exact ⟨rfl, rfl, rfl, rfl, rfl, rfl, rfl, rfl, rfl, rfl, rfl, rfl, rfl, rfl, rfl, rfl, hf, id, .inl ⟨rfl, rfl, rfl, by simp⟩⟩
        · exact ⟨rfl, rfl, rfl, rfl, rfl, rfl, rfl, rfl, rfl, rfl, rfl, rfl, rfl, rfl, rfl, rfl, hf, id, .inr ⟨_, rfl, rfl, rfl, rfl⟩⟩
      case align16 =>
        have hf := BitReader.alignFrame_follows (sound := True) s.rd
        simp only [exec, execAlign16, State.onRead] at h
        split at h <;> cases h <;> rename_i e <;> rw [e] at hf
        · exact ⟨rfl, rfl, rfl, rfl, rfl, rfl, rfl, rfl, rfl, rfl, rfl, rfl, rfl, rfl, rfl, rfl, hf, id, .inl ⟨rfl, rfl, rfl, by simp⟩⟩
        · exact ⟨rfl, rfl, rfl, rfl, rfl, rfl, rfl, rfl, rfl, rfl, rfl, rfl, rfl, rfl, rfl, rfl, hf, id, .inr ⟨_, rfl, rfl, rfl, rfl⟩⟩
      case filler16 =>
        cases h
        refine ⟨rfl, rfl, rfl, rfl, rfl, rfl, rfl, rfl, rfl, rfl, rfl, rfl, rfl, rfl, rfl, rfl, .refl _, id, .inl ⟨rfl, rfl, rfl, ?_⟩⟩
        rw [State.goto_phase]
        unfold State.afterFiller
        split <;> simp
      case lenLong =>
        simp only [exec, execLenLong] at h
        split at h <;> cases h
        · exact ⟨rfl, rfl, rfl, rfl, rfl, rfl, rfl, rfl, rfl, rfl, rfl, rfl, rfl, rfl, rfl, rfl, .refl _, id, .inr ⟨_, rfl, rfl, rfl, rfl⟩⟩
        · exact ⟨rfl, rfl, rfl, rfl, rfl, rfl, rfl, rfl, rfl, rfl, rfl, rfl, rfl, rfl, rfl, rfl, .refl _, id, .inl ⟨rfl, rfl, rfl, by simp⟩⟩
      case alignedLens =>
        simp only [exec, execAlignedLens] at h
        split at h <;> cases h
        · exact ⟨rfl, rfl, rfl, rfl, rfl, rfl, rfl, rfl, rfl, rfl, rfl, rfl, rfl, rfl, rfl, rfl, .refl _, id, .inl ⟨rfl, rfl, rfl, by simp⟩⟩
        · exact ⟨rfl, rfl, rfl, rfl, rfl, rfl, rfl, rfl, rfl, rfl, rfl, rfl, rfl, rfl, rfl, rfl, .refl _, id, .inr ⟨_, rfl, rfl, rfl, rfl⟩⟩
      case tree =>
        simp only [exec, execTree] at h
        split at h <;> cases h
        · exact ⟨rfl, rfl, rfl, rfl, rfl, rfl, rfl, rfl, rfl, rfl, rfl, rfl, rfl, rfl, rfl, rfl, .refl _, id, .inl ⟨rfl, rfl, rfl, by simp⟩⟩
        · exact ⟨rfl, rfl, rfl, rfl, rfl, rfl, rfl, rfl, rfl, rfl, rfl, rfl, rfl, rfl, rfl, rfl, .refl _, id, .inr ⟨_, rfl, rfl, rfl, rfl⟩⟩
      case blockInvalid0 | blockInvalid4 | blockInvalid5 | blockInvalid6 | blockInvalid7 =>
        cases h
        exact ⟨rfl, rfl, rfl, rfl, rfl, rfl, rfl, rfl, rfl, rfl, rfl, rfl, rfl, rfl, rfl, rfl, .refl _, id, .inr ⟨_, rfl, rfl, rfl, rfl⟩⟩
      all_goals
        cases h
        exact ⟨rfl, rfl, rfl, rfl, rfl, rfl, rfl, rfl, rfl, rfl, rfl, rfl, rfl, rfl, rfl, rfl, .refl _, fun _ => by first | assumption | rfl, .inl ⟨rfl, rfl, rfl, by simp [State.goto]⟩⟩

/-- What is read of the bitstream, and what it leads to: an element's meaning, a match header, or a raise with the fields read
so far (R49, R99, R312). -/
theorem fetchElement_cases {s t : State} (h : (match fetchElement s with | .run i s1 => exec i s1 | .sequence o => o) = .next t) :
    (∃ i r, decodeAt s.phase (!s.coded) s.decodeContext s.rd = .instr i r ∧ placeOf i = s.phase ∧ exec i (s.withReader r) = .next t)
    ∨ (∃ m r, decodeAt s.phase (!s.coded) s.decodeContext s.rd = .header m r
        ∧ t = { s.withReader r with mSym := m, phase := .length })
    ∨ (∃ e r fields, decodeAt s.phase (!s.coded) s.decodeContext s.rd = .raise e r fields
        ∧ t = ((s.withReader r).storeFields fields).raise e)
    ∨ (decodeAt s.phase (!s.coded) s.decodeContext s.rd = .nothing ∧ t = s) := by
  unfold fetchElement at h
  cases hd : decodeAt s.phase (!s.coded) s.decodeContext s.rd with
  | instr i r => rw [hd] at h; exact .inl ⟨i, r, rfl, decodeAt_place hd, h⟩
  | header m r => rw [hd] at h; cases h; exact .inr (.inl ⟨m, r, rfl, rfl⟩)
  | raise e r fields => rw [hd] at h; cases h; exact .inr (.inr (.inl ⟨e, r, fields, rfl, rfl⟩))
  | nothing => rw [hd] at h; cases h; exact .inr (.inr (.inr ⟨rfl, rfl⟩))

/-- What a step between two commands' ends is: the reading of an element, or the sequencing step of its place (R49). -/
theorem step_cases {s t : State} (hp : s.phase ≠ .idle) (h : step s = .next t) :
    (match fetchElement s with | .run i s1 => exec i s1 | .sequence o => o) = .next t
    ∨ (s.phase = .frameLoop ∧ seqFrameLoop s = .next t)
    ∨ (s.phase = .frameOpen ∧ seqFrameOpen s = .next t)
    ∨ (s.phase = .blockLoop ∧ seqBlockLoop s = .next t)
    ∨ (s.phase = .runOpen ∧ seqRunOpen s = .next t)
    ∨ (s.phase = .stage ∧ seqStage s = .next t)
    ∨ (s.phase = .items ∧ seqTreeEnd s = .next t)
    ∨ (s.phase = .run ∧ seqRunEnd s = .next t) := by
  unfold step fetch at h
  cases hq : s.phase <;> rw [hq] at h
  case idle => exact absurd hq hp
  case items =>
    by_cases hc : s.lenPos < s.rangeEnd
    · simp only [if_pos hc] at h; exact .inl h
    · simp only [if_neg hc] at h; simp [h]
  case run =>
    by_cases hc : 0 < s.thisRun
    · simp only [if_pos hc] at h; exact .inl h
    · simp only [if_neg hc] at h; simp [h]
  case frameLoop | frameOpen | blockLoop | runOpen | stage => simp only at h; simp [h]
  all_goals exact .inl h

end Sys2Proof.Machine
end

