-- ==== Sys2Proof/Tests/Slice0.lean ====
section
/-! SUPPORT. The model's own tests: an ill-formed term for each check of WellFormed, a word written out from the spec's
encoding for each constructor, one step of each instruction on a small state, and a witness for the hypotheses of each
statement. Expected values are from the rules cited, worked by hand. -/

namespace Sys2Proof.Tests

open Sys2Proof Sys2Proof.Machine

-- One thread checks the tests after another: each kernel evaluation takes its own large stack.
set_option Elab.async false

/-! ## WellFormed refuses -/

/-- One term for each bound that `wellFormed` checks; each just outside it. -/
def illFormed : List Instr :=
  [.raw [], .alignedLens [0, 0, 0, 0, 0, 0, 0], .alignedLens [0, 0, 0, 0, 0, 0, 0, 8], .tree (List.replicate 19 0),
    .tree (List.replicate 19 0 ++ [16]), .delta 17, .zeros4 16, .zeros20 32, .same 2 0, .same 0 20,
    .matchSlot0 8, .matchSlot1 8, .matchSlot2 8, .matchSlot3Verbatim 8, .matchSlot3Aligned 8,
    .matchVerbatim 4 8 0, .matchVerbatim 3 0 0, .matchVerbatim 290 0 0, .matchVerbatim 4 0 2,
    .matchAlignedShort 4 8 0, .matchAlignedShort 3 0 0, .matchAlignedShort 8 0 0, .matchAlignedShort 4 0 2,
    .matchAlignedLong 8 8 0 (some 0), .matchAlignedLong 7 0 0 (some 0), .matchAlignedLong 290 0 0 (some 0),
    .matchAlignedLong 8 0 1 (some 0), .matchAlignedLong 8 0 0 (some 8),
    .matchAlignedLong 8 8 0 none, .matchAlignedLong 7 0 0 none, .matchAlignedLong 10 0 0 none,
    .matchAlignedLong 8 0 8 none, .lenShort 7, .lenLong 250]

theorem test_illFormed_refused : ∀ i ∈ illFormed, wellFormed i = false := by decide +kernel

/-- R310's table of codes. -/
theorem test_result_codes :
    ([.ok, .error .configurationError, .error .malformedTable, .error .protocolViolation, .error .matchOutOfBounds,
      .error .blockOverrun, .error .frameSizeMismatch, .error .unexpectedEndOfStream] : List Result).map resultCode
      = [0, 1, 2, 3, 4, 5, 6, 7] := by decide

/-! ## Words of the spec's encodings -/

/-- The instruction read at a place from input bytes. -/
def read (p : Phase) (c : DecodeContext) (input : List Byte) (uncompressed : Bool := false) : Option Instr :=
  (decodeAt p uncompressed c { input := input }).instr?

/-- R253: a filler is one chunk, low byte first. -/
theorem test_decode_filler16 : read .filler {} [0x34, 0x12] = some (.filler16 0x1234) := by decide +kernel

/-- R83: `0`. -/
theorem test_decode_intelE0 : read .intel {} [0xFF, 0x7F] = some .intelE0 := by decide +kernel

/-- R83: `1`, `0001001000110100`, `0101011001111000` over the chunks 0x891A, 0x2B3C, 0x0000. -/
theorem test_decode_intelE1 :
    read .intel {} [0x1A, 0x89, 0x3C, 0x2B, 0, 0] = some (.intelE1 0x1234 0x5678) := by decide +kernel

/-- R84: the type `ttt`, then the length 15 as `0000000000000000 00001111`. -/
theorem test_decode_block :
    read .blockHead {} [0, 0x00, 0xE0, 0x01] = some (.blockInvalid0 15)
    ∧ read .blockHead {} [0, 0x20, 0xE0, 0x01] = some (.blockVerbatim 15)
    ∧ read .blockHead {} [0, 0x40, 0xE0, 0x01] = some (.blockAligned 15)
    ∧ read .blockHead {} [0, 0x60, 0xE0, 0x01] = some (.blockUncompressed 15)
    ∧ read .blockHead {} [0, 0x80, 0xE0, 0x01] = some (.blockInvalid4 15)
    ∧ read .blockHead {} [0, 0xA0, 0xE0, 0x01] = some (.blockInvalid5 15)
    ∧ read .blockHead {} [0, 0xC0, 0xE0, 0x01] = some (.blockInvalid6 15)
    ∧ read .blockHead {} [0, 0xE0, 0xE0, 0x01] = some (.blockInvalid7 15) := by decide +kernel

/-- R181, R87, R241: bytes, not through the accumulator. -/
theorem test_decode_bytes :
    read .pad {} [7] = some (.pad 7)
    ∧ read .rvals {} [7, 0, 0, 0, 8, 1, 0, 0, 9, 0, 0, 0x80] = some (.rvals 7 0x108 0x80000009)
    ∧ read .run { runBytes := 2 } [1, 2, 3] true = some (.raw [1, 2]) := by decide +kernel

/-- R129, R128: no field. -/
theorem test_decode_realigns : read .realign {} [] = some .realign ∧ read .align16 {} [] = some .align16 := by
  decide +kernel

/-- R86: `000 001 010 011 100 101 110 111` over the chunks 0x0539, 0x7700. -/
theorem test_decode_alignedLens :
    read .alignedLens {} [0x39, 0x05, 0x00, 0x77] = some (.alignedLens [0, 1, 2, 3, 4, 5, 6, 7]) := by decide +kernel

/-- R88: twenty 4-bit lengths, four to a chunk, the first in the chunk's top bits. -/
theorem test_decode_tree :
    read .tree {} [0x23, 0x01, 0x67, 0x45, 0xAB, 0x89, 0xEF, 0xCD, 0x23, 0x01]
      = some (.tree [0, 1, 2, 3, 4, 5, 6, 7, 8, 9, 10, 11, 12, 13, 14, 15, 0, 1, 2, 3]) := by decide +kernel

/-- A table built from lengths alone. -/
def built (t : Tree) (len : NatArray) : Huff := { len := len, table := (buildTable .noneLonger t len []).1 }

/-- Pretree symbols 3, 17, 18 and 19 with the codewords `00`, `01`, `10`, `11` (R89). -/
def itemTree : Huff := built .pre [(3, 2), (17, 2), (18, 2), (19, 2)]

/-- R88: `00`; `01 0101`; `10 01001`; `11 1 00`. -/
theorem test_decode_items :
    read .items { preTree := itemTree } [0, 0] = some (.delta 3)
    ∧ read .items { preTree := itemTree } [0, 0x54] = some (.zeros4 5)
    ∧ read .items { preTree := itemTree } [0, 0x92] = some (.zeros20 9)
    ∧ read .items { preTree := itemTree } [0, 0xE0, 0, 0] = some (.same 1 3) := by decide +kernel

/-- Main symbols 97, 291 and 300 with the codewords `0`, `10`, `11` (R89). -/
def letterTree : Huff := built .main [(97, 1), (291, 2), (300, 2)]

/-- R90: a symbol below 256 is a literal; the others are match headers. -/
theorem test_decode_lit : read .run { mainTree := letterTree } [0, 0] = some (.lit 97) := by decide +kernel

theorem test_decode_header :
    decodeAt .run false { mainTree := letterTree } { input := [0, 0xC0] }
      = .header 300 { input := [0, 0xC0], inPos := 2, bitsLeft := 14 } := by decide +kernel

/-- R93: header 259 is slot 0 with length header 3; header 263 has length header 7 and a length symbol, here `1` for 9. -/
theorem test_decode_len :
    read .length { header := 259 } [] = some (.lenShort 3)
    ∧ read .length { header := 263, lengthTree := built .length [(5, 1), (9, 1)] } [0, 0x80] = some (.lenLong 9) := by
  decide +kernel

/-- R90, R93: main symbols of the slots 0 to 3 have no offset field. -/
theorem test_decode_matchSlots :
    read .offset { header := 256 } [] = some (.matchSlot0 0)
    ∧ read .offset { header := 265 } [] = some (.matchSlot1 1)
    ∧ read .offset { header := 278 } [] = some (.matchSlot2 6)
    ∧ read .offset { header := 287 } [] = some (.matchSlot3Verbatim 7)
    ∧ read .offset { header := 287, alignedBlock := true } [] = some (.matchSlot3Aligned 7) := by decide +kernel

/-- R94, R100: slot 8 has three extra bits, here `101`; slot 6 has two, here `10`. -/
theorem test_decode_matchOffsets :
    read .offset { header := 322 } [0, 0xA0] = some (.matchVerbatim 8 2 5)
    ∧ read .offset { header := 305, alignedBlock := true } [0, 0x80] = some (.matchAlignedShort 6 1 2) := by
  decide +kernel

/-- Eight aligned symbols of length 3: each codeword is its symbol (R89). -/
def eightTree : Huff :=
  built .aligned [(0, 3), (1, 3), (2, 3), (3, 3), (4, 3), (5, 3), (6, 3), (7, 3)]

/-- R100: slot 10 has four extra bits, one verbatim and an aligned symbol: `1 110`. With D11's other value slot 8 has three
verbatim bits: `110`. -/
theorem test_decode_matchAlignedLong :
    read .offset { header := 336, alignedBlock := true, alignedTree := eightTree } [0, 0xE0]
      = some (.matchAlignedLong 10 0 1 (some 6))
    ∧ read .offset { header := 320, alignedBlock := true, extra3Verbatim := true } [0, 0xC0]
      = some (.matchAlignedLong 8 0 6 none) := by decide +kernel

/-- R98: `0 01011010`; `10 0000000001`; `110 100000000001`; `111 100000000000001`. -/
theorem test_decode_ext :
    read .ext {} [0, 0x2D] = some (.ext0 0x5A) ∧ read .ext {} [0x10, 0x80] = some (.ext10 1)
    ∧ read .ext {} [0x02, 0xD0] = some (.ext110 0x801) ∧ read .ext {} [0, 0xF0, 0, 0x40] = some (.ext111 0x4001) := by
  decide +kernel

/-- The host commands are carried as themselves. -/
theorem test_decode_host :
    decodeHost (.init 15 0 4096 0 false none) = some (.init 15 0 4096 0 false none)
    ∧ decodeHost (.decompress 4) = some (.decompress 4)
    ∧ decodeHost (.oneshot [1] none 4) = some (.oneshot [1] none 4) := by decide

/-- Past the end one zero chunk is read, then the error (R123). -/
theorem test_decode_pastTheEnd :
    read .filler {} [] = some (.filler16 0)
    ∧ decodeAt .filler false {} { inputEnd := true } = .raise .unexpectedEndOfStream { inputEnd := true } [] := by
  decide +kernel

/-- The table's words: a block type, and a main symbol; each is fetched and run right after reset. -/
theorem test_tableWords :
    decodeTableWord 8 2 = some (.blockAligned 0) ∧ decodeTableWord 8 7 = some (.blockInvalid7 0)
    ∧ decodeTableWord 16 65 = some (.lit 65) ∧ decodeTableWord 16 2575 = some (.matchVerbatim 289 7 0)
    ∧ decodeTableWord 16 2576 = none ∧ decodeTableWord 24 0 = none := by decide +kernel

theorem test_withFetchWord_block :
    (match fetch (State.reset.withFetchWord 8 2) with | .run i _ => some i | .sequence _ => none)
      = some (.blockAligned 0) := by decide +kernel

theorem test_withFetchWord_match :
    (match fetch (State.reset.withFetchWord 16 265) with | .run i _ => some i | .sequence _ => none)
      = some (.matchSlot1 1) := by decide +kernel

theorem test_withFetchWord_literal :
    (match fetch (State.reset.withFetchWord 16 65) with | .run i _ => some i | .sequence _ => none)
      = some (.lit 65) := by decide +kernel

/-! ## One step of each instruction -/

/-- A small decoder in the middle of a frame: three window bytes written, a cache of distinct offsets. -/
def small : State :=
  { State.reset with
    present := true, win := [(0, 10), (1, 20), (2, 30)], windowPos := 3, r0 := 1, r1 := 2, r2 := 3, thisRun := 9, todo := 5
    fs := 3, mLen := 9, mOff := 2, phase := .run, blockType := 1, blockLength := 20, blockRemaining := 4 }

/-- The next state a meaning answers. -/
def after (i : Instr) (s : State) : Option State := match exec i s with | .next t => some t | _ => none

/-- R253, R254: the filler leads to the Intel header while that is unread; its two forms set the hint. -/
theorem test_frame_prefix :
    (after (.filler16 7) small).map (fun t => t.phase) = some .intel
    ∧ (after .intelE0 { small with intelFileSize := 9 }).map (fun t => (t.intelFileSize, t.headerRead)) = some (0, true)
    ∧ (after (.intelE1 0x1234 0x5678) small).map (fun t => t.intelFileSize) = some 0x12345678 := by decide +kernel

/-- R182, R186, R183. -/
theorem test_blocks :
    (after (.blockVerbatim 300) small).map (fun t => (t.blockType, t.blockRemaining, t.phase)) = some (1, 300, .tree)
    ∧ (after (.blockAligned 300) small).map (fun t => (t.blockType, t.phase)) = some (2, .alignedLens)
    ∧ (after (.blockUncompressed 3) small).map (fun t => (t.blockType, t.intelStarted)) = some (3, true)
    ∧ ∀ i ∈ [Instr.blockInvalid0 1, .blockInvalid4 1, .blockInvalid5 1, .blockInvalid6 1, .blockInvalid7 1],
        (after i small).map (fun t => (t.err, t.phase)) = some (some .protocolViolation, .idle) := by decide +kernel

/-- R181, R129, R186, R241. -/
theorem test_raw_block :
    (after (.pad 9) small).map (fun t => (t.phase, t.rd)) = some (.blockHead, small.rd)
    ∧ (after .realign { small with rd := { bitBuf := 0xA0000000, bitsLeft := 5, input := [1] } }).map
        (fun t => (t.rd.bitsLeft, t.rd.inPos)) = some (0, 0)
    ∧ (after .realign { small with rd := { input := [1, 2, 3] } }).map (fun t => (t.rd.bitsLeft, t.rd.inPos)) = some (0, 2)
    ∧ (after (.rvals 4 5 6) small).map (fun t => (t.r0, t.r1, t.r2)) = some (4, 5, 6)
    ∧ (after (.raw [7, 8]) small).map (fun t => (t.win, t.windowPos, t.thisRun))
        = some ([(0, 10), (1, 20), (2, 30), (3, 7), (4, 8)], 5, 7) := by decide +kernel

/-- R184, R161: eight lengths of 3 fill the code space, and twenty of which sixteen are 4 do; no code does not (R143), and the
lengths 1, 1, 7 take more than there is (R142), unless R141's early return is taken (log entry 25). -/
theorem test_headers :
    (after (.alignedLens (List.replicate 8 3)) small).map (fun t => (t.phase, t.alignedTree.len.length)) = some (.tree, 8)
    ∧ (after (.alignedLens (List.replicate 8 0)) small).map (fun t => t.err) = some (some .malformedTable)
    ∧ (after (.tree ([1, 1, 7] ++ List.replicate 17 0)) small).map (fun t => t.err) = some (some .malformedTable)
    ∧ (after (.tree ([1, 1, 7] ++ List.replicate 17 0)) { small with par := { earlyReturn := .always } }).map
        (fun t => t.phase) = some .items
    ∧ (after (.tree (List.replicate 16 4 ++ List.replicate 4 0)) { small with treeSel := .mainHigh }).map
        (fun t => (t.phase, t.lenPos, t.preTree.len.length)) = some (.items, 256, 16) := by decide +kernel

/-- R164: `(2 - 3) mod 17 = 16`. R162, R163: runs of 4 and 20 zeros. R165: one value for the whole run. -/
theorem test_items :
    (after (.delta 3) { small with mainTree := { len := [(0, 2), (1, 5)] } }).map (fun t => (t.mainTree.len, t.lenPos))
      = some ([(0, 16), (1, 5)], 1)
    ∧ (after (.zeros4 0) { small with mainTree := { len := [(0, 2), (4, 5)] } }).map (fun t => (t.mainTree.len, t.lenPos))
      = some ([(4, 5)], 4)
    ∧ (after (.zeros20 0) { small with mainTree := { len := [(19, 2), (20, 5)] } }).map
        (fun t => (t.mainTree.len, t.lenPos)) = some ([(20, 5)], 20)
    ∧ (after (.same 0 1) { small with mainTree := { len := [(0, 3), (2, 9)] } }).map (fun t => (t.mainTree.len, t.lenPos))
      = some ([(0, 2), (1, 2), (2, 2), (3, 2)], 4) := by decide +kernel

/-- R201, R202. -/
theorem test_lit_len :
    (after (.lit 65) small).map (fun t => (t.win, t.windowPos, t.thisRun))
      = some ([(0, 10), (1, 20), (2, 30), (3, 65)], 4, 8)
    ∧ (after (.lenShort 6) small).map (fun t => t.mLen) = some 8
    ∧ (after (.lenLong 248) small).map (fun t => t.mLen) = some 257
    ∧ (after (.lenLong 0) { small with lengthEmpty := true }).map (fun t => t.err) = some (some .protocolViolation) := by
  decide +kernel

/-- What a match's test looks at: the bytes it has written, and the cache. -/
def written (t : State) : List (Nat × Nat) × List Nat :=
  ((t.win.drop 3).map (fun c => (c.1, c.2.toNat)), [t.r0.toNat, t.r1.toNat, t.r2.toNat])

/-- R204 to R209, R215: each slot's offset, cache and copied bytes; a match may read what it has just written (R73). -/
theorem test_matches :
    (after (.matchSlot0 1) small).map written = some ([(3, 30), (4, 30), (5, 30)], [1, 2, 3])
    ∧ (after (.matchSlot1 1) small).map written = some ([(3, 20), (4, 30), (5, 20)], [2, 1, 3])
    ∧ (after (.matchSlot2 0) small).map written = some ([(3, 10), (4, 20)], [3, 2, 1])
    ∧ (after (.matchSlot3Verbatim 0) small).map written = some ([(3, 30), (4, 30)], [1, 1, 2])
    ∧ (after (.matchSlot3Aligned 0) small).map written = some ([(3, 30), (4, 30)], [1, 1, 2]) := by decide +kernel

/-- R95, R208, R209: POSITION_BASE(4) is 4 and POSITION_BASE(8) is 16, so the offsets are 2 and 3, and 14 + 8 v + a. -/
theorem test_explicit_matches :
    (after (.matchVerbatim 4 0 1) small).map written = some ([(3, 10), (4, 20)], [3, 1, 2])
    ∧ (after (.matchAlignedShort 4 0 0) small).map written = some ([(3, 20), (4, 30)], [2, 1, 2])
    ∧ (after (.matchAlignedLong 8 0 0 (some 5)) small).map (fun t => (t.mOff, t.err)) = some (19, some .matchOutOfBounds)
    ∧ (after (.matchAlignedLong 8 0 6 none) small).map (fun t => (t.mOff, t.r0)) = some (20, 20) := by decide +kernel

/-- R211: 0, 0x100, 0x500 and 0 are added to the fields; the copied length is the sum. -/
theorem test_ext :
    (after (.ext0 2) { small with mLen := 1 }).map (fun t => t.windowPos) = some 6
    ∧ (after (.ext10 1) { small with windowPos := 32768, mLen := 1 }).map (fun t => (t.mLen, t.err))
      = some (0x102, some .matchOutOfBounds)
    ∧ (after (.ext110 0) { small with windowPos := 32768, mLen := 1 }).map (fun t => (t.mLen, t.err))
      = some (0x501, some .matchOutOfBounds)
    ∧ (after (.ext111 3) { small with mLen := 1 }).map (fun t => t.windowPos) = some 7 := by decide +kernel

/-- R128: 21 bits are left as 16, 5 as 16 with one more chunk, none as none. -/
theorem test_align16 :
    (after .align16 { small with rd := { bitsLeft := 21 } }).map (fun t => (t.rd.bitsLeft, t.phase)) = some (16, .stage)
    ∧ (after .align16 { small with rd := { bitsLeft := 5, input := [1, 2] } }).map (fun t => (t.rd.bitsLeft, t.rd.inPos))
      = some (16, 2)
    ∧ (after .align16 small).map (fun t => t.rd.bitsLeft) = some 0 := by decide +kernel

/-- R290, R291, R340; an illegal window size returns ConfigurationError and creates nothing. -/
theorem test_init :
    (after (.init 17 0 1 0 true (some [5, 6])) State.reset).map (fun t => (t.win, t.cfg.refDataSize, t.present, t.results))
      = some ([(131070, 5), (131071, 6)], 2, true, [.ok])
    ∧ (after (.init 14 0 1 0 false none) State.reset).map (fun t => (t.present, t.err, t.results))
      = some (false, none, [.error .configurationError]) := by decide +kernel

/-- R292: what is staged is delivered first; the rest is wanted of the frames up to `40000 div 32768 + 1 = 2`. -/
theorem test_decompress :
    (after (.decompress 2) { small with stage := [(0, 1), (1, 2), (2, 3)], stageLen := 3, phase := .idle }).map
        (fun t => (t.out, t.stagePtr, t.delivered, t.results)) = some ([1, 2], 2, 2, [.ok])
    ∧ (after (.decompress 40000) { small with phase := .idle }).map (fun t => (t.want, t.endFrame, t.phase))
      = some (40000, 2, .frameLoop)
    ∧ (after (.decompress 1) { small with err := some .blockOverrun }).map (fun t => t.results)
      = some [.error .blockOverrun] := by decide +kernel

/-- R296. -/
theorem test_oneshot :
    (after (.oneshot [1, 2] none 0) State.reset).map (fun t => (t.results, t.present)) = some ([.bytes []], false)
    ∧ (after (.oneshot [1, 2] none 5) State.reset).map (fun t => (t.rd.input, t.want, t.cfg.totalLength))
      = some ([1, 2], 5, 5) := by decide +kernel

/-- R282: `E8 10 00 00 00` at position 0x20 in a frame of size 16 becomes relative: 0x10 - 0x20 = -0x10. -/
theorem test_e8 :
    e8Filter 0x1000 0x20 ([0xE8, 0x10, 0, 0, 0] ++ List.replicate 11 1)
      = [0xE8, 0xF0, 0xFF, 0xFF, 0xFF] ++ List.replicate 11 1 := by decide +kernel

/-! ## Witnesses: states and operands that meet the hypotheses of each statement -/

theorem witness_FixedFieldsRoundTrip :
    ∃ (i : Instr) (c : DecodeContext) (r : BitReader) (b rest : List Bool),
      fixedFields i = true ∧ WellFormed i ∧ r.wf ∧ encode c i = .bits b ∧ r.pending = b ++ rest :=
  ⟨.ext10 1, {}, { input := [0x10, 0x80] }, [true, false] ++ List.replicate 9 false ++ [true], List.replicate 20 false,
    by decide +kernel⟩

theorem witness_RawBytesRoundTrip :
    ∃ (i : Instr) (c : DecodeContext) (r : BitReader) (bytes rest : List Byte),
      WellFormed i ∧ r.wf ∧ encode c i = .bytes bytes ∧ (placeOf i = .run → c.runBytes = bytes.length)
        ∧ r.restBytes = bytes ++ rest :=
  ⟨.raw [1, 2], { runBytes := 2 }, { input := [1, 2, 3] }, [1, 2], [3, 0, 0], by decide +kernel⟩

theorem witness_OffsetFieldsRoundTrip :
    ∃ (i : Instr) (c : DecodeContext) (r : BitReader) (b rest : List Bool),
      UncodedIn c i ∧ WellFormed i ∧ r.wf ∧ encode c i = .bits b ∧ r.pending = b ++ rest :=
  ⟨.matchVerbatim 8 2 5, { header := 322 }, { input := [0, 0xA0] }, [true, false, true], List.replicate 29 false,
    ⟨by decide, rfl⟩, by decide +kernel⟩

/-- The ends of OffsetFieldsRoundTrip's ranges of slots: R94 and R95's values at 0, 1, 2, 4, 35, 36 and 289. -/
theorem witness_OffsetFieldsRoundTrip_slots :
    [0, 1, 2, 4, 35, 36, 289].map extraBits = [0, 0, 0, 1, 16, 17, 17]
    ∧ [0, 1, 2, 4, 35, 36, 289].map positionBase = [0, 1, 2, 4, 196608, 262144, 262144 + 253 * 131072] := by decide +kernel

theorem itemTree_decodes (sym : Nat) (h : sym ∈ [3, 17, 18, 19]) : Huff.Decodes .pre itemTree sym := by
  refine ⟨by decide +kernel, ⟨.noneLonger, [], NatArray.wf_nil, by decide +kernel⟩, by decide +kernel, ?_⟩
  revert h
  revert sym
  decide +kernel

theorem witness_CodewordsDecode :
    ∃ (t : Tree) (h : Huff) (sym : Nat) (r : BitReader) (rest : List Bool),
      Huff.Decodes t h sym ∧ sym < maxSyms t ∧ r.wf ∧ 16 ≤ r.pending.length ∧ r.pending = codeBits t h sym ++ rest :=
  ⟨.pre, itemTree, 17, { input := [0, 0x40] }, List.replicate 30 false, itemTree_decodes 17 (by decide), by decide +kernel⟩

/-- The second clause of CodewordsDecode and the refill clause of CodedElementsRoundTrip, one bit short of a refill's sixteen. -/
theorem witness_readsNeedingARefill : ∃ r : BitReader, r.wf ∧ r.pending.length = 15 :=
  ⟨{ bitsLeft := 15, inputEnd := true }, by decide +kernel⟩

theorem letterTree_decodes : Huff.Decodes .main letterTree 300 :=
  ⟨⟨by decide +kernel, buildTable_wf .noneLonger .main _ _ NatArray.wf_nil, by decide +kernel⟩,
    ⟨.noneLonger, [], NatArray.wf_nil, Prod.ext rfl (by decide +kernel)⟩, by decide +kernel, by decide +kernel⟩

/-- The last two clauses of CodedElementsRoundTrip: a match header, and an aligned offset of a slot with three extra bits, or with
four, with one bit too few. -/
theorem witness_CodedElementsRoundTrip_places :
    (∃ (c : DecodeContext) (r : BitReader) (rest : List Bool), Huff.Decodes .main c.mainTree 300 ∧ r.wf ∧ 16 ≤ r.pending.length
      ∧ r.pending = encodeHeader c 300 ++ rest)
    ∧ (∃ (c : DecodeContext) (r : BitReader), c.header % 8 = 7 ∧ c.lengthEmpty = false ∧ r.wf ∧ r.pending.length = 15)
    ∧ (∀ slot ∈ [8, 10], ∃ (c : DecodeContext) (r : BitReader), offsetSlot c.header = slot ∧ c.alignedBlock = true ∧ 8 ≤ slot
      ∧ (extraBits slot = 3 → c.extra3Verbatim = false) ∧ r.wf ∧ r.pending.length + 1 = extraBits slot - 3 + 16) :=
  ⟨⟨{ mainTree := letterTree }, { input := [0, 0xC0] }, List.replicate 30 false, letterTree_decodes, by decide +kernel⟩,
    ⟨{ header := 263 }, { bitsLeft := 15, inputEnd := true }, by decide +kernel⟩, by
      intro slot hs
      refine ⟨{ header := 256 + 8 * slot, alignedBlock := true },
        { bitsLeft := if slot = 8 then 15 else 16, inputEnd := true }, ?_⟩
      revert hs
      revert slot
      decide +kernel⟩

theorem witness_CodedElementsRoundTrip :
    ∃ (i : Instr) (c : DecodeContext) (r : BitReader) (b rest : List Bool),
      CodedIn c i ∧ WellFormed i ∧ r.wf ∧ encode c i = .bits b ∧ 16 ≤ rest.length ∧ r.pending = b ++ rest :=
  ⟨.same 1 3, { preTree := itemTree }, { input := [0, 0xE0] }, [true, true, true, false, false], List.replicate 27 false,
    ⟨itemTree_decodes 19 (by decide), itemTree_decodes 3 (by decide)⟩, by decide +kernel⟩

theorem witness_DecodedIsWellFormed :
    ∃ (p : Phase) (u : Bool) (c : DecodeContext) (r r' : BitReader) (i : Instr),
      c.header < mainMaxSyms ∧ decodeAt p u c r = .instr i r' :=
  ⟨.offset, false, { header := 2575 }, { input := [0, 0] }, _, _, by decide, rfl⟩

/-- Both clauses at `k = 17`: enough bits over two chunks, and the one zero chunk of an empty input too few. -/
theorem witness_ReadBitsIsMsbFirst :
    (∃ r : BitReader, r.wf ∧ 17 ≤ r.pending.length) ∧ ∃ r : BitReader, r.wf ∧ r.pending.length < 17 :=
  ⟨⟨{ input := [1, 2] }, by decide +kernel⟩, ⟨{}, by decide +kernel⟩⟩

theorem witness_InputEndsInOneZeroChunk :
    (∃ r : BitReader, r.inPos < r.input.length)
    ∧ (∃ r : BitReader, r.input.length ≤ r.inPos ∧ r.fakeLeft = 1)
    ∧ (∃ r : BitReader, r.input.length ≤ r.inPos ∧ r.fakeLeft ≠ 1 ∧ r.inputEnd = false)
    ∧ ∃ r : BitReader, r.input.length ≤ r.inPos ∧ r.fakeLeft ≠ 1 ∧ r.inputEnd = true :=
  ⟨⟨{ input := [1] }, by decide⟩, ⟨{ fakeLeft := 1 }, by decide⟩, ⟨{}, by decide⟩, ⟨{ inputEnd := true }, by decide⟩⟩

theorem witness_FrameEndRealigns :
    (∃ s : State, s.rd.wf ∧ s.rd.bitsLeft = 31) ∧ (∃ s : State, s.rd.wf ∧ s.rd.bitsLeft = 15 ∧ 2 ≤ s.rd.restBytes.length)
    ∧ ∃ s : State, s.rd.wf ∧ s.rd.bitsLeft = 15 ∧ s.rd.restBytes.length < 2 :=
  ⟨⟨{ small with rd := { bitsLeft := 31 } }, by decide +kernel⟩,
    ⟨{ small with rd := { bitsLeft := 15, input := [1, 2] } }, by decide +kernel⟩,
    ⟨{ small with rd := { bitsLeft := 15, inputEnd := true } }, by decide +kernel⟩⟩

theorem witness_RawRealignEmptiesAccumulator :
    (∃ s : State, s.rd.wf ∧ s.rd.bitsLeft = 0 ∧ s.rd.restBytes.length = 2)
    ∧ ∃ s : State, s.rd.wf ∧ s.rd.bitsLeft = 0 ∧ s.rd.restBytes.length = 1 :=
  ⟨⟨small, by decide +kernel⟩, ⟨{ small with rd := { inputEnd := true, fakeLeft := 1 } }, by decide +kernel⟩⟩

/-- A code for each way a build ends that R142 names; the lengths 1, 1, 7 over-subscribe although the first two fill the direct
entries. -/
theorem witness_KraftDecidesBuild :
    ∀ p ∈ [([(3, 2), (17, 2), (18, 2), (19, 2)], BuildResult.complete), ([], .empty), ([(0, 1), (1, 1), (2, 7)], .overflow),
        ([(0, 1), (1, 2), (2, 1)], .overflow), ([(0, 7)], .incomplete)],
      NatArray.wf p.1 ∧ (∀ c ∈ p.1, c.2 ≤ 16) ∧ (buildTable .noneLonger .pre p.1 []).2 = p.2 := by decide +kernel

/-- R141's early return and R142's failure part where the short codes fill the direct entries and a longer one follows; where they
over-subscribe otherwise, both fail. -/
theorem witness_KraftDecidesBuild_overSubscribed :
    (∀ p ∈ [(EarlyReturn.always, BuildResult.complete), (.noneLonger, .overflow)],
      (buildTable p.1 .pre [(0, 1), (1, 1), (2, 7)] []).2 = p.2)
    ∧ 2 ^ 16 < codeSpace .pre [(0, 1), (1, 1), (2, 7)] 16 ∧ codeSpace .pre [(0, 1), (1, 1), (2, 7)] (tableBits .pre) = 2 ^ 16
    ∧ 2 ^ 16 < codeSpace .pre [(0, 1), (1, 1), (2, 1)] 16
    ∧ codeSpace .pre [(0, 1), (1, 1), (2, 1)] (tableBits .pre) ≠ 2 ^ 16 := by decide +kernel

/-- No code space taken, and all of it: in the main tree by a few codes, and with long ones among them. -/
theorem witness_KraftDecidesBuild_ends :
    (∀ t ∈ [Tree.pre, .main, .length, .aligned], codeSpace t [] 16 = 0)
    ∧ (∀ p ∈ [(Tree.pre, [(3, 2), (17, 2), (18, 2), (19, 2)]), (.length, [(5, 1), (9, 1)]), (.aligned, [(0, 1), (7, 1)])],
        NatArray.wf p.2 ∧ (∀ c ∈ p.2, c.2 ≤ 16) ∧ codeSpace p.1 p.2 16 = 2 ^ 16)
    ∧ ∀ p ∈ [([(97, 1), (300, 1)], 0), (((List.range 12).map fun k => (k, k + 1)) ++ [(12, 13), (2575, 13)], 2)],
        NatArray.wf p.1 ∧ (∀ c ∈ p.1, c.2 ≤ 16) ∧ codeSpace .main p.1 16 = 2 ^ 16 ∧ longCodes .main p.1 = p.2 := by
  decide +kernel

theorem witness_OnlyTheLengthTreeMayBeEmpty :
    small.preTree.wf ∧ small.alignedTree.wf ∧ small.mainTree.wf ∧ small.lengthTree.wf
      ∧ (∀ sym, sym < mainMaxSyms → NatArray.get small.mainTree.len sym = 0)
      ∧ ∀ sym, sym < lengthMaxSyms → NatArray.get small.lengthTree.len sym = 0 :=
  ⟨by decide +kernel, by decide +kernel, by decide +kernel, by decide +kernel, fun _ _ => rfl, fun _ _ => rfl⟩

theorem witness_TableHeadersBuild :
    small.preTree.wf ∧ small.alignedTree.wf
    ∧ (buildTable .noneLonger .pre (NatArray.setAll [] 0 (List.replicate 16 4 ++ List.replicate 4 0)) []).2 = .complete
    ∧ (buildTable .noneLonger .pre (NatArray.setAll [] 0 (List.replicate 20 1)) []).2 ≠ .complete
    ∧ (buildTable .noneLonger .aligned (NatArray.setAll [] 0 (List.replicate 8 3)) []).2 = .complete
    ∧ (buildTable .noneLonger .aligned (NatArray.setAll [] 0 (List.replicate 8 7)) []).2 ≠ .complete := by decide +kernel

theorem witness_DeltaSubtractsModulo17 :
    ∃ (s : State) (z : Nat), NatArray.wf s.lenArray ∧ z = 16 ∧ s.lenPos + 1 = s.rangeEnd :=
  ⟨{ small with mainTree := { len := [(255, 16)] }, lenPos := 255 }, 16, by decide +kernel⟩

/-- The longest runs; with D9's other value, those that end at the last index. -/
theorem witness_ZeroRunsWriteZeros :
    (NatArray.wf small.lenArray ∧ small.par.lenOverrun = .writeThrough)
    ∧ (∃ s : State, NatArray.wf s.lenArray ∧ s.par.lenOverrun = .fault ∧ s.lenPos + (15 + 4) = s.rangeEnd)
    ∧ ∃ s : State, NatArray.wf s.lenArray ∧ s.par.lenOverrun = .fault ∧ s.lenPos + (31 + 20) = s.rangeEnd :=
  ⟨by decide +kernel, ⟨{ small with par := { lenOverrun := .fault }, lenPos := 237 }, by decide +kernel⟩,
    ⟨{ small with par := { lenOverrun := .fault }, lenPos := 205 }, by decide +kernel⟩⟩

theorem witness_SameRunRepeatsOneValue :
    ∃ s : State, NatArray.wf s.lenArray ∧ 1 < 2 ∧ 19 < 20 ∧ s.par.lenOverrun = .fault ∧ s.lenPos + (1 + 4) = s.rangeEnd :=
  ⟨{ small with par := { lenOverrun := .fault }, lenPos := 251 }, by decide +kernel⟩

/-- The last index of the range, which the shortest run of each form passes. -/
theorem witness_OverrunFaultsAtTheFirstWritePast :
    ∃ s : State, NatArray.wf s.lenArray ∧ s.par.lenOverrun = .fault ∧ s.lenPos < s.rangeEnd
      ∧ s.rangeEnd < s.lenPos + (0 + 4) ∧ s.rangeEnd < s.lenPos + (0 + 20) :=
  ⟨{ small with par := { lenOverrun := .fault }, lenPos := 255 }, by decide +kernel⟩

theorem witness_InvalidBlockTypesRaise :
    ∀ p ∈ [(0, 0), (4, 0x80), (5, 0xA0), (6, 0xC0), (7, 0xE0)], ∃ s : State, s.rd.wf ∧ s.phase = .blockHead
      ∧ s.rd.pending = fieldBits 3 p.1 ++ fieldBits 24 15 ++ List.replicate 21 false := by
  intro p hp
  refine ⟨{ small with phase := .blockHead, rd := { input := [0, BitVec.ofNat 8 p.2, 0xE0, 0x01] } }, ?_⟩
  revert hp
  revert p
  decide +kernel

theorem witness_PadByteOnlyAfterOddRawBlock :
    (∃ s : State, s.phase = .blockLoop ∧ 0 < s.todo ∧ s.blockRemaining = 0 ∧ s.blockType = 3
      ∧ s.blockLength.toNat % 2 = 1)
    ∧ ∃ s : State, s.phase = .pad ∧ s.rd.wf ∧ s.rd.restBytes = 9 :: [0, 0] :=
  ⟨⟨{ small with phase := .blockLoop, blockRemaining := 0, blockType := 3, blockLength := 7 }, by decide +kernel⟩,
    ⟨{ small with phase := .pad, rd := { input := [9] } }, by decide +kernel⟩⟩

theorem witness_RawHeaderLoadsTheCache :
    ∃ s : State, s.phase = .rvals ∧ s.rd.wf ∧ s.rd.restBytes = [1, 2, 3, 4, 5, 6, 7, 8, 9, 10, 11, 12, 0, 0] :=
  ⟨{ small with phase := .rvals, rd := { input := [1, 2, 3, 4, 5, 6, 7, 8, 9, 10, 11, 12] } }, by decide +kernel⟩

/-- The last index of the window is written; the cursor past it is the fault's boundary. -/
theorem witness_windowWrites :
    (∃ s : State, Memory.wf s.win ∧ s.windowPos + 1 = s.cfg.windowSize)
    ∧ (∃ s : State, Memory.wf s.win ∧ s.windowPos + [(1 : Byte), 2].length = s.cfg.windowSize)
    ∧ ∃ s : State, s.cfg.windowSize = s.windowPos :=
  ⟨⟨{ small with windowPos := 32767 }, by decide +kernel⟩, ⟨{ small with windowPos := 32766 }, by decide +kernel⟩,
    ⟨{ small with windowPos := 32768 }, by decide +kernel⟩⟩

/-- A raw run of three bytes to which the input still gives two, and none. -/
theorem witness_RawWritesItsBytes_ends :
    ∀ input ∈ [[(7 : Byte), 8], []], ∃ s : State, s.phase = .run ∧ s.coded = false ∧ s.rd.wf ∧ s.rd.restBytes = input
      ∧ (s.rd.restBytes.length : Int) < s.thisRun ∧ Memory.wf s.win ∧ s.windowPos + s.rd.restBytes.length ≤ s.cfg.windowSize := by
  intro input hi
  refine ⟨{ small with blockType := 3, thisRun := 3, rd := { input := input, inputEnd := true } }, ?_⟩
  revert hi
  revert input
  decide +kernel

theorem witness_LengthHeaderGivesTheLength :
    small.lengthEmpty = false ∧ ∃ s : State, s.lengthEmpty = true ∧ s.phase = .length ∧ s.mSym % 8 = 7 :=
  ⟨rfl, { small with lengthEmpty := true, phase := .length, mSym := 263 }, by decide⟩

theorem small_copyRuns (off len : Nat) (h : (off, len) ∈ [(1, 2), (2, 9), (3, 2), (2, 11), (1, 32765)]) :
    small.OffsetLegal off len ∧ (len < 100 → small.CopyRuns off len) := by
  have hl : ∀ p ∈ [(1, 2), (2, 9), (3, 2), (2, 11), (1, 32765)],
      small.windowPos + p.2 ≤ small.cfg.windowSize ∧ p.1 ≠ 0 ∧ ¬ small.windowPos < p.1 := by decide +kernel
  obtain ⟨h1, h2, h3⟩ := hl (off, len) h
  refine ⟨⟨h1, h2, fun h => absurd h h3⟩, fun h4 => ⟨⟨h1, h2, fun h => absurd h h3⟩, ?_⟩⟩
  have hc : ∀ p ∈ [(1, 2), (2, 9), (3, 2), (2, 11)], ∀ k, k < p.2 →
      (small.windowPos ≤ small.sourceIndex p.1 k ∧ small.sourceIndex p.1 k < small.windowPos + k)
        ∨ (Cells.find small.win (small.sourceIndex p.1 k)).isSome := by decide +kernel
  refine hc (off, len) ?_
  simp only [List.mem_cons, Prod.mk.injEq, List.not_mem_nil, or_false] at h ⊢
  omega

/-- Every match form, at the offset its slot gives in `small`, with the length 2. -/
theorem witness_MatchesCopy :
    ∀ i ∈ [Instr.matchSlot0 0, .matchSlot1 0, .matchSlot2 0, .matchSlot3Verbatim 0, .matchSlot3Aligned 0,
        .matchVerbatim 4 0 1, .matchAlignedShort 4 0 0],
      WellFormed i ∧ matchHeader i = some 0 ∧ 2 = (if 0 = 7 then small.mLen else 0 + 2)
        ∧ ¬ (2 = 257 ∧ small.cfg.isDelta = true) ∧ small.CopyRuns (matchOffset i small) 2 := by
  have hw : ∀ i ∈ [Instr.matchSlot0 0, .matchSlot1 0, .matchSlot2 0, .matchSlot3Verbatim 0, .matchSlot3Aligned 0,
        .matchVerbatim 4 0 1, .matchAlignedShort 4 0 0],
      WellFormed i ∧ matchHeader i = some 0 ∧ matchOffset i small ∈ [1, 2, 3] := by decide +kernel
  have hc : ∀ off ∈ [1, 2, 3], small.CopyRuns off 2 := by
    intro off ho
    have hp : small.windowPos + 2 ≤ small.cfg.windowSize := by decide +kernel
    have hq : ∀ off ∈ [1, 2, 3], off ≠ 0 ∧ ¬ small.windowPos < off ∧ ∀ k, k < 2 →
        (small.windowPos ≤ small.sourceIndex off k ∧ small.sourceIndex off k < small.windowPos + k)
          ∨ (Cells.find small.win (small.sourceIndex off k)).isSome := by decide +kernel
    exact ⟨⟨hp, (hq off ho).1, fun h => absurd h (hq off ho).2.1⟩, (hq off ho).2.2⟩
  exact fun i hi => ⟨(hw i hi).1, (hw i hi).2.1, rfl, by decide, hc _ (hw i hi).2.2⟩

/-- The long aligned forms reach at least 14 bytes back: here into a dictionary. -/
theorem witness_MatchesCopy_long :
    ∀ i ∈ [Instr.matchAlignedLong 8 0 0 (some 0), .matchAlignedLong 8 0 0 none],
      WellFormed i ∧ matchHeader i = some 0
        ∧ ({ small with cfg := { refDataSize := 12 }, win := Cells.enumerate 32756 (List.replicate 12 7) } : State).CopyRuns
          (matchOffset i small) 2 := by
  have hq : ∀ off ∈ [14], ∀ k, k < 2 →
      (Cells.find (Cells.enumerate 32756 (List.replicate 12 (7 : Byte))) (copySource (2 ^ 15) off (3 + k))).isSome := by
    decide +kernel
  have hw : ∀ i ∈ [Instr.matchAlignedLong 8 0 0 (some 0), .matchAlignedLong 8 0 0 none],
      WellFormed i ∧ matchHeader i = some 0 ∧ matchOffset i small = 14 := by decide +kernel
  intro i hi
  refine ⟨(hw i hi).1, (hw i hi).2.1, ?_⟩
  rw [(hw i hi).2.2]
  exact ⟨⟨by show 3 + 2 ≤ 2 ^ 15; decide, by decide, fun _ => ⟨.inr (by show 14 - 3 ≤ 12; decide),
    by show 14 - 3 ≤ 2 ^ 15; decide⟩⟩, fun k hk => .inr (hq 14 (by simp) k hk)⟩

theorem witness_LongDeltaMatchesAwaitTheirExtension :
    ∃ (i : Instr) (s : State), WellFormed i ∧ matchHeader i = some 7 ∧ s.mLen = 257 ∧ s.cfg.isDelta = true :=
  ⟨.matchSlot0 7, { small with mLen := 257, cfg := { windowBits := 17, isDelta := true } }, by decide +kernel⟩

theorem witness_ExtensionLengthensTheMatch :
    ∃ (i : Instr) (s : State) (x : Nat), extensionValue i = some x ∧ s.CopyRuns s.mOff (s.mLen + x) :=
  ⟨.ext0 2, small, 2, rfl, (small_copyRuns 2 11 (by decide)).2 (by decide)⟩

/-- Each check of R212 to R214 at its boundary: one byte past the window's end, offset 0, one byte before the history and the
dictionary, one byte beyond the window. -/
theorem witness_MatchChecksRaiseBeforeWriting :
    (∃ s : State, s.cfg.windowSize + 1 = s.windowPos + 2 ∧ matchOffset (.matchSlot0 0) s = 1)
    ∧ (∃ s : State, matchOffset (.matchSlot0 0) s = 0)
    ∧ (∃ s : State, s.windowPos < 4 ∧ s.delivered + 1 = 4 ∧ s.cfg.refDataSize + 1 = 4 - s.windowPos
      ∧ matchOffset (.matchSlot0 0) s = 4)
    ∧ (∃ s : State, s.windowPos < matchOffset (.matchSlot0 0) s
      ∧ s.cfg.windowSize + 1 = matchOffset (.matchSlot0 0) s - s.windowPos)
    ∧ (∃ s : State, s.cfg.windowSize + 1 = s.windowPos + (s.mLen + 0x7FFF) ∧ extensionValue (.ext111 0x7FFF) = some 0x7FFF)
    ∧ WellFormed (.matchSlot0 0) ∧ matchHeader (.matchSlot0 0) = some 0 :=
  ⟨⟨{ small with windowPos := 32767 }, by decide +kernel⟩, ⟨{ small with r0 := 0 }, by decide +kernel⟩,
    ⟨{ small with r0 := 4, delivered := 3 }, by decide +kernel⟩, ⟨{ small with r0 := 32772 }, by decide +kernel⟩,
    ⟨{ small with windowPos := 0, mLen := 2 }, by decide +kernel⟩, by decide, rfl⟩

theorem witness_UsedOffsetBecomesR0 :
    ∃ (i : Instr) (s t : State), WellFormed i ∧ matchHeader i ≠ none ∧ exec i s = .next t :=
  ⟨.matchSlot1 0, small, _, by decide, by decide, rfl⟩

theorem small_history : small.History := by
  refine ⟨by decide +kernel, by decide, by decide +kernel, by decide +kernel, fun a h1 h2 => ?_, .inl (by decide)⟩
  exact absurd h2 (by show ¬ a < small.cfg.windowSize; exact Nat.not_lt.2 h1)

theorem witness_AcceptedMatchesReadOnlyHistory :
    ∃ (s : State) (off len : Nat), s.History ∧ s.OffsetLegal off len :=
  ⟨small, 1, 32765, small_history, (small_copyRuns 1 32765 (by decide)).1⟩

theorem witness_AcceptedMatchesReadOnlyHistory_instruction :
    ∃ (i : Instr) (s : State), WellFormed i ∧ matchHeader i = some 0 ∧ 2 = (if 0 = 7 then s.mLen else 0 + 2)
      ∧ ¬ (2 = 257 ∧ s.cfg.isDelta = true) ∧ s.History ∧ s.OffsetLegal (matchOffset i s) 2 :=
  ⟨.matchSlot0 0, small, by decide, rfl, rfl, by decide, small_history, (small_copyRuns 1 2 (by decide)).1⟩

theorem witness_InitMakesTheInitialDecoder :
    ∀ p ∈ [((15 : Int), false, (none : Option (List Byte))), (21, false, none), (17, true, some [1, 2]), (25, true, none)],
      (p.2.1 = false → 15 ≤ p.1 ∧ p.1 ≤ 21) ∧ (p.2.1 = true → 17 ≤ p.1 ∧ p.1 ≤ 25)
        ∧ (p.2.2 ≠ none → p.2.1 = false → small.par.dictNonDelta = .accept) ∧ (p.2.2.getD []).length ≤ 2 ^ p.1.toNat := by
  decide +kernel

/-- Each illegal operand just outside its range; the longest dictionary is the window's size. -/
theorem witness_InitRefusesIllegalOperands :
    (¬ (15 ≤ (14 : Int)) ∧ ¬ ((22 : Int) ≤ 21) ∧ ¬ (17 ≤ (16 : Int)) ∧ ¬ ((26 : Int) ≤ 25) ∧ (-1 : Int) < 0 ∧ (0 : Int) < 1)
    ∧ (some [(1 : Byte)] ≠ none ∧ small.par.dictNonDelta = .refuse)
    ∧ 2 ^ (17 : Int).toNat < (List.replicate (2 ^ 17 + 1) (0 : Byte)).length :=
  ⟨by decide, by decide, by rw [List.length_replicate]; decide⟩

theorem witness_LatchedErrorsAnswerEveryDecompress :
    (∃ s : State, s.present = true ∧ s.err = some .malformedTable)
    ∧ (∃ s t : State, exec (.decompress (-1)) s = .next t ∧ t.results = s.results ++ [.error .configurationError])
    ∧ ∃ s t : State, s.phase ≠ .idle ∧ step s = .next t ∧ t.results = s.results ++ [.error .blockOverrun] :=
  ⟨⟨{ small with err := some .malformedTable }, by decide⟩,
    ⟨small, small.raise .configurationError, rfl, rfl⟩,
    ⟨{ small with thisRun := -5 }, { small with thisRun := -5 }.raise .blockOverrun, by decide, rfl, rfl⟩⟩

theorem witness_DecompressChecksItsRequest :
    (∃ s : State, s.present = true ∧ s.err = none ∧ (-1 : Int) < 0)
    ∧ (∃ s : State, s.present = true ∧ s.err = none ∧ s.cfg.totalLength = 5 ∧ s.delivered + 3 = 6)
    ∧ ∃ s : State, s.present = true ∧ s.err = none ∧ s.cfg.totalLength = 0 ∧ s.par.undeclaredLength = .zeroIsZero
      ∧ s.delivered = 0 :=
  ⟨⟨small, by decide⟩, ⟨{ small with cfg := { totalLength := 5 }, delivered := 3 }, by decide⟩,
    ⟨{ small with par := { undeclaredLength := .zeroIsZero } }, by decide⟩⟩

/-- All staged bytes are wanted, and one fewer than are wanted is staged. -/
theorem witness_DecompressDeliversStagedBytesFirst :
    ∃ (s : State) (bytes : List Byte), s.present = true ∧ s.err = none ∧ s.oneshot = false ∧ Memory.wf s.stage
      ∧ s.par.undeclaredLength = .zeroMeansUndeclared ∧ s.cfg.totalLength = 0
      ∧ 2 = min (s.stageLen - s.stagePtr) 2 ∧ 2 = min (s.stageLen - s.stagePtr) 3 ∧ bytes.length = 2
      ∧ ∀ j, j < 2 → Cells.find s.stage (s.stagePtr + j) = bytes[j]? :=
  ⟨{ small with stage := [(0, 1), (1, 2), (2, 3)], stageLen := 3, stagePtr := 1, phase := .idle }, [2, 3], by decide +kernel⟩

/-- The same within a declared length, its last byte wanted, with D18's other value. -/
theorem witness_DecompressDeliversStagedBytesFirst_declared :
    ∃ (s : State) (bytes : List Byte), s.present = true ∧ s.err = none ∧ s.oneshot = false ∧ Memory.wf s.stage
      ∧ s.par.undeclaredLength = .zeroIsZero ∧ s.delivered + 2 = s.cfg.totalLength
      ∧ 2 = min (s.stageLen - s.stagePtr) 2 ∧ bytes.length = 2
      ∧ ∀ j, j < 2 → Cells.find s.stage (s.stagePtr + j) = bytes[j]? :=
  ⟨{ small with stage := [(0, 1), (1, 2), (2, 3)], stageLen := 3, stagePtr := 1, phase := .idle, cfg := { totalLength := 2 }
                par := { undeclaredLength := .zeroIsZero } }, [2, 3], by decide +kernel⟩

theorem witness_OneshotInitialisesAndDecodes :
    initRefused small.par small.par.oneshotWindowBits 0 1 (-1) false none = true
    ∧ initRefused small.par small.par.oneshotWindowBits 0 1 0 false none = false
    ∧ initRefused small.par small.par.oneshotWindowBits 0 1 1 (small.par.oneshotDelta.getD true) (some [1]) = false := by
  decide +kernel

theorem witness_TheHostNeedsADecoderAndOneSource :
    (∃ s : State, s.phase = .idle ∧ s.queue = [.bind [1]] ∧ s.present = false)
    ∧ (∃ s : State, s.phase = .idle ∧ s.queue = [.bind [1]] ∧ s.present = true ∧ s.bound = true)
    ∧ ∃ s : State, s.phase = .idle ∧ s.queue = [.bind [1]] ∧ s.present = true ∧ s.bound = false :=
  ⟨⟨{ State.reset with queue := [.bind [1]] }, by decide⟩,
    ⟨{ small with phase := .idle, bound := true, queue := [.bind [1]] }, by decide⟩,
    ⟨{ small with phase := .idle, queue := [.bind [1]] }, by decide⟩⟩

theorem witness_ResetIntervalClearsTheTrees :
    ∀ n ∈ [0, 4], ∃ s : State, s.phase = .frameLoop ∧ s.frame.toNat < s.endFrame ∧ s.cfg.resetInterval ≠ 0
      ∧ s.frame.toNat % s.cfg.resetInterval = 0 ∧ NatArray.wf s.mainTree.len ∧ NatArray.wf s.lengthTree.len
      ∧ s.blockRemaining = n := by
  intro n _
  exact ⟨{ small with phase := .frameLoop, endFrame := 7, frame := 6, cfg := { resetInterval := 3 }, blockRemaining := n },
    rfl, by show 6 < 7; decide, by show 3 ≠ 0; decide, by show 6 % 3 = 0; decide, NatArray.wf_nil, NatArray.wf_nil, rfl⟩

theorem witness_FramesRunUntilTheEndFrame :
    (∃ s : State, s.phase = .frameLoop ∧ s.endFrame = s.frame.toNat)
    ∧ ∃ s : State, s.phase = .frameLoop ∧ s.frame.toNat + 1 = s.endFrame ∧ s.cfg.resetInterval ≠ 0
      ∧ s.frame.toNat % s.cfg.resetInterval ≠ 0 :=
  ⟨⟨{ small with phase := .frameLoop }, by decide⟩,
    ⟨{ small with phase := .frameLoop, frame := 4, endFrame := 5, cfg := { resetInterval := 3 } }, by decide⟩⟩

theorem witness_FrameSizeIsBoundedByTheLength :
    (∃ s : State, s.phase = .frameOpen ∧ s.cfg.totalLength = 0)
    ∧ ∃ s : State, s.phase = .frameOpen ∧ s.cfg.totalLength = 32767 ∧ s.delivered = 0 :=
  ⟨⟨{ small with phase := .frameOpen }, by decide⟩,
    ⟨{ small with phase := .frameOpen, cfg := { totalLength := 32767 } }, by decide⟩⟩

theorem witness_RunsAreChargedToBlockAndFrame :
    (∃ s : State, s.phase = .runOpen ∧ s.todo = 0)
    ∧ (∃ s : State, s.phase = .run ∧ s.thisRun = -((4 : Nat) : Int) ∧ s.blockRemaining = 4)
    ∧ ∃ s : State, s.phase = .run ∧ s.thisRun = -((5 : Nat) : Int) ∧ s.blockRemaining = 4 :=
  ⟨⟨{ small with phase := .runOpen, todo := 0 }, by decide⟩, ⟨{ small with thisRun := -4 }, by decide⟩,
    ⟨{ small with thisRun := -5 }, by decide⟩⟩

theorem witness_FrameMustGetExactlyItsBytes :
    (∃ s : State, s.phase = .blockLoop ∧ s.todo = 0 ∧ (s.windowPos : Int) - s.framePos = s.fs + 1)
    ∧ (∃ s : State, s.phase = .blockLoop ∧ s.todo = 0 ∧ (s.windowPos : Int) - s.framePos = s.fs)
    ∧ ∃ s : State, s.phase = .blockLoop ∧ s.todo = 1 ∧ s.blockRemaining ≠ 0 :=
  ⟨⟨{ small with phase := .blockLoop, todo := 0, fs := 2 }, by decide⟩, ⟨{ small with phase := .blockLoop, todo := 0 }, by decide⟩,
    ⟨{ small with phase := .blockLoop, todo := 1 }, by decide⟩⟩

/-- The least and the greatest window size, in the second main range (R85, R92). -/
theorem witness_TreeTransmissionsFollowInOrder_ranges :
    ∀ p ∈ [(15, 496), (25, 2576)], ∃ s : State, s.treeSel = .mainHigh ∧ s.cfg.windowBits = p.1 ∧ s.rangeEnd = p.2 :=
  fun p hp => ⟨{ small with treeSel := .mainHigh, cfg := { windowBits := p.1 } }, rfl, rfl, by revert p; decide +kernel⟩

theorem witness_TreeTransmissionsFollowInOrder :
    (∃ s : State, s.phase = .items ∧ s.rangeEnd = s.lenPos ∧ s.treeSel = .mainLow)
    ∧ (∃ s : State, s.phase = .items ∧ s.rangeEnd ≤ s.lenPos ∧ s.treeSel = .mainHigh
      ∧ (buildTable s.par.earlyReturn .main s.mainTree.len s.mainTree.table).2 = .complete)
    ∧ (∃ s : State, s.phase = .items ∧ s.rangeEnd ≤ s.lenPos ∧ s.treeSel = .mainHigh
      ∧ (buildTable s.par.earlyReturn .main s.mainTree.len s.mainTree.table).2 ≠ .complete)
    ∧ (∃ s : State, s.phase = .items ∧ s.rangeEnd ≤ s.lenPos ∧ s.treeSel = .length
      ∧ (buildTable s.par.earlyReturn .length s.lengthTree.len s.lengthTree.table).2 = .complete)
    ∧ (∃ s : State, s.phase = .items ∧ s.rangeEnd ≤ s.lenPos ∧ s.treeSel = .length
      ∧ (buildTable s.par.earlyReturn .length s.lengthTree.len s.lengthTree.table).2 = .empty)
    ∧ ∃ s : State, s.phase = .items ∧ s.rangeEnd ≤ s.lenPos ∧ s.treeSel = .length
      ∧ (buildTable s.par.earlyReturn .length s.lengthTree.len s.lengthTree.table).2 = .incomplete :=
  ⟨⟨{ small with phase := .items, lenPos := 256 }, by decide +kernel⟩,
    ⟨{ small with phase := .items, lenPos := 496, treeSel := .mainHigh, mainTree := { len := [(0xE8, 1), (97, 1)].reverse } },
      by decide +kernel⟩,
    ⟨{ small with phase := .items, lenPos := 496, treeSel := .mainHigh }, by decide +kernel⟩,
    ⟨{ small with phase := .items, lenPos := 249, treeSel := .length, lengthTree := { len := [(5, 1), (9, 1)] } },
      by decide +kernel⟩,
    ⟨{ small with phase := .items, lenPos := 249, treeSel := .length }, by decide +kernel⟩,
    ⟨{ small with phase := .items, lenPos := 249, treeSel := .length, lengthTree := { len := [(5, 1)] } },
      by decide +kernel⟩⟩

/-- `small` at the end of its frame, with an output of two bytes wanted. -/
def staging : State := { small with phase := .stage, todo := 0, thisRun := 0, want := 2 }

theorem witness_StagingMustBeDrained : ∃ s : State, s.phase = .stage ∧ s.stagePtr + 1 = s.stageLen :=
  ⟨{ staging with stageLen := 1 }, by decide⟩

theorem witness_FramesAreStagedAdvancedAndDelivered :
    staging.phase = .stage ∧ staging.stagePtr = staging.stageLen ∧ Memory.wf staging.win ∧ Memory.wf staging.stage
      ∧ staging.fs = (3 : Nat) ∧ staging.windowPos = staging.framePos + 3
      ∧ (∀ j, j < 3 → Cells.find staging.win (staging.framePos + j) = [(10 : Byte), 20, 30][j]?)
      ∧ 2 = min staging.want 3 := by decide +kernel

theorem witness_FilterTouchesOnlyOperands :
    (∃ (buf : List Byte) (j : Nat), buf.length = j + 6)
    ∧ (∃ buf : List Byte, (e8Filter 0x1000 0x20 buf)[1]? ≠ buf[1]? ∧ (e8Filter 0x1000 0x20 buf)[4]? ≠ buf[4]?)
    ∧ ∃ buf : List Byte, ∀ j, j + 10 < buf.length → buf[j]? ≠ some 0xE8 :=
  ⟨⟨List.replicate 16 0xE8, 10, by decide⟩, ⟨[0xE8, 0x10, 0, 0, 0] ++ List.replicate 11 1, by decide +kernel⟩,
    ⟨[1, 2], fun j h => absurd h (by simp)⟩⟩

/-- An element, a match header, an error of the reading, and a host command. -/
theorem witness_StepRunsTheDecodedInstruction :
    (∃ (s : State) (i : Instr) (r : BitReader), s.phase = .run ∧ 0 < s.thisRun
      ∧ decodeAt s.phase (!s.coded) s.decodeContext s.rd = .instr i r)
    ∧ (∃ (s : State) (m : Nat) (r : BitReader), s.phase = .run ∧ 0 < s.thisRun
      ∧ decodeAt s.phase (!s.coded) s.decodeContext s.rd = .header m r)
    ∧ (∃ (s : State) (e : ErrKind) (r : BitReader) (fields : List Nat), s.phase = .run ∧ 0 < s.thisRun
      ∧ decodeAt s.phase (!s.coded) s.decodeContext s.rd = .raise e r fields)
    ∧ ∃ (s : State) (h : HostCmd) (i : Instr) (rest : List HostCmd), s.phase = .idle ∧ s.queue = h :: rest
      ∧ decodeHost h = some i :=
  ⟨⟨{ small with mainTree := letterTree, rd := { input := [0, 0] } }, .lit 97, { input := [0, 0], inPos := 2, bitsLeft := 15 },
      by decide +kernel⟩,
    ⟨{ small with mainTree := letterTree, rd := { input := [0, 0xC0] } }, 300, { input := [0, 0xC0], inPos := 2, bitsLeft := 14 },
      by decide +kernel⟩,
    ⟨{ small with rd := { inputEnd := true } }, .unexpectedEndOfStream, { inputEnd := true }, [], by decide +kernel⟩,
    ⟨{ State.reset with queue := [.decompress 1] }, .decompress 1, .decompress 1, [], by decide⟩⟩

theorem witness_ErrorsEndTheCommand : ∃ s t : State, s.phase ≠ .idle ∧ step s = .next t ∧ t.err ≠ s.err :=
  ⟨{ small with thisRun := -5 }, { small with thisRun := -5 }.raise .blockOverrun, by decide, rfl, by decide⟩

/-- ConfigurationIsFixed and StreamsOnlyAdvance; OnlyRunsWriteTheWindow at a place outside its three. -/
theorem witness_stepsInsideACommand :
    (∃ s t : State, s.phase ≠ .idle ∧ s.intelStarted = true ∧ step s = .next t)
    ∧ ∃ s t : State, s.phase ≠ .idle ∧ s.phase ≠ .run ∧ s.phase ≠ .offset ∧ s.phase ≠ .ext ∧ step s = .next t :=
  ⟨⟨{ small with phase := .frameOpen, intelStarted := true }, _, by decide, rfl, rfl⟩,
    ⟨{ small with phase := .frameOpen }, _, by decide, by decide, by decide, by decide, rfl⟩⟩

theorem emptyHuff_wf : ({} : Huff).wf := ⟨NatArray.wf_nil, NatArray.wf_nil, fun c hc => by cases hc⟩

theorem staging_sound : staging.Sound where
  cfgLegal := .inl (by decide)
  dictFits := by decide
  reader := by decide +kernel
  window := by decide +kernel
  windowRange := by decide +kernel
  cursor := by decide +kernel
  staging := List.Pairwise.nil
  stageRange := fun c hc => by cases hc
  staged := by decide
  stagedBytes := fun i hi => absurd hi (Nat.not_lt_zero i)
  frameFits := by decide
  pre := emptyHuff_wf
  main := emptyHuff_wf
  length := emptyHuff_wf
  aligned := emptyHuff_wf
  blockKind := fun _ => by decide
  blockBudget := by decide
  frameWants := fun h => absurd h (by decide)
  counted := rfl

theorem staging_framed : staging.Framed := ⟨by decide +kernel, by decide, .inl rfl⟩

theorem staging_history : staging.History := by
  obtain ⟨a, b, c, d, e, f⟩ := small_history
  exact ⟨a, b, c, d, e, f⟩

/-- StepsKeepSound, StagedBytesHoldValues, StepsKeepFramed and StepsKeepHistory, at the end of a frame. -/
theorem witness_invariants :
    staging.Sound ∧ staging.Framed ∧ staging.History ∧ ∃ t, step staging = .next t ∧ t.out = [10, 20] :=
  ⟨staging_sound, staging_framed, staging_history, _, rfl, by decide +kernel⟩

end Sys2Proof.Tests
end

section
/-! The configuration, the decision parameters and the host's side of the machine stand still inside a command
(R6, R8, R20): what every operation, element and sequencing step leaves of them. -/

namespace Sys2Proof.Machine

/-- The registers out of reach of the bitstream: the configuration (R20), the decision parameters (R8), the commands
still to come, and whether the host holds a decoder and has bound its source (R6, R342). -/
def State.hostSide (s : State) : Cfg × Params × List HostCmd × Bool × Bool := (s.cfg, s.par, s.queue, s.present, s.bound)

theorem State.hostSide_eq_iff (s t : State) : t.hostSide = s.hostSide ↔
    t.cfg = s.cfg ∧ t.par = s.par ∧ t.queue = s.queue ∧ t.present = s.present ∧ t.bound = s.bound := by
  simp only [State.hostSide, Prod.mk.injEq]

@[simp] theorem State.withReader_hostSide (s : State) (r : BitReader) : (s.withReader r).hostSide = s.hostSide := rfl

@[simp] theorem State.raise_hostSide (s : State) (e : ErrKind) : (s.raise e).hostSide = s.hostSide := rfl

@[simp] theorem State.storeFields_hostSide (s : State) (fields : List Nat) :
    (s.storeFields fields).hostSide = s.hostSide := by
  unfold State.storeFields
  split <;> rfl

theorem State.Kept.hostSide {s t : State} (h : s.Kept t) : t.hostSide = s.hostSide :=
  (State.hostSide_eq_iff s t).2 ⟨h.cfg, h.par, h.queue, h.present, h.bound⟩

theorem seqFrameLoop_hostSide {s t : State} (h : seqFrameLoop s = .next t) : t.hostSide = s.hostSide := by
  unfold seqFrameLoop at h
  repeat' split at h
  all_goals cases h; rfl

theorem seqFrameOpen_hostSide {s t : State} (h : seqFrameOpen s = .next t) : t.hostSide = s.hostSide := by
  cases h; rfl

theorem seqBlockLoop_hostSide {s t : State} (h : seqBlockLoop s = .next t) : t.hostSide = s.hostSide := by
  unfold seqBlockLoop at h
  repeat' split at h
  all_goals cases h; rfl

theorem seqRunOpen_hostSide {s t : State} (h : seqRunOpen s = .next t) : t.hostSide = s.hostSide := by
  cases h; rfl

theorem State.buildMain_hostSide {s t : State} (h : s.buildMain = .next t) : t.hostSide = s.hostSide := by
  simp only [State.buildMain] at h
  split at h <;> cases h <;> rfl

theorem State.buildLength_hostSide {s t : State} (h : s.buildLength = .next t) : t.hostSide = s.hostSide := by
  simp only [State.buildLength] at h
  split at h <;> cases h <;> rfl

theorem seqTreeEnd_hostSide {s t : State} (h : seqTreeEnd s = .next t) : t.hostSide = s.hostSide := by
  unfold seqTreeEnd at h
  split at h
  · cases h; rfl
  · exact State.buildMain_hostSide h
  · exact State.buildLength_hostSide h

theorem seqRunEnd_hostSide {s t : State} (h : seqRunEnd s = .next t) : t.hostSide = s.hostSide := by
  unfold seqRunEnd at h
  repeat' split at h
  all_goals cases h; rfl

theorem State.stageFrame_hostSide {s t : State} (h : s.stageFrame = some t) : t.hostSide = s.hostSide := by
  unfold State.stageFrame at h
  obtain ⟨slice, -, rfl⟩ := Option.map_eq_some_iff.1 h
  rfl

theorem State.deliver_hostSide {s t : State} {k : Nat} (h : s.deliver k = some t) : t.hostSide = s.hostSide := by
  unfold State.deliver at h
  obtain ⟨bytes, -, rfl⟩ := Option.map_eq_some_iff.1 h
  rfl

/-- The end of a frame stages, advances and delivers; each of the three leaves the host's side alone. -/
theorem seqStage_hostSide {s t : State} (h : seqStage s = .next t) : t.hostSide = s.hostSide := by
  simp only [seqStage] at h
  split at h
  · cases h; rfl
  · split at h
    · cases h; rfl
    · next s1 hstage =>
      split at h
      · cases h
      · next s3 hdeliver =>
        cases h
        calc s3.hostSide = s1.advanceFrame.hostSide := State.deliver_hostSide hdeliver
          _ = s1.hostSide := rfl
          _ = s.hostSide := State.stageFrame_hostSide hstage

/-- Inside a command a step is an element, which keeps the host's side whatever its reading comes to, or the sequencing step
of its place. -/
theorem step_hostSide {s t : State} (hp : s.phase ≠ .idle) (h : step s = .next t) : t.hostSide = s.hostSide := by
  obtain h | ⟨-, h⟩ | ⟨-, h⟩ | ⟨-, h⟩ | ⟨-, h⟩ | ⟨-, h⟩ | ⟨-, h⟩ | ⟨-, h⟩ := step_cases hp h
  · obtain ⟨i, r, -, hi, he⟩ | ⟨m, r, -, rfl⟩ | ⟨e, r, fields, -, rfl⟩ | ⟨-, rfl⟩ := fetchElement_cases h
    · exact (exec_kept i _ t (hi ▸ hp) he).hostSide
    · rfl
    · simp
    · rfl
  · exact seqFrameLoop_hostSide h
  · exact seqFrameOpen_hostSide h
  · exact seqBlockLoop_hostSide h
  · exact seqRunOpen_hostSide h
  · exact seqStage_hostSide h
  · exact seqTreeEnd_hostSide h
  · exact seqRunEnd_hostSide h

/-- Settles O53: outside the host's own commands no step reaches the host's side of the state. -/
theorem configurationIsFixed : Obligations.ConfigurationIsFixed := by
  intro s t hp h
  exact (State.hostSide_eq_iff s t).1 (step_hostSide hp h)

end Sys2Proof.Machine
end

section
/-! What each sequencing step and each command can do, said once: if it goes on, then one of these cases holds. -/

namespace Sys2Proof.Machine

/-- What comes of the next thing to do (R49). -/
def Fetched.answer (x : Fetched) : Answer :=
  match x with
  | .run i s => exec i s
  | .sequence o => o

@[simp] theorem Fetched.answer_run (i : Instr) (s : State) : (Fetched.run i s).answer = exec i s := rfl

@[simp] theorem Fetched.answer_sequence (o : Answer) : (Fetched.sequence o).answer = o := rfl

theorem step_eq_answer (s : State) : step s = (fetch s).answer := rfl

theorem step_of_idle {s : State} (hp : s.phase = .idle) : step s = (fetchCommand s).answer := by
  have hfetch : fetch s = fetchCommand s := by unfold fetch; rw [hp]
  rw [step_eq_answer, hfetch]

/-- A queued command that is an instruction runs as that instruction, with the rest of the queue left (R297). -/
theorem step_command {s : State} {c : HostCmd} {i : Instr} {rest : List HostCmd} (hp : s.phase = .idle)
    (hq : s.queue = c :: rest) (hi : decodeHost c = some i) : step s = exec i { s with queue := rest } := by
  rw [step_of_idle hp]
  unfold fetchCommand
  rw [hq]
  cases c <;> cases hi <;> rfl

/-- A step between commands: the block waits, the host binds its source, or the next command of the queue runs (R297). -/
theorem step_idle_cases {s : State} (hp : s.phase = .idle) :
    step s = .next s ∨ (∃ source rest, step s = seqBind source { s with queue := rest })
      ∨ ∃ i rest, placeOf i = .idle ∧ step s = exec i { s with queue := rest } := by
  cases hq : s.queue with
  | nil => exact .inl (by rw [step_of_idle hp, fetchCommand, hq]; rfl)
  | cons c rest =>
    cases c with
    | bind source => exact .inr (.inl ⟨source, rest, by rw [step_of_idle hp, fetchCommand, hq]; rfl⟩)
    | init => exact .inr (.inr ⟨_, rest, rfl, step_command hp hq rfl⟩)
    | decompress => exact .inr (.inr ⟨_, rest, rfl, step_command hp hq rfl⟩)
    | oneshot => exact .inr (.inr ⟨_, rest, rfl, step_command hp hq rfl⟩)

/-- A binding changes the input and the mark that it was made, nothing else (R342). -/
theorem seqBind_cases {s t : State} {source : List Byte} (h : seqBind source s = .next t) :
    t = { s with rd := { s.rd with input := source }, bound := true } := by
  unfold seqBind at h
  split at h
  · split at h <;> cases h
    rfl
  · cases h

/-- INIT is refused, or makes a new decoder (R290). -/
theorem execInit_cases {s t : State} {wb ri hint len : Int} {delta : Bool} {dict : Option (List Byte)}
    (h : execInit wb ri hint len delta dict s = .next t) :
    t = s.answerError .configurationError
      ∨ initRefused s.par wb ri hint len delta dict = false ∧ t = (s.newDecoder wb ri hint len delta dict).complete := by
  unfold execInit at h
  split at h
  · cases h; exact .inl rfl
  · next hr => cases h; exact .inr ⟨by simpa using hr, rfl⟩

/-- Delivery at the start of a request: the request is met, or the frame loop goes on with the rest (R292). -/
theorem State.beginDelivery_cases {s t : State} {n : Nat} (h : s.beginDelivery n = .next t) :
    ∃ s1, s.deliver (min (s.stageLen - s.stagePtr) n) = some s1
      ∧ (t = s1.complete ∨ ∃ want endFrame, t = { s1 with want := want, endFrame := endFrame, phase := .frameLoop }) := by
  simp only [State.beginDelivery] at h
  split at h
  · cases h
  · next s1 hd =>
    refine ⟨s1, hd, ?_⟩
    split at h <;> cases h
    · exact .inl rfl
    · exact .inr ⟨_, _, rfl⟩

/-- A request answers the latched error, raises a new one, or begins its delivery (R292, R295, R319). -/
theorem State.decompress_cases {s t : State} {n : Int} (h : s.decompress n = .next t) :
    (∃ e, s.err = some e ∧ t = s.answerError e)
      ∨ s.err = none ∧ ((∃ e, t = s.raise e) ∨ s.beginDelivery n.toNat = .next t) := by
  unfold State.decompress raised at h
  split at h
  · next e he => cases h; exact .inl ⟨e, he, rfl⟩
  · next he =>
    refine .inr ⟨he, ?_⟩
    split at h
    · cases h; exact .inl ⟨_, rfl⟩
    · split at h
      · cases h; exact .inl ⟨_, rfl⟩
      · exact .inr h

theorem execDecompress_cases {s t : State} {n : Int} (h : execDecompress n s = .next t) : s.decompress n = .next t := by
  unfold execDecompress at h
  split at h
  · exact h
  · cases h

/-- The decoder that ONESHOT makes for itself (R296): a new one, reading the data given. -/
def State.oneshotDecoder (s : State) (data : List Byte) (dict : Option (List Byte)) (size : Int) : State :=
  { s.newDecoder s.par.oneshotWindowBits 0 1 size (oneshotDelta s.par dict) dict with
    rd := { input := data }
    present := false
    oneshot := true }

/-- ONESHOT is refused as its INIT is, or makes its request of a decoder of its own (R296). -/
theorem execOneshot_cases {s t : State} {data : List Byte} {dict : Option (List Byte)} {size : Int}
    (h : execOneshot data dict size s = .next t) :
    t = s.answerError .configurationError
      ∨ initRefused s.par s.par.oneshotWindowBits 0 1 size (oneshotDelta s.par dict) dict = false
        ∧ (s.oneshotDecoder data dict size).decompress size = .next t := by
  simp only [execOneshot] at h
  split at h
  · cases h; exact .inl rfl
  · next hr => exact .inr ⟨by simpa using hr, h⟩

/-- The frame loop ends the request, or starts a frame, at a reset interval after the clear (R292, R252). -/
theorem seqFrameLoop_cases {s t : State} (h : seqFrameLoop s = .next t) :
    t = s.complete ∨ (∃ e, t = s.raise e) ∨ t = s.frameStart ∨ t = s.resetIntervalClear.frameStart := by
  unfold seqFrameLoop raised at h
  split at h
  · split at h
    · split at h <;> cases h
      · exact .inr (.inl ⟨_, rfl⟩)
      · exact .inr (.inr (.inr rfl))
    · cases h; exact .inr (.inr (.inl rfl))
  · cases h; exact .inl rfl

/-- The block loop goes on only while the frame wants bytes, and ends at the frame's size (R251, R256, R258). -/
theorem seqBlockLoop_cases {s t : State} (h : seqBlockLoop s = .next t) :
    (0 < s.todo ∧ (t = s.goto .pad ∨ t = s.goto .blockHead ∨ t = s.goto .runOpen)) ∨ (∃ e, t = s.raise e)
      ∨ (s.windowPos : Int) - s.framePos = s.fs ∧ t = s.goto .align16 := by
  unfold seqBlockLoop raised at h
  split at h
  · next htodo =>
    refine .inl ⟨htodo, ?_⟩
    split at h
    · split at h <;> cases h
      · exact .inl rfl
      · exact .inr (.inl rfl)
    · cases h; exact .inr (.inr rfl)
  · split at h
    · cases h; exact .inr (.inl ⟨_, rfl⟩)
    · next hsize => cases h; exact .inr (.inr ⟨by omega, rfl⟩)

/-- The end of a transmission goes on to the next one, builds the main table, or builds the length table (R185, R187). -/
theorem seqTreeEnd_cases {s t : State} (h : seqTreeEnd s = .next t) :
    t = { s with treeSel := .mainHigh, phase := .tree } ∨ s.buildMain = .next t ∨ s.buildLength = .next t := by
  unfold seqTreeEnd at h
  split at h
  · cases h; exact .inl rfl
  · exact .inr (.inl h)
  · exact .inr (.inr h)

/-- A build of the main table stores the table whatever comes of it; built, the second main transmission's end arms the
filter where literal 0xE8 has a code (R185, R280). -/
theorem State.buildMain_cases {s t : State} (h : s.buildMain = .next t) :
    ∃ table, table = (buildTable s.par.earlyReturn .main s.mainTree.len s.mainTree.table).1
      ∧ (t = { s with
            mainTree := { s.mainTree with table := table }
            intelStarted := s.e8Seen
            treeSel := .length
            phase := .tree }
        ∨ ∃ e, t = { s with mainTree := { s.mainTree with table := table } }.raise e) := by
  simp only [State.buildMain, raised] at h
  split at h <;> cases h
  · exact ⟨_, rfl, .inl rfl⟩
  · exact ⟨_, rfl, .inr ⟨_, rfl⟩⟩

/-- A build of the length table stores the table whatever comes of it; built, the run opens (R187). -/
theorem State.buildLength_cases {s t : State} (h : s.buildLength = .next t) :
    ∃ table, table = (buildTable s.par.earlyReturn .length s.lengthTree.len s.lengthTree.table).1
      ∧ ((∃ empty, t = { s with lengthTree := { s.lengthTree with table := table }, lengthEmpty := empty, phase := .runOpen })
        ∨ ∃ e, t = { s with lengthTree := { s.lengthTree with table := table } }.raise e) := by
  simp only [State.buildLength, raised] at h
  split at h <;> cases h
  · exact ⟨_, rfl, .inl ⟨_, rfl⟩⟩
  · exact ⟨_, rfl, .inr ⟨_, rfl⟩⟩

/-- The end of a run takes what the run overran from the block's budget, which never grows (R257). -/
theorem seqRunEnd_cases {s t : State} (h : seqRunEnd s = .next t) :
    (∃ e, t = s.raise e) ∨ ∃ left, left ≤ s.blockRemaining ∧ t = { s with blockRemaining := left, phase := .blockLoop } := by
  unfold seqRunEnd raised at h
  split at h
  · split at h <;> cases h
    · exact .inl ⟨_, rfl⟩
    · exact .inr ⟨_, by omega, rfl⟩
  · cases h; exact .inr ⟨s.blockRemaining, Nat.le_refl _, rfl⟩

/-- The end of a frame stages, advances and delivers, or raises in the state it found (R259, R262, R261, R293). -/
theorem seqStage_cases {s t : State} (h : seqStage s = .next t) :
    (∃ e, t = s.raise e) ∨ ∃ s1 s3, s.stageFrame = some s1
      ∧ s1.advanceFrame.deliver (min s1.want s1.stageLen) = some s3
      ∧ t = { s3 with want := s3.want - min s1.want s1.stageLen, phase := .frameLoop } := by
  simp only [seqStage, raised] at h
  split at h
  · cases h; exact .inl ⟨_, rfl⟩
  · split at h
    · cases h; exact .inl ⟨_, rfl⟩
    · next s1 hstage =>
      split at h
      · cases h
      · next s3 hdeliver => cases h; exact .inr ⟨s1, s3, hstage, hdeliver, rfl⟩

/-- A staged frame is the frame's window bytes, as many as the frame's size, filtered or not (R262, R281). -/
theorem State.stageFrame_cases {s t : State} (h : s.stageFrame = some t) :
    ∃ staged curPos, staged.length = s.fs.toNat
      ∧ t = { s with
          stage := Cells.splice s.stage 0 staged, stageLen := s.fs.toNat, stagePtr := 0, intelCurPos := curPos } := by
  unfold State.stageFrame at h
  obtain ⟨slice, hslice, rfl⟩ := Option.map_eq_some_iff.1 h
  have hlen : slice.length = s.fs.toNat := Cells.readRange_length hslice
  refine ⟨_, _, ?_, rfl⟩
  split
  · exact (e8Scan_length _ _ _ _).trans hlen
  · exact hlen

theorem State.stageFrame_stagePtr {s t : State} (h : s.stageFrame = some t) : t.stagePtr = 0 := by
  obtain ⟨staged, curPos, -, rfl⟩ := State.stageFrame_cases h
  rfl

/-- A delivery appends as many bytes as it was asked for, and counts them (R293). -/
theorem State.deliver_cases {s t : State} {k : Nat} (h : s.deliver k = some t) :
    ∃ bytes : List Byte, bytes.length = k
      ∧ t = { s with out := s.out ++ bytes, stagePtr := s.stagePtr + k, delivered := s.delivered + k } := by
  unfold State.deliver at h
  obtain ⟨bytes, hbytes, rfl⟩ := Option.map_eq_some_iff.1 h
  exact ⟨bytes, Cells.readRange_length hbytes, rfl⟩

/-- A run of code lengths goes to the transmission's array, whole, or cut short by a raise (R162 to R166, D9). -/
theorem State.writeLens_cases {s t : State} {y v : Nat} (h : s.writeLens y v = .next t) :
    ∃ n, (t = { s.withLenArray (NatArray.fill s.lenArray s.lenPos n v) with lenPos := s.lenPos + n, phase := .items })
      ∨ ∃ e, t = { s.withLenArray (NatArray.fill s.lenArray s.lenPos n v) with lenPos := s.lenPos + n }.raise e := by
  simp only [State.writeLens, raised] at h
  split at h <;> cases h
  · exact ⟨_, .inr ⟨_, rfl⟩⟩
  · exact ⟨_, .inl rfl⟩

/-- A read inside a meaning goes on with its value, or raises its error with the reader as it was left (R312). -/
theorem State.onRead_cases {α : Type} {s t : State} {x : ReadResult α} {f : α → State → Answer} (h : s.onRead x f = .next t) :
    (∃ v r, x = .ok v r ∧ f v (s.withReader r) = .next t) ∨ ∃ e r, x = .raise e r ∧ t = (s.withReader r).raise e := by
  cases x with
  | ok v r => exact .inl ⟨v, r, rfl, h⟩
  | raise e r => cases h; exact .inr ⟨e, r, rfl, rfl⟩

/-- ALIGNEDLENS stores its lengths and the table built from them, whatever comes of the build (R184, R312). -/
theorem execAlignedLens_cases {s t : State} {lens : List Nat} (h : execAlignedLens lens s = .next t) :
    ∃ table, table = (buildTable s.par.earlyReturn .aligned (NatArray.setAll s.alignedTree.len 0 lens) s.alignedTree.table).1
      ∧ (t = { s with
            alignedTree := { len := NatArray.setAll s.alignedTree.len 0 lens, table := table }
            treeSel := .mainLow
            phase := .tree }
        ∨ ∃ e, t = { s with alignedTree := { len := NatArray.setAll s.alignedTree.len 0 lens, table := table } }.raise e) := by
  simp only [execAlignedLens, raised] at h
  split at h <;> cases h
  · exact ⟨_, rfl, .inl rfl⟩
  · exact ⟨_, rfl, .inr ⟨_, rfl⟩⟩

/-- TREE stores its lengths and the pretree built from them, whatever comes of the build (R161, R312). -/
theorem execTree_cases {s t : State} {lens : List Nat} (h : execTree lens s = .next t) :
    ∃ table, table = (buildTable s.par.earlyReturn .pre (NatArray.setAll s.preTree.len 0 lens) s.preTree.table).1
      ∧ (t = { s with
            preTree := { len := NatArray.setAll s.preTree.len 0 lens, table := table }
            lenPos := treeFirst s.treeSel
            phase := .items }
        ∨ ∃ e, t = { s with preTree := { len := NatArray.setAll s.preTree.len 0 lens, table := table } }.raise e) := by
  simp only [execTree, raised] at h
  split at h <;> cases h
  · exact ⟨_, rfl, .inl rfl⟩
  · exact ⟨_, rfl, .inr ⟨_, rfl⟩⟩

/-- LEN with a length symbol raises while the length tree is empty, else latches the length (R202). -/
theorem execLenLong_cases {s t : State} {lsym : Nat} (h : execLenLong lsym s = .next t) :
    (∃ e, t = s.raise e) ∨ t = { s with mLen := 7 + lsym + minMatch, phase := .offset } := by
  simp only [execLenLong, raised] at h
  split at h <;> cases h
  · exact .inl ⟨_, rfl⟩
  · exact .inr rfl

end Sys2Proof.Machine
end

section
/-! Every step keeps the data sound: the tables, the staging, the match copy and the block registers, operation by operation
(R20, R120, R61, R39, R33, R31, R32, R256, R28). -/

namespace Sys2Proof.Machine

/-! ### The tables -/

/-- A code length derived from a delta is below 17 (R164). -/
theorem lengthDelta_le (prev d : Nat) : lengthDelta prev d ≤ 16 := by
  unfold lengthDelta
  omega

/-- A build stores a canonical decode array, whatever comes of it. -/
theorem Huff.wf.built {h : Huff} (hw : h.wf) (early : EarlyReturn) (t : Tree) (len : NatArray) :
    ({ h with table := (buildTable early t len h.table).1 } : Huff).wf := by
  obtain ⟨hlen, htable, hshort⟩ := hw
  exact ⟨hlen, buildTable_wf early t len h.table htable, hshort⟩

theorem Huff.wf.fill {h : Huff} (hw : h.wf) (a k : Nat) {v : Nat} (hv : v ≤ 16) :
    ({ h with len := NatArray.fill h.len a k v } : Huff).wf := by
  obtain ⟨hlen, htable, hshort⟩ := hw
  refine ⟨NatArray.wf_fill hlen a k v, htable, fun c hc => ?_⟩
  obtain ⟨-, -, hcv, -⟩ | hc := NatArray.mem_fill hc
  · exact hcv ▸ hv
  · exact hshort c hc

theorem Huff.wf.setAll {h : Huff} (hw : h.wf) (a : Nat) {vs : List Nat} (hvs : ∀ v ∈ vs, v ≤ 16) :
    ({ h with len := NatArray.setAll h.len a vs } : Huff).wf := by
  obtain ⟨hlen, htable, hshort⟩ := hw
  refine ⟨NatArray.wf_setAll hlen a vs, htable, fun c hc => ?_⟩
  obtain ⟨-, -, hcv⟩ | hc := NatArray.mem_setAll hc
  · exact hvs _ hcv
  · exact hshort c hc

/-- The clear of a reset interval keeps the entries past the symbols (R351). -/
theorem Huff.wf.upward {h : Huff} (hw : h.wf) (a : Nat) : ({ h with len := Cells.upward h.len a } : Huff).wf := by
  obtain ⟨⟨hrise, hnonzero⟩, htable, hshort⟩ := hw
  have hsub := (Cells.upward_subset h.len a).subset
  exact ⟨⟨Cells.wf_upward hrise a, fun c hc => hnonzero c (hsub hc)⟩, htable, fun c hc => hshort c (hsub hc)⟩

/-! ### The code lengths that decoding answers -/

/-- The code lengths an instruction stores as they are (R161, R184). -/
def storedLengths (i : Instr) : List Nat :=
  match i with
  | .tree lens | .alignedLens lens => lens
  | _ => []

/-- Stored code lengths are 3-bit or 4-bit fields (R86, R88). -/
theorem decodeAt_storedLengths {p : Phase} {u : Bool} {c : DecodeContext} {r r' : BitReader} {i : Instr}
    (h : decodeAt p u c r = .instr i r') : ∀ v ∈ storedLengths i, v ≤ 16 := by
  have hplace := decodeAt_place h
  cases i
  case tree lens =>
    subst hplace
    obtain ⟨vs, r1, -, hlt, he⟩ := decodeFields_instr (by omega) 20 [] r r' _ _ (by simp) h
    cases he
    exact fun v hv => Nat.le_of_lt (hlt v hv)
  case alignedLens lens =>
    subst hplace
    obtain ⟨vs, r1, -, hlt, he⟩ := decodeFields_instr (by omega) 8 [] r r' _ _ (by simp) h
    cases he
    exact fun v hv => Nat.le_trans (Nat.le_of_lt (hlt v hv)) (by omega)
  all_goals simp [storedLengths]

/-- The code lengths read before a raise are 3-bit or 4-bit fields too (R312). -/
theorem decodeAt_raisedLengths {p : Phase} {u : Bool} {c : DecodeContext} {r r' : BitReader} {e : ErrKind}
    {fields : List Nat} (hp : p = .tree ∨ p = .alignedLens) (h : decodeAt p u c r = .raise e r' fields) :
    ∀ v ∈ fields, v ≤ 16 := by
  obtain rfl | rfl := hp
  · have hlt := decodeFields_raise (by omega) 20 [] fields r r' e _ (by simp) (by simp) h
    exact fun v hv => Nat.le_of_lt (hlt v hv)
  · have hlt := decodeFields_raise (by omega) 8 [] fields r r' e _ (by simp) (by simp) h
    exact fun v hv => Nat.le_trans (Nat.le_of_lt (hlt v hv)) (by omega)

/-! ### The shared operations -/

theorem State.Sound.withReader {s : State} (hs : s.Sound) {r : BitReader} (hr : r.wf) : (s.withReader r).Sound :=
  { hs with reader := hr }

theorem State.Sound.withCache {s : State} (hs : s.Sound) (c : Word32 × Word32 × Word32) : (s.withCache c).Sound := { hs with }

/-- Any place may follow that is not a block header's, and those while the frame wants bytes (R256). -/
theorem State.Sound.goto {s : State} (hs : s.Sound) {p : Phase} (hp : headerPlace p = true → 0 < s.todo) : (s.goto p).Sound :=
  { hs with frameWants := hp }

theorem State.Sound.raise {s : State} (hs : s.Sound) (e : ErrKind) : (s.raise e).Sound :=
  { hs with
    blockKind := fun he => by cases he
    frameWants := fun hp => by cases hp }

theorem State.Sound.answerError {s : State} (hs : s.Sound) (e : ErrKind) : (s.answerError e).Sound := { hs with }

theorem State.Sound.complete {s : State} (hs : s.Sound) : s.complete.Sound := { hs with frameWants := fun hp => by cases hp }

/-- A header's registers, valid type (R182, R184 to R186). -/
theorem State.Sound.openBlock {s : State} (hs : s.Sound) {t : BitVec 3} (ht : t.toNat < 4) (len : BitVec 24) :
    (s.openBlock t len).Sound :=
  { hs with
    blockKind := fun _ => ht
    blockBudget := Nat.le_refl _ }

/-- A header of any type, when the error it raises is latched (R183). -/
theorem State.Sound.openBlock_raise {s : State} (hs : s.Sound) (t : BitVec 3) (len : BitVec 24) (e : ErrKind) :
    ((s.openBlock t len).raise e).Sound :=
  { hs.raise e with
    blockKind := fun he => by cases he
    blockBudget := Nat.le_refl _ }

theorem State.Sound.withLenArray {s : State} (hs : s.Sound) (k : Nat) {v : Nat} (hv : v ≤ 16) :
    (s.withLenArray (NatArray.fill s.lenArray s.lenPos k v)).Sound := by
  unfold State.withLenArray State.lenArray
  cases s.treeSel with
  | length => exact { hs with length := hs.length.fill s.lenPos k hv }
  | mainLow => exact { hs with main := hs.main.fill s.lenPos k hv }
  | mainHigh => exact { hs with main := hs.main.fill s.lenPos k hv }

theorem State.writeLens_sound {s t : State} {y v : Nat} (hs : s.Sound) (hp : s.phase = .items) (hv : v ≤ 16)
    (h : s.writeLens y v = .next t) : t.Sound := by
  obtain ⟨k, rfl | ⟨e, rfl⟩⟩ := State.writeLens_cases h
  · have hwants : 0 < (s.withLenArray (NatArray.fill s.lenArray s.lenPos k v)).todo := by
      rw [State.withLenArray_todo]
      exact hs.frameWants (by rw [hp]; rfl)
    exact { hs.withLenArray k hv with frameWants := fun _ => hwants }
  · exact { (hs.withLenArray k hv).raise e with }

theorem State.produce_sound {s t : State} {bytes : List Byte} (hs : s.Sound) (h : s.produce bytes = .next t) : t.Sound := by
  unfold State.produce at h
  split at h
  · cases h
  · next hfits =>
    cases h
    refine { hs with
      window := Cells.wf_splice hs.window _ _
      windowRange := fun c hc => ?_
      cursor := Nat.le_of_not_lt hfits
      frameWants := fun hp => by cases hp }
    obtain ⟨-, hc, -⟩ | hc := Cells.mem_splice hc
    · exact Nat.lt_of_lt_of_le hc (Nat.le_of_not_lt hfits)
    · exact hs.windowRange c hc

/-- The copy's window, whether the copy runs to its end or stops at a byte without a value (R215, R61). -/
theorem State.Sound.withCopy {s : State} (hs : s.Sound) {off len : Nat} (hfits : s.windowPos + len ≤ s.cfg.windowSize) :
    ({ s with win := (copyBytes s.cfg.windowSize off len s.windowPos s.win).1 } : State).Sound := by
  refine { hs with window := copyBytes_wf _ _ _ _ _ hs.window, windowRange := fun c hc => ?_ }
  obtain ⟨-, hc⟩ | hc := copyBytes_mem _ _ _ _ _ c hc
  · exact Nat.lt_of_lt_of_le hc hfits
  · exact hs.windowRange c hc

theorem State.copyMatch_sound {s t : State} {off len : Nat} (hs : s.Sound) (h : s.copyMatch off len = .next t) : t.Sound := by
  obtain ⟨-, e⟩ | ⟨hlegal, win, rfl, e | e⟩ := State.copyMatch_cases s off len <;> rw [e] at h <;> cases h
  · exact hs.raise _
  · have hfits := (State.matchRefused_false hlegal).1
    exact { hs.withCopy hfits with cursor := hfits, frameWants := fun hp => by cases hp }
  · exact (hs.withCopy (State.matchRefused_false hlegal).1).raise _

theorem State.matchWith_sound {s t : State} {off lh : Nat} (hs : s.Sound) (h : s.matchWith off lh = .next t) : t.Sound := by
  obtain e | e := State.matchWith_cases s off lh <;> rw [e] at h
  · cases h
    exact { hs with frameWants := fun hp => by cases hp }
  · exact State.copyMatch_sound (s := { s with mOff := off, mLen := s.matchLength lh }) { hs with } h

theorem State.extendMatch_sound {s t : State} {x : Nat} (hs : s.Sound) (h : s.extendMatch x = .next t) : t.Sound :=
  State.copyMatch_sound (s := { s with mLen := s.mLen + x }) { hs with } h

/-! ### The elements -/

/-- The aligned-tree lengths and their build (R184). -/
theorem execAlignedLens_sound {s t : State} {lens : List Nat} (hs : s.Sound) (hp : s.phase = .alignedLens)
    (hl : ∀ v ∈ lens, v ≤ 16) (h : execAlignedLens lens s = .next t) : t.Sound := by
  have htree := (hs.aligned.setAll 0 hl).built s.par.earlyReturn .aligned (NatArray.setAll s.alignedTree.len 0 lens)
  obtain ⟨table, rfl, rfl | ⟨e, rfl⟩⟩ := execAlignedLens_cases h
  · exact { hs with aligned := htree, frameWants := fun _ => hs.frameWants (by rw [hp]; rfl) }
  · exact { hs.raise e with aligned := htree }

/-- The pretree lengths and their build (R161). -/
theorem execTree_sound {s t : State} {lens : List Nat} (hs : s.Sound) (hp : s.phase = .tree)
    (hl : ∀ v ∈ lens, v ≤ 16) (h : execTree lens s = .next t) : t.Sound := by
  have htree := (hs.pre.setAll 0 hl).built s.par.earlyReturn .pre (NatArray.setAll s.preTree.len 0 lens)
  obtain ⟨table, rfl, rfl | ⟨e, rfl⟩⟩ := execTree_cases h
  · exact { hs with pre := htree, frameWants := fun _ => hs.frameWants (by rw [hp]; rfl) }
  · exact { hs.raise e with pre := htree }

theorem execRealign_sound {s t : State} (hs : s.Sound) (hp : s.phase = .realign) (h : execRealign s = .next t) : t.Sound := by
  have hread := (BitReader.alignRaw_follows (sound := True) s.rd).wf trivial hs.reader
  obtain ⟨v, r, he, h⟩ | ⟨e, r, he, rfl⟩ := State.onRead_cases h <;> rw [he] at hread
  · cases h
    exact (hs.withReader hread).goto fun _ => hs.frameWants (by rw [hp]; rfl)
  · exact (hs.withReader hread).raise _

theorem execAlign16_sound {s t : State} (hs : s.Sound) (h : execAlign16 s = .next t) : t.Sound := by
  have hread := (BitReader.alignFrame_follows (sound := True) s.rd).wf trivial hs.reader
  obtain ⟨v, r, he, h⟩ | ⟨e, r, he, rfl⟩ := State.onRead_cases h <;> rw [he] at hread
  · cases h
    exact (hs.withReader hread).goto fun hp => by cases hp
  · exact (hs.withReader hread).raise _

theorem execLenLong_sound {s t : State} {lsym : Nat} (hs : s.Sound) (h : execLenLong lsym s = .next t) : t.Sound := by
  obtain ⟨e, rfl⟩ | rfl := execLenLong_cases h
  · exact hs.raise _
  · exact { hs with frameWants := fun hp => by cases hp }

theorem State.afterFiller_not_headerPlace (s : State) : headerPlace s.afterFiller = false := by
  unfold State.afterFiller
  split <;> rfl

/-- Every element keeps the data sound at its own place: matches and extensions copy, the code-length elements write
lengths up to 16, the headers come while the frame wants bytes. -/
theorem exec_sound {i : Instr} {s t : State} (hs : s.Sound) (hi : placeOf i = s.phase) (hne : placeOf i ≠ .idle)
    (hl : ∀ v ∈ storedLengths i, v ≤ 16) (h : exec i s = .next t) : t.Sound := by
  have hwants : headerPlace (placeOf i) = true → 0 < s.todo := fun hp => hs.frameWants (hi ▸ hp)
  cases hm : matchHeader i with
  | some lh =>
    rw [exec_match i s lh hm] at h
    exact State.matchWith_sound (hs.withCache _) h
  | none =>
    cases hx : extensionValue i with
    | some x =>
      rw [exec_extension i s x hx] at h
      exact State.extendMatch_sound hs h
    | none =>
      cases i <;> simp only [matchHeader, extensionValue, reduceCtorEq] at hm hx <;>
        simp only [placeOf, ne_eq, not_true] at hne
      case filler16 => cases h; exact hs.goto fun hp => by simp [State.afterFiller_not_headerPlace] at hp
      case intelE0 | intelE1 => cases h; exact { hs with frameWants := fun hp => by cases hp }
      case blockVerbatim len => cases h; exact { hs.openBlock (t := 1) (by decide) len with frameWants := fun _ => hwants rfl }
      case blockAligned len => cases h; exact { hs.openBlock (t := 2) (by decide) len with frameWants := fun _ => hwants rfl }
      case blockUncompressed len => cases h; exact { hs.openBlock (t := 3) (by decide) len with frameWants := fun _ => hwants rfl }
      case blockInvalid0 len | blockInvalid4 len | blockInvalid5 len | blockInvalid6 len | blockInvalid7 len =>
        cases h
        exact hs.openBlock_raise _ len _
      case pad => cases h; exact hs.goto fun _ => hwants rfl
      case realign => exact execRealign_sound hs hi.symm h
      case rvals => cases h; exact { hs with frameWants := fun _ => hwants rfl }
      case raw | lit => exact State.produce_sound hs h
      case alignedLens => exact execAlignedLens_sound hs hi.symm hl h
      case tree => exact execTree_sound hs hi.symm hl h
      case delta | same => exact State.writeLens_sound hs hi.symm (lengthDelta_le _ _) h
      case zeros4 | zeros20 => exact State.writeLens_sound hs hi.symm (Nat.zero_le _) h
      case lenShort => cases h; exact { hs with frameWants := fun hp => by cases hp }
      case lenLong => exact execLenLong_sound hs h
      case align16 => exact execAlign16_sound hs h

/-- The fields of an element cut short, stored, and its error (R312). -/
theorem State.Sound.storeFields_raise {s : State} (hs : s.Sound) {fields : List Nat}
    (hl : s.phase = .tree ∨ s.phase = .alignedLens → ∀ v ∈ fields, v ≤ 16) (e : ErrKind) :
    ((s.storeFields fields).raise e).Sound := by
  unfold State.storeFields
  split
  · next hp => exact { hs.raise e with pre := hs.pre.setAll 0 (hl (.inl hp)) }
  · next hp => exact { hs.raise e with aligned := hs.aligned.setAll 0 (hl (.inr hp)) }
  · exact { hs.raise e with blockKind := fun he => by cases he }
  · exact hs.raise e

theorem State.Sound.shortLengths {s : State} (hs : s.Sound) : s.decodeContext.Short :=
  ⟨hs.pre.2.2, hs.main.2.2, hs.length.2.2, hs.aligned.2.2⟩

/-- The reading of an element and what it leads to. -/
theorem fetchElement_sound {s t : State} (hs : s.Sound) (hne : s.phase ≠ .idle)
    (h : (fetchElement s).answer = .next t) : t.Sound := by
  have hread := decodeAt_follows (sound := True) s.phase (!s.coded) s.decodeContext (fun _ => hs.shortLengths) s.rd
  obtain ⟨i, r, hd, hi, he⟩ | ⟨m, r, hd, rfl⟩ | ⟨e, r, fields, hd, rfl⟩ | ⟨-, rfl⟩ := fetchElement_cases h
  · rw [hd] at hread
    exact exec_sound (hs.withReader (hread.wf trivial hs.reader)) hi (hi ▸ hne) (decodeAt_storedLengths hd) he
  · rw [hd] at hread
    exact { hs.withReader (hread.wf trivial hs.reader) with frameWants := fun hp => by cases hp }
  · rw [hd] at hread
    exact (hs.withReader (hread.wf trivial hs.reader)).storeFields_raise (fun hp => decodeAt_raisedLengths hp hd) e
  · exact hs

/-! ### The sequencing steps -/

theorem State.Sound.resetIntervalClear {s : State} (hs : s.Sound) : s.resetIntervalClear.Sound :=
  { hs with
    main := hs.main.upward mainMaxSyms
    length := hs.length.upward lengthMaxSyms
    blockKind := fun _ => (by decide : (0 : BitVec 3).toNat < 4)
    blockBudget := Nat.le_refl _ }

theorem State.Sound.frameStart {s : State} (hs : s.Sound) : s.frameStart.Sound :=
  hs.goto fun hp => by
    split at hp
    · cases hp
    · simp [State.afterFiller_not_headerPlace] at hp

theorem seqFrameLoop_sound {s t : State} (hs : s.Sound) (h : seqFrameLoop s = .next t) : t.Sound := by
  obtain rfl | ⟨e, rfl⟩ | rfl | rfl := seqFrameLoop_cases h
  · exact hs.complete
  · exact hs.raise e
  · exact hs.frameStart
  · exact hs.resetIntervalClear.frameStart

/-- A frame is never larger than `FRAME_SIZE` (R255). -/
theorem State.frameSize_le (s : State) : s.frameSize ≤ frameBytes := by
  unfold State.frameSize
  split <;> omega

theorem seqFrameOpen_sound {s t : State} (hs : s.Sound) (h : seqFrameOpen s = .next t) : t.Sound := by
  cases h
  exact { hs with frameFits := s.frameSize_le, frameWants := fun hp => by cases hp }

theorem seqBlockLoop_sound {s t : State} (hs : s.Sound) (h : seqBlockLoop s = .next t) : t.Sound := by
  obtain ⟨htodo, rfl | rfl | rfl⟩ | ⟨e, rfl⟩ | ⟨-, rfl⟩ := seqBlockLoop_cases h
  · exact hs.goto fun _ => htodo
  · exact hs.goto fun _ => htodo
  · exact hs.goto fun _ => htodo
  · exact hs.raise e
  · exact hs.goto fun hp => by cases hp

/-- The run's share comes off the block's budget: the frame wants bytes, so the share is not negative (R256). -/
theorem seqRunOpen_sound {s t : State} (hs : s.Sound) (hp : s.phase = .runOpen) (h : seqRunOpen s = .next t) : t.Sound := by
  have hwants : 0 < s.todo := hs.frameWants (by rw [hp]; rfl)
  cases h
  refine { hs with blockBudget := Nat.le_trans ?_ hs.blockBudget, frameWants := fun hp => by cases hp }
  simp only
  omega

theorem seqTreeEnd_sound {s t : State} (hs : s.Sound) (hp : s.phase = .items) (h : seqTreeEnd s = .next t) : t.Sound := by
  have hwants : 0 < s.todo := hs.frameWants (by rw [hp]; rfl)
  obtain rfl | h | h := seqTreeEnd_cases h
  · exact { hs with frameWants := fun _ => hwants }
  · obtain ⟨table, rfl, rfl | ⟨e, rfl⟩⟩ := State.buildMain_cases h
    · exact { hs with main := hs.main.built _ _ _, frameWants := fun _ => hwants }
    · exact { hs.raise e with main := hs.main.built _ _ _ }
  · obtain ⟨table, rfl, ⟨empty, rfl⟩ | ⟨e, rfl⟩⟩ := State.buildLength_cases h
    · exact { hs with length := hs.length.built _ _ _, frameWants := fun _ => hwants }
    · exact { hs.raise e with length := hs.length.built _ _ _ }

theorem seqRunEnd_sound {s t : State} (hs : s.Sound) (h : seqRunEnd s = .next t) : t.Sound := by
  obtain ⟨e, rfl⟩ | ⟨left, hleft, rfl⟩ := seqRunEnd_cases h
  · exact hs.raise e
  · exact { hs with blockBudget := Nat.le_trans hleft hs.blockBudget, frameWants := fun hp => by cases hp }

/-- Staging fills the buffer from its start, each byte up to the frame's size with a value (R262, R39). -/
theorem State.stageFrame_sound {s t : State} (hs : s.Sound) (h : s.stageFrame = some t) : t.Sound := by
  obtain ⟨staged, curPos, hlen, rfl⟩ := State.stageFrame_cases h
  have hsize : s.fs.toNat ≤ frameBytes := by have := hs.frameFits; omega
  refine { hs with
    staging := Cells.wf_splice hs.staging 0 staged
    stageRange := fun c hc => ?_
    staged := ⟨Nat.zero_le _, hsize⟩
    stagedBytes := fun i hi => ?_ }
  · obtain ⟨-, hc, -⟩ | hc := Cells.mem_splice hc
    · omega
    · exact hs.stageRange c hc
  · have hin : i < staged.length := by rw [hlen]; exact hi
    rw [Cells.find_splice hs.staging, if_pos ⟨Nat.zero_le i, by omega⟩]
    simp [hin]

/-- A wrapped cursor stays in the window (R261). -/
theorem wrapCursor_le {W p : Nat} (h : p ≤ W) : wrapCursor W p ≤ W := by
  unfold wrapCursor
  split <;> omega

theorem State.Sound.advanceFrame {s : State} (hs : s.Sound) : s.advanceFrame.Sound := { hs with cursor := wrapCursor_le hs.cursor }

/-- A delivery of staged bytes counts what it appends (R28, R293). -/
theorem State.deliver_sound {s t : State} {k : Nat} (hs : s.Sound) (hk : k ≤ s.stageLen - s.stagePtr)
    (h : s.deliver k = some t) : t.Sound := by
  obtain ⟨bytes, rfl, rfl⟩ := State.deliver_cases h
  obtain ⟨hptr, hlen⟩ := hs.staged
  exact { hs with
    staged := ⟨by simp only; omega, hlen⟩
    counted := by simp [hs.counted] }

theorem seqStage_sound {s t : State} (hs : s.Sound) (h : seqStage s = .next t) : t.Sound := by
  obtain ⟨e, rfl⟩ | ⟨s1, s3, hstage, hdeliver, rfl⟩ := seqStage_cases h
  · exact hs.raise e
  · have hptr := State.stageFrame_stagePtr hstage
    have hdelivered := State.deliver_sound (State.stageFrame_sound hs hstage).advanceFrame
      (by simp only [State.advanceFrame, hptr]; omega) hdeliver
    exact { hdelivered with frameWants := fun hp => by cases hp }

/-! ### The commands -/

/-- What INIT's tests leave of the window size, the mode and the dictionary (R290). -/
theorem initRefused_eq_false {par : Params} {wb ri hint len : Int} {delta : Bool} {dict : Option (List Byte)}
    (h : initRefused par wb ri hint len delta dict = false) :
    (15 ≤ wb ∧ wb ≤ 21 ∧ delta = false ∨ 17 ≤ wb ∧ wb ≤ 25 ∧ delta = true)
      ∧ (dict.getD []).length ≤ 2 ^ wb.toNat := by
  simp only [initRefused, Bool.or_eq_false_iff, decide_eq_false_iff_not, Nat.not_lt] at h
  obtain ⟨⟨⟨⟨⟨⟨hplain, hdelta⟩, -⟩, -⟩, -⟩, -⟩, hdict⟩ := h
  refine ⟨?_, hdict⟩
  cases delta with
  | false => exact .inl ⟨by simp at hplain; omega, by simp at hplain; omega, rfl⟩
  | true => exact .inr ⟨by simp at hdelta; omega, by simp at hdelta; omega, rfl⟩

/-- A new decoder holds nothing but its configuration and the dictionary in the window's tail (R291, R340). -/
theorem State.newDecoder_sound (s : State) {wb ri hint len : Int} {delta : Bool} {dict : Option (List Byte)}
    (h : initRefused s.par wb ri hint len delta dict = false) : (s.newDecoder wb ri hint len delta dict).Sound := by
  obtain ⟨hcfg, hdict⟩ := initRefused_eq_false h
  have hempty : ({} : Huff).wf := ⟨NatArray.wf_nil, NatArray.wf_nil, fun c hc => by cases hc⟩
  exact {
    cfgLegal := by
      obtain ⟨hlo, hhi, hdelta⟩ | ⟨hlo, hhi, hdelta⟩ := hcfg
      · exact .inl ⟨by simp only [State.newDecoder]; omega, by simp only [State.newDecoder]; omega, hdelta⟩
      · exact .inr ⟨by simp only [State.newDecoder]; omega, by simp only [State.newDecoder]; omega, hdelta⟩
    dictFits := hdict
    reader := ⟨Nat.zero_le _, by simp [State.newDecoder, State.reset], Nat.zero_le _⟩
    window := Cells.wf_enumerate _ _
    windowRange := fun c hc => by
      obtain ⟨-, hc, -⟩ := Cells.mem_enumerate hc
      rw [Nat.sub_add_cancel hdict] at hc
      exact hc
    cursor := Nat.zero_le _
    staging := List.Pairwise.nil
    stageRange := fun c hc => by cases hc
    staged := ⟨Nat.le_refl 0, Nat.zero_le _⟩
    stagedBytes := fun i hi => absurd hi (Nat.not_lt_zero i)
    frameFits := (by decide : (0 : Int) ≤ frameBytes)
    pre := hempty
    main := hempty
    length := hempty
    aligned := hempty
    blockKind := fun _ => (by decide : (0 : BitVec 3).toNat < 4)
    blockBudget := Nat.le_refl 0
    frameWants := fun hp => by cases hp
    counted := rfl }

theorem State.oneshotDecoder_sound (s : State) {data : List Byte} {dict : Option (List Byte)} {size : Int}
    (h : initRefused s.par s.par.oneshotWindowBits 0 1 size (oneshotDelta s.par dict) dict = false) :
    (s.oneshotDecoder data dict size).Sound :=
  { s.newDecoder_sound h with reader := ⟨Nat.zero_le _, by simp [State.oneshotDecoder], Nat.zero_le _⟩ }

theorem State.decompress_sound {s t : State} {n : Int} (hs : s.Sound) (h : s.decompress n = .next t) : t.Sound := by
  obtain ⟨e, -, rfl⟩ | ⟨-, ⟨e, rfl⟩ | h⟩ := State.decompress_cases h
  · exact hs.answerError e
  · exact hs.raise e
  · obtain ⟨s1, hdeliver, hend⟩ := State.beginDelivery_cases h
    have hs1 := State.deliver_sound hs (Nat.min_le_left _ _) hdeliver
    obtain rfl | ⟨want, endFrame, rfl⟩ := hend
    · exact hs1.complete
    · exact { hs1 with frameWants := fun hp => by cases hp }

theorem exec_command_sound {i : Instr} {s t : State} (hs : s.Sound) (hi : placeOf i = .idle) (h : exec i s = .next t) :
    t.Sound := by
  cases i <;> simp only [placeOf, reduceCtorEq] at hi
  case init wb ri hint len delta dict =>
    obtain rfl | ⟨hok, rfl⟩ := execInit_cases h
    · exact hs.answerError _
    · exact (s.newDecoder_sound hok).complete
  case decompress n => exact State.decompress_sound hs (execDecompress_cases h)
  case oneshot data dict size =>
    obtain rfl | ⟨hok, h⟩ := execOneshot_cases h
    · exact hs.answerError _
    · exact State.decompress_sound (s.oneshotDecoder_sound hok) h

theorem step_idle_sound {s t : State} (hs : s.Sound) (hp : s.phase = .idle) (h : step s = .next t) : t.Sound := by
  obtain e | ⟨source, rest, e⟩ | ⟨i, rest, hi, e⟩ := step_idle_cases hp <;> rw [e] at h
  · cases h; exact hs
  · obtain rfl := seqBind_cases h
    exact { hs with }
  · exact exec_command_sound (s := { s with queue := rest }) { hs with } hi h

/-- Settles O57: a command, an element and each sequencing step keeps the data sound. -/
theorem stepsKeepSound : Obligations.StepsKeepSound := by
  intro s t hs h
  by_cases hp : s.phase = .idle
  · exact step_idle_sound hs hp h
  · obtain h | ⟨-, h⟩ | ⟨-, h⟩ | ⟨-, h⟩ | ⟨hq, h⟩ | ⟨-, h⟩ | ⟨hq, h⟩ | ⟨-, h⟩ := step_cases hp h
    · exact fetchElement_sound hs hp h
    · exact seqFrameLoop_sound hs h
    · exact seqFrameOpen_sound hs h
    · exact seqBlockLoop_sound hs h
    · exact seqRunOpen_sound hs hq h
    · exact seqStage_sound hs h
    · exact seqTreeEnd_sound hs hq h
    · exact seqRunEnd_sound hs h

end Sys2Proof.Machine
end

section
/-! Every step keeps the frame-boundary invariant: the cursor leaves the frame's start only inside the frame, and is back at
the frame cursor when the frame has been staged (R22, R24, R49, R258). -/

namespace Sys2Proof.Machine

/-- The places inside a frame, from its block loop to its last element: nothing is claimed of the cursor there but its range. -/
def insideFrame (p : Phase) : Bool :=
  match p with
  | .idle | .frameLoop | .filler | .intel | .frameOpen | .align16 | .stage => false
  | _ => true

/-- Inside a frame only the cursor's range is claimed. -/
theorem State.framed_of_insideFrame {s : State} (hc : s.windowPos ≤ s.cfg.windowSize) (hp : insideFrame s.phase = true) :
    s.Framed := by
  refine ⟨hc, ?_⟩
  unfold State.AtBoundary
  cases hq : s.phase <;> rw [hq] at hp
  case idle | frameLoop | filler | intel | frameOpen | align16 | stage => cases hp
  all_goals trivial

/-- The invariant's claim at a place, for the state that stands there. -/
theorem State.Framed.boundary_at {s : State} (hf : s.Framed) {p : Phase} (hp : s.phase = p) : (s.goto p).AtBoundary := by
  subst hp
  exact hf.boundary

/-- After an error nothing is claimed but the cursor's range (R312). -/
theorem State.framed_raise {s : State} {e : ErrKind} (hc : s.windowPos ≤ s.cfg.windowSize) : (s.raise e).Framed :=
  ⟨hc, fun he => by cases he⟩

/-- At an element's place nothing is claimed of the reader: the realign has not been read yet (R260). -/
theorem State.Framed.withReader {s : State} (hf : s.Framed) (r : BitReader) (hp : s.phase ≠ .idle) (hq : s.phase ≠ .frameLoop)
    (hr : s.phase ≠ .stage) : (s.withReader r).Framed := by
  refine ⟨hf.cursor, ?_⟩
  have hb := hf.boundary
  unfold State.AtBoundary at hb ⊢
  rw [State.withReader_phase]
  cases h : s.phase <;> rw [h] at hb
  case idle | frameLoop | stage => contradiction
  all_goals exact hb

/-! ### The elements -/

theorem State.copyMatch_framed {s t : State} {off len : Nat} (hc : s.windowPos ≤ s.cfg.windowSize)
    (h : s.copyMatch off len = .next t) : t.Framed := by
  obtain ⟨-, e⟩ | ⟨hlegal, win, -, e | e⟩ := State.copyMatch_cases s off len <;> rw [e] at h <;> cases h
  · exact State.framed_raise hc
  · exact State.framed_of_insideFrame (State.matchRefused_false hlegal).1 rfl
  · exact State.framed_raise hc

theorem State.matchWith_framed {s t : State} {off lh : Nat} (hc : s.windowPos ≤ s.cfg.windowSize)
    (h : s.matchWith off lh = .next t) : t.Framed := by
  obtain e | e := State.matchWith_cases s off lh <;> rw [e] at h
  · cases h
    exact State.framed_of_insideFrame hc rfl
  · exact State.copyMatch_framed (s := { s with mOff := off, mLen := s.matchLength lh }) hc h

theorem State.produce_framed {s t : State} {bytes : List Byte} (h : s.produce bytes = .next t) : t.Framed := by
  unfold State.produce at h
  split at h
  · cases h
  · next hfits =>
    cases h
    exact State.framed_of_insideFrame (Nat.le_of_not_lt hfits) rfl

theorem State.writeLens_framed {s t : State} {y v : Nat} (hc : s.windowPos ≤ s.cfg.windowSize)
    (h : s.writeLens y v = .next t) : t.Framed := by
  obtain ⟨k, rfl | ⟨e, rfl⟩⟩ := State.writeLens_cases h
  · exact State.framed_of_insideFrame (by simpa using hc) rfl
  · exact State.framed_raise (by simpa using hc)

theorem State.framed_goto_afterFiller {s : State} (hc : s.windowPos ≤ s.cfg.windowSize) (hb : s.windowPos = s.framePos) :
    (s.goto s.afterFiller).Framed := by
  refine ⟨hc, ?_⟩
  unfold State.afterFiller
  split <;> exact hb

theorem execRealign_framed {s t : State} (hc : s.windowPos ≤ s.cfg.windowSize) (h : execRealign s = .next t) : t.Framed := by
  obtain ⟨v, r, -, h⟩ | ⟨e, r, -, rfl⟩ := State.onRead_cases h
  · cases h
    exact State.framed_of_insideFrame hc rfl
  · exact State.framed_raise hc

/-- The realign leaves the accumulator empty or with one whole chunk (R128, R260). -/
theorem execAlign16_framed {s t : State} (hf : s.Framed) (hp : s.phase = .align16) (h : execAlign16 s = .next t) : t.Framed := by
  have hb : (s.windowPos : Int) = s.framePos + s.fs := hf.boundary_at hp
  obtain ⟨v, r, hread, h⟩ | ⟨e, r, -, rfl⟩ := State.onRead_cases h
  · cases h
    exact ⟨hf.cursor, hb, BitReader.alignFrame_bitsLeft hread⟩
  · exact State.framed_raise hf.cursor

theorem execAlignedLens_framed {s t : State} {lens : List Nat} (hc : s.windowPos ≤ s.cfg.windowSize)
    (h : execAlignedLens lens s = .next t) : t.Framed := by
  obtain ⟨table, -, rfl | ⟨e, rfl⟩⟩ := execAlignedLens_cases h
  · exact State.framed_of_insideFrame hc rfl
  · exact State.framed_raise hc

theorem execTree_framed {s t : State} {lens : List Nat} (hc : s.windowPos ≤ s.cfg.windowSize)
    (h : execTree lens s = .next t) : t.Framed := by
  obtain ⟨table, -, rfl | ⟨e, rfl⟩⟩ := execTree_cases h
  · exact State.framed_of_insideFrame hc rfl
  · exact State.framed_raise hc

theorem execLenLong_framed {s t : State} {lsym : Nat} (hc : s.windowPos ≤ s.cfg.windowSize)
    (h : execLenLong lsym s = .next t) : t.Framed := by
  obtain ⟨e, rfl⟩ | rfl := execLenLong_cases h
  · exact State.framed_raise hc
  · exact State.framed_of_insideFrame hc rfl

/-- The elements before the frame size and the realign keep what their places claim; every other
element stays inside the frame, or raises. -/
theorem exec_framed {i : Instr} {s t : State} (hf : s.Framed) (hi : placeOf i = s.phase) (hne : placeOf i ≠ .idle)
    (h : exec i s = .next t) : t.Framed := by
  have hc := hf.cursor
  cases hm : matchHeader i with
  | some lh =>
    rw [exec_match i s lh hm] at h
    exact State.matchWith_framed (s := s.withCache (matchCache i s)) hc h
  | none =>
    cases hx : extensionValue i with
    | some x =>
      rw [exec_extension i s x hx] at h
      exact State.copyMatch_framed (s := { s with mLen := s.mLen + x }) hc h
    | none =>
      cases i <;> simp only [matchHeader, extensionValue, reduceCtorEq] at hm hx <;>
        simp only [placeOf, ne_eq, not_true] at hne
      case filler16 => cases h; exact State.framed_goto_afterFiller hc (hf.boundary_at hi.symm)
      case intelE0 | intelE1 => cases h; exact ⟨hc, hf.boundary_at hi.symm⟩
      case align16 => exact execAlign16_framed hf hi.symm h
      case raw | lit => exact State.produce_framed h
      case delta | zeros4 | zeros20 | same => exact State.writeLens_framed hc h
      case realign => exact execRealign_framed hc h
      case alignedLens => exact execAlignedLens_framed hc h
      case tree => exact execTree_framed hc h
      case lenLong => exact execLenLong_framed hc h
      case blockInvalid0 len | blockInvalid4 len | blockInvalid5 len | blockInvalid6 len | blockInvalid7 len =>
        cases h
        exact State.framed_raise hc
      case blockVerbatim | blockAligned | blockUncompressed | pad | rvals | lenShort =>
        cases h
        exact State.framed_of_insideFrame hc rfl

@[simp] theorem State.storeFields_windowPos (s : State) (fields : List Nat) :
    (s.storeFields fields).windowPos = s.windowPos := by
  unfold State.storeFields
  split <;> rfl

@[simp] theorem State.storeFields_cfg (s : State) (fields : List Nat) : (s.storeFields fields).cfg = s.cfg := by
  unfold State.storeFields
  split <;> rfl

theorem placeOf_ne_sequencing (i : Instr) : placeOf i ≠ .frameLoop ∧ placeOf i ≠ .stage := by
  cases i <;> simp [placeOf]

theorem fetchElement_framed {s t : State} (hf : s.Framed) (hne : s.phase ≠ .idle)
    (h : (fetchElement s).answer = .next t) : t.Framed := by
  obtain ⟨i, r, -, hi, he⟩ | ⟨m, r, -, rfl⟩ | ⟨e, r, fields, -, rfl⟩ | ⟨-, rfl⟩ := fetchElement_cases h
  · obtain ⟨hloop, hstage⟩ := placeOf_ne_sequencing i
    rw [hi] at hloop hstage
    exact exec_framed (hf.withReader r hne hloop hstage) hi (hi ▸ hne) he
  · exact State.framed_of_insideFrame hf.cursor rfl
  · exact State.framed_raise (by simpa using hf.cursor)
  · exact hf

/-! ### The sequencing steps -/

theorem State.framed_frameStart {s : State} (hc : s.windowPos ≤ s.cfg.windowSize) (hb : s.windowPos = s.framePos) :
    s.frameStart.Framed := by
  unfold State.frameStart
  split
  · exact ⟨hc, hb⟩
  · exact State.framed_goto_afterFiller hc hb

theorem seqFrameLoop_framed {s t : State} (hf : s.Framed) (hp : s.phase = .frameLoop) (h : seqFrameLoop s = .next t) :
    t.Framed := by
  have hb : s.windowPos = s.framePos ∧ s.windowPos < s.cfg.windowSize ∧ s.chunkAligned := hf.boundary_at hp
  obtain rfl | ⟨e, rfl⟩ | rfl | rfl := seqFrameLoop_cases h
  · exact ⟨hf.cursor, fun _ => hb⟩
  · exact State.framed_raise hf.cursor
  · exact State.framed_frameStart hf.cursor hb.1
  · exact State.framed_frameStart (s := s.resetIntervalClear) hf.cursor hb.1

/-- The block loop ends with the cursor a frame's size after the frame cursor, or raises (R258). -/
theorem seqBlockLoop_framed {s t : State} (hf : s.Framed) (h : seqBlockLoop s = .next t) : t.Framed := by
  obtain ⟨-, rfl | rfl | rfl⟩ | ⟨e, rfl⟩ | ⟨hsize, rfl⟩ := seqBlockLoop_cases h
  · exact State.framed_of_insideFrame hf.cursor rfl
  · exact State.framed_of_insideFrame hf.cursor rfl
  · exact State.framed_of_insideFrame hf.cursor rfl
  · exact State.framed_raise hf.cursor
  · exact ⟨hf.cursor, show (s.windowPos : Int) = s.framePos + s.fs by omega⟩

theorem seqTreeEnd_framed {s t : State} (hf : s.Framed) (h : seqTreeEnd s = .next t) : t.Framed := by
  obtain rfl | h | h := seqTreeEnd_cases h
  · exact State.framed_of_insideFrame hf.cursor rfl
  · obtain ⟨table, -, rfl | ⟨e, rfl⟩⟩ := State.buildMain_cases h
    · exact State.framed_of_insideFrame hf.cursor rfl
    · exact State.framed_raise hf.cursor
  · obtain ⟨table, -, ⟨empty, rfl⟩ | ⟨e, rfl⟩⟩ := State.buildLength_cases h
    · exact State.framed_of_insideFrame hf.cursor rfl
    · exact State.framed_raise hf.cursor

theorem seqRunEnd_framed {s t : State} (hf : s.Framed) (h : seqRunEnd s = .next t) : t.Framed := by
  obtain ⟨e, rfl⟩ | ⟨left, -, rfl⟩ := seqRunEnd_cases h
  · exact State.framed_raise hf.cursor
  · exact State.framed_of_insideFrame hf.cursor rfl

theorem Cfg.windowSize_pos (c : Cfg) : 0 < c.windowSize := Nat.two_pow_pos _

/-- A wrapped cursor stands below `W` (R261). -/
theorem wrapCursor_lt {W p : Nat} (hW : 0 < W) (h : p ≤ W) : wrapCursor W p < W := by
  unfold wrapCursor
  split <;> omega

/-- The frame's end moves the frame cursor to where the window cursor stands, and wraps both (R261). -/
theorem State.advanceFrame_cursors {s : State} (hc : s.windowPos ≤ s.cfg.windowSize)
    (hb : (s.windowPos : Int) = s.framePos + s.fs) :
    s.advanceFrame.windowPos = s.advanceFrame.framePos ∧ s.advanceFrame.windowPos < s.cfg.windowSize := by
  have hend : ((s.framePos : Int) + s.fs).toNat = s.windowPos := by omega
  refine ⟨?_, wrapCursor_lt s.cfg.windowSize_pos hc⟩
  simp only [State.advanceFrame, hend]

theorem seqStage_framed {s t : State} (hf : s.Framed) (hp : s.phase = .stage) (h : seqStage s = .next t) : t.Framed := by
  have hb : (s.windowPos : Int) = s.framePos + s.fs ∧ s.chunkAligned := hf.boundary_at hp
  obtain ⟨e, rfl⟩ | ⟨s1, s3, hstage, hdeliver, rfl⟩ := seqStage_cases h
  · exact State.framed_raise hf.cursor
  · obtain ⟨staged, curPos, -, rfl⟩ := State.stageFrame_cases hstage
    obtain ⟨bytes, -, rfl⟩ := State.deliver_cases hdeliver
    obtain ⟨hcursors, hbelow⟩ := State.advanceFrame_cursors hf.cursor hb.1
    exact ⟨Nat.le_of_lt hbelow, hcursors, hbelow, hb.2⟩

/-! ### The commands -/

/-- A request on a decoder that stands between two frames (R292). -/
theorem State.decompress_framed {s t : State} {n : Int} (hf : s.Framed) (hp : s.phase = .idle)
    (h : s.decompress n = .next t) : t.Framed := by
  have hb : s.err = none → s.windowPos = s.framePos ∧ s.windowPos < s.cfg.windowSize ∧ s.chunkAligned := hf.boundary_at hp
  obtain ⟨e, -, rfl⟩ | ⟨hok, ⟨e, rfl⟩ | h⟩ := State.decompress_cases h
  · exact ⟨hf.cursor, hf.boundary⟩
  · exact State.framed_raise hf.cursor
  · obtain ⟨s1, hdeliver, hend⟩ := State.beginDelivery_cases h
    obtain ⟨bytes, -, rfl⟩ := State.deliver_cases hdeliver
    obtain rfl | ⟨want, endFrame, rfl⟩ := hend
    · exact ⟨hf.cursor, fun _ => hb hok⟩
    · exact ⟨hf.cursor, hb hok⟩

/-- A new decoder stands at the window's start with no bit read (R340). -/
theorem State.newDecoder_framed (s : State) (wb ri hint len : Int) (delta : Bool) (dict : Option (List Byte)) :
    (s.newDecoder wb ri hint len delta dict).Framed :=
  ⟨Nat.zero_le _, fun _ => ⟨rfl, Cfg.windowSize_pos _, .inl rfl⟩⟩

theorem State.oneshotDecoder_framed (s : State) (data : List Byte) (dict : Option (List Byte)) (size : Int) :
    (s.oneshotDecoder data dict size).Framed :=
  ⟨Nat.zero_le _, fun _ => ⟨rfl, Cfg.windowSize_pos _, .inl rfl⟩⟩

theorem exec_command_framed {i : Instr} {s t : State} (hf : s.Framed) (hp : s.phase = .idle) (hi : placeOf i = .idle)
    (h : exec i s = .next t) : t.Framed := by
  cases i <;> simp only [placeOf, reduceCtorEq] at hi
  case init wb ri hint len delta dict =>
    obtain rfl | ⟨-, rfl⟩ := execInit_cases h
    · exact ⟨hf.cursor, hf.boundary⟩
    · have hnew := s.newDecoder_framed wb ri hint len delta dict
      exact ⟨hnew.cursor, hnew.boundary⟩
  case decompress n => exact State.decompress_framed hf hp (execDecompress_cases h)
  case oneshot data dict size =>
    obtain rfl | ⟨-, h⟩ := execOneshot_cases h
    · exact ⟨hf.cursor, hf.boundary⟩
    · exact State.decompress_framed (s.oneshotDecoder_framed data dict size) rfl h

theorem step_idle_framed {s t : State} (hf : s.Framed) (hp : s.phase = .idle) (h : step s = .next t) : t.Framed := by
  obtain e | ⟨source, rest, e⟩ | ⟨i, rest, hi, e⟩ := step_idle_cases hp <;> rw [e] at h
  · cases h; exact hf
  · obtain rfl := seqBind_cases h
    exact ⟨hf.cursor, hf.boundary⟩
  · exact exec_command_framed (s := { s with queue := rest }) ⟨hf.cursor, hf.boundary⟩ hp hi h

/-- Settles O58: the block loop lets a frame end only at its size, and the advance closes the gap to the frame cursor. -/
theorem stepsKeepFramed : Obligations.StepsKeepFramed := by
  intro s t hf h
  by_cases hp : s.phase = .idle
  · exact step_idle_framed hf hp h
  · obtain h | ⟨hq, h⟩ | ⟨-, h⟩ | ⟨-, h⟩ | ⟨-, h⟩ | ⟨hq, h⟩ | ⟨-, h⟩ | ⟨-, h⟩ := step_cases hp h
    · exact fetchElement_framed hf hp h
    · exact seqFrameLoop_framed hf hq h
    · cases h; exact State.framed_of_insideFrame hf.cursor rfl
    · exact seqBlockLoop_framed hf h
    · cases h; exact State.framed_of_insideFrame hf.cursor rfl
    · exact seqStage_framed hf hq h
    · exact seqTreeEnd_framed hf h
    · exact seqRunEnd_framed hf h

end Sys2Proof.Machine
end

section
/-! Inside a command the output is only appended to and counted, the input only consumed (R69, R76, R293, R28). -/

namespace Sys2Proof.Machine

/-- `t` is `s` after some of a command: more output, all of it counted; the same input, its cursor not behind; the E8 flag
not cleared (R69, R293, R28, R76, R38). -/
structure State.Advances (s t : State) : Prop where
  output : ∃ bytes : List Byte, t.out = s.out ++ bytes ∧ t.delivered = s.delivered + bytes.length
  input  : t.rd.input = s.rd.input
  inPos  : s.rd.inPos ≤ t.rd.inPos
  armed  : s.intelStarted = true → t.intelStarted = true

/-- Nothing delivered: what has to be shown is the reader's side and the flag. -/
theorem State.Advances.of_silent {s t : State} (hout : t.out = s.out) (hcount : t.delivered = s.delivered)
    (hr : s.rd.Follows False t.rd) (harmed : s.intelStarted = true → t.intelStarted = true) : s.Advances t :=
  ⟨⟨[], by simp [hout], by simp [hcount]⟩, hr.input, hr.inPos, harmed⟩

theorem State.Advances.refl (s : State) : s.Advances s := .of_silent rfl rfl (.refl _) id

theorem State.Advances.trans {a b c : State} (h1 : a.Advances b) (h2 : b.Advances c) : a.Advances c := by
  obtain ⟨bytes1, ho1, hd1⟩ := h1.output
  obtain ⟨bytes2, ho2, hd2⟩ := h2.output
  refine ⟨⟨bytes1 ++ bytes2, by simp [ho2, ho1], by simp [hd2, hd1, Nat.add_assoc]⟩, h2.input.trans h1.input,
    Nat.le_trans h1.inPos h2.inPos, fun h => h2.armed (h1.armed h)⟩

/-- An element delivers nothing. -/
theorem State.Kept.advances {s t : State} (h : s.Kept t) : s.Advances t :=
  ⟨⟨[], by simp [h.out], by simp [h.delivered]⟩, h.reader.input, h.reader.inPos, h.armed⟩

/-- A reading only consumes input. -/
theorem State.advances_withReader {s : State} {r : BitReader} (h : s.rd.Follows False r) : s.Advances (s.withReader r) :=
  .of_silent rfl rfl h id

theorem State.advances_raise (s : State) (e : ErrKind) : s.Advances (s.raise e) := .of_silent rfl rfl (.refl _) id

theorem State.advances_storeFields (s : State) (fields : List Nat) : s.Advances (s.storeFields fields) := by
  unfold State.storeFields
  split <;> exact .of_silent rfl rfl (.refl _) id

theorem fetchElement_advances {s t : State} (hp : s.phase ≠ .idle) (h : (fetchElement s).answer = .next t) : s.Advances t := by
  have hread := decodeAt_follows (sound := False) s.phase (!s.coded) s.decodeContext (fun hf => hf.elim) s.rd
  obtain ⟨i, r, hd, hi, he⟩ | ⟨m, r, hd, rfl⟩ | ⟨e, r, fields, hd, rfl⟩ | ⟨-, rfl⟩ := fetchElement_cases h
  · rw [hd] at hread
    exact (State.advances_withReader hread).trans (exec_kept i _ t (hi ▸ hp) he).advances
  · rw [hd] at hread
    exact .of_silent rfl rfl hread id
  · rw [hd] at hread
    exact ((State.advances_withReader hread).trans (State.advances_storeFields _ fields)).trans (State.advances_raise _ e)
  · exact .refl _

theorem seqFrameLoop_advances {s t : State} (h : seqFrameLoop s = .next t) : s.Advances t := by
  obtain rfl | ⟨e, rfl⟩ | rfl | rfl := seqFrameLoop_cases h <;> exact .of_silent rfl rfl (.refl _) id

theorem seqBlockLoop_advances {s t : State} (h : seqBlockLoop s = .next t) : s.Advances t := by
  obtain ⟨-, rfl | rfl | rfl⟩ | ⟨e, rfl⟩ | ⟨-, rfl⟩ := seqBlockLoop_cases h <;> exact .of_silent rfl rfl (.refl _) id

/-- The main table's build is the one sequencing step that may arm the filter (R280). -/
theorem seqTreeEnd_advances {s t : State} (h : seqTreeEnd s = .next t) : s.Advances t := by
  obtain rfl | h | h := seqTreeEnd_cases h
  · exact .of_silent rfl rfl (.refl _) id
  · obtain ⟨table, -, rfl | ⟨e, rfl⟩⟩ := State.buildMain_cases h
    · exact .of_silent rfl rfl (.refl _) fun harmed => by simp [State.e8Seen, harmed]
    · exact .of_silent rfl rfl (.refl _) id
  · obtain ⟨table, -, ⟨empty, rfl⟩ | ⟨e, rfl⟩⟩ := State.buildLength_cases h <;> exact .of_silent rfl rfl (.refl _) id

theorem seqRunEnd_advances {s t : State} (h : seqRunEnd s = .next t) : s.Advances t := by
  obtain ⟨e, rfl⟩ | ⟨left, -, rfl⟩ := seqRunEnd_cases h <;> exact .of_silent rfl rfl (.refl _) id

theorem State.deliver_advances {s t : State} {k : Nat} (h : s.deliver k = some t) : s.Advances t := by
  obtain ⟨bytes, rfl, rfl⟩ := State.deliver_cases h
  exact ⟨⟨bytes, rfl, rfl⟩, rfl, Nat.le_refl _, id⟩

/-- Only the frame's end delivers (R293). -/
theorem seqStage_advances {s t : State} (h : seqStage s = .next t) : s.Advances t := by
  obtain ⟨e, rfl⟩ | ⟨s1, s3, hstage, hdeliver, rfl⟩ := seqStage_cases h
  · exact State.advances_raise s e
  · have hframe : s.Advances s1.advanceFrame := by
      obtain ⟨staged, curPos, -, rfl⟩ := State.stageFrame_cases hstage
      exact .of_silent rfl rfl (.refl _) id
    exact (hframe.trans (State.deliver_advances hdeliver)).trans (.of_silent rfl rfl (.refl _) id)

/-- Settles O54: an element delivers nothing and reads forward, and of the sequencing steps only the frame's end delivers. -/
theorem streamsOnlyAdvance : Obligations.StreamsOnlyAdvance := by
  intro s t hp h
  suffices hadv : s.Advances t from ⟨hadv.output, hadv.input, hadv.inPos, hadv.armed⟩
  obtain h | ⟨-, h⟩ | ⟨-, h⟩ | ⟨-, h⟩ | ⟨-, h⟩ | ⟨-, h⟩ | ⟨-, h⟩ | ⟨-, h⟩ := step_cases hp h
  · exact fetchElement_advances hp h
  · exact seqFrameLoop_advances h
  · cases h; exact .of_silent rfl rfl (.refl _) id
  · exact seqBlockLoop_advances h
  · cases h; exact .of_silent rfl rfl (.refl _) id
  · exact seqStage_advances h
  · exact seqTreeEnd_advances h
  · exact seqRunEnd_advances h

end Sys2Proof.Machine
end

section
/-! No sound state stops at a staged byte without a value: each delivery reads bytes that the staging has filled (R39, R293). -/

namespace Sys2Proof.Machine

/-- A copy always goes on or raises. -/
theorem State.copyMatch_ne_fault (s : State) (off len : Nat) (f : Fault) : s.copyMatch off len ≠ .fault f := by
  obtain ⟨-, e⟩ | ⟨-, win, -, e | e⟩ := State.copyMatch_cases s off len <;> rw [e] <;> simp

theorem State.matchWith_ne_fault (s : State) (off lh : Nat) (f : Fault) : s.matchWith off lh ≠ .fault f := by
  obtain e | e := State.matchWith_cases s off lh <;> rw [e]
  · simp
  · exact State.copyMatch_ne_fault _ _ _ f

theorem State.writeLens_ne_fault (s : State) (y v : Nat) (f : Fault) : s.writeLens y v ≠ .fault f := by
  simp only [State.writeLens, raised]
  split <;> simp

/-- A window write can stop only at a window index (R61). -/
theorem State.produce_ne_stageNoValue (s : State) (bytes : List Byte) : s.produce bytes ≠ .fault .stageNoValue := by
  unfold State.produce
  split <;> simp

theorem State.onRead_ne_fault {α : Type} {s : State} {x : ReadResult α} {f : α → State → Answer} {r : Fault}
    (hf : ∀ v s1, f v s1 ≠ .fault r) : s.onRead x f ≠ .fault r := by
  unfold State.onRead raised
  split
  · exact hf _ _
  · simp

/-- No element reads the staging buffer. -/
theorem exec_ne_stageNoValue {i : Instr} (s : State) (hne : placeOf i ≠ .idle) : exec i s ≠ .fault .stageNoValue := by
  cases hm : matchHeader i with
  | some lh =>
    rw [exec_match i s lh hm]
    exact State.matchWith_ne_fault _ _ _ _
  | none =>
    cases hx : extensionValue i with
    | some x =>
      rw [exec_extension i s x hx]
      exact State.copyMatch_ne_fault _ _ _ _
    | none =>
      cases i <;> simp only [matchHeader, extensionValue, reduceCtorEq] at hm hx <;>
        simp only [placeOf, ne_eq, not_true] at hne
      case raw | lit => exact State.produce_ne_stageNoValue _ _
      case delta | zeros4 | zeros20 | same => exact State.writeLens_ne_fault _ _ _ _
      case realign => simp only [exec, execRealign]; exact State.onRead_ne_fault fun _ _ => by simp
      case align16 => simp only [exec, execAlign16]; exact State.onRead_ne_fault fun _ _ => by simp
      case alignedLens => simp only [exec, execAlignedLens, raised]; split <;> simp
      case tree => simp only [exec, execTree, raised]; split <;> simp
      case lenLong => simp only [exec, execLenLong, raised]; split <;> simp
      all_goals exact fun h => by cases h

theorem fetchElement_ne_stageNoValue {s : State} (hp : s.phase ≠ .idle) :
    (fetchElement s).answer ≠ .fault .stageNoValue := by
  unfold fetchElement
  cases hd : decodeAt s.phase (!s.coded) s.decodeContext s.rd with
  | instr i r => exact exec_ne_stageNoValue _ (decodeAt_place hd ▸ hp)
  | header m r => simp
  | raise e r fields => simp [raised]
  | nothing => simp

/-- In a sound state every delivery of staged bytes succeeds. -/
theorem State.Sound.deliver_isSome {s : State} (hs : s.Sound) {k : Nat} (hk : k ≤ s.stageLen - s.stagePtr) :
    ∃ t, s.deliver k = some t :=
  State.deliver_isSome s k hs.staging fun i hi => hs.stagedBytes _ (by omega)

theorem State.decompress_ne_fault {s : State} (hs : s.Sound) (n : Int) (f : Fault) : s.decompress n ≠ .fault f := by
  obtain ⟨s1, hdeliver⟩ := hs.deliver_isSome (Nat.min_le_left (s.stageLen - s.stagePtr) n.toNat)
  have hbegin : s.beginDelivery n.toNat ≠ .fault f := by
    simp only [State.beginDelivery, hdeliver]
    split <;> simp
  unfold State.decompress raised
  split
  · simp
  · split
    · simp
    · split
      · simp
      · exact hbegin

theorem exec_command_ne_fault {i : Instr} {s : State} (hs : s.Sound) (hi : placeOf i = .idle) (f : Fault) :
    exec i s ≠ .fault f := by
  cases i <;> simp only [placeOf, reduceCtorEq] at hi
  case init => simp only [exec, execInit]; split <;> simp
  case decompress n =>
    simp only [exec, execDecompress]
    split
    · exact State.decompress_ne_fault hs n f
    · simp
  case oneshot data dict size =>
    simp only [exec, execOneshot]
    split
    · simp
    · next hok => exact State.decompress_ne_fault (s.oneshotDecoder_sound (by simpa using hok)) size f

theorem seqBind_ne_fault (source : List Byte) (s : State) (f : Fault) : seqBind source s ≠ .fault f := by
  unfold seqBind
  repeat' split
  all_goals simp

theorem step_idle_ne_fault {s : State} (hs : s.Sound) (hp : s.phase = .idle) (f : Fault) : step s ≠ .fault f := by
  obtain e | ⟨source, rest, e⟩ | ⟨i, rest, hi, e⟩ := step_idle_cases hp <;> rw [e]
  · simp
  · exact seqBind_ne_fault source _ f
  · exact exec_command_ne_fault (s := { s with queue := rest }) { hs with } hi f

/-- The frame's end delivers bytes it has just staged. -/
theorem seqStage_ne_fault {s : State} (hs : s.Sound) (f : Fault) : seqStage s ≠ .fault f := by
  unfold seqStage raised
  split
  · simp
  · cases hstage : s.stageFrame with
    | none => simp
    | some s1 =>
      have hptr := State.stageFrame_stagePtr hstage
      obtain ⟨s3, hdeliver⟩ := (State.stageFrame_sound hs hstage).advanceFrame.deliver_isSome (k := min s1.want s1.stageLen)
        (by simp only [State.advanceFrame, hptr]; omega)
      have hdeliver : s1.advanceFrame.deliver (min s1.advanceFrame.want s1.advanceFrame.stageLen) = some s3 := hdeliver
      simp [hdeliver]

theorem seqTreeEnd_ne_fault (s : State) (f : Fault) : seqTreeEnd s ≠ .fault f := by
  simp only [seqTreeEnd, State.buildMain, State.buildLength, raised]
  repeat' split
  all_goals simp

theorem seqFrameLoop_ne_fault (s : State) (f : Fault) : seqFrameLoop s ≠ .fault f := by
  unfold seqFrameLoop raised
  repeat' split
  all_goals simp

theorem seqBlockLoop_ne_fault (s : State) (f : Fault) : seqBlockLoop s ≠ .fault f := by
  unfold seqBlockLoop raised
  repeat' split
  all_goals simp

theorem seqRunEnd_ne_fault (s : State) (f : Fault) : seqRunEnd s ≠ .fault f := by
  unfold seqRunEnd raised
  repeat' split
  all_goals simp

/-- Settles O56: only a request and the frame's end read the staging buffer, and both read staged bytes. -/
theorem stagedBytesHoldValues : Obligations.StagedBytesHoldValues := by
  intro s hs
  by_cases hp : s.phase = .idle
  · exact step_idle_ne_fault hs hp _
  · have helement := fetchElement_ne_stageNoValue hp
    rw [step_eq_answer]
    unfold fetch
    cases hq : s.phase
    case idle => exact absurd hq hp
    case frameLoop => exact seqFrameLoop_ne_fault s _
    case frameOpen | runOpen => exact fun h => by cases h
    case blockLoop => exact seqBlockLoop_ne_fault s _
    case stage => exact seqStage_ne_fault hs _
    case items =>
      by_cases hc : s.lenPos < s.rangeEnd
      · simp only [if_pos hc]; exact helement
      · simp only [if_neg hc]; exact seqTreeEnd_ne_fault s _
    case run =>
      by_cases hc : 0 < s.thisRun
      · simp only [if_pos hc]; exact helement
      · simp only [if_neg hc]; exact seqRunEnd_ne_fault s _
    all_goals exact helement

end Sys2Proof.Machine
end

section
/-! A step between two sequencing steps is the element decoded at the place reached, or the next host command (R49). -/

namespace Sys2Proof.Machine

/-- A place where decoding answers something is the place of an element; `items` and `run` are while their loop goes on (R49). -/
theorem fetch_eq_fetchElement {s : State} (hp : s.phase ≠ .idle) (hitems : s.phase = .items → s.lenPos < s.rangeEnd)
    (hrun : s.phase = .run → 0 < s.thisRun) (hd : decodeAt s.phase (!s.coded) s.decodeContext s.rd ≠ .nothing) :
    fetch s = fetchElement s := by
  unfold fetch
  cases hq : s.phase
  case idle => exact absurd hq hp
  case items => simp only [if_pos (hitems hq)]
  case run => simp only [if_pos (hrun hq)]
  case frameLoop | frameOpen | blockLoop | runOpen | stage => rw [hq] at hd; exact absurd rfl hd
  all_goals rfl

/-- Settles O51: at an element's place the step follows what decoding answers there. -/
theorem stepRunsTheDecodedInstruction : Obligations.StepRunsTheDecodedInstruction := by
  refine fun s => ⟨fun hp hitems hrun => ⟨fun i r hd => ?_, fun m r hd => ?_, fun e r fields hd => ?_⟩,
    fun h i rest hp hq hi => step_command hp hq hi⟩
  all_goals
    rw [step_eq_answer, fetch_eq_fetchElement hp hitems hrun (by simp [hd]), fetchElement, hd]
    rfl

end Sys2Proof.Machine
end

section
/-! LIT and RAW at the window's end, and a match over the window's history: what an accepted match reads has been written
(R61, R62, R214, R215). -/

namespace Sys2Proof.Machine

/-- Settles O26: LIT and RAW are one window write, which checks its last index before it stores. -/
theorem writesOutsideTheWindowFault : Obligations.WritesOutsideTheWindowFault :=
  fun s m bytes => ⟨fun h => State.produce_fault s [m] (Nat.lt_succ_of_le h), fun h => State.produce_fault s bytes h⟩

/-! ### The source of a match -/

/-- A source that does not reach before index 0 stands `off` below its byte (R215). -/
theorem State.sourceIndex_of_le {s : State} {off k : Nat} (h : off ≤ s.windowPos + k)
    (hW : s.windowPos + k - off < s.cfg.windowSize) : s.sourceIndex off k = s.windowPos + k - off := by
  unfold State.sourceIndex
  rw [Int.emod_eq_of_lt (by omega) (by omega)]
  omega

/-- A source that reaches before index 0 stands as far below the window's end (R215). -/
theorem State.sourceIndex_of_lt {s : State} {off k : Nat} (h : s.windowPos + k < off)
    (hW : off - (s.windowPos + k) ≤ s.cfg.windowSize) :
    s.sourceIndex off k = s.cfg.windowSize - (off - (s.windowPos + k)) := by
  unfold State.sourceIndex
  rw [← Int.add_emod_right, Int.emod_eq_of_lt (by omega) (by omega)]
  omega

/-- Behind the window's start an accepted offset finds the dictionary, or the window of an earlier pass, which is full:
more has then been output than stands before the current frame (R62, R214). -/
theorem State.History.behindStart {s : State} (hs : s.History) {off len : Nat} (hl : s.OffsetLegal off len)
    (hoff : s.windowPos < off) {a : Nat} (hlo : s.cfg.windowSize - (off - s.windowPos) ≤ a) (ha : a < s.cfg.windowSize) :
    (Cells.find s.win a).isSome := by
  obtain ⟨-, -, hbehind⟩ := hl
  obtain ⟨hdelivered | hdict, -⟩ := hbehind hoff
  · obtain hfirst | hfull := hs.wrapped
    · have hstart := hs.frameStart
      omega
    · exact hfull a ha
  · exact hs.dictionary a (by omega) ha

/-- An accepted match reads what it has written itself, what stands below the cursor, or what stands behind the window's start. -/
theorem State.History.copyRuns {s : State} (hs : s.History) {off len : Nat} (hl : s.OffsetLegal off len) :
    s.CopyRuns off len := by
  have ⟨hfits, hoff, hbehind⟩ := hl
  refine ⟨hl, fun k hk => ?_⟩
  by_cases hstart : off ≤ s.windowPos + k
  · rw [State.sourceIndex_of_le hstart (by omega)]
    by_cases hself : s.windowPos ≤ s.windowPos + k - off
    · exact .inl ⟨hself, by omega⟩
    · exact .inr (hs.written _ (by omega))
  · have hlt : s.windowPos < off := by omega
    obtain ⟨-, hwindow⟩ := hbehind hlt
    rw [State.sourceIndex_of_lt (by omega) (by omega)]
    exact .inr (hs.behindStart hl hlt (by omega) (by omega))

/-- A match form whose copy can run completes, with its offset and cache in place (R200, R204 to R210, R215). -/
theorem exec_match_copies {i : Instr} {s : State} {lh len : Nat} (hm : matchHeader i = some lh)
    (hlen : len = (if lh = 7 then s.mLen else lh + 2)) (hx : ¬ (len = 257 ∧ s.cfg.isDelta = true))
    (hruns : s.CopyRuns (matchOffset i s) len) :
    ∃ t, exec i s = .next t ∧ (s.offsetRead i (matchOffset i s) len).Copied (matchOffset i s) len t := by
  rw [exec_match i s lh hm, State.matchWith_copies (s.withCache (matchCache i s)) _ lh len hlen hx]
  exact State.copyMatch_runs (s.offsetRead i (matchOffset i s) len) _ len hruns

/-- Settles O33: the history holds a value wherever an accepted offset leads. -/
theorem acceptedMatchesReadOnlyHistory : Obligations.AcceptedMatchesReadOnlyHistory :=
  ⟨fun _s _off _len hs hl => hs.copyRuns hl,
    fun _i _s _lh _len _hwf hm hlen hx hs hl => exec_match_copies hm hlen hx (hs.copyRuns hl)⟩

end Sys2Proof.Machine
end

section
/-! Which steps reach the window and what is recorded of its history (R60, R61, R74, R351). -/

namespace Sys2Proof.Machine

/-- What the history invariant speaks of: the configuration, the window, its two cursors, and the counts of delivered and
staged bytes. -/
def State.windowSide (s : State) : Cfg × Memory × Nat × Nat × Nat × Nat × Nat :=
  (s.cfg, s.win, s.windowPos, s.framePos, s.delivered, s.stageLen, s.stagePtr)

theorem State.windowSide_eq_iff (s t : State) : t.windowSide = s.windowSide ↔
    t.cfg = s.cfg ∧ t.win = s.win ∧ t.windowPos = s.windowPos ∧ t.framePos = s.framePos
      ∧ t.delivered = s.delivered ∧ t.stageLen = s.stageLen ∧ t.stagePtr = s.stagePtr := by
  simp only [State.windowSide, Prod.mk.injEq]

theorem State.win_of_windowSide {s t : State} (h : t.windowSide = s.windowSide) : t.win = s.win :=
  ((State.windowSide_eq_iff s t).1 h).2.1

@[simp] theorem State.withReader_windowSide (s : State) (r : BitReader) : (s.withReader r).windowSide = s.windowSide := rfl

@[simp] theorem State.raise_windowSide (s : State) (e : ErrKind) : (s.raise e).windowSide = s.windowSide := rfl

@[simp] theorem State.storeFields_windowSide (s : State) (fields : List Nat) :
    (s.storeFields fields).windowSide = s.windowSide := by
  unfold State.storeFields
  split <;> rfl

@[simp] theorem State.withLenArray_windowSide (s : State) (a : NatArray) :
    (s.withLenArray a).windowSide = s.windowSide := by
  unfold State.withLenArray
  split <;> rfl

/-! ### The elements -/

theorem State.writeLens_windowSide {s t : State} {y v : Nat} (h : s.writeLens y v = .next t) :
    t.windowSide = s.windowSide := by
  obtain ⟨n, rfl | ⟨e, rfl⟩⟩ := State.writeLens_cases h <;> exact State.withLenArray_windowSide s _

/-- A read that leads to the next place, or to its error (R128, R129). -/
theorem State.onRead_goto_windowSide {α : Type} {s t : State} {x : ReadResult α} {p : Phase}
    (h : s.onRead x (fun _ s1 => .next (s1.goto p)) = .next t) : t.windowSide = s.windowSide := by
  obtain ⟨v, r, -, h⟩ | ⟨e, r, -, rfl⟩ := State.onRead_cases h
  · cases h; rfl
  · rfl

theorem placeOf_eq_offset_iff (i : Instr) : placeOf i = .offset ↔ matchHeader i ≠ none := by
  cases i <;> simp [placeOf, matchHeader]

theorem placeOf_eq_ext_iff (i : Instr) : placeOf i = .ext ↔ extensionValue i ≠ none := by
  cases i <;> simp [placeOf, extensionValue]

/-- An element at any place but a run's, a match's and an extension's stays off the window (R60). -/
theorem exec_windowSide {i : Instr} {s t : State} (hidle : placeOf i ≠ .idle) (hrun : placeOf i ≠ .run)
    (hoff : placeOf i ≠ .offset) (hext : placeOf i ≠ .ext) (h : exec i s = .next t) : t.windowSide = s.windowSide := by
  cases i <;> simp only [placeOf, ne_eq, not_true] at hidle hrun hoff hext
  case delta | zeros4 | zeros20 | same => exact State.writeLens_windowSide h
  case realign | align16 => exact State.onRead_goto_windowSide h
  case alignedLens => obtain ⟨table, -, rfl | ⟨e, rfl⟩⟩ := execAlignedLens_cases h <;> rfl
  case tree => obtain ⟨table, -, rfl | ⟨e, rfl⟩⟩ := execTree_cases h <;> rfl
  case lenLong => obtain ⟨e, rfl⟩ | rfl := execLenLong_cases h <;> rfl
  all_goals cases h; rfl

theorem fetchElement_windowSide {s t : State} (hidle : s.phase ≠ .idle) (hrun : s.phase ≠ .run)
    (hoff : s.phase ≠ .offset) (hext : s.phase ≠ .ext) (h : (fetchElement s).answer = .next t) :
    t.windowSide = s.windowSide := by
  obtain ⟨i, r, -, hi, he⟩ | ⟨m, r, -, rfl⟩ | ⟨e, r, fields, -, rfl⟩ | ⟨-, rfl⟩ := fetchElement_cases h
  · rw [← hi] at hidle hrun hoff hext
    exact exec_windowSide (s := s.withReader r) hidle hrun hoff hext he
  · rfl
  · simp
  · rfl

/-! ### The sequencing steps -/

theorem seqFrameLoop_windowSide {s t : State} (h : seqFrameLoop s = .next t) : t.windowSide = s.windowSide := by
  obtain rfl | ⟨e, rfl⟩ | rfl | rfl := seqFrameLoop_cases h <;> rfl

theorem seqBlockLoop_windowSide {s t : State} (h : seqBlockLoop s = .next t) : t.windowSide = s.windowSide := by
  obtain ⟨-, rfl | rfl | rfl⟩ | ⟨e, rfl⟩ | ⟨-, rfl⟩ := seqBlockLoop_cases h <;> rfl

theorem seqTreeEnd_windowSide {s t : State} (h : seqTreeEnd s = .next t) : t.windowSide = s.windowSide := by
  obtain rfl | h | h := seqTreeEnd_cases h
  · rfl
  · obtain ⟨table, -, rfl | ⟨e, rfl⟩⟩ := State.buildMain_cases h <;> rfl
  · obtain ⟨table, -, ⟨empty, rfl⟩ | ⟨e, rfl⟩⟩ := State.buildLength_cases h <;> rfl

theorem seqRunEnd_windowSide {s t : State} (h : seqRunEnd s = .next t) : t.windowSide = s.windowSide := by
  obtain ⟨e, rfl⟩ | ⟨left, -, rfl⟩ := seqRunEnd_cases h <;> rfl

/-- The frame's end moves the cursors and counts what it delivers, but reads the window only (R74, R261). -/
theorem seqStage_win {s t : State} (h : seqStage s = .next t) : t.win = s.win := by
  obtain ⟨e, rfl⟩ | ⟨s1, s3, hstage, hdeliver, rfl⟩ := seqStage_cases h
  · rfl
  · obtain ⟨staged, curPos, -, rfl⟩ := State.stageFrame_cases hstage
    obtain ⟨bytes, -, rfl⟩ := State.deliver_cases hdeliver
    rfl

/-- Inside a command only an element's reading and the frame's end can reach the window and its history. -/
theorem step_windowSide_cases {s t : State} (hp : s.phase ≠ .idle) (h : step s = .next t) :
    (fetchElement s).answer = .next t ∨ (s.phase = .stage ∧ seqStage s = .next t) ∨ t.windowSide = s.windowSide := by
  obtain h | ⟨-, h⟩ | ⟨-, h⟩ | ⟨-, h⟩ | ⟨-, h⟩ | h | ⟨-, h⟩ | ⟨-, h⟩ := step_cases hp h
  · exact .inl h
  · exact .inr (.inr (seqFrameLoop_windowSide h))
  · cases h; exact .inr (.inr rfl)
  · exact .inr (.inr (seqBlockLoop_windowSide h))
  · cases h; exact .inr (.inr rfl)
  · exact .inr (.inl h)
  · exact .inr (.inr (seqTreeEnd_windowSide h))
  · exact .inr (.inr (seqRunEnd_windowSide h))

/-- Settles O55: outside the places of runs, matches and extensions no element and no sequencing step writes the window. -/
theorem onlyRunsWriteTheWindow : Obligations.OnlyRunsWriteTheWindow := by
  intro s t hidle hrun hoff hext h
  obtain h | ⟨-, h⟩ | h := step_windowSide_cases hidle h
  · exact State.win_of_windowSide (fetchElement_windowSide hidle hrun hoff hext h)
  · exact seqStage_win h
  · exact State.win_of_windowSide h

end Sys2Proof.Machine
end

section
/-! Every step keeps the window's history: writes only add to it at the cursor, and a cursor that wraps leaves a full window
(R61, R62, R215). -/

namespace Sys2Proof.Machine

/-- The invariant speaks of the window's side only. -/
theorem State.History.of_windowSide {s t : State} (hs : s.History) (h : t.windowSide = s.windowSide) : t.History := by
  obtain ⟨hcfg, hwin, hpos, hframe, hdelivered, hlen, hptr⟩ := (State.windowSide_eq_iff s t).1 h
  exact {
    window := hwin ▸ hs.window
    frameStart := by rw [hframe, hpos]; exact hs.frameStart
    dictFits := hcfg ▸ hs.dictFits
    written := by rw [hpos, hwin]; exact hs.written
    dictionary := by rw [hcfg, hwin]; exact hs.dictionary
    wrapped := by rw [hdelivered, hlen, hptr, hframe, hcfg, hwin]; exact hs.wrapped }

/-! ### The window writes -/

/-- A window that loses no value and has one at every index the cursor has passed. -/
theorem State.History.write {s : State} (hs : s.History) {win : Memory} {p : Nat} (hwf : Memory.wf win)
    (hkeeps : ∀ a, (Cells.find s.win a).isSome → (Cells.find win a).isSome) (hp : s.windowPos ≤ p)
    (hfills : ∀ a, s.windowPos ≤ a → a < p → (Cells.find win a).isSome) :
    ({ s with win := win, windowPos := p } : State).History where
  window := hwf
  frameStart := Nat.le_trans hs.frameStart hp
  dictFits := hs.dictFits
  written a ha := (Nat.lt_or_ge a s.windowPos).elim (fun h => hkeeps a (hs.written a h)) (fun h => hfills a h ha)
  dictionary a hlo ha := hkeeps a (hs.dictionary a hlo ha)
  wrapped := hs.wrapped.imp_right fun hfull a ha => hkeeps a (hfull a ha)

theorem State.produce_history {s t : State} {bytes : List Byte} (hs : s.History) (h : s.produce bytes = .next t) :
    t.History := by
  unfold State.produce at h
  split at h
  · cases h
  · cases h
    have hfind := Cells.find_splice hs.window s.windowPos (vs := bytes)
    refine { hs.write (Cells.wf_splice hs.window s.windowPos bytes) (fun a ha => ?_)
      (Nat.le_add_right s.windowPos bytes.length) (fun a hlo ha => ?_) with }
    · rw [hfind]
      split
      · next hin => simp; omega
      · exact ha
    · rw [hfind, if_pos ⟨hlo, ha⟩]
      simp; omega

/-- The copy loop loses no value. -/
theorem copyBytes_keeps (W off k pos : Nat) (win : Memory) {a : Nat} (ha : (Cells.find win a).isSome) :
    (Cells.find (copyBytes W off k pos win).1 a).isSome := by
  induction k generalizing pos win with
  | zero => exact ha
  | succ k ih =>
    unfold copyBytes
    split
    · exact ha
    · refine ih _ _ ?_
      rw [Cells.find_put]
      split
      · rfl
      · exact ha

/-- A copy loop that runs to its end has stored a value at each of its indexes. -/
theorem copyBytes_fills {W off k pos : Nat} {win : Memory} (h : (copyBytes W off k pos win).2 = true) {a : Nat}
    (hlo : pos ≤ a) (ha : a < pos + k) : (Cells.find (copyBytes W off k pos win).1 a).isSome := by
  induction k generalizing pos win with
  | zero => omega
  | succ k ih =>
    unfold copyBytes at h ⊢
    split at h
    · cases h
    · by_cases he : a = pos
      · exact copyBytes_keeps _ _ _ _ _ (by rw [Cells.find_put, if_pos he]; rfl)
      · exact ih h (by omega) (by omega)

/-- A copy adds to the history, whether it runs to its end or stops at a byte without a value (R215, R61). -/
theorem State.copyMatch_history {s t : State} {off len : Nat} (hs : s.History) (h : s.copyMatch off len = .next t) :
    t.History := by
  have hwf := copyBytes_wf s.cfg.windowSize off len s.windowPos s.win hs.window
  have hkeeps := fun a => copyBytes_keeps s.cfg.windowSize off len s.windowPos s.win (a := a)
  simp only [State.copyMatch, raised] at h
  split at h
  · cases h; exact { hs with }
  · split at h
    · next hdone =>
      cases h
      exact { hs.write hwf hkeeps (Nat.le_add_right _ len) (fun _ => copyBytes_fills hdone) with }
    · cases h
      exact { hs.write hwf hkeeps (Nat.le_refl _) (fun a hlo ha => absurd ha (by omega)) with }

theorem State.matchWith_history {s t : State} {off lh : Nat} (hs : s.History) (h : s.matchWith off lh = .next t) :
    t.History := by
  obtain e | e := State.matchWith_cases s off lh <;> rw [e] at h
  · cases h
    exact { hs with }
  · exact State.copyMatch_history (s := { s with mOff := off, mLen := s.matchLength lh }) { hs with } h

/-! ### The elements -/

theorem exec_history {i : Instr} {s t : State} (hs : s.History) (hidle : placeOf i ≠ .idle) (h : exec i s = .next t) :
    t.History := by
  cases hm : matchHeader i with
  | some lh =>
    rw [exec_match i s lh hm] at h
    exact State.matchWith_history (s := s.withCache (matchCache i s)) { hs with } h
  | none =>
    cases hx : extensionValue i with
    | some x =>
      rw [exec_extension i s x hx] at h
      exact State.copyMatch_history (s := { s with mLen := s.mLen + x }) { hs with } h
    | none =>
      by_cases hrun : placeOf i = .run
      · cases i <;> simp only [placeOf, reduceCtorEq] at hrun
        case raw | lit => exact State.produce_history hs h
      · have hoff : placeOf i ≠ .offset := fun hp => (placeOf_eq_offset_iff i).1 hp hm
        have hext : placeOf i ≠ .ext := fun hp => (placeOf_eq_ext_iff i).1 hp hx
        exact hs.of_windowSide (exec_windowSide hidle hrun hoff hext h)

theorem fetchElement_history {s t : State} (hs : s.History) (hidle : s.phase ≠ .idle)
    (h : (fetchElement s).answer = .next t) : t.History := by
  obtain ⟨i, r, -, hi, he⟩ | ⟨m, r, -, rfl⟩ | ⟨e, r, fields, -, rfl⟩ | ⟨-, rfl⟩ := fetchElement_cases h
  · exact exec_history (hs.of_windowSide (State.withReader_windowSide s r)) (hi ▸ hidle) he
  · exact { hs with }
  · exact hs.of_windowSide (by simp)
  · exact hs

/-! ### The frame's end and the commands -/

/-- The frame cursor moves up to the window cursor, and both wrap: to the start only from the window's end, when every index
has been written (R261). -/
theorem State.History.moveOn {s : State} (hs : s.History) {delivered stageLen stagePtr : Nat}
    (hcount : delivered + (stageLen - stagePtr) ≤ s.windowPos ∨ ∀ a, a < s.cfg.windowSize → (Cells.find s.win a).isSome) :
    ({ s with
        framePos := wrapCursor s.cfg.windowSize s.windowPos
        windowPos := wrapCursor s.cfg.windowSize s.windowPos
        delivered := delivered
        stageLen := stageLen
        stagePtr := stagePtr } : State).History := by
  unfold wrapCursor
  split
  · next hend =>
    exact { hs with
      frameStart := Nat.le_refl 0
      written := fun a ha => absurd ha (Nat.not_lt_zero a)
      wrapped := .inr fun a ha => hs.written a (hend ▸ ha) }
  · exact { hs with
      frameStart := Nat.le_refl _
      wrapped := hcount }

/-- A frame's bytes are staged when all that was output before stands before it (R259, R262); staged and delivered bytes then
make up what stands before the next frame, unless the window has wrapped. -/
theorem seqStage_history {s t : State} (hf : s.Framed) (hs : s.History) (hp : s.phase = .stage)
    (h : seqStage s = .next t) : t.History := by
  have hb : (s.windowPos : Int) = s.framePos + s.fs ∧ s.chunkAligned := hf.boundary_at hp
  obtain ⟨hpos, -⟩ := hb
  obtain ⟨e, rfl⟩ | ⟨s1, s3, hstage, hdeliver, rfl⟩ := seqStage_cases h
  · exact { hs with }
  · obtain ⟨staged, curPos, -, rfl⟩ := State.stageFrame_cases hstage
    obtain ⟨bytes, -, rfl⟩ := State.deliver_cases hdeliver
    have hend : ((s.framePos : Int) + s.fs).toNat = s.windowPos := by omega
    have hmove := hs.moveOn (delivered := s.delivered + min s.want s.fs.toNat) (stageLen := s.fs.toNat)
      (stagePtr := 0 + min s.want s.fs.toNat) (hs.wrapped.imp_left fun hcount => by have := hs.frameStart; omega)
    refine hmove.of_windowSide ?_
    simp only [State.windowSide, State.advanceFrame, hend]

/-- Delivery takes from the staged bytes what it adds to the delivered ones (R293). -/
theorem State.deliver_history {s t : State} {k : Nat} (hs : s.History) (hk : k ≤ s.stageLen - s.stagePtr)
    (h : s.deliver k = some t) : t.History := by
  obtain ⟨bytes, -, rfl⟩ := State.deliver_cases h
  exact { hs with wrapped := hs.wrapped.imp_left fun hcount => by simp only; omega }

theorem State.decompress_history {s t : State} {n : Int} (hs : s.History) (h : s.decompress n = .next t) : t.History := by
  obtain ⟨e, -, rfl⟩ | ⟨-, ⟨e, rfl⟩ | h⟩ := State.decompress_cases h
  · exact { hs with }
  · exact { hs with }
  · obtain ⟨s1, hdeliver, hend⟩ := State.beginDelivery_cases h
    have hs1 := State.deliver_history hs (Nat.min_le_left _ _) hdeliver
    obtain rfl | ⟨want, endFrame, rfl⟩ := hend
    · exact { hs1 with }
    · exact { hs1 with }

/-- A new decoder's window is its dictionary, in the tail (R62, R291). -/
theorem State.newDecoder_history (s : State) {wb ri hint len : Int} {delta : Bool} {dict : Option (List Byte)}
    (h : initRefused s.par wb ri hint len delta dict = false) : (s.newDecoder wb ri hint len delta dict).History where
  window := Cells.wf_enumerate _ _
  frameStart := Nat.le_refl 0
  dictFits := (initRefused_eq_false h).2
  written a ha := absurd ha (Nat.not_lt_zero a)
  dictionary a hlo ha := by
    obtain ⟨-, hdict⟩ := initRefused_eq_false h
    simp only [State.newDecoder, Cfg.windowSize, dictionaryWindow] at hlo ha ⊢
    rw [Cells.find_enumerate, if_pos hlo, isSome_getElem?]
    omega
  wrapped := .inl (Nat.le_refl 0)

theorem exec_command_history {i : Instr} {s t : State} (hs : s.History) (hi : placeOf i = .idle) (h : exec i s = .next t) :
    t.History := by
  cases i <;> simp only [placeOf, reduceCtorEq] at hi
  case init wb ri hint len delta dict =>
    obtain rfl | ⟨hok, rfl⟩ := execInit_cases h
    · exact { hs with }
    · exact { s.newDecoder_history hok with }
  case decompress n => exact State.decompress_history hs (execDecompress_cases h)
  case oneshot data dict size =>
    obtain rfl | ⟨hok, h⟩ := execOneshot_cases h
    · exact { hs with }
    · exact State.decompress_history (s := s.oneshotDecoder data dict size) { s.newDecoder_history hok with } h

theorem step_idle_history {s t : State} (hs : s.History) (hp : s.phase = .idle) (h : step s = .next t) : t.History := by
  obtain e | ⟨source, rest, e⟩ | ⟨i, rest, hi, e⟩ := step_idle_cases hp <;> rw [e] at h
  · cases h; exact hs
  · obtain rfl := seqBind_cases h
    exact { hs with }
  · exact exec_command_history (s := { s with queue := rest }) { hs with } hi h

/-- Settles O59: an element writes at the cursor only, and the frame's end moves the frame cursor over written bytes. -/
theorem stepsKeepHistory : Obligations.StepsKeepHistory := by
  intro s t hf hs h
  by_cases hp : s.phase = .idle
  · exact step_idle_history hs hp h
  · obtain h | ⟨hq, h⟩ | h := step_windowSide_cases hp h
    · exact fetchElement_history hs hp h
    · exact seqStage_history hf hs hq h
    · exact hs.of_windowSide h

end Sys2Proof.Machine
end

section
/-! What a read answers when its bits stand next in the stream, and that it raises when they do not all come (R124 to R127). -/

namespace Sys2Proof.Machine

/-- A read answers `v` and leaves a reader that still gives `rest`. -/
def ReadResult.Gives {α : Type} (x : ReadResult α) (v : α) (rest : List Bool) : Prop :=
  ∃ r, x = .ok v r ∧ r.wf ∧ r.pending = rest

theorem BitReader.readBits_gives {r : BitReader} {k v : Nat} {rest : List Bool} (hw : r.wf) (hk : k ≤ 17) (hv : v < 2 ^ k)
    (hp : r.pending = fieldBits k v ++ rest) : (r.readBits k).Gives v rest :=
  BitReader.readBits_ok r k v rest hw hk hv hp

/-- Valid bits that are a field's are what is peeked, and what comes after the field is what a removal leaves (R125, R126). -/
theorem BitReader.peek_of_pending {r : BitReader} {k v : Nat} {rest : List Bool} (hw : r.wf) (hk : k ≤ r.bitsLeft)
    (hv : v < 2 ^ k) (hp : r.pending = fieldBits k v ++ rest) : r.peek k = v ∧ (r.remove k).pending = rest := by
  have hsplit := BitReader.pending_remove r k hw hk
  rw [hp] at hsplit
  obtain ⟨hfield, hrest⟩ := List.append_inj hsplit (by simp)
  have hk32 : k ≤ 32 := Nat.le_trans hk hw.1
  exact ⟨(fieldBits_injective hv (BitReader.peek_lt r k hk32) hfield).symm, hrest.symm⟩

/-- A shorter peek is the upper part of a longer one (R125). -/
theorem BitReader.peek_div (r : BitReader) {j k : Nat} (hj : j ≤ k) (hk : k ≤ 32) :
    r.peek j = r.peek k / 2 ^ (k - j) := by
  rw [BitReader.peek_eq r j (by omega), BitReader.peek_eq r k hk, Nat.div_div_eq_div_mul, ← Nat.pow_add]
  congr 2
  omega

/-! ### Too few bits to come -/

theorem BitReader.pending_length (r : BitReader) : r.pending.length = r.bitsLeft + r.restBytes.length / 2 * 16 := by
  simp [BitReader.pending, chunkBits_length]

/-- A refill needs a chunk: with one byte to come or none it raises (R123, R124). -/
theorem BitReader.refill_raises {r : BitReader} (hw : r.wf) (hb : r.restBytes.length < 2) :
    ∃ r', r.refill = .raise .unexpectedEndOfStream r' := by
  have h1 := BitReader.inByte_eq r hw.2.2
  cases hr : r.restBytes with
  | nil =>
    simp only [hr] at h1
    exact ⟨r, by simp [BitReader.refill, h1, ReadResult.andThen]⟩
  | cons b0 rest =>
    simp only [hr] at h1
    obtain ⟨r1, e1, hr1, hf1, -⟩ := h1
    obtain rfl : rest = [] := List.eq_nil_of_length_eq_zero (by rw [hr, List.length_cons] at hb; omega)
    have h2 := BitReader.inByte_eq r1 hf1
    simp only [hr1] at h2
    exact ⟨r1, by simp [BitReader.refill, e1, h2, ReadResult.andThen]⟩

theorem BitReader.ensureTurns_raises {turns k : Nat} {r : BitReader} (hw : r.wf) (hk : k ≤ 17)
    (ht : k ≤ r.bitsLeft + 16 * turns) (hp : r.pending.length < k) :
    ∃ r', BitReader.ensureTurns turns k r = .raise .unexpectedEndOfStream r' := by
  induction turns generalizing r with
  | zero => rw [BitReader.pending_length] at hp; omega
  | succ turns ih =>
    have hlt : r.bitsLeft < k := by rw [BitReader.pending_length] at hp; omega
    rw [BitReader.ensureTurns, if_pos hlt]
    by_cases hb : 2 ≤ r.restBytes.length
    · obtain ⟨r1, e1, hw1, hbits, hp1, -⟩ := BitReader.refill_ok r hw (by omega) hb
      rw [e1]
      exact ih hw1 (by omega) (by rw [hp1]; exact hp)
    · obtain ⟨r1, e1⟩ := BitReader.refill_raises hw (by omega)
      exact ⟨r1, by rw [e1]; rfl⟩

/-- `ensure(k)` raises when the reader gives fewer than `k` bits (R123, R124). -/
theorem BitReader.ensure_raises {k : Nat} {r : BitReader} (hw : r.wf) (hk : k ≤ 17) (hp : r.pending.length < k) :
    ∃ r', r.ensure k = .raise .unexpectedEndOfStream r' :=
  BitReader.ensureTurns_raises hw hk (by omega) hp

theorem BitReader.readBits_raises {k : Nat} {r : BitReader} (hw : r.wf) (hk : k ≤ 17) (hp : r.pending.length < k) :
    ∃ r', r.readBits k = .raise .unexpectedEndOfStream r' := by
  obtain ⟨r', e⟩ := BitReader.ensure_raises hw hk hp
  exact ⟨r', by rw [BitReader.readBits, if_neg (by omega), e]; rfl⟩

/-- A read of bits that are all there answers some field of them and leaves the rest (R127). -/
theorem BitReader.readBits_some {k : Nat} {r : BitReader} (hw : r.wf) (hk : k ≤ 17) (hp : k ≤ r.pending.length) :
    ∃ v, (r.readBits k).Gives v (r.pending.drop k) := by
  obtain ⟨r1, e1, hw1, hb1, hp1, -⟩ := BitReader.ensure_ok k r hw hk hp
  by_cases h0 : k = 0
  · subst h0
    exact ⟨0, r, rfl, hw, rfl⟩
  · refine ⟨r1.peek k, r1.remove k, ?_, BitReader.remove_wf r1 k hw1 hb1, ?_⟩
    · rw [BitReader.readBits, if_neg h0, e1]; rfl
    · rw [← hp1, BitReader.pending_remove r1 k hw1 hb1, List.drop_left' (by simp)]

end Sys2Proof.Machine

namespace Sys2Proof

open Sys2Proof.Machine

/-! ### Decoding from what a read answers -/

/-- A decoding answers what `made` makes of a reader that still gives `rest`: an element, or a match header. -/
def Decoded.Answers (d : Decoded) (made : BitReader → Decoded) (rest : List Bool) : Prop :=
  ∃ r, d = made r ∧ r.wf ∧ r.pending = rest

theorem Decoded.answers_self {made : BitReader → Decoded} {r : BitReader} {rest : List Bool} (hw : r.wf)
    (hp : r.pending = rest) : (made r).Answers made rest := ⟨r, rfl, hw, hp⟩

theorem withRead_answers {α : Type} {x : ReadResult α} {v : α} {mid rest : List Bool} {fields : List Nat}
    {f : α → BitReader → Decoded} {made : BitReader → Decoded} (hx : x.Gives v mid)
    (hf : ∀ r, r.wf → r.pending = mid → (f v r).Answers made rest) : (withRead x fields f).Answers made rest := by
  obtain ⟨r, rfl, hw, hp⟩ := hx
  exact hf r hw hp

/-- A field, then the rest of the element (R127). -/
theorem withRead_readBits_answers {r : BitReader} {k v : Nat} {mid rest : List Bool} {fields : List Nat}
    {f : Nat → BitReader → Decoded} {made : BitReader → Decoded} (hw : r.wf) (hk : k ≤ 17) (hv : v < 2 ^ k)
    (hp : r.pending = fieldBits k v ++ mid) (hf : ∀ r1, r1.wf → r1.pending = mid → (f v r1).Answers made rest) :
    (withRead (r.readBits k) fields f).Answers made rest :=
  withRead_answers (BitReader.readBits_gives hw hk hv hp) hf

/-- An element whose last part is one field. -/
theorem withRead_lastField_answers {r : BitReader} {k v : Nat} {rest : List Bool} {fields : List Nat}
    {f : Nat → BitReader → Decoded} {made : BitReader → Decoded} (hw : r.wf) (hk : k ≤ 17) (hv : v < 2 ^ k)
    (hp : r.pending = fieldBits k v ++ rest) (hf : f v = made) : (withRead (r.readBits k) fields f).Answers made rest :=
  withRead_readBits_answers hw hk hv hp fun _ hw1 hp1 => hf ▸ Decoded.answers_self hw1 hp1

end Sys2Proof
end

section
/-! The elements made of fields of fixed widths decode from their encoding (R82 to R84, R86, R88, R98). -/

namespace Sys2Proof

open Sys2Proof.Machine

/-- A list of fields of one width is read as its values, in order (R86, R88). -/
theorem decodeFields_answers {k : Nat} (hk : k ≤ 17) (vs done : List Nat) {r : BitReader} {mid rest : List Bool}
    {f : List Nat → BitReader → Decoded} {made : BitReader → Decoded} (hvs : ∀ v ∈ vs, v < 2 ^ k) (hw : r.wf)
    (hp : r.pending = vs.flatMap (fieldBits k) ++ mid)
    (hf : ∀ r1, r1.wf → r1.pending = mid → (f (done ++ vs) r1).Answers made rest) :
    (decodeFields k vs.length done r f).Answers made rest := by
  induction vs generalizing done r with
  | nil => rw [List.append_nil] at hf; exact hf r hw hp
  | cons v vs ih =>
    rw [List.flatMap_cons, List.append_assoc] at hp
    obtain ⟨r1, e1, hw1, hp1⟩ := BitReader.readBits_gives hw hk (hvs v (List.mem_cons_self ..)) hp
    rw [List.length_cons, decodeFields, e1]
    exact ih (done ++ [v]) (fun w hm => hvs w (List.mem_cons_of_mem v hm)) hw1 hp1 (by simpa using hf)

/-- An element that is `n` fields of one width. -/
theorem decodeFields_answers_instr {k n : Nat} (hk : k ≤ 17) {lens : List Nat} (g : List Nat → Instr) {r : BitReader}
    {rest : List Bool} (hlen : lens.length = n) (hlt : ∀ v ∈ lens, v < 2 ^ k) (hw : r.wf)
    (hp : r.pending = lens.flatMap (fieldBits k) ++ rest) :
    (decodeFields k n [] r fun vs r1 => .instr (g vs) r1).Answers (.instr (g lens)) rest := by
  subst hlen
  exact decodeFields_answers hk lens [] hlt hw hp fun _ hw1 hp1 => Decoded.answers_self hw1 hp1

/-- FILLER16 is one 16-bit field (R82, R253). -/
theorem decodeFiller_eq (r : BitReader) :
    decodeFiller r = withRead (r.readBits 16) [] fun v r1 => .instr (.filler16 (BitVec.ofNat 16 v)) r1 := by
  unfold decodeFiller BitReader.readBits
  cases r.ensure 16 <;> rfl

theorem decodeFiller_answers (f : BitVec 16) {r : BitReader} {rest : List Bool} (hw : r.wf)
    (hp : r.pending = fieldBits 16 f.toNat ++ rest) : (decodeFiller r).Answers (.instr (.filler16 f)) rest := by
  rw [decodeFiller_eq]
  exact withRead_lastField_answers hw (by omega) f.isLt hp (by rw [BitVec.ofNat_toNat, BitVec.setWidth_eq])

theorem decodeIntel_answers_e0 {r : BitReader} {rest : List Bool} (hw : r.wf) (hp : r.pending = fieldBits 1 0 ++ rest) :
    (decodeIntel r).Answers (.instr .intelE0) rest :=
  withRead_lastField_answers hw (by omega) (by omega) hp rfl

theorem decodeIntel_answers_e1 (hi lo : BitVec 16) {r : BitReader} {rest : List Bool} (hw : r.wf)
    (hp : r.pending = fieldBits 1 1 ++ (fieldBits 16 hi.toNat ++ (fieldBits 16 lo.toNat ++ rest))) :
    (decodeIntel r).Answers (.instr (.intelE1 hi lo)) rest :=
  withRead_readBits_answers hw (by omega) (by omega) hp fun _ hw1 hp1 =>
    withRead_readBits_answers hw1 (by omega) hi.isLt hp1 fun _ hw2 hp2 =>
      withRead_lastField_answers hw2 (by omega) lo.isLt hp2 (by simp)

/-- The 24-bit block length from its 16 high and 8 low bits (R84, R182). -/
theorem blockLength_eq (len : BitVec 24) :
    BitVec.ofNat 16 (len.toNat / 2 ^ 8) ++ BitVec.ofNat 8 (len.toNat % 2 ^ 8) = len := by
  have hlen := len.isLt
  apply BitVec.eq_of_toNat_eq
  rw [BitVec.toNat_append, BitVec.toNat_ofNat, BitVec.toNat_ofNat, Nat.mod_mod, Nat.mod_eq_of_lt (a := len.toNat / 2 ^ 8)
    (by omega), ← Nat.shiftLeft_add_eq_or_of_lt (by omega), Nat.shiftLeft_eq]
  omega

/-- A block header decodes from `ttt h16 l8`, whatever its type (R84). -/
theorem decodeBlock_answers {t : Nat} (ht : t < 8) (len : BitVec 24) {r : BitReader} {rest : List Bool} (hw : r.wf)
    (hp : r.pending = blockBits t len ++ rest) : (decodeBlock r).Answers (.instr (blockInstr t len)) rest := by
  have hlen := len.isLt
  rw [blockBits, fieldBits_append 16 8, ← fieldBits_mod 8, List.append_assoc, List.append_assoc] at hp
  exact withRead_readBits_answers hw (by omega) ht hp fun _ hw1 hp1 =>
    withRead_readBits_answers hw1 (by omega) (by omega) hp1 fun _ hw2 hp2 =>
      withRead_lastField_answers hw2 (by omega) (by omega) hp2 (by rw [blockLength_eq])

/-! ### The extension and its leading code -/

/-- `ensure` keeps the stream: what follows it decodes from the same bits (R124). -/
theorem withRead_ensure_answers {r : BitReader} {k : Nat} {rest : List Bool} {fields : List Nat}
    {f : Unit → BitReader → Decoded} {made : BitReader → Decoded} (hw : r.wf) (hk : k ≤ 17) (hp : k ≤ r.pending.length)
    (hf : ∀ r1, r1.wf → k ≤ r1.bitsLeft → r1.pending = r.pending → (f () r1).Answers made rest) :
    (withRead (r.ensure k) fields f).Answers made rest := by
  obtain ⟨r1, e, hw1, hb1, hp1, -⟩ := BitReader.ensure_ok k r hw hk hp
  rw [e]
  exact hf r1 hw1 hb1 hp1

/-- The `n` valid bits of a leading code `p` are removed, then the field behind them is read (R126, R211). -/
theorem withRead_remove_answers {r : BitReader} {n p k v : Nat} {rest : List Bool} {fields : List Nat}
    {f : Nat → BitReader → Decoded} {made : BitReader → Decoded} (hw : r.wf) (hn : n ≤ r.bitsLeft) (hcode : p < 2 ^ n)
    (hk : k ≤ 17) (hv : v < 2 ^ k) (hp : r.pending = fieldBits n p ++ (fieldBits k v ++ rest)) (hf : f v = made) :
    (withRead ((r.remove n).readBits k) fields f).Answers made rest :=
  withRead_lastField_answers (BitReader.remove_wf r n hw hn) hk hv (BitReader.peek_of_pending hw hn hcode hp).2 hf

theorem decodeExt_answers_ext0 (x : BitVec 8) {r : BitReader} {rest : List Bool} (hw : r.wf)
    (hp : r.pending = fieldBits 1 0 ++ (fieldBits 8 x.toNat ++ rest)) :
    (decodeExt r).Answers (.instr (.ext0 x)) rest := by
  refine withRead_ensure_answers hw (by omega) (by simp [hp]; omega) fun r1 hw1 hb1 hp1 => ?_
  rw [hp] at hp1
  have hpeek : r1.peek 1 = 0 := (BitReader.peek_of_pending hw1 (by omega) (by omega) hp1).1
  rw [if_pos hpeek]
  exact withRead_remove_answers hw1 (by omega) (by omega) (by omega) x.isLt hp1 (by simp)

theorem decodeExt_answers_ext10 (x : BitVec 10) {r : BitReader} {rest : List Bool} (hw : r.wf)
    (hp : r.pending = fieldBits 2 2 ++ (fieldBits 10 x.toNat ++ rest)) :
    (decodeExt r).Answers (.instr (.ext10 x)) rest := by
  refine withRead_ensure_answers hw (by omega) (by simp [hp]; omega) fun r1 hw1 hb1 hp1 => ?_
  rw [hp] at hp1
  have hpeek : r1.peek 2 = 2 := (BitReader.peek_of_pending hw1 (by omega) (by omega) hp1).1
  have hfirst : ¬ r1.peek 1 = 0 := by rw [r1.peek_div (show 1 ≤ 2 by omega) (by omega), hpeek]; decide
  rw [if_neg hfirst, if_pos hpeek]
  exact withRead_remove_answers hw1 (by omega) (by omega) (by omega) x.isLt hp1 (by simp)

/-- Behind `11` the third bit of the leading code tells the two longest fields apart (R98). -/
theorem decodeExt_answers_long {p k v : Nat} {g : Nat → Instr} {r : BitReader} {rest : List Bool} (hcode : p = 6 ∨ p = 7)
    (hk : k ≤ 15) (hv : v < 2 ^ k) (hw : r.wf) (hp : r.pending = fieldBits 3 p ++ (fieldBits k v ++ rest))
    (hsel : ∀ r1 : BitReader, r1.peek 3 = p →
      (if r1.peek 3 = 6 then
        withRead ((r1.remove 3).readBits 12) [] fun x r2 => .instr (.ext110 (BitVec.ofNat 12 x)) r2
      else withRead ((r1.remove 3).readBits 15) [] fun x r2 => .instr (.ext111 (BitVec.ofNat 15 x)) r2)
        = withRead ((r1.remove 3).readBits k) [] fun x r2 => .instr (g x) r2) :
    (decodeExt r).Answers (.instr (g v)) rest := by
  refine withRead_ensure_answers hw (by omega) (by simp [hp]) fun r1 hw1 hb1 hp1 => ?_
  rw [hp] at hp1
  have hpeek : r1.peek 3 = p := (BitReader.peek_of_pending hw1 hb1 (by omega) hp1).1
  have hfirst : ¬ r1.peek 1 = 0 := by rw [r1.peek_div (show 1 ≤ 3 by omega) (by omega), hpeek]; omega
  have hsecond : ¬ r1.peek 2 = 2 := by rw [r1.peek_div (show 2 ≤ 3 by omega) (by omega), hpeek]; omega
  rw [if_neg hfirst, if_neg hsecond, hsel r1 hpeek]
  exact withRead_remove_answers hw1 hb1 (by omega) (by omega) hv hp1 rfl

theorem decodeExt_answers_ext110 (x : BitVec 12) {r : BitReader} {rest : List Bool} (hw : r.wf)
    (hp : r.pending = fieldBits 3 6 ++ (fieldBits 12 x.toNat ++ rest)) :
    (decodeExt r).Answers (.instr (.ext110 x)) rest := by
  have h := decodeExt_answers_long (g := fun x => .ext110 (BitVec.ofNat 12 x)) (.inl rfl) (by omega) x.isLt hw hp
    fun r1 h => if_pos h
  simpa using h

theorem decodeExt_answers_ext111 (x : BitVec 15) {r : BitReader} {rest : List Bool} (hw : r.wf)
    (hp : r.pending = fieldBits 3 7 ++ (fieldBits 15 x.toNat ++ rest)) :
    (decodeExt r).Answers (.instr (.ext111 x)) rest := by
  have h := decodeExt_answers_long (g := fun x => .ext111 (BitVec.ofNat 15 x)) (.inr rfl) (by omega) x.isLt hw hp
    fun r1 h => if_neg (by omega)
  simpa using h

/-- Settles O2: each element's fields are read one after the other, each from the next bits of the stream. -/
theorem fixedFieldsRoundTrip : Obligations.FixedFieldsRoundTrip := by
  intro i u c r b rest hfix hwf hw he hp
  cases i
  case filler16 f => cases he; exact decodeFiller_answers f hw hp
  case intelE0 => cases he; exact decodeIntel_answers_e0 hw hp
  case intelE1 hi lo => cases he; exact decodeIntel_answers_e1 hi lo hw (by rw [hp, List.cons_append, List.append_assoc]; rfl)
  case blockInvalid0 len => cases he; exact decodeBlock_answers (t := 0) (by omega) len hw hp
  case blockVerbatim len => cases he; exact decodeBlock_answers (t := 1) (by omega) len hw hp
  case blockAligned len => cases he; exact decodeBlock_answers (t := 2) (by omega) len hw hp
  case blockUncompressed len => cases he; exact decodeBlock_answers (t := 3) (by omega) len hw hp
  case blockInvalid4 len => cases he; exact decodeBlock_answers (t := 4) (by omega) len hw hp
  case blockInvalid5 len => cases he; exact decodeBlock_answers (t := 5) (by omega) len hw hp
  case blockInvalid6 len => cases he; exact decodeBlock_answers (t := 6) (by omega) len hw hp
  case blockInvalid7 len => cases he; exact decodeBlock_answers (t := 7) (by omega) len hw hp
  case alignedLens lens =>
    cases he
    obtain ⟨hlen, hlt⟩ : lens.length = 8 ∧ ∀ v ∈ lens, v < 8 := by simpa [WellFormed, wellFormed] using hwf
    exact decodeFields_answers_instr (by omega) .alignedLens hlen hlt hw hp
  case tree lens =>
    cases he
    obtain ⟨hlen, hlt⟩ : lens.length = 20 ∧ ∀ v ∈ lens, v < 16 := by simpa [WellFormed, wellFormed] using hwf
    exact decodeFields_answers_instr (by omega) .tree hlen hlt hw hp
  case ext0 x => cases he; exact decodeExt_answers_ext0 x hw hp
  case ext10 x => cases he; exact decodeExt_answers_ext10 x hw hp
  case ext110 x => cases he; exact decodeExt_answers_ext110 x hw hp
  case ext111 x => cases he; exact decodeExt_answers_ext111 x hw hp
  all_goals cases hfix

end Sys2Proof
end

section
/-! A complete table reads back the canonical codeword of each of its symbols, after a refill to 16 bits (R89, R130, R144, R146). -/

namespace Sys2Proof.Machine

/-- In a code that does not exceed the code space every share ends inside it. -/
theorem shareOk_of_codeSpace_le {t : Tree} {len : NatArray} (hk : codeSpace t len 16 ≤ 2 ^ 16) {x : Nat × Nat × Nat}
    (hx : x ∈ codeStarts (codeOrder t len) 0) : ShareOk t (fun _ _ => True) False x := by
  have hend := (codeStarts_bounds hx).2
  rw [codeOrder_eq, codeEnd_codeSpace] at hend
  exact ⟨fun h => absurd h (by omega), fun _ _ => trivial⟩

/-- A table that decodes finds each symbol from every accumulator whose top 16 bits lie in the symbol's share (R144, R146). -/
theorem Huff.Decodes.lookup {t : Tree} {h : Huff} {sym : Nat} (hd : Huff.Decodes t h sym) {x : Nat × Nat × Nat}
    (hx : x ∈ codeStarts (codeOrder t h.len) 0) {r : BitReader} (hlo : x.2.2 ≤ r.peek 16)
    (hhi : r.peek 16 < x.2.2 + 2 ^ (16 - x.2.1)) : lookupSym t h.table r = some x.1 := by
  obtain ⟨⟨-, -, hshort⟩, ⟨early, before, hbefore, hbuild⟩, hfull, -⟩ := hd
  have hcases := build_cases (early := early) hbefore hshort fun x => shareOk_of_codeSpace_le (Nat.le_of_eq hfull) (x := x)
  rw [BitReader.peek_eq r 16 (by omega)] at hlo hhi
  simp only [hbuild] at hcases
  obtain ⟨-, hfinds⟩ | ⟨-, -, hover⟩ := hcases
  · exact hfinds x hx r hlo hhi
  · omega

/-- A symbol that a table decodes has a codeword: the first bits of where its share begins, a multiple of the share's size. -/
theorem Huff.Decodes.codeBits_eq {t : Tree} {h : Huff} {sym : Nat} (hd : Huff.Decodes t h sym) (hs : sym < maxSyms t) :
    ∃ first, (sym, NatArray.get h.len sym, first * 2 ^ (16 - NatArray.get h.len sym)) ∈ codeStarts (codeOrder t h.len) 0
      ∧ first < 2 ^ NatArray.get h.len sym ∧ codeBits t h sym = fieldBits (NatArray.get h.len sym) first := by
  obtain ⟨⟨hlen, -, hshort⟩, -, hfull, hcoded⟩ := hd
  have h16 : NatArray.get h.len sym ≤ 16 := NatArray.get_le hshort sym
  obtain ⟨start, hstart, hword⟩ := codeword_codeStarts hlen hs hcoded h16
  have hinside := (codeStarts_bounds hstart).2
  rw [codeOrder_eq, codeEnd_codeSpace, hfull] at hinside
  refine ⟨start / 2 ^ (16 - NatArray.get h.len sym), ?_, ?_, by rw [codeBits, hword]; rfl⟩
  · rwa [Nat.div_mul_cancel (codeStarts_aligned hstart)]
  · rw [Nat.div_lt_iff_lt_mul (Nat.two_pow_pos _), ← Nat.pow_add, Nat.add_sub_cancel' h16]
    have := Nat.two_pow_pos (16 - NatArray.get h.len sym)
    simp only at hinside
    omega

/-- A codeword has as many bits as the symbol's length says (R89). -/
theorem Huff.Decodes.codeBits_length {t : Tree} {h : Huff} {sym : Nat} (hd : Huff.Decodes t h sym) (hs : sym < maxSyms t) :
    (codeBits t h sym).length = NatArray.get h.len sym := by
  obtain ⟨first, -, -, hword⟩ := hd.codeBits_eq hs
  rw [hword, fieldBits_length]

/-- `readSym` answers the symbol whose codeword stands next, and takes exactly its bits (R146). -/
theorem readSym_gives {t : Tree} {h : Huff} {sym : Nat} {r : BitReader} {rest : List Bool} (hd : Huff.Decodes t h sym)
    (hs : sym < maxSyms t) (hw : r.wf) (h16 : 16 ≤ r.pending.length) (hp : r.pending = codeBits t h sym ++ rest) :
    (readSym t h r).Gives sym rest := by
  obtain ⟨first, hshare, hfirst, hword⟩ := hd.codeBits_eq hs
  obtain ⟨⟨-, -, hshort⟩, -⟩ := id hd
  have hle : NatArray.get h.len sym ≤ 16 := NatArray.get_le hshort sym
  obtain ⟨r1, e1, hw1, hb1, hp1, -⟩ := BitReader.ensure_ok 16 r hw (by omega) h16
  rw [hp, hword] at hp1
  obtain ⟨hpeek, hrest⟩ := BitReader.peek_of_pending hw1 (Nat.le_trans hle hb1) hfirst hp1
  rw [r1.peek_div hle (by omega)] at hpeek
  have hsize := Nat.two_pow_pos (16 - NatArray.get h.len sym)
  have hlookup := hd.lookup hshare (r := r1)
    (by rw [← hpeek]; exact Nat.div_mul_le_self _ _) (by rw [← hpeek]; exact Nat.lt_div_mul_add hsize)
  refine ⟨r1.remove (NatArray.get h.len sym), ?_, BitReader.remove_wf r1 _ hw1 (Nat.le_trans hle hb1), hrest⟩
  rw [readSym, e1]
  simp only [ReadResult.andThen, hlookup]

/-- A decode refills to 16 bits first, so that fewer to come raise, whatever the table (R130, R146). -/
theorem readSym_raises (t : Tree) (h : Huff) {r : BitReader} (hw : r.wf) (hp : r.pending.length < 16) :
    ∃ r', readSym t h r = .raise .unexpectedEndOfStream r' := by
  obtain ⟨r', e⟩ := BitReader.ensure_raises hw (by omega) hp
  exact ⟨r', by rw [readSym, e]; rfl⟩

/-- Settles O5: the top 16 bits of a refilled accumulator that begins with a codeword lie in the symbol's share. -/
theorem codewordsDecode : Obligations.CodewordsDecode :=
  ⟨fun _ _ _ _ _ hd hs hw h16 hp => ⟨hd.codeBits_length hs, readSym_gives hd hs hw h16 hp⟩,
    fun t h _ hw hp => readSym_raises t h hw hp⟩

end Sys2Proof.Machine
end

section
/-! Every element with a Huffman codeword decodes from its encoding, and raises short of a refill (R88, R90, R93, R99,
R100, R130). -/

namespace Sys2Proof

open Sys2Proof.Machine

/-- A codeword, then the rest of the element (R146). -/
theorem withRead_readSym_answers {t : Tree} {h : Huff} {sym : Nat} {r : BitReader} {mid rest : List Bool} {fields : List Nat}
    {f : Nat → BitReader → Decoded} {made : BitReader → Decoded} (hd : Huff.Decodes t h sym) (hs : sym < maxSyms t)
    (hw : r.wf) (h16 : 16 ≤ r.pending.length) (hp : r.pending = codeBits t h sym ++ mid)
    (hf : ∀ r1, r1.wf → r1.pending = mid → (f sym r1).Answers made rest) :
    (withRead (readSym t h r) fields f).Answers made rest :=
  withRead_answers (readSym_gives hd hs hw h16 hp) hf

/-- An element whose last part is a codeword. -/
theorem withRead_lastSym_answers {t : Tree} {h : Huff} {sym : Nat} {r : BitReader} {rest : List Bool} {fields : List Nat}
    {f : Nat → BitReader → Decoded} {made : BitReader → Decoded} (hd : Huff.Decodes t h sym) (hs : sym < maxSyms t)
    (hw : r.wf) (h16 : 16 ≤ r.pending.length) (hp : r.pending = codeBits t h sym ++ rest) (hf : f sym = made) :
    (withRead (readSym t h r) fields f).Answers made rest :=
  withRead_readSym_answers hd hs hw h16 hp fun _ hw1 hp1 => hf ▸ Decoded.answers_self hw1 hp1

/-- A place whose element begins with a codeword raises when a refill's 16 bits do not come (R130, R146). -/
theorem withRead_readSym_raises (t : Tree) (h : Huff) {r : BitReader} {fields : List Nat} {f : Nat → BitReader → Decoded}
    (hw : r.wf) (hp : r.pending.length < 16) :
    ∃ r', withRead (readSym t h r) fields f = .raise .unexpectedEndOfStream r' fields := by
  obtain ⟨r', e⟩ := readSym_raises t h hw hp
  exact ⟨r', by rw [e]; rfl⟩

/-! ### The pretree items (R88) -/

theorem decodeItem_answers_delta {pre : Huff} {z : Nat} {r : BitReader} {rest : List Bool} (hd : Huff.Decodes .pre pre z)
    (hz : z ≤ 16) (hw : r.wf) (h16 : 16 ≤ r.pending.length) (hp : r.pending = codeBits .pre pre z ++ rest) :
    (decodeItem pre r).Answers (.instr (.delta z)) rest := by
  refine withRead_readSym_answers hd (show z < 20 by omega) hw h16 hp fun r1 hw1 hp1 => ?_
  split
  · omega
  · omega
  · omega
  · exact Decoded.answers_self hw1 hp1

theorem decodeItem_answers_zeros4 {pre : Huff} {f : Nat} {r : BitReader} {rest : List Bool} (hd : Huff.Decodes .pre pre 17)
    (hf : f < 16) (hw : r.wf) (h16 : 16 ≤ r.pending.length)
    (hp : r.pending = codeBits .pre pre 17 ++ (fieldBits 4 f ++ rest)) :
    (decodeItem pre r).Answers (.instr (.zeros4 f)) rest :=
  withRead_readSym_answers hd (by decide) hw h16 hp fun _ hw1 hp1 =>
    withRead_lastField_answers hw1 (by omega) hf hp1 rfl

theorem decodeItem_answers_zeros20 {pre : Huff} {f : Nat} {r : BitReader} {rest : List Bool} (hd : Huff.Decodes .pre pre 18)
    (hf : f < 32) (hw : r.wf) (h16 : 16 ≤ r.pending.length)
    (hp : r.pending = codeBits .pre pre 18 ++ (fieldBits 5 f ++ rest)) :
    (decodeItem pre r).Answers (.instr (.zeros20 f)) rest :=
  withRead_readSym_answers hd (by decide) hw h16 hp fun _ hw1 hp1 =>
    withRead_lastField_answers hw1 (by omega) hf hp1 rfl

/-- SAME reads a second symbol behind its bit, and refills for it again (R165, R130). -/
theorem decodeItem_answers_same {pre : Huff} {n d : Nat} {r : BitReader} {rest : List Bool} (hd19 : Huff.Decodes .pre pre 19)
    (hd : Huff.Decodes .pre pre d) (hn : n < 2) (hd20 : d < 20) (hw : r.wf) (hrest : 16 ≤ rest.length)
    (hp : r.pending = codeBits .pre pre 19 ++ (fieldBits 1 n ++ (codeBits .pre pre d ++ rest))) :
    (decodeItem pre r).Answers (.instr (.same n d)) rest :=
  withRead_readSym_answers hd19 (by decide) hw (by simp [hp]; omega) hp fun _ hw1 hp1 =>
    withRead_readBits_answers hw1 (by omega) hn hp1 fun _ hw2 hp2 =>
      withRead_lastSym_answers hd hd20 hw2 (by simp [hp2]; omega) hp2 rfl

/-! ### The main symbol and the long LEN (R90, R93) -/

theorem decodeMain_answers_lit {main : Huff} {m : Byte} {r : BitReader} {rest : List Bool}
    (hd : Huff.Decodes .main main m.toNat) (hw : r.wf) (h16 : 16 ≤ r.pending.length)
    (hp : r.pending = codeBits .main main m.toNat ++ rest) : (decodeMain main r).Answers (.instr (.lit m)) rest := by
  have hm := m.isLt
  refine withRead_readSym_answers hd (show m.toNat < 2576 by omega) hw h16 hp fun r1 hw1 hp1 => ?_
  rw [if_pos (by omega), BitVec.ofNat_toNat, BitVec.setWidth_eq]
  exact Decoded.answers_self hw1 hp1

theorem decodeMain_answers_header {main : Huff} {m : Nat} {r : BitReader} {rest : List Bool} (hd : Huff.Decodes .main main m)
    (hlo : 256 ≤ m) (hhi : m < 2576) (hw : r.wf) (h16 : 16 ≤ r.pending.length)
    (hp : r.pending = codeBits .main main m ++ rest) : (decodeMain main r).Answers (.header m) rest := by
  refine withRead_readSym_answers hd hhi hw h16 hp fun r1 hw1 hp1 => ?_
  rw [if_neg (by omega)]
  exact Decoded.answers_self hw1 hp1

/-- Under length header 7 a length tree that is not empty gives the length symbol (R202). -/
theorem decodeLen_symbol {c : DecodeContext} (r : BitReader) (h7 : lengthHeader c.header = 7) (he : c.lengthEmpty = false) :
    decodeLen c r = withRead (readSym .length c.lengthTree r) [] fun lsym r1 => .instr (.lenLong lsym) r1 := by
  rw [decodeLen_long c r h7, he]
  rfl

/-! ### The offset fields of a match (R99, R100) -/

theorem lengthHeader_headerOf {slot lh : Nat} (h : lh < 8) : lengthHeader (headerOf slot lh) = lh := by
  unfold lengthHeader headerOf; omega

theorem offsetSlot_headerOf {slot lh : Nat} (h : lh < 8) : offsetSlot (headerOf slot lh) = slot := by
  unfold offsetSlot headerOf; omega

/-- From slot 4 on a match has offset fields, by the kind of block. -/
theorem decodeMatch_explicit (c : DecodeContext) (r : BitReader) (h : 4 ≤ offsetSlot c.header) :
    decodeMatch c r = if c.alignedBlock then decodeAlignedOffset c (offsetSlot c.header) (lengthHeader c.header) r
      else withRead (r.readBits (extraBits (offsetSlot c.header))) [] fun v r1 =>
        .instr (.matchVerbatim (offsetSlot c.header) (lengthHeader c.header) v) r1 := by
  unfold decodeMatch
  generalize offsetSlot c.header = slot at h ⊢
  obtain ⟨k, rfl⟩ := Nat.exists_eq_add_of_le' h
  rfl

theorem decodeMatch_aligned {c : DecodeContext} (r : BitReader) (h : 4 ≤ offsetSlot c.header) (ha : c.alignedBlock = true) :
    decodeMatch c r = decodeAlignedOffset c (offsetSlot c.header) (lengthHeader c.header) r := by
  rw [decodeMatch_explicit c r h, if_pos ha]

theorem extraBits_lt_three_iff (slot : Nat) : extraBits slot < 3 ↔ slot < 8 := by
  unfold extraBits; omega

theorem extraBits_eq_three_iff (slot : Nat) : extraBits slot = 3 ↔ slot = 8 ∨ slot = 9 := by
  unfold extraBits; omega

/-- Where an aligned symbol gives the low three bits, the others come before it (R209, D11). -/
theorem decodeAlignedOffset_coded {c : DecodeContext} {slot : Nat} (lh : Nat) (r : BitReader) (h8 : 8 ≤ slot)
    (h3 : extraBits slot = 3 → c.extra3Verbatim = false) :
    decodeAlignedOffset c slot lh r = withRead (r.readBits (extraBits slot - 3)) [] fun v r1 =>
      withRead (readSym .aligned c.alignedTree r1) [] fun a r2 => .instr (.matchAlignedLong slot lh v (some a)) r2 := by
  have hge : ¬ extraBits slot < 3 := fun h => absurd ((extraBits_lt_three_iff slot).1 h) (by omega)
  have hcoded : ¬ (extraBits slot = 3 ∧ c.extra3Verbatim = true) := fun ⟨h, hv⟩ => by simp [h3 h] at hv
  rw [decodeAlignedOffset, if_neg hge, if_neg hcoded]

theorem decodeMatch_answers_alignedLong {c : DecodeContext} {slot lh v a : Nat} {r : BitReader} {rest : List Bool}
    (hc : c.header = headerOf slot lh) (ha : c.alignedBlock = true) (h3 : extraBits slot = 3 → c.extra3Verbatim = false)
    (hd : Huff.Decodes .aligned c.alignedTree a) (hlh : lh < 8) (h8 : 8 ≤ slot) (hv : v < 2 ^ (extraBits slot - 3))
    (ha8 : a < 8) (hw : r.wf) (hrest : 16 ≤ rest.length)
    (hp : r.pending = fieldBits (extraBits slot - 3) v ++ (codeBits .aligned c.alignedTree a ++ rest)) :
    (decodeMatch c r).Answers (.instr (.matchAlignedLong slot lh v (some a))) rest := by
  have hle := extraBits_le slot
  rw [decodeMatch_aligned r (by rw [hc, offsetSlot_headerOf hlh]; omega) ha, hc, offsetSlot_headerOf hlh,
    lengthHeader_headerOf hlh, decodeAlignedOffset_coded lh r h8 h3]
  exact withRead_readBits_answers hw (by omega) hv hp fun _ hw1 hp1 =>
    withRead_lastSym_answers hd ha8 hw1 (by simp [hp1]; omega) hp1 rfl

/-- A coded offset raises in its verbatim bits, or in the refill of its aligned symbol (R127, R130). -/
theorem decodeMatch_raises {c : DecodeContext} {r : BitReader} (hw : r.wf) (ha : c.alignedBlock = true)
    (h8 : 8 ≤ offsetSlot c.header) (h3 : extraBits (offsetSlot c.header) = 3 → c.extra3Verbatim = false)
    (hp : r.pending.length < extraBits (offsetSlot c.header) - 3 + 16) :
    ∃ r', decodeMatch c r = .raise .unexpectedEndOfStream r' [] := by
  have hle := extraBits_le (offsetSlot c.header)
  rw [decodeMatch_aligned r (by omega) ha, decodeAlignedOffset_coded _ r h8 h3]
  by_cases hv : r.pending.length < extraBits (offsetSlot c.header) - 3
  · obtain ⟨r', e⟩ := BitReader.readBits_raises hw (by omega) hv
    exact ⟨r', by rw [e]; rfl⟩
  · obtain ⟨v, r1, e, hw1, hp1⟩ := BitReader.readBits_some hw (k := extraBits (offsetSlot c.header) - 3) (by omega) (by omega)
    rw [e]
    exact withRead_readSym_raises .aligned c.alignedTree hw1 (by rw [hp1, List.length_drop]; omega)

/-- Settles O6: each codeword is read back with a refill's bits still to come, and what stands between is fields. -/
theorem codedElementsRoundTrip : Obligations.CodedElementsRoundTrip := by
  refine ⟨fun i c r b rest hc hwf hw he hrest hp => ?_, fun m c r rest hlo hhi hd hw h16 hp => ?_,
    fun c r hw => ⟨fun hlt => ?_, fun ha h8 h3 hlt => decodeMatch_raises hw ha h8 h3 hlt⟩⟩
  · have h16 : 16 ≤ r.pending.length := by rw [hp, List.length_append]; omega
    cases i
    case delta z => cases he; exact decodeItem_answers_delta hc (of_decide_eq_true hwf) hw h16 hp
    case zeros4 f =>
      cases he; exact decodeItem_answers_zeros4 hc (of_decide_eq_true hwf) hw h16 (by rw [hp, List.append_assoc])
    case zeros20 f =>
      cases he; exact decodeItem_answers_zeros20 hc (of_decide_eq_true hwf) hw h16 (by rw [hp, List.append_assoc])
    case same n d =>
      cases he
      obtain ⟨hd19, hd⟩ := hc
      obtain ⟨hn, hd20⟩ : n < 2 ∧ d < 20 := by simpa [WellFormed, wellFormed] using hwf
      exact decodeItem_answers_same hd19 hd hn hd20 hw hrest (by rw [hp, List.append_assoc, List.append_assoc])
    case lit m => cases he; exact decodeMain_answers_lit hc hw h16 hp
    case lenLong lsym =>
      cases he
      obtain ⟨h7, hempty, hd⟩ := hc
      simp only [placeOf, decodeAt, decodeLen_symbol r h7 hempty]
      exact withRead_lastSym_answers hd (of_decide_eq_true hwf) hw h16 hp rfl
    case matchAlignedLong slot lh v a =>
      cases a with
      | none => exact hc.elim
      | some a =>
        cases he
        obtain ⟨hheader, ha, h3, hd⟩ := hc
        obtain ⟨⟨⟨⟨hlh, h8⟩, -⟩, hv⟩, ha8⟩ :
            (((lh < 8 ∧ 8 ≤ slot) ∧ slot < 290) ∧ v < 2 ^ (extraBits slot - 3)) ∧ a < 8 := by
          simpa [WellFormed, wellFormed] using hwf
        exact decodeMatch_answers_alignedLong hheader ha h3 hd hlh h8 hv ha8 hw hrest (by rw [hp, List.append_assoc])
    all_goals exact hc.elim
  · exact decodeMain_answers_header hd hlo hhi hw h16 hp
  · refine ⟨withRead_readSym_raises .pre c.preTree hw hlt, withRead_readSym_raises .main c.mainTree hw hlt, fun h7 hempty => ?_⟩
    simp only [decodeAt, decodeLen_symbol r h7 hempty]
    exact withRead_readSym_raises .length c.lengthTree hw hlt

end Sys2Proof
end

section
/-! The elements read as raw bytes decode from their bytes, past the bit accumulator (R65, R87, R181, R186, R241). -/

namespace Sys2Proof.Machine

/-- `r'` is `r` after a read of raw bytes: it still gives `rest`, and the accumulator is as it was. -/
structure BitReader.PastBytes (r : BitReader) (rest : List Byte) (r' : BitReader) : Prop where
  wf        : r'.wf
  restBytes : r'.restBytes = rest
  bitBuf    : r'.bitBuf = r.bitBuf
  bitsLeft  : r'.bitsLeft = r.bitsLeft

theorem BitReader.PastBytes.trans {a b c : BitReader} {mid rest : List Byte} (h1 : a.PastBytes mid b)
    (h2 : b.PastBytes rest c) : a.PastBytes rest c :=
  ⟨h2.wf, h2.restBytes, h2.bitBuf.trans h1.bitBuf, h2.bitsLeft.trans h1.bitsLeft⟩

theorem BitReader.inByte_pastBytes {r : BitReader} {b : Byte} {rest : List Byte} (hw : r.wf) (hb : r.restBytes = b :: rest) :
    ∃ r', r.inByte = .ok b r' ∧ r.PastBytes rest r' := by
  have h := BitReader.inByte_eq r hw.2.2
  simp only [hb] at h
  obtain ⟨r', e, hrest, hfake, -, hbuf, hleft, -⟩ := h
  obtain ⟨hbits, hzero, -⟩ := hw
  exact ⟨r', e, ⟨by rw [hleft]; exact hbits, by rw [hbuf, hleft]; exact hzero, hfake⟩, hrest, hbuf, hleft⟩

/-- Exactly the bytes asked for, when they come (R186). -/
theorem BitReader.readBytes_pastBytes {bytes rest : List Byte} {r : BitReader} (hw : r.wf) (hb : r.restBytes = bytes ++ rest) :
    ∃ r', BitReader.readBytes bytes.length r = .ok bytes r' ∧ r.PastBytes rest r' := by
  induction bytes generalizing r with
  | nil => exact ⟨r, rfl, hw, hb, rfl, rfl⟩
  | cons b bs ih =>
    obtain ⟨r1, e1, h1⟩ := BitReader.inByte_pastBytes hw hb
    obtain ⟨r2, e2, h2⟩ := ih h1.wf h1.restBytes
    exact ⟨r2, by simp [BitReader.readBytes, e1, e2, ReadResult.andThen], h1.trans h2⟩

/-- A run's bytes, when they all come (R241). -/
theorem BitReader.takeBytes_pastBytes {bytes rest : List Byte} {r : BitReader} (hw : r.wf) (hb : r.restBytes = bytes ++ rest) :
    ∃ r', BitReader.takeBytes bytes.length r = (bytes, r') ∧ r.PastBytes rest r' := by
  induction bytes generalizing r with
  | nil => exact ⟨r, rfl, hw, hb, rfl, rfl⟩
  | cons b bs ih =>
    obtain ⟨r1, e1, h1⟩ := BitReader.inByte_pastBytes hw hb
    obtain ⟨r2, e2, h2⟩ := ih h1.wf h1.restBytes
    exact ⟨r2, by simp [BitReader.takeBytes, e1, e2], h1.trans h2⟩

/-- A value is put together again from its four bytes (R65). -/
theorem le32_bytes (v : Word32) :
    le32 (v.extractLsb' 0 8) (v.extractLsb' 8 8) (v.extractLsb' 16 8) (v.extractLsb' 24 8) = v := by
  unfold le32
  rw [BitVec.extractLsb'_append_extractLsb'_eq_extractLsb' (show 24 = 16 + 8 from rfl),
    BitVec.extractLsb'_append_extractLsb'_eq_extractLsb' (show 16 = 8 + 8 from rfl),
    BitVec.extractLsb'_append_extractLsb'_eq_extractLsb' (show 8 = 0 + 8 from rfl)]
  exact BitVec.extractLsb'_eq_self

end Sys2Proof.Machine

namespace Sys2Proof

open Sys2Proof.Machine

theorem rvalsInstr_bytesOf32 (v0 v1 v2 : Word32) :
    rvalsInstr (bytesOf32 v0 ++ bytesOf32 v1 ++ bytesOf32 v2) = .rvals v0 v1 v2 := by
  simp only [bytesOf32, List.cons_append, List.nil_append, rvalsInstr, le32_bytes]

/-- Settles O3: each of the three reads its bytes one by one, with no bit of the accumulator. -/
theorem rawBytesRoundTrip : Obligations.RawBytesRoundTrip := by
  intro i c r bytes rest hwf hw he hrun hb
  suffices h : ∃ r', decodeAt (placeOf i) true c r = .instr i r' ∧ r.PastBytes rest r' by
    obtain ⟨r', e, hpast⟩ := h
    exact ⟨r', e, hpast.wf, hpast.restBytes, hpast.bitBuf, hpast.bitsLeft⟩
  cases i
  case pad p =>
    cases he
    obtain ⟨r', e, hpast⟩ := BitReader.inByte_pastBytes hw hb
    exact ⟨r', by simp only [placeOf, decodeAt, decodePad, e, withRead], hpast⟩
  case rvals v0 v1 v2 =>
    cases he
    obtain ⟨r', e, hpast⟩ := BitReader.readBytes_pastBytes hw hb
    have e : BitReader.readBytes 12 r = .ok (bytesOf32 v0 ++ bytesOf32 v1 ++ bytesOf32 v2) r' := e
    exact ⟨r', by simp only [placeOf, decodeAt, decodeRvals, e, withRead, rvalsInstr_bytesOf32], hpast⟩
  case raw =>
    cases he
    obtain ⟨r', e, hpast⟩ := BitReader.takeBytes_pastBytes hw hb
    obtain ⟨b, bs, rfl⟩ := List.exists_cons_of_ne_nil (l := bytes) (by simpa [WellFormed, wellFormed] using hwf)
    exact ⟨r', by simp only [placeOf, decodeAt, decodeRaw, hrun rfl, e, if_true], hpast⟩
  case matchAlignedLong slot lh v a => cases a <;> cases he
  all_goals cases he

end Sys2Proof
end

section
/-! A match's short LEN and uncoded offset fields decode under its header; the slot tables in closed form (R92 to R96,
R99, R100). -/

namespace Sys2Proof

open Sys2Proof.Machine

/-! ### The fields -/

/-- Slots 0 to 3 have no field (R204 to R207, R209). -/
theorem decodeMatch_slot0 {c : DecodeContext} (r : BitReader) (h : offsetSlot c.header = 0) :
    decodeMatch c r = .instr (.matchSlot0 (lengthHeader c.header)) r := by
  unfold decodeMatch; rw [h]; rfl

theorem decodeMatch_slot1 {c : DecodeContext} (r : BitReader) (h : offsetSlot c.header = 1) :
    decodeMatch c r = .instr (.matchSlot1 (lengthHeader c.header)) r := by
  unfold decodeMatch; rw [h]; rfl

theorem decodeMatch_slot2 {c : DecodeContext} (r : BitReader) (h : offsetSlot c.header = 2) :
    decodeMatch c r = .instr (.matchSlot2 (lengthHeader c.header)) r := by
  unfold decodeMatch; rw [h]; rfl

theorem decodeMatch_slot3 {c : DecodeContext} (r : BitReader) (h : offsetSlot c.header = 3) :
    decodeMatch c r = if c.alignedBlock then .instr (.matchSlot3Aligned (lengthHeader c.header)) r
      else .instr (.matchSlot3Verbatim (lengthHeader c.header)) r := by
  unfold decodeMatch; rw [h]; rfl

/-- With less than three extra bits an aligned block reads them all verbatim (R209). -/
theorem decodeAlignedOffset_short (c : DecodeContext) {slot : Nat} (lh : Nat) (r : BitReader) (h : slot < 8) :
    decodeAlignedOffset c slot lh r
      = withRead (r.readBits (extraBits slot)) [] fun v r1 => .instr (.matchAlignedShort slot lh v) r1 := by
  rw [decodeAlignedOffset, if_pos ((extraBits_lt_three_iff slot).2 h)]

/-- With `P_ALIGNED_EXTRA3 = verbatim` a slot with three extra bits reads them verbatim (R209, D11). -/
theorem decodeAlignedOffset_verbatim {c : DecodeContext} {slot : Nat} (lh : Nat) (r : BitReader) (h : slot = 8 ∨ slot = 9)
    (hv : c.extra3Verbatim = true) :
    decodeAlignedOffset c slot lh r
      = withRead (r.readBits 3) [] fun v r1 => .instr (.matchAlignedLong slot lh v none) r1 := by
  have h3 := (extraBits_eq_three_iff slot).2 h
  rw [decodeAlignedOffset, if_neg (by omega), if_pos ⟨h3, hv⟩]

/-- A match's header names its slot and its length header (R90). -/
theorem split_headerOf {c : DecodeContext} {slot lh : Nat} (hc : c.header = headerOf slot lh) (hlh : lh < 8) :
    offsetSlot c.header = slot ∧ lengthHeader c.header = lh := by
  rw [hc]
  exact ⟨offsetSlot_headerOf hlh, lengthHeader_headerOf hlh⟩

/-- A match's uncoded element decodes under its header: nothing below slot 4, then the slot's fields (R99, R100, R204 to R209). -/
theorem uncoded_answers {i : Instr} {u : Bool} {c : DecodeContext} {r : BitReader} {b rest : List Bool} (hc : UncodedIn c i)
    (hwf : WellFormed i) (hw : r.wf) (he : encode c i = .bits b) (hp : r.pending = b ++ rest) :
    (decodeAt (placeOf i) u c r).Answers (.instr i) rest := by
  cases i
  case lenShort lh =>
    cases he
    have h7 : lh < 7 := of_decide_eq_true hwf
    obtain rfl : lengthHeader c.header = lh := hc
    exact ⟨r, decodeLen_short c r (by omega), hw, hp⟩
  case matchSlot0 lh =>
    cases he
    obtain ⟨hslot, rfl⟩ := split_headerOf hc (of_decide_eq_true hwf)
    exact ⟨r, decodeMatch_slot0 r hslot, hw, hp⟩
  case matchSlot1 lh =>
    cases he
    obtain ⟨hslot, rfl⟩ := split_headerOf hc (of_decide_eq_true hwf)
    exact ⟨r, decodeMatch_slot1 r hslot, hw, hp⟩
  case matchSlot2 lh =>
    cases he
    obtain ⟨hslot, rfl⟩ := split_headerOf hc (of_decide_eq_true hwf)
    exact ⟨r, decodeMatch_slot2 r hslot, hw, hp⟩
  case matchSlot3Verbatim lh =>
    cases he
    obtain ⟨hc, ha⟩ := hc
    obtain ⟨hslot, rfl⟩ := split_headerOf hc (of_decide_eq_true hwf)
    exact ⟨r, by simp [placeOf, decodeAt, decodeMatch_slot3 r hslot, ha], hw, hp⟩
  case matchSlot3Aligned lh =>
    cases he
    obtain ⟨hc, ha⟩ := hc
    obtain ⟨hslot, rfl⟩ := split_headerOf hc (of_decide_eq_true hwf)
    exact ⟨r, by simp [placeOf, decodeAt, decodeMatch_slot3 r hslot, ha], hw, hp⟩
  case matchVerbatim slot lh v =>
    cases he
    obtain ⟨hc, ha⟩ := hc
    obtain ⟨⟨⟨hlh, h4⟩, -⟩, hv⟩ : ((lh < 8 ∧ 4 ≤ slot) ∧ slot < 290) ∧ v < 2 ^ extraBits slot := by
      simpa [WellFormed, wellFormed] using hwf
    obtain ⟨hslot, hheader⟩ := split_headerOf hc hlh
    simp only [placeOf, decodeAt, decodeMatch_explicit c r (by omega), hslot, hheader, ha]
    exact withRead_lastField_answers hw (extraBits_le slot) hv hp rfl
  case matchAlignedShort slot lh v =>
    cases he
    obtain ⟨hc, ha⟩ := hc
    obtain ⟨⟨⟨hlh, h4⟩, h8⟩, hv⟩ : ((lh < 8 ∧ 4 ≤ slot) ∧ slot < 8) ∧ v < 2 ^ extraBits slot := by
      simpa [WellFormed, wellFormed] using hwf
    obtain ⟨hslot, hheader⟩ := split_headerOf hc hlh
    simp only [placeOf, decodeAt, decodeMatch_aligned r (by omega) ha, hslot, hheader, decodeAlignedOffset_short c lh r h8]
    exact withRead_lastField_answers hw (extraBits_le slot) hv hp rfl
  case matchAlignedLong slot lh v a =>
    cases a with
    | some a => exact hc.elim
    | none =>
      cases he
      obtain ⟨hc, ha, hverb⟩ := hc
      obtain ⟨⟨⟨hlh, h8⟩, h10⟩, hv⟩ : ((lh < 8 ∧ 8 ≤ slot) ∧ slot < 10) ∧ v < 8 := by
        simpa [WellFormed, wellFormed] using hwf
      obtain ⟨hslot, hheader⟩ := split_headerOf hc hlh
      have hthree : slot = 8 ∨ slot = 9 := by omega
      simp only [placeOf, decodeAt, decodeMatch_aligned r (by omega) ha, hslot, hheader,
        decodeAlignedOffset_verbatim lh r hthree hverb]
      exact withRead_lastField_answers hw (by omega) hv hp rfl
  all_goals exact hc.elim

/-! ### The slot tables -/

/-- Below slot 36 a pair of slots doubles the one before it (R95). -/
theorem positionBase_pair {j : Nat} (hj : j ≤ 17) :
    positionBase (2 * j + 2) = 2 * 2 ^ j ∧ positionBase (2 * j + 3) = 3 * 2 ^ j := by
  induction j with
  | zero => decide
  | succ j ih =>
    obtain ⟨heven, hodd⟩ := ih (by omega)
    have hextra : extraBits (2 * j + 3) = j ∧ extraBits (2 * j + 4) = j + 1 := by unfold extraBits; omega
    have hnext : positionBase (2 * j + 4) = 2 * 2 ^ (j + 1) := by
      rw [positionBase, hodd, hextra.1]; ring
    exact ⟨hnext, by rw [show 2 * (j + 1) + 3 = 2 * j + 4 + 1 by omega, positionBase, hnext, hextra.2]; ring⟩

theorem positionBase_low {slot : Nat} (h2 : 2 ≤ slot) (h36 : slot < 38) :
    positionBase slot = (2 + slot % 2) * 2 ^ (slot / 2 - 1) := by
  obtain ⟨heven, hodd⟩ := positionBase_pair (j := slot / 2 - 1) (by omega)
  rcases Nat.mod_two_eq_zero_or_one slot with h | h <;> rw [h]
  · rwa [show 2 * (slot / 2 - 1) + 2 = slot by omega] at heven
  · rwa [show 2 * (slot / 2 - 1) + 3 = slot by omega] at hodd

/-- From slot 36 on each slot has 17 extra bits (R94). -/
theorem extraBits_high {slot : Nat} (h : 36 ≤ slot) : extraBits slot = 17 := by
  unfold extraBits; omega

theorem positionBase_high {slot : Nat} (h : 36 ≤ slot) : positionBase slot = 262144 + (slot - 36) * 131072 := by
  induction slot, h using Nat.le_induction with
  | base => exact positionBase_low (slot := 36) (by omega) (by omega)
  | succ slot h ih =>
    rw [positionBase, ih, extraBits_high h]
    omega

/-- The slots of each window size (R92). -/
theorem positionSlots_row :
    ∀ p ∈ [(15, 30), (16, 32), (17, 34), (18, 36), (19, 38), (20, 42), (21, 50), (22, 66), (23, 98), (24, 162), (25, 290)],
      positionSlots p.1 = p.2 := by decide

/-- The base of the slot after a window size's last is the window's size (R96). -/
theorem positionBase_row :
    ∀ p ∈ [(15, 30), (16, 32), (17, 34), (18, 36), (19, 38), (20, 42), (21, 50), (22, 66), (23, 98), (24, 162), (25, 290)],
      positionBase p.2 = 2 ^ p.1 := by
  simp [positionBase_low, positionBase_high]

/-- Settles O4: below slot 36 the bases double pairwise, by induction on the pairs, and from there on they rise evenly. -/
theorem offsetFieldsRoundTrip : Obligations.OffsetFieldsRoundTrip := by
  refine ⟨fun i u c r b rest hc hwf hw he hp => uncoded_answers hc hwf hw he hp, fun slot _ => ⟨?_, rfl, fun h => ?_,
    fun h2 h36 => positionBase_low h2 (by omega), fun h => ⟨extraBits_high h, positionBase_high h⟩⟩,
    fun p hp => ⟨positionSlots_row p hp, positionBase_row p hp⟩⟩
  · unfold extraBits; omega
  · interval_cases slot <;> rfl

end Sys2Proof
end

section
/-! Whatever decoding answers has its operands in the ranges of its encoding (R84 to R101). -/

namespace Sys2Proof

open Sys2Proof.Machine

theorem lengthHeader_lt (m : Nat) : lengthHeader m < 8 := Nat.mod_lt m (by omega)

/-- A main symbol names one of 290 slots (R101, R203). -/
theorem offsetSlot_lt {m : Nat} (h : m < mainMaxSyms) : offsetSlot m < 290 := by
  unfold offsetSlot; unfold mainMaxSyms at h; omega

theorem blockInstr_wellFormed (t : Nat) (len : BitVec 24) : WellFormed (blockInstr t len) := by
  unfold blockInstr
  split <;> rfl

theorem rvalsInstr_wellFormed (bytes : List Byte) : WellFormed (rvalsInstr bytes) := by
  unfold rvalsInstr
  split <;> rfl

/-- A pretree item's bit fields and symbols are in range (R88). -/
theorem decodeItem_wellFormed {pre : Huff} {r r' : BitReader} {i : Instr} (h : decodeItem pre r = .instr i r') :
    WellFormed i := by
  obtain ⟨z, r1, e1, h⟩ := withRead_instr h
  have hz : z < 20 := readSym_lt e1
  split at h
  · obtain ⟨f, r2, e2, h⟩ := withRead_instr h
    cases h
    exact decide_eq_true (BitReader.readBits_lt (by omega) e2)
  · obtain ⟨f, r2, e2, h⟩ := withRead_instr h
    cases h
    exact decide_eq_true (BitReader.readBits_lt (by omega) e2)
  · obtain ⟨n, r2, e2, h⟩ := withRead_instr h
    obtain ⟨d, r3, e3, h⟩ := withRead_instr h
    cases h
    have hn : n < 2 := BitReader.readBits_lt (by omega) e2
    have hd : d < 20 := readSym_lt e3
    simp [WellFormed, wellFormed, hn, hd]
  · next h17 h18 h19 =>
    cases h
    have h17 : z ≠ 17 := h17
    have h18 : z ≠ 18 := h18
    have h19 : z ≠ 19 := h19
    exact decide_eq_true (show z ≤ 16 by omega)

/-- LEN's header is below 7, or its symbol is one of the length tree's (R93). -/
theorem decodeLen_wellFormed {c : DecodeContext} {r r' : BitReader} {i : Instr} (h : decodeLen c r = .instr i r') :
    WellFormed i := by
  by_cases h7 : lengthHeader c.header = 7
  · rw [decodeLen_long c r h7] at h
    split at h
    · cases h
    · obtain ⟨lsym, r1, e1, h⟩ := withRead_instr h
      cases h
      exact decide_eq_true (readSym_lt e1)
  · rw [decodeLen_short c r h7] at h
    cases h
    have hlt := lengthHeader_lt c.header
    exact decide_eq_true (by omega)

/-- The offset fields of an aligned block are in range, under any slot from 4 on (R100, R209). -/
theorem decodeAlignedOffset_wellFormed {c : DecodeContext} {slot lh : Nat} {r r' : BitReader} {i : Instr} (h4 : 4 ≤ slot)
    (h290 : slot < 290) (hlh : lh < 8) (h : decodeAlignedOffset c slot lh r = .instr i r') : WellFormed i := by
  have hle := extraBits_le slot
  by_cases h8 : slot < 8
  · rw [decodeAlignedOffset_short c lh r h8] at h
    obtain ⟨v, r1, e1, h⟩ := withRead_instr h
    cases h
    have hv := BitReader.readBits_lt (by omega) e1
    simp [WellFormed, wellFormed, hlh, h4, h8, hv]
  · by_cases hverb : extraBits slot = 3 ∧ c.extra3Verbatim = true
    · obtain ⟨h3, hverb⟩ := hverb
      have hthree := (extraBits_eq_three_iff slot).1 h3
      rw [decodeAlignedOffset_verbatim lh r hthree hverb] at h
      obtain ⟨v, r1, e1, h⟩ := withRead_instr h
      cases h
      have hv : v < 8 := BitReader.readBits_lt (k := 3) (by omega) e1
      obtain ⟨h8, h10⟩ : 8 ≤ slot ∧ slot < 10 := by omega
      simp [WellFormed, wellFormed, hlh, h8, h10, hv]
    · rw [decodeAlignedOffset_coded lh r (by omega) fun h3 => by simpa [h3] using hverb] at h
      obtain ⟨v, r1, e1, h⟩ := withRead_instr h
      obtain ⟨a, r2, e2, h⟩ := withRead_instr h
      cases h
      have hv := BitReader.readBits_lt (by omega) e1
      have ha : a < 8 := readSym_lt e2
      simp [WellFormed, wellFormed, hlh, Nat.le_of_not_lt h8, h290, hv, ha]

/-- A match's offset fields are in range under a header that is a main symbol (R100, R101). -/
theorem decodeMatch_wellFormed {c : DecodeContext} {r r' : BitReader} {i : Instr} (hc : c.header < mainMaxSyms)
    (h : decodeMatch c r = .instr i r') : WellFormed i := by
  have hlh := lengthHeader_lt c.header
  have h290 := offsetSlot_lt hc
  by_cases h4 : 4 ≤ offsetSlot c.header
  · rw [decodeMatch_explicit c r h4] at h
    split at h
    · exact decodeAlignedOffset_wellFormed h4 h290 hlh h
    · obtain ⟨v, r1, e1, h⟩ := withRead_instr h
      cases h
      have hle := extraBits_le (offsetSlot c.header)
      have hv := BitReader.readBits_lt (by omega) e1
      simp [WellFormed, wellFormed, hlh, h4, h290, hv]
  · obtain hslot | hslot | hslot | hslot : offsetSlot c.header = 0 ∨ offsetSlot c.header = 1 ∨ offsetSlot c.header = 2
      ∨ offsetSlot c.header = 3 := by omega
    · rw [decodeMatch_slot0 r hslot] at h
      cases h; exact decide_eq_true hlh
    · rw [decodeMatch_slot1 r hslot] at h
      cases h; exact decide_eq_true hlh
    · rw [decodeMatch_slot2 r hslot] at h
      cases h; exact decide_eq_true hlh
    · rw [decodeMatch_slot3 r hslot] at h
      split at h <;> cases h <;> exact decide_eq_true hlh

/-- RAW takes at least one byte (R241). -/
theorem decodeRaw_wellFormed {k : Nat} {r r' : BitReader} {i : Instr} (h : decodeRaw k r = .instr i r') : WellFormed i := by
  unfold decodeRaw at h
  split at h <;> cases h
  rfl

/-- Settles O7: each field is bounded by its width, each symbol by its table, and the slot by the header. -/
theorem decodedIsWellFormed : Obligations.DecodedIsWellFormed := by
  intro p u c r r' i hc h
  cases p
  case idle | frameLoop | frameOpen | blockLoop | runOpen | stage => cases h
  case realign | align16 => cases h; rfl
  case filler | pad =>
    obtain ⟨v, r1, -, h⟩ := withRead_instr h
    cases h; rfl
  case intel =>
    obtain ⟨e, r1, -, h⟩ := withRead_instr h
    split at h
    · obtain ⟨hi, r2, -, h⟩ := withRead_instr h
      obtain ⟨lo, r3, -, h⟩ := withRead_instr h
      cases h; rfl
    · cases h; rfl
  case blockHead =>
    obtain ⟨t, r1, -, h⟩ := withRead_instr h
    obtain ⟨hi, r2, -, h⟩ := withRead_instr h
    obtain ⟨lo, r3, -, h⟩ := withRead_instr h
    cases h; exact blockInstr_wellFormed t _
  case rvals =>
    obtain ⟨bytes, r1, -, h⟩ := withRead_instr h
    cases h; exact rvalsInstr_wellFormed bytes
  case alignedLens =>
    obtain ⟨vs, r1, hlen, hlt, h⟩ := decodeFields_instr (by omega) 8 [] r r' i _ (by simp) h
    cases h
    simpa [WellFormed, wellFormed, hlen] using hlt
  case tree =>
    obtain ⟨vs, r1, hlen, hlt, h⟩ := decodeFields_instr (by omega) 20 [] r r' i _ (by simp) h
    cases h
    simpa [WellFormed, wellFormed, hlen] using hlt
  case items => exact decodeItem_wellFormed h
  case run =>
    simp only [decodeAt] at h
    split at h
    · exact decodeRaw_wellFormed h
    · obtain ⟨m, r1, -, h⟩ := withRead_instr h
      split at h <;> cases h
      rfl
  case length => exact decodeLen_wellFormed h
  case offset => exact decodeMatch_wellFormed hc h
  case ext =>
    have hplace := decodeAt_place h
    cases i <;> simp only [placeOf, reduceCtorEq] at hplace <;> rfl

end Sys2Proof
end

section
/-! The code space that the lengths take decides how a table build ends (R101, R141 to R145). -/

namespace Sys2Proof.Machine

/-- The code space that each end of a build goes with (R141, R142), R141's early return among them (log entry 25). -/
def BuildResult.Allows (early : EarlyReturn) (t : Tree) (len : NatArray) (x : BuildResult) : Prop :=
  match x with
  | .complete => codeSpace t len 16 = 2 ^ 16
      ∨ (early = .always ∧ codeSpace t len (tableBits t) = 2 ^ 16 ∧ 2 ^ 16 < codeSpace t len 16)
  | .empty => codeSpace t len 16 = 0
  | .overflow => 2 ^ 16 < codeSpace t len 16
  | .incomplete => 0 < codeSpace t len 16 ∧ codeSpace t len 16 < 2 ^ 16
  | .capacity => 0 < codeSpace t len 16

/-- A decode array runs out of room only for codes, which take code space (R142). -/
theorem codeSpace_pos_of_exhausted {t : Tree} {len : NatArray} (h : Exhausted t (Straddled t (codeOrder t len))) :
    0 < codeSpace t len 16 := by
  obtain ⟨taken, hnodes, hfull⟩ := h
  rcases taken.eq_empty_or_nonempty with rfl | ⟨q, hq⟩
  · exfalso; revert hfull; cases t <;> decide
  · obtain ⟨x, hx, -⟩ := hnodes q hq
    have hend := (codeStarts_bounds hx).2
    rw [codeOrder_eq, codeEnd_codeSpace] at hend
    have hsize := Nat.two_pow_pos (16 - x.2.1)
    omega

/-- A share of the code space that ends beyond it is over-subscription, and the spots above its leaf are its nodes. -/
theorem shareOk_straddled {t : Tree} {len : NatArray} {x : Nat × Nat × Nat} (hx : x ∈ codeStarts (codeOrder t len) 0) :
    ShareOk t (Straddled t (codeOrder t len)) (2 ^ 16 < codeSpace t len 16) x := by
  have hend := (codeStarts_bounds hx).2
  rw [codeOrder_eq, codeEnd_codeSpace] at hend
  exact ⟨fun h => Nat.lt_of_lt_of_le h hend, fun i hi => straddled_above hx i hi⟩

/-- How a build ends, by the code space taken; out of nodes, so many inner nodes stand above the codes (R142, R144). -/
theorem build_ends (early : EarlyReturn) (t : Tree) {len before : NatArray} (hb : NatArray.wf before)
    (h16 : ∀ c ∈ len, c.2 ≤ 16) :
    ((buildTable early t len before).2).Allows early t len
      ∧ ((buildTable early t len before).2 = .capacity → Exhausted t (Straddled t (codeOrder t len))) := by
  have hcases := build_cases (early := early) hb h16 fun x => shareOk_straddled (t := t) (x := x)
  generalize (buildTable early t len before).2 = result at hcases ⊢
  cases result with
  | complete => exact ⟨hcases.imp_left fun h => h.1, by simp⟩
  | empty => exact ⟨hcases, by simp⟩
  | overflow => exact ⟨hcases, by simp⟩
  | incomplete => exact ⟨hcases, by simp⟩
  | capacity => exact ⟨codeSpace_pos_of_exhausted hcases, fun _ => hcases⟩

/-- Codes beyond those of the direct entries are longer codes (R141). -/
theorem anyLonger_of_codeSpace_lt {t : Tree} {len : NatArray} (h16 : ∀ c ∈ len, c.2 ≤ 16)
    (h : codeSpace t len (tableBits t) < codeSpace t len 16) : anyLonger len (maxSyms t) (tableBits t) = true := by
  have htb := tableBits_bounds t
  rw [anyLonger_iff h16 (by omega)]
  intro hnone
  have hsplit := lengthsFrom_add t len (tableBits t) (16 - tableBits t) 1
  rw [Nat.add_sub_cancel' (show tableBits t ≤ 16 by omega), Nat.add_comm 1, hnone, List.append_nil] at hsplit
  rw [← codeEnd_codeSpace, ← codeEnd_codeSpace, hsplit] at h
  exact absurd h (Nat.lt_irrefl _)

/-- Settles O12: a build's end tells the code space taken, so that the code space leaves only the end, or ends, named. -/
theorem kraftDecidesBuild : Obligations.KraftDecidesBuild := by
  intro early t len before hlen hb h16
  obtain ⟨hends, hcapacity⟩ := build_ends early t hb h16
  refine ⟨fun hzero => ?_, fun hfull hroom => ?_, fun hover hshort => ?_, fun hover hshort => ?_, ?_⟩
  · cases hr : (buildTable early t len before).2 <;> simp only [hr, BuildResult.Allows] at hends ⊢ <;> omega
  · have hroom := not_exhausted hlen hfull h16 hroom
    cases hr : (buildTable early t len before).2 <;> simp only [hr, BuildResult.Allows] at hends
    case complete => rfl
    case capacity => exact absurd (hcapacity hr) hroom
    all_goals omega
  · cases hr : (buildTable early t len before).2 <;> simp only [hr, BuildResult.Allows] at hends
    case overflow => exact .inl rfl
    case capacity => exact .inr rfl
    all_goals omega
  · have hlong := anyLonger_of_codeSpace_lt h16 (by omega : codeSpace t len (tableBits t) < codeSpace t len 16)
    rw [build_filled hb hshort]
    cases early <;> simp [hlong]
  · exact hends

end Sys2Proof.Machine
end

section
/-! Words of the spec's encodings, and how the tree transmissions of a block follow each other (R85, R90, R92, R185, R187, R280). -/

namespace Sys2Proof

open Sys2Proof.Machine

/-- Settles O1: the decoder run on each word. -/
theorem specWordsDecode : Obligations.SpecWordsDecode := by
  unfold Obligations.SpecWordsDecode
  decide +kernel

end Sys2Proof

namespace Sys2Proof.Machine

/-- The second main transmission ends at the main tree's elements (R85, R90, R92). -/
theorem State.rangeEnd_mainHigh {s : State} (h : s.treeSel = .mainHigh) :
    s.rangeEnd = 256 + 8 * positionSlots s.cfg.windowBits := by
  rw [State.rangeEnd, h]
  rfl

/-- At the end of its range a transmission ends (R160, R185). -/
theorem step_treeEnd {s : State} (hp : s.phase = .items) (hend : s.rangeEnd ≤ s.lenPos) : step s = seqTreeEnd s := by
  rw [step_eq_answer, fetch, hp]
  simp only [if_neg (Nat.not_lt.2 hend), Fetched.answer_sequence]

theorem seqTreeEnd_mainLow {s : State} (h : s.treeSel = .mainLow) :
    seqTreeEnd s = .next { s with treeSel := .mainHigh, phase := .tree } := by
  rw [seqTreeEnd, h]

theorem seqTreeEnd_mainHigh {s : State} (h : s.treeSel = .mainHigh) : seqTreeEnd s = s.buildMain := by
  rw [seqTreeEnd, h]

theorem seqTreeEnd_length {s : State} (h : s.treeSel = .length) : seqTreeEnd s = s.buildLength := by
  rw [seqTreeEnd, h]

/-- Settles O46: each end is the one case of `seqTreeEnd` for its transmission, and the build's result chooses the next place. -/
theorem treeTransmissionsFollowInOrder : Obligations.TreeTransmissionsFollowInOrder := by
  refine ⟨fun s => ⟨fun h => ?_, fun h => ?_, fun h p hp hbits => ?_⟩, fun s hp hend => ?_⟩
  · rw [State.rangeEnd, h]; rfl
  · rw [State.rangeEnd, h]; rfl
  · rw [State.rangeEnd_mainHigh h, hbits, positionSlots_row p hp]
  · simp only [step_treeEnd hp hend]
    refine ⟨seqTreeEnd_mainLow, fun h hr => ?_, fun h hr => ?_, fun h hr => ?_, fun h hr => ?_, fun h hr hr2 => ?_⟩
    · rw [seqTreeEnd_mainHigh h]
      simp [State.buildMain, requiredBuilt, hr, State.e8Seen]
    · rw [seqTreeEnd_mainHigh h]
      simp [State.buildMain, requiredBuilt, hr, raised]
    · rw [seqTreeEnd_length h]
      simp [State.buildLength, lengthBuilt, hr]
    · rw [seqTreeEnd_length h]
      simp [State.buildLength, lengthBuilt, hr]
    · rw [seqTreeEnd_length h]
      simp [State.buildLength, lengthBuilt, hr, hr2, raised]

end Sys2Proof.Machine
end

section
/-! What `readBits` answers, first bit most significant (R127), and where the input ends: in two synthetic zero bytes, after
which every read raises (R123). -/

namespace Sys2Proof.Machine

/-- The bits that come next are those of a field (R125). -/
theorem BitReader.exists_nextField {r : BitReader} {k : Nat} (hw : r.wf) (hk : k ≤ 17) (hp : k ≤ r.pending.length) :
    ∃ v, v < 2 ^ k ∧ fieldBits k v = r.pending.take k := by
  obtain ⟨r1, -, hw1, hbits, hpending, -⟩ := BitReader.ensure_ok k r hw hk hp
  refine ⟨r1.peek k, BitReader.peek_lt r1 k (by omega), ?_⟩
  rw [← hpending, BitReader.pending_remove r1 k hw1 hbits, List.take_left' (by simp)]

/-- Settles O8: the next `k` bits are a field's, which the read answers; with fewer to come its refill raises. -/
theorem readBitsIsMsbFirst : Obligations.ReadBitsIsMsbFirst := by
  refine fun r k hw hk => ⟨fun hp => ?_, BitReader.readBits_raises hw hk, rfl⟩
  obtain ⟨v, hv, hbits⟩ := BitReader.exists_nextField hw hk hp
  have hsplit : r.pending = fieldBits k v ++ r.pending.drop k := by rw [hbits, List.take_append_drop]
  obtain ⟨r', e, hw', hrest⟩ := BitReader.readBits_gives hw hk hv hsplit
  exact ⟨v, r', e, hv, hbits, hrest, hw'⟩

/-! ### The end of the input -/

theorem BitReader.inByte_of_lt {r : BitReader} (h : r.inPos < r.input.length) :
    r.inByte = .ok r.input[r.inPos] { r with inPos := r.inPos + 1 } := by
  simp only [BitReader.inByte, List.getElem?_eq_getElem h]

/-- Past the input the synthetic bytes are all there is (R123). -/
theorem BitReader.inByte_of_le {r : BitReader} (h : r.input.length ≤ r.inPos) :
    r.inByte =
      if r.fakeLeft = 1 then .ok 0 { r with fakeLeft := 0 }
      else if r.inputEnd = false then .ok 0 { r with inputEnd := true, fakeLeft := 1 }
      else .raise .unexpectedEndOfStream r := by
  simp only [BitReader.inByte, List.getElem?_eq_none h]

theorem BitReader.inByte_of_exhausted {r : BitReader} (hw : r.wf) (hb : r.restBytes = []) :
    r.inByte = .raise .unexpectedEndOfStream r := by
  have h := BitReader.inByte_eq r hw.2.2
  simpa only [hb] using h

/-- Over any input a fresh reader gives its bytes and the two synthetic ones (R76, R123). -/
theorem BitReader.fresh_restBytes (input : List Byte) : BitReader.restBytes { input := input } = input ++ [0, 0] := rfl

theorem BitReader.fresh_wf (input : List Byte) : BitReader.wf { input := input } := ⟨Nat.zero_le 32, rfl, Nat.zero_le 1⟩

/-- Settles O9: the cases are R123's in its order; a fresh reader over `input` gives `input` and the zero chunk, then nothing. -/
theorem inputEndsInOneZeroChunk : Obligations.InputEndsInOneZeroChunk := by
  refine ⟨fun r => ⟨BitReader.inByte_of_lt, fun h hfake => ?_, fun h hfake hend => ?_, fun h hfake hend => ?_⟩,
    fun input => ?_⟩
  · rw [BitReader.inByte_of_le h, if_pos hfake]
  · rw [BitReader.inByte_of_le h, if_neg hfake, if_pos hend]
  · rw [BitReader.inByte_of_le h, if_neg hfake, if_neg (by simp [hend])]
  · have hall : BitReader.restBytes { input := input } = (input ++ [0, 0]) ++ [] := by
      rw [BitReader.fresh_restBytes, List.append_nil]
    obtain ⟨r, e, hpast⟩ := BitReader.readBytes_pastBytes (BitReader.fresh_wf input) hall
    rw [List.length_append] at e
    exact ⟨r, e, BitReader.inByte_of_exhausted hpast.wf hpast.restBytes⟩

end Sys2Proof.Machine
end

section
/-! The two realigns (R128, R129): each takes a chunk when its accumulator asks for one, and drops the rest of the current one. -/

namespace Sys2Proof.Machine

/-- An accumulator with less than a chunk takes exactly one for sixteen bits (R124). -/
theorem BitReader.ensure_chunk {r : BitReader} (hw : r.wf) (hbits : r.bitsLeft < 16) (hb : 2 ≤ r.restBytes.length) :
    ∃ r', r.ensure 16 = .ok () r' ∧ r'.wf ∧ r'.bitsLeft = r.bitsLeft + 16 ∧ r'.pending = r.pending
      ∧ r'.restBytes = r.restBytes.drop 2 := by
  obtain ⟨r1, e1, hw1, hbits1, hpending, hrest, -⟩ := BitReader.refill_ok r hw (by omega) hb
  refine ⟨r1, ?_, hw1, hbits1, hpending, hrest⟩
  rw [BitReader.ensure, BitReader.ensureTurns, if_pos hbits, e1, ReadResult.andThen, BitReader.ensureTurns, if_neg (by omega)]

theorem BitReader.ensure_of_le {r : BitReader} {k : Nat} (h : k ≤ r.bitsLeft) : r.ensure k = .ok () r := by
  rw [BitReader.ensure, BitReader.ensureTurns, if_neg (by omega)]

/-- Without a chunk to come sixteen bits cannot be had (R123, R124). -/
theorem BitReader.ensure_chunk_raises {r : BitReader} (hw : r.wf) (hbits : r.bitsLeft < 16) (hb : r.restBytes.length < 2) :
    ∃ r', r.ensure 16 = .raise .unexpectedEndOfStream r' :=
  BitReader.ensure_raises hw (by omega) (by rw [BitReader.pending_length]; omega)

/-! ### The frame's end -/

@[simp] theorem BitReader.remove_zero (r : BitReader) : r.remove 0 = r := by simp [BitReader.remove]

/-- From the reader that `alignFrame` has refilled on, it removes the bits above a multiple of 16 (R128). -/
theorem BitReader.alignFrame_of_refilled {r r1 : BitReader} (h : (if 0 < r.bitsLeft then r.ensure 16 else .ok () r) = .ok () r1)
    (hbits : r1.bitsLeft < 32) : r.alignFrame = .ok () (r1.remove (r1.bitsLeft % 16)) := by
  have hremove : (if r1.bitsLeft % 16 ≠ 0 then r1.remove (r1.bitsLeft % 16) else r1) = r1.remove (r1.bitsLeft % 16) := by
    split
    · rfl
    · next h0 => rw [not_not.1 h0, BitReader.remove_zero]
  have hleft : (r1.remove (r1.bitsLeft % 16)).bitsLeft = 0 ∨ (r1.remove (r1.bitsLeft % 16)).bitsLeft = 16 := by
    simp only [BitReader.remove]; omega
  simp only [BitReader.alignFrame, h, ReadResult.andThen, hremove, if_pos hleft]

/-- What `alignFrame` refills when its chunk comes: nothing for an empty accumulator or a whole chunk, else one chunk (R128). -/
theorem BitReader.alignFrame_refill {r : BitReader} (hw : r.wf) (hbits : r.bitsLeft < 32)
    (hb : 0 < r.bitsLeft → r.bitsLeft < 16 → 2 ≤ r.restBytes.length) :
    ∃ r1, (if 0 < r.bitsLeft then r.ensure 16 else .ok () r) = .ok () r1 ∧ r1.wf ∧ r1.pending = r.pending
      ∧ r1.bitsLeft = if r.bitsLeft = 0 then 0 else r.bitsLeft % 16 + 16 := by
  by_cases h0 : r.bitsLeft = 0
  · exact ⟨r, if_neg (by omega), hw, rfl, by rw [if_pos h0, h0]⟩
  · rw [if_pos (by omega), if_neg h0]
    by_cases hchunk : r.bitsLeft < 16
    · obtain ⟨r1, e, hw1, hbits1, hpending, -⟩ := BitReader.ensure_chunk hw hchunk (hb (by omega) hchunk)
      exact ⟨r1, e, hw1, hpending, by omega⟩
    · exact ⟨r, BitReader.ensure_of_le (by omega), hw, rfl, by omega⟩

theorem BitReader.alignFrame_ok {r : BitReader} (hw : r.wf) (hbits : r.bitsLeft < 32)
    (hb : 0 < r.bitsLeft → r.bitsLeft < 16 → 2 ≤ r.restBytes.length) :
    ∃ r', r.alignFrame = .ok () r' ∧ r'.wf ∧ r'.bitsLeft = (if r.bitsLeft = 0 then 0 else 16)
      ∧ r'.pending = r.pending.drop (r.bitsLeft % 16) := by
  obtain ⟨r1, e, hw1, hpending, hbits1⟩ := BitReader.alignFrame_refill hw hbits hb
  have hmod : r1.bitsLeft % 16 = r.bitsLeft % 16 := by rw [hbits1]; split <;> omega
  have hle : r1.bitsLeft % 16 ≤ r1.bitsLeft := Nat.mod_le _ _
  refine ⟨_, BitReader.alignFrame_of_refilled e (by rw [hbits1]; split <;> omega), BitReader.remove_wf r1 _ hw1 hle, ?_, ?_⟩
  · simp only [BitReader.remove]; rw [hmod, hbits1]; split <;> omega
  · rw [← hpending, BitReader.pending_remove r1 _ hw1 hle, ← hmod, List.drop_left' (by simp)]

theorem BitReader.alignFrame_raises {r : BitReader} (hw : r.wf) (h0 : 0 < r.bitsLeft) (hbits : r.bitsLeft < 16)
    (hb : r.restBytes.length < 2) : ∃ r', r.alignFrame = .raise .unexpectedEndOfStream r' := by
  obtain ⟨r', e⟩ := BitReader.ensure_chunk_raises hw hbits hb
  exact ⟨r', by rw [BitReader.alignFrame, if_pos h0, e]; rfl⟩

/-- Settles O10: ALIGN16 is `alignFrame`, which answers or raises as its one refill does. -/
theorem frameEndRealigns : Obligations.FrameEndRealigns := by
  refine fun s hw hbits => ⟨fun hb => ?_, fun h0 h16 hb => ?_⟩
  · obtain ⟨r, e, hr⟩ := BitReader.alignFrame_ok hw hbits hb
    exact ⟨r, by rw [exec, execAlign16, e]; rfl, hr⟩
  · obtain ⟨r, e⟩ := BitReader.alignFrame_raises hw h0 h16 hb
    exact ⟨r, by rw [exec, execAlign16, e]; rfl⟩

/-! ### Before raw bytes -/

/-- `alignRaw` empties whatever accumulator its refill leaves (R129). -/
theorem BitReader.alignRaw_ok {r : BitReader} (hw : r.wf) (hb : r.bitsLeft = 0 → 2 ≤ r.restBytes.length) :
    ∃ r', r.alignRaw = .ok () r' ∧ r'.bitsLeft = 0 ∧ r'.bitBuf = 0
      ∧ r'.restBytes = if r.bitsLeft = 0 then r.restBytes.drop 2 else r.restBytes := by
  by_cases h0 : r.bitsLeft = 0
  · obtain ⟨r1, e, -, -, -, hrest⟩ := BitReader.ensure_chunk hw (by omega) (hb h0)
    exact ⟨{ r1 with bitsLeft := 0, bitBuf := 0 }, by rw [BitReader.alignRaw, if_pos h0, e]; rfl, rfl, rfl,
      by rw [if_pos h0]; exact hrest⟩
  · exact ⟨{ r with bitsLeft := 0, bitBuf := 0 }, by rw [BitReader.alignRaw, if_neg h0]; rfl, rfl, rfl,
      by rw [if_neg h0]; rfl⟩

theorem BitReader.alignRaw_raises {r : BitReader} (hw : r.wf) (h0 : r.bitsLeft = 0) (hb : r.restBytes.length < 2) :
    ∃ r', r.alignRaw = .raise .unexpectedEndOfStream r' := by
  obtain ⟨r', e⟩ := BitReader.ensure_chunk_raises hw (by omega) hb
  exact ⟨r', by rw [BitReader.alignRaw, if_pos h0, e]; rfl⟩

/-- Settles O11: REALIGN is `alignRaw`, which takes a chunk only for an empty accumulator. -/
theorem rawRealignEmptiesAccumulator : Obligations.RawRealignEmptiesAccumulator := by
  refine fun s hw => ⟨fun hb => ?_, fun h0 hb => ?_⟩
  · obtain ⟨r, e, hr⟩ := BitReader.alignRaw_ok hw hb
    exact ⟨r, by rw [exec, execRealign, e]; rfl, hr⟩
  · obtain ⟨r, e⟩ := BitReader.alignRaw_raises hw h0 hb
    exact ⟨r, by rw [exec, execRealign, e]; rfl⟩

end Sys2Proof.Machine
end

section
/-! RAW stores its bytes in one window write, and a run that the input ends in is cut where the bytes end (R123, R241). -/

namespace Sys2Proof.Machine

/-- RAW's bytes stand in order from the window cursor on, and nothing else in the window changes (R241). -/
theorem exec_raw_writes {s : State} {bytes : List Byte} (hwin : Memory.wf s.win)
    (hfit : s.windowPos + bytes.length ≤ s.cfg.windowSize) :
    ∃ win, exec (.raw bytes) s = .next { s with
        win := win, windowPos := s.windowPos + bytes.length, thisRun := s.thisRun - bytes.length, phase := .run }
      ∧ ∀ a, Cells.find win a =
          if s.windowPos ≤ a ∧ a < s.windowPos + bytes.length then bytes[a - s.windowPos]? else Cells.find s.win a :=
  ⟨_, State.produce_eq s bytes hfit, fun a => Cells.find_splice hwin s.windowPos a bytes⟩

/-- With no byte to come a run of any length gets none, and the reader stays as it is. -/
theorem BitReader.takeBytes_of_exhausted {r : BitReader} (k : Nat) (hw : r.wf) (hb : r.restBytes = []) :
    BitReader.takeBytes k r = ([], r) := by
  cases k with
  | zero => rfl
  | succ k => simp only [BitReader.takeBytes, BitReader.inByte_of_exhausted hw hb]

/-- A run as long as the bytes to come, or longer, gets all of them. -/
theorem BitReader.takeBytes_all {bytes : List Byte} {k : Nat} {r : BitReader} (hw : r.wf) (hb : r.restBytes = bytes)
    (hk : bytes.length ≤ k) : ∃ r', BitReader.takeBytes k r = (bytes, r') ∧ r.PastBytes [] r' := by
  induction bytes generalizing k r with
  | nil => exact ⟨r, BitReader.takeBytes_of_exhausted k hw hb, hw, hb, rfl, rfl⟩
  | cons b bs ih =>
    obtain ⟨k, rfl⟩ := Nat.exists_eq_add_of_le' (Nat.lt_of_lt_of_le bs.length.succ_pos hk)
    obtain ⟨r1, e1, h1⟩ := BitReader.inByte_pastBytes hw hb
    obtain ⟨r2, e2, h2⟩ := ih h1.wf h1.restBytes (Nat.le_of_succ_le_succ hk)
    exact ⟨r2, by simp only [BitReader.takeBytes, e1, e2], h1.trans h2⟩

/-- At a raw run's place the run's next bytes are decoded (R241). -/
theorem decodeAt_rawRun {s : State} (hp : s.phase = .run) (hraw : s.coded = false) :
    decodeAt s.phase (!s.coded) s.decodeContext s.rd = decodeRaw s.thisRun.toNat s.rd := by
  rw [hp, hraw]
  rfl

/-- In a run that the input ends in, the step stores every byte still to come. -/
theorem step_rawRun_stores {s : State} (hp : s.phase = .run) (hraw : s.coded = false) (hw : s.rd.wf)
    (hlen : (s.rd.restBytes.length : Int) < s.thisRun) (hb : s.rd.restBytes ≠ []) :
    ∃ r, s.rd.PastBytes [] r ∧ step s = exec (.raw s.rd.restBytes) { s with rd := r } := by
  obtain ⟨r, e, hpast⟩ := BitReader.takeBytes_all (k := s.thisRun.toNat) hw rfl (by omega)
  have hd : decodeAt s.phase (!s.coded) s.decodeContext s.rd = .instr (.raw s.rd.restBytes) r := by
    obtain ⟨b, bs, hcons⟩ := List.exists_cons_of_ne_nil hb
    rw [decodeAt_rawRun hp hraw, decodeRaw, e, hcons]
  obtain ⟨helement, -⟩ := (stepRunsTheDecodedInstruction s).1 (by simp [hp]) (by simp [hp]) (fun _ => by omega)
  exact ⟨r, hpast, helement _ _ hd⟩

/-- A raise in the run's loop has no field to store (R312). -/
theorem State.storeFields_of_run {s : State} (hp : s.phase = .run) (fields : List Nat) : s.storeFields fields = s := by
  simp only [State.storeFields, hp]

/-- In a run to which no byte comes any more, the step raises (R123). -/
theorem step_rawRun_raises {s : State} (hp : s.phase = .run) (hraw : s.coded = false) (hw : s.rd.wf) (hrun : 0 < s.thisRun)
    (hb : s.rd.restBytes = []) : step s = .next (s.raise .unexpectedEndOfStream) := by
  have hd : decodeAt s.phase (!s.coded) s.decodeContext s.rd = .raise .unexpectedEndOfStream s.rd [] := by
    rw [decodeAt_rawRun hp hraw, decodeRaw, BitReader.takeBytes_of_exhausted _ hw hb]
  obtain ⟨-, -, hraise⟩ := (stepRunsTheDecodedInstruction s).1 (by simp [hp]) (by simp [hp]) (fun _ => hrun)
  calc step s = .next ((s.storeFields []).raise .unexpectedEndOfStream) := hraise _ _ _ hd
    _ = .next (s.raise .unexpectedEndOfStream) := by rw [State.storeFields_of_run hp]

/-- Settles O25: one write of the run's bytes, which at the input's end are those still to come, and then none. -/
theorem rawWritesItsBytes : Obligations.RawWritesItsBytes := by
  refine ⟨fun s bytes => exec_raw_writes, fun s hp hraw hw hlen hwin hfit => ⟨fun hb => ?_, fun hb => ?_⟩⟩
  · obtain ⟨r, hpast, e⟩ := step_rawRun_stores hp hraw hw hlen hb
    obtain ⟨win, ewin, hfind⟩ := exec_raw_writes (s := { s with rd := r }) hwin hfit
    exact ⟨r, win, hpast.restBytes, hpast.wf, e.trans ewin, hfind⟩
  · exact step_rawRun_raises hp hraw hw (by omega) hb

end Sys2Proof.Machine
end

section
/-! The table headers build their tables and a required one must be complete; a table without a code builds empty, which only
the length tree may be (R143, R160, R161, R184, R187). -/

namespace Sys2Proof.Machine

theorem treeFirst_eq (sel : TreeSel) : treeFirst sel = if sel = .mainHigh then 256 else 0 := by cases sel <;> rfl

/-- Lengths stored from index 0 on are read back, symbol 0 first. -/
theorem NatArray.get_setAll_getD {m : NatArray} (hm : NatArray.wf m) {vs : List Nat} {sym : Nat} (h : sym < vs.length) :
    NatArray.get (NatArray.setAll m 0 vs) sym = vs.getD sym 0 := by
  rw [NatArray.get_setAll hm, if_pos (by omega), Nat.sub_zero, List.getD_eq_getElem?_getD]

/-- TREE with a complete pretree goes on to the items, at the first index of the running transmission (R160, R161). -/
theorem exec_tree_complete {s : State} {lens : List Nat}
    (h : (buildTable s.par.earlyReturn .pre (NatArray.setAll s.preTree.len 0 lens) s.preTree.table).2 = .complete) :
    exec (.tree lens) s = .next { s with
      preTree := {
        len := NatArray.setAll s.preTree.len 0 lens
        table := (buildTable s.par.earlyReturn .pre (NatArray.setAll s.preTree.len 0 lens) s.preTree.table).1 }
      lenPos := treeFirst s.treeSel
      phase := .items } := by
  simp only [exec, execTree, requiredBuilt, h, beq_self_eq_true, if_true]

/-- TREE with any other pretree raises, with the lengths stored (R143). -/
theorem exec_tree_raises {s : State} {lens : List Nat}
    (h : (buildTable s.par.earlyReturn .pre (NatArray.setAll s.preTree.len 0 lens) s.preTree.table).2 ≠ .complete) :
    exec (.tree lens) s = .next ({ s with
      preTree := {
        len := NatArray.setAll s.preTree.len 0 lens
        table := (buildTable s.par.earlyReturn .pre (NatArray.setAll s.preTree.len 0 lens) s.preTree.table).1 }
      }.raise .malformedTable) := by
  simp only [exec, execTree, requiredBuilt, beq_iff_eq, if_neg h, raised]

/-- ALIGNEDLENS with a complete table goes on to the main tree's first transmission (R184, R185). -/
theorem exec_alignedLens_complete {s : State} {lens : List Nat}
    (h : (buildTable s.par.earlyReturn .aligned (NatArray.setAll s.alignedTree.len 0 lens) s.alignedTree.table).2 = .complete) :
    exec (.alignedLens lens) s = .next { s with
      alignedTree := {
        len := NatArray.setAll s.alignedTree.len 0 lens
        table := (buildTable s.par.earlyReturn .aligned (NatArray.setAll s.alignedTree.len 0 lens) s.alignedTree.table).1 }
      treeSel := .mainLow
      phase := .tree } := by
  simp only [exec, execAlignedLens, requiredBuilt, h, beq_self_eq_true, if_true]

/-- ALIGNEDLENS with any other table raises, with the lengths stored (R143). -/
theorem exec_alignedLens_raises {s : State} {lens : List Nat}
    (h : (buildTable s.par.earlyReturn .aligned (NatArray.setAll s.alignedTree.len 0 lens) s.alignedTree.table).2 ≠ .complete) :
    exec (.alignedLens lens) s = .next ({ s with
      alignedTree := {
        len := NatArray.setAll s.alignedTree.len 0 lens
        table := (buildTable s.par.earlyReturn .aligned (NatArray.setAll s.alignedTree.len 0 lens) s.alignedTree.table).1 }
      }.raise .malformedTable) := by
  simp only [exec, execAlignedLens, requiredBuilt, beq_iff_eq, if_neg h, raised]

/-- Settles O14: both headers store their lengths first, and the build's result chooses between going on and the raise. -/
theorem tableHeadersBuild : Obligations.TableHeadersBuild := by
  intro s pre ali hpre hali hpreLen haliLen
  refine ⟨fun sym hsym => ?_, fun sym hsym => ?_, fun h => ?_, exec_tree_raises, exec_alignedLens_complete,
    exec_alignedLens_raises⟩
  · exact NatArray.get_setAll_getD hpre.1 (hpreLen ▸ hsym)
  · exact NatArray.get_setAll_getD hali.1 (haliLen ▸ hsym)
  · rw [exec_tree_complete h, treeFirst_eq]

/-- Symbols of length 0 take no code space (R89, R142). -/
theorem codeSpace_of_codeless {t : Tree} {len : NatArray} (hw : NatArray.wf len)
    (h : ∀ sym, sym < maxSyms t → NatArray.get len sym = 0) : codeSpace t len 16 = 0 := by
  obtain ⟨hrise, hnonzero⟩ := hw
  have hnone : len.filter (fun c => c.1 < maxSyms t && c.2 != 0 && c.2 ≤ 16) = [] := by
    refine List.filter_eq_nil_iff.2 fun c hc hcoded => hnonzero c hc ?_
    have hsym : c.1 < maxSyms t := by simp only [Bool.and_eq_true, decide_eq_true_eq] at hcoded; exact hcoded.1.1
    have hget := h c.1 hsym
    rwa [NatArray.get, Cells.find_of_mem hrise hc] at hget
  rw [codeSpace, hnone]
  rfl

/-- A table without a code builds empty (R141, R143). -/
theorem buildTable_of_codeless (early : EarlyReturn) {t : Tree} {h : Huff} (hw : h.wf)
    (hnone : ∀ sym, sym < maxSyms t → NatArray.get h.len sym = 0) : (buildTable early t h.len h.table).2 = .empty := by
  obtain ⟨hlen, htable, hshort⟩ := hw
  exact (kraftDecidesBuild early t h.len h.table hlen htable hshort).1 (codeSpace_of_codeless hlen hnone)

/-- A header of zero lengths leaves its table without a code (R143). -/
theorem buildTable_of_zeros (early : EarlyReturn) {t : Tree} {h : Huff} (hw : h.wf) :
    (buildTable early t (NatArray.setAll h.len 0 (List.replicate (maxSyms t) 0)) h.table).2 = .empty := by
  refine buildTable_of_codeless early (h := { h with len := NatArray.setAll h.len 0 (List.replicate (maxSyms t) 0) })
    (hw.setAll 0 fun v hv => by rw [List.eq_of_mem_replicate hv]; exact Nat.zero_le 16) fun sym hsym => ?_
  rw [NatArray.get_setAll_getD hw.1 (by rwa [List.length_replicate]), List.getD_replicate _ hsym]

/-- The main tree is required: without a code it raises, with the table stored (R143, R185, R312). -/
theorem State.buildMain_of_empty {s : State}
    (h : (buildTable s.par.earlyReturn .main s.mainTree.len s.mainTree.table).2 = .empty) :
    s.buildMain = .next ({ s with
      mainTree := {
        s.mainTree with table := (buildTable s.par.earlyReturn .main s.mainTree.len s.mainTree.table).1 }
      }.raise .malformedTable) := by
  simp [State.buildMain, requiredBuilt, raised, h]

/-- The length tree without a code is marked empty, and the run opens (R187). -/
theorem State.buildLength_of_empty {s : State}
    (h : (buildTable s.par.earlyReturn .length s.lengthTree.len s.lengthTree.table).2 = .empty) :
    s.buildLength = .next { s with
      lengthTree := {
        s.lengthTree with table := (buildTable s.par.earlyReturn .length s.lengthTree.len s.lengthTree.table).1 }
      lengthEmpty := true
      phase := .runOpen } := by
  simp [State.buildLength, lengthBuilt, h]

/-- Settles O13: each of the four builds ends empty, which is not complete, and only the length tree's goes on. -/
theorem onlyTheLengthTreeMayBeEmpty : Obligations.OnlyTheLengthTreeMayBeEmpty := by
  intro s hpre hali hmain hlength
  refine ⟨⟨_, exec_tree_raises ?_, rfl, rfl⟩, ⟨_, exec_alignedLens_raises ?_, rfl, rfl⟩,
    fun hnone => ⟨_, State.buildMain_of_empty ?_, rfl, rfl⟩, fun hnone => ⟨_, State.buildLength_of_empty ?_, rfl, rfl, rfl⟩⟩
  · exact ne_of_eq_of_ne (buildTable_of_zeros (t := .pre) _ hpre) (by decide)
  · exact ne_of_eq_of_ne (buildTable_of_zeros (t := .aligned) _ hali) (by decide)
  · exact buildTable_of_codeless (t := .main) _ hmain hnone
  · exact buildTable_of_codeless (t := .length) _ hlength hnone

end Sys2Proof.Machine
end

section
/-! The items of a tree transmission are runs of one value into its length array, from its position on (R162 to R166); a run that
passes the range is written in full, or with `P_LEN_OVERRUN = fault` up to the range's end (D9). -/

namespace Sys2Proof.Machine

/-- DELTA's value and what it took off the previous length make that length again, modulo 17 (R164). -/
theorem lengthDelta_add_mod (prev z : Nat) : (lengthDelta prev z + z) % 17 = prev % 17 := by
  unfold lengthDelta
  omega

/-- The derived length is the difference modulo 17, also where the difference is negative (R165). -/
theorem lengthDelta_sub_emod (prev d : Nat) : ((lengthDelta prev d : Int) - (prev - d)) % 17 = 0 := by
  unfold lengthDelta
  omega

/-! ### Each item is one run -/

theorem exec_delta (z : Nat) (s : State) :
    exec (.delta z) s = s.writeLens 1 (lengthDelta (NatArray.get s.lenArray s.lenPos) z) := rfl

theorem exec_zeros4 (f : Nat) (s : State) : exec (.zeros4 f) s = s.writeLens (f + 4) 0 := rfl

theorem exec_zeros20 (f : Nat) (s : State) : exec (.zeros20 f) s = s.writeLens (f + 20) 0 := rfl

theorem exec_same (r d : Nat) (s : State) :
    exec (.same r d) s = s.writeLens (r + 4) (lengthDelta (NatArray.get s.lenArray s.lenPos) d) := rfl

/-! ### What a run writes -/

/-- A run written in full: its value at each of its positions, every other entry as before (R166). -/
theorem State.writeLens_writes {s : State} {y : Nat} (v : Nat) (hw : NatArray.wf s.lenArray)
    (hfit : s.par.lenOverrun = .fault → s.lenPos + y ≤ s.rangeEnd) :
    ∃ a, s.writeLens y v = .next { s.withLenArray a with lenPos := s.lenPos + y, phase := .items }
      ∧ ∀ x, NatArray.get a x = if s.lenPos ≤ x ∧ x < s.lenPos + y then v else NatArray.get s.lenArray x :=
  ⟨_, State.writeLens_eq s y v hfit, NatArray.get_fill hw s.lenPos y v⟩

/-- A run past the range with `P_LEN_OVERRUN = fault`: the positions up to the range's end are written, then it raises (D9). -/
theorem State.writeLens_raises {s : State} {y : Nat} (v : Nat) (hw : NatArray.wf s.lenArray)
    (hfault : s.par.lenOverrun = .fault) (hin : s.lenPos ≤ s.rangeEnd) (hpast : s.rangeEnd < s.lenPos + y) :
    ∃ a, s.writeLens y v = .next ({ s.withLenArray a with lenPos := s.rangeEnd }.raise .malformedTable)
      ∧ ∀ x, NatArray.get a x = if s.lenPos ≤ x ∧ x < s.rangeEnd then v else NatArray.get s.lenArray x := by
  have hroom : s.lenPos + (s.rangeEnd - s.lenPos) = s.rangeEnd := by omega
  refine ⟨NatArray.fill s.lenArray s.lenPos (s.rangeEnd - s.lenPos) v, ?_, fun x => ?_⟩
  · rw [State.writeLens, if_pos ⟨hfault, hpast⟩, raised, hroom]
  · rw [NatArray.get_fill hw, hroom]

/-- Settles O15: DELTA is a run of length 1, which fits while the position is in the range. -/
theorem deltaSubtractsModulo17 : Obligations.DeltaSubtractsModulo17 := by
  intro s z hw _ hin
  obtain ⟨a, hexec, hget⟩ := State.writeLens_writes (y := 1) (lengthDelta (NatArray.get s.lenArray s.lenPos) z) hw
    fun _ => hin
  have hat : NatArray.get a s.lenPos = lengthDelta (NatArray.get s.lenArray s.lenPos) z := by
    rw [hget, if_pos (by omega)]
  refine ⟨a, (exec_delta z s).trans hexec, ?_, ?_, fun x hx => ?_⟩
  · rw [hat]; exact lengthDelta_le _ _
  · rw [hat]; exact lengthDelta_add_mod _ _
  · rw [hget, if_neg (by omega)]

/-- Settles O16: both are runs of the value 0, whatever the entries held before. -/
theorem zeroRunsWriteZeros : Obligations.ZeroRunsWriteZeros := by
  refine fun s f hw => ⟨fun _ hfit => ?_, fun _ hfit => ?_⟩
  · rw [exec_zeros4]; exact State.writeLens_writes 0 hw hfit
  · rw [exec_zeros20]; exact State.writeLens_writes 0 hw hfit

/-- Settles O17: the run's one value is derived from the entry at its first position before anything is written. -/
theorem sameRunRepeatsOneValue : Obligations.SameRunRepeatsOneValue := by
  intro s r d hw _ _ hfit
  obtain ⟨a, hexec, hget⟩ := State.writeLens_writes (lengthDelta (NatArray.get s.lenArray s.lenPos) d) hw hfit
  exact ⟨a, _, (exec_same r d s).trans hexec, lengthDelta_le _ _, lengthDelta_sub_emod _ _, hget⟩

/-- ZEROS4, ZEROS20 and SAME are runs of one value: SAME's derived one, and 0 otherwise (R162, R163, R165). -/
theorem exec_run (s : State) {i : Instr} {y : Nat}
    (hi : (∃ f, f < 16 ∧ i = .zeros4 f ∧ y = f + 4) ∨ (∃ f, f < 32 ∧ i = .zeros20 f ∧ y = f + 20)
      ∨ (∃ r d, r < 2 ∧ d < 20 ∧ i = .same r d ∧ y = r + 4)) :
    ∃ v, exec i s = s.writeLens y v
      ∧ (∀ r d, i = .same r d → v ≤ 16 ∧ ((v : Int) - (NatArray.get s.lenArray s.lenPos - d)) % 17 = 0)
      ∧ ((∀ r d, i ≠ .same r d) → v = 0) := by
  obtain ⟨f, -, rfl, rfl⟩ | ⟨f, -, rfl, rfl⟩ | ⟨r, d, -, -, rfl, rfl⟩ := hi
  · exact ⟨0, exec_zeros4 f s, nofun, fun _ => rfl⟩
  · exact ⟨0, exec_zeros20 f s, nofun, fun _ => rfl⟩
  · refine ⟨_, exec_same r d s, fun r' d' h => ?_, fun h => absurd rfl (h r d)⟩
    cases h
    exact ⟨lengthDelta_le _ _, lengthDelta_sub_emod _ _⟩

/-- Settles O18: the instruction is a run of one value, and a run past the range stops at the range's end. -/
theorem overrunFaultsAtTheFirstWritePast : Obligations.OverrunFaultsAtTheFirstWritePast := by
  intro s i y hw hfault hin hpast hi
  obtain ⟨v, hexec, hsame, hzero⟩ := exec_run s hi
  obtain ⟨a, hwrites, hget⟩ := State.writeLens_raises v hw hfault hin.le hpast
  exact ⟨a, v, hexec.trans hwrites, hget, hsame, hzero⟩

end Sys2Proof.Machine
end

section
/-! A block header and what stands around it: the pad byte before it, the registers it sets or the raise of an invalid type, and
the cache values behind an uncompressed one (R180 to R186). -/

namespace Sys2Proof.Machine

/-- At a place that expects one element, the step runs the element decoded there (R49). -/
theorem step_of_decodeAt {s : State} {p : Phase} {i : Instr} {r : BitReader} (hp : s.phase = p) (hidle : p ≠ .idle)
    (hitems : p ≠ .items) (hrun : p ≠ .run) (hd : decodeAt p (!s.coded) s.decodeContext s.rd = .instr i r) :
    step s = exec i { s with rd := r } := by
  subst hp
  obtain ⟨helement, -⟩ := (stepRunsTheDecodedInstruction s).1 hidle (absurd · hitems) (absurd · hrun)
  exact helement i r hd

/-! ### The block header -/

/-- Settles O20: the registers every header writes, then the place its type leads to. -/
theorem blockHeadersOpenTheBlock : Obligations.BlockHeadersOpenTheBlock :=
  fun _ _ => ⟨rfl, rfl, rfl⟩

/-- The types that are no block's, each with the same meaning (R183). -/
theorem exec_blockInstr_invalid {t : Nat} (ht : t ∈ [0, 4, 5, 6, 7]) (len : BitVec 24) (s : State) :
    exec (blockInstr t len) s = invalidBlock (BitVec.ofNat 3 t) len s := by
  simp only [List.mem_cons, List.not_mem_nil, or_false] at ht
  obtain rfl | rfl | rfl | rfl | rfl := ht <;> rfl

/-- At its place a block header of any type is taken with exactly its 27 bits (R84, R182). -/
theorem step_blockHead {s : State} {t : Nat} (ht : t < 8) (len : BitVec 24) {rest : List Bool} (hp : s.phase = .blockHead)
    (hw : s.rd.wf) (hb : s.rd.pending = blockBits t len ++ rest) :
    ∃ r, r.pending = rest ∧ step s = exec (blockInstr t len) { s with rd := r } := by
  obtain ⟨r, hd, -, hrest⟩ := decodeBlock_answers ht len hw hb
  exact ⟨r, hrest, step_of_decodeAt hp (by decide) (by decide) (by decide) hd⟩

/-- Settles O21: the five types have one meaning, the raise with the block registers set, in the reader behind the header. -/
theorem invalidBlockTypesRaise : Obligations.InvalidBlockTypesRaise := by
  refine fun s len => ⟨fun p hp => ?_, fun t rest ht hw hp hb => ?_⟩
  · simp only [List.mem_cons, List.not_mem_nil, or_false] at hp
    obtain rfl | rfl | rfl | rfl | rfl := hp <;> rfl
  · have hlt : t < 8 := by
      simp only [List.mem_cons, List.not_mem_nil, or_false] at ht
      omega
    obtain ⟨r, hrest, hstep⟩ := step_blockHead hlt len hp hw hb
    exact ⟨r, hrest, hstep.trans (exec_blockInstr_invalid ht len _)⟩

/-! ### The pad byte -/

theorem State.padDue_iff (s : State) : s.padDue = true ↔ s.blockType = 3 ∧ s.blockLength.toNat % 2 = 1 := by
  simp only [State.padDue, Bool.and_eq_true, beq_iff_eq]

/-- While the frame wants bytes, an exhausted block leads to the next header, or to the pad byte due before it (R181, R256). -/
theorem step_blockLoop_exhausted {s : State} (hp : s.phase = .blockLoop) (htodo : 0 < s.todo) (hrem : s.blockRemaining = 0) :
    step s = .next (s.goto (if s.padDue then .pad else .blockHead)) := by
  rw [step_eq_answer, fetch, hp]
  exact (if_pos htodo).trans (if_pos hrem)

/-- Settles O22: the header of an exhausted block is reached through PAD when it is due, and PAD takes one byte. -/
theorem padByteOnlyAfterOddRawBlock : Obligations.PadByteOnlyAfterOddRawBlock := by
  refine ⟨fun s p => rfl, fun s hp htodo hrem => ?_, fun s b rest hp hw hb => ?_⟩
  · simp only [step_blockLoop_exhausted hp htodo hrem, State.padDue_iff, State.goto]
  · obtain ⟨r, e, hpast⟩ := BitReader.inByte_pastBytes hw hb
    have hd : decodePad s.rd = .instr (.pad b) r := by rw [decodePad, e]; rfl
    exact ⟨r, hpast.restBytes, hpast.bitBuf, hpast.bitsLeft,
      step_of_decodeAt hp (by decide) (by decide) (by decide) hd⟩

/-! ### The cache values -/

/-- The high part of an append counts its value times the range of the low part. -/
theorem toNat_append_eq_add {m n : Nat} (high : BitVec m) (low : BitVec n) :
    (high ++ low).toNat = low.toNat + high.toNat * 2 ^ n := by
  rw [BitVec.toNat_append, ← Nat.shiftLeft_add_eq_or_of_lt low.isLt, Nat.shiftLeft_eq, Nat.add_comm]

/-- A little-endian value is its bytes' sum by their weights (R65). -/
theorem le32_toNat (b0 b1 b2 b3 : Byte) :
    (le32 b0 b1 b2 b3).toNat = b0.toNat + b1.toNat * 2 ^ 8 + b2.toNat * 2 ^ 16 + b3.toNat * 2 ^ 24 := by
  simp only [le32, toNat_append_eq_add]
  omega

/-- Settles O23: the twelve bytes are read one by one, and each four of them are one value. -/
theorem rawHeaderLoadsTheCache : Obligations.RawHeaderLoadsTheCache := by
  refine ⟨fun s v0 v1 v2 => rfl, fun s b0 b1 b2 b3 b4 b5 b6 b7 b8 b9 b10 b11 rest hp hw hb => ?_⟩
  obtain ⟨r, e, hpast⟩ := BitReader.readBytes_pastBytes (bytes := [b0, b1, b2, b3, b4, b5, b6, b7, b8, b9, b10, b11]) hw hb
  have hd : decodeRvals s.rd
      = .instr (.rvals (le32 b0 b1 b2 b3) (le32 b4 b5 b6 b7) (le32 b8 b9 b10 b11)) r := by
    rw [decodeRvals, show BitReader.readBytes 12 s.rd = _ from e]
    rfl
  exact ⟨r, _, _, _, step_of_decodeAt hp (by decide) (by decide) (by decide) hd, hpast.restBytes,
    le32_toNat b0 b1 b2 b3, le32_toNat b4 b5 b6 b7, le32_toNat b8 b9 b10 b11⟩

end Sys2Proof.Machine
end

section
/-! Literals and lengths: one byte at the window cursor, and the length of a match from its header, with the long form refused
while the length tree is empty (R201, R202). -/

namespace Sys2Proof.Machine

/-! ### LIT -/

/-- LIT is RAW's window write with one byte (R201, R241). -/
theorem exec_lit (m : Byte) (s : State) : exec (.lit m) s = exec (.raw [m]) s := rfl

/-- Settles O24: RAW's window write, of which a run of one byte leaves the one index. -/
theorem literalWritesOneByte : Obligations.LiteralWritesOneByte := by
  intro s m hwin hpos
  obtain ⟨win, hexec, hfind⟩ := exec_raw_writes (bytes := [m]) hwin hpos
  refine ⟨win, (exec_lit m s).trans hexec, fun a => ?_⟩
  rw [hfind, List.length_singleton]
  by_cases ha : a = s.windowPos
  · rw [if_pos ⟨ha.ge, by omega⟩, if_pos ha, ha, Nat.sub_self]; rfl
  · rw [if_neg (by omega), if_neg ha]

/-! ### LEN -/

/-- LEN's long form, with a length tree that has a code (R202). -/
theorem exec_lenLong_of_coded {s : State} (lsym : Nat) (he : s.lengthEmpty = false) :
    exec (.lenLong lsym) s = .next { s with mLen := 7 + lsym + 2, phase := .offset } :=
  if_neg (by simp [he])

/-- LEN's long form, with the empty length tree (R202). -/
theorem exec_lenLong_of_empty {s : State} (lsym : Nat) (he : s.lengthEmpty = true) :
    exec (.lenLong lsym) s = .next (s.raise .protocolViolation) :=
  if_pos he

/-- A raise at LEN has no field to store (R312). -/
theorem State.storeFields_of_length {s : State} (hp : s.phase = .length) (fields : List Nat) : s.storeFields fields = s := by
  simp only [State.storeFields, hp]

/-- Decoding LEN refuses header 7 with the reader as it found it, while the length tree is empty (R202). -/
theorem decodeAt_length_of_empty {s : State} (hp : s.phase = .length) (h7 : lengthHeader s.mSym = 7)
    (he : s.lengthEmpty = true) :
    decodeAt s.phase (!s.coded) s.decodeContext s.rd = .raise .protocolViolation s.rd [] := by
  rw [hp]
  exact (decodeLen_long s.decodeContext s.rd h7).trans (if_pos he)

/-- While the length tree is empty, the step at LEN raises for header 7 and reads no bit (R202). -/
theorem step_length_of_empty {s : State} (hp : s.phase = .length) (h7 : lengthHeader s.mSym = 7) (he : s.lengthEmpty = true) :
    step s = .next (s.raise .protocolViolation) := by
  obtain ⟨-, -, hraise⟩ := (stepRunsTheDecodedInstruction s).1 (by simp [hp]) (by simp [hp]) (by simp [hp])
  calc step s = .next ((s.storeFields []).raise .protocolViolation) := hraise _ _ _ (decodeAt_length_of_empty hp h7 he)
    _ = .next (s.raise .protocolViolation) := by rw [State.storeFields_of_length hp]

/-- Settles O27: the two forms of LEN by their meanings, and the refusal at its place by what decoding answers there. -/
theorem lengthHeaderGivesTheLength : Obligations.LengthHeaderGivesTheLength :=
  fun _s _lh lsym => ⟨rfl, exec_lenLong_of_coded lsym, exec_lenLong_of_empty lsym,
    fun he hp h7 => step_length_of_empty hp h7 he⟩

end Sys2Proof.Machine
end

section
/-! Matches and their extensions: each form is its offset and its cache, then the one copy, which runs, is refused before it
writes, or waits for the extension; the cache then holds the offset as `r0` (R204 to R217). -/

namespace Sys2Proof.Machine

/-! ### The copy runs, or waits -/

/-- Settles O28: every form is the shared match in the state with its offset and cache, which copies when its copy can run. -/
theorem matchesCopy : Obligations.MatchesCopy :=
  fun _i _s _lh _len _hwf hm hlen hx hruns => exec_match_copies hm hlen hx hruns

/-- Settles O29: every form is the shared match, which waits at the length 257 in delta mode. -/
theorem longDeltaMatchesAwaitTheirExtension : Obligations.LongDeltaMatchesAwaitTheirExtension := by
  intro i s lh _ hm h7 hlen hdelta
  rw [exec_match i s lh hm]
  exact State.matchWith_waits (s.withCache (matchCache i s)) _ lh ((if_pos h7).trans hlen) hdelta

/-- An extension is the copy with the offset resolved before, of the length it adds to (R211). -/
theorem exec_extension_copies {i : Instr} {x : Nat} (s : State) (hx : extensionValue i = some x) :
    exec i s = { s with mLen := s.mLen + x }.copyMatch s.mOff (s.mLen + x) :=
  exec_extension i s x hx

/-- Settles O30: the four forms differ in the value they add only, and the copy of the longer match runs. -/
theorem extensionLengthensTheMatch : Obligations.ExtensionLengthensTheMatch := by
  intro i s x hx hruns
  rw [exec_extension_copies s hx]
  exact State.copyMatch_runs { s with mLen := s.mLen + x } _ _ hruns

/-! ### The checks -/

/-- The causes a match is refused for are the failures of its checks (R212 to R214). -/
theorem State.not_offsetLegal_iff (s : State) (off len : Nat) :
    ¬ s.OffsetLegal off len ↔ s.cfg.windowSize < s.windowPos + len ∨ off = 0
      ∨ (s.windowPos < off ∧ s.delivered < off ∧ s.cfg.refDataSize < off - s.windowPos)
      ∨ (s.windowPos < off ∧ s.cfg.windowSize < off - s.windowPos) := by
  unfold State.OffsetLegal
  omega

/-- A match form that fails a check raises with its offset and cache in place, and nothing written (R212 to R214, R312). -/
theorem exec_match_refused {i : Instr} {s : State} {lh len : Nat} (hm : matchHeader i = some lh)
    (hlen : len = (if lh = 7 then s.mLen else lh + 2)) (hx : ¬ (len = 257 ∧ s.cfg.isDelta = true))
    (hl : ¬ s.OffsetLegal (matchOffset i s) len) :
    exec i s = .next ((s.offsetRead i (matchOffset i s) len).raise .matchOutOfBounds) := by
  rw [exec_match i s lh hm, State.matchWith_copies (s.withCache (matchCache i s)) _ lh len hlen hx]
  exact State.copyMatch_refused (s.offsetRead i (matchOffset i s) len) _ len hl

/-- An extension that fails a check raises with its length in place, and nothing written (R211 to R214, R312). -/
theorem exec_extension_refused {i : Instr} {s : State} {x : Nat} (hx : extensionValue i = some x)
    (hl : ¬ s.OffsetLegal s.mOff (s.mLen + x)) :
    exec i s = .next ({ s with mLen := s.mLen + x }.raise .matchOutOfBounds) := by
  rw [exec_extension_copies s hx]
  exact State.copyMatch_refused { s with mLen := s.mLen + x } _ _ hl

/-- Settles O31: each cause fails the checks, which come before the copy of a match and of its extension. -/
theorem matchChecksRaiseBeforeWriting : Obligations.MatchChecksRaiseBeforeWriting := by
  intro i s len off hcause
  have hl := (State.not_offsetLegal_iff s off len).2 hcause
  refine ⟨fun lh _ hm hoff hlen hx => ?_, fun x hx hoff hlen => ?_⟩
  · subst hoff
    exact exec_match_refused hm hlen hx hl
  · subst hoff hlen
    exact exec_extension_refused hx hl

/-! ### The offset used -/

/-- Every explicit offset fits a cache register: its slot's base is bounded, and it has at most 17 extra bits (R94, R95). -/
theorem explicitOffset_lt {slot v : Nat} (hs : slot < 290) (hv : v < 2 ^ 17) : explicitOffset slot v < 2 ^ 32 := by
  have hbase := positionBase_le slot hs
  unfold explicitOffset
  omega

/-- A value of a slot's extra bits has at most 17 bits (R94). -/
theorem lt_of_lt_extraBits {slot v : Nat} (hv : v < 2 ^ extraBits slot) : v < 2 ^ 17 :=
  hv.trans_le (Nat.pow_le_pow_right (by decide) (extraBits_le slot))

/-- The offset of every match fits a cache register (R30, R204 to R209). -/
theorem matchOffset_lt {i : Instr} (s : State) (hi : WellFormed i) : matchOffset i s < 2 ^ 32 := by
  unfold WellFormed wellFormed at hi
  cases i
  case matchSlot0 => exact s.r0.isLt
  case matchSlot1 => exact s.r1.isLt
  case matchSlot2 => exact s.r2.isLt
  case matchVerbatim slot lh v | matchAlignedShort slot lh v =>
    simp only [Bool.and_eq_true, decide_eq_true_eq] at hi
    obtain ⟨⟨⟨-, -⟩, hslot⟩, hv⟩ := hi
    exact explicitOffset_lt (by omega) (lt_of_lt_extraBits hv)
  case matchAlignedLong slot lh v a =>
    cases a with
    | none =>
      simp only [Bool.and_eq_true, decide_eq_true_eq] at hi
      obtain ⟨⟨⟨-, -⟩, hslot⟩, hv⟩ := hi
      exact explicitOffset_lt (by omega) (by omega)
    | some a =>
      simp only [Bool.and_eq_true, decide_eq_true_eq] at hi
      obtain ⟨⟨⟨⟨-, -⟩, hslot⟩, hv⟩, ha⟩ := hi
      have hle := extraBits_le slot
      have hv14 : v < 2 ^ 14 := hv.trans_le (Nat.pow_le_pow_right (by decide) (by omega))
      exact explicitOffset_lt hslot (by omega)
  all_goals exact Nat.one_lt_two_pow (by decide)

/-- The cache of every match form begins with the offset it uses (R204 to R207, R210). -/
theorem matchCache_r0 {i : Instr} (s : State) (hi : WellFormed i) : (matchCache i s).1.toNat = matchOffset i s := by
  have hlt := matchOffset_lt s hi
  cases i
  case matchSlot0 | matchSlot1 | matchSlot2 => rfl
  all_goals exact (BitVec.toNat_ofNat _ 32).trans (Nat.mod_eq_of_lt hlt)

/-- The copy of a match keeps the cache's first register and the offset, whether it runs, is refused or stops (R215, R312). -/
theorem State.copyMatch_keeps_offset {s t : State} {off len : Nat} (h : s.copyMatch off len = .next t) :
    t.r0 = s.r0 ∧ t.mOff = s.mOff := by
  obtain ⟨-, e⟩ | ⟨-, win, -, e | e⟩ := State.copyMatch_cases s off len <;> cases e.symm.trans h
  all_goals exact ⟨rfl, rfl⟩

/-- The shared match keeps the cache's first register and latches the offset, whether it waits or copies (R200, R211). -/
theorem State.matchWith_latches_offset {s t : State} {off lh : Nat} (h : s.matchWith off lh = .next t) :
    t.r0 = s.r0 ∧ t.mOff = off := by
  obtain e | e := State.matchWith_cases s off lh <;> rw [e] at h
  · cases h; exact ⟨rfl, rfl⟩
  · exact State.copyMatch_keeps_offset h

/-- Settles O32: the cache begins with the offset used before the shared match, which keeps it in every outcome. -/
theorem usedOffsetBecomesR0 : Obligations.UsedOffsetBecomesR0 := by
  intro i s t hi hm h
  obtain ⟨lh, hm⟩ := Option.ne_none_iff_exists'.1 hm
  rw [exec_match i s lh hm] at h
  obtain ⟨hr0, hoff⟩ := State.matchWith_latches_offset h
  refine ⟨?_, hoff⟩
  calc t.r0.toNat = (matchCache i s).1.toNat := congrArg BitVec.toNat hr0
    _ = matchOffset i s := matchCache_r0 s hi

end Sys2Proof.Machine
end

section
/-! The E8 filter as R282 writes it: the in-place loop at an index behind a part already scanned does what the recursive scan does
with the part that is left. -/

namespace Sys2Proof.Machine

/-- Within the last ten bytes the loop ends (R284). -/
theorem e8Loop_tail {i : Nat} {buf : List Byte} (F cur0 : Int) (turns : Nat) (h : buf.length ≤ i + e8Tail) :
    e8Loop F cur0 turns i buf = buf := by
  cases turns with
  | zero => rfl
  | succ turns => rw [e8Loop, if_neg (by omega)]

/-- A turn of the loop at a byte other than 0xE8 passes over it. -/
theorem e8Loop_skip {b : Byte} {rest : List Byte} (F cur0 : Int) (turns : Nat) (done : List Byte) (hb : b ≠ 0xE8)
    (hl : e8Tail ≤ rest.length) :
    e8Loop F cur0 (turns + 1) done.length (done ++ b :: rest) = e8Loop F cur0 turns (done.length + 1) (done ++ b :: rest) := by
  rw [e8Loop, if_pos (by simp only [List.length_append, List.length_cons]; omega), if_pos (by simpa using hb)]

/-- The value of four bytes, summed by their weights as R282 reads them. -/
theorem le32_eq_ofNat (b1 b2 b3 b4 : Byte) :
    BitVec.ofNat 32 (b1.toNat + b2.toNat * 2 ^ 8 + b3.toNat * 2 ^ 16 + b4.toNat * 2 ^ 24) = le32 b1 b2 b3 b4 := by
  rw [← le32_toNat, BitVec.ofNat_toNat, BitVec.setWidth_eq]

/-- A turn of the loop at an 0xE8 leaves the operand that the scan gives, and goes on behind it (R282, R283). -/
theorem e8Loop_hit {b1 b2 b3 b4 : Byte} {rest : List Byte} (F cur0 : Int) (turns : Nat) (done : List Byte)
    (hl : e8Tail ≤ rest.length + 4) :
    e8Loop F cur0 (turns + 1) done.length (done ++ 0xE8 :: b1 :: b2 :: b3 :: b4 :: rest)
      = e8Loop F cur0 turns (done.length + 5)
          (done ++ 0xE8 :: (e8Operand F (cur0 + done.length) b1 b2 b3 b4 ++ rest)) := by
  rw [e8Loop, if_pos (by simp only [List.length_append, List.length_cons]; omega), if_neg (by simp)]
  simp only [List.getD_eq_getElem?_getD, List.getElem?_append_right (Nat.le_add_right _ _), Nat.add_sub_cancel_left,
    List.getElem?_cons_succ, List.getElem?_cons_zero, Option.getD_some, le32_eq_ofNat, e8Operand, bytesOf32_div]
  split <;> simp

/-- The loop behind a scanned part scans the rest, when it has a turn for every byte before the tail. -/
theorem e8Loop_eq_scan (F cur0 : Int) (turns : Nat) (done buf : List Byte) (h : buf.length ≤ turns + e8Tail) :
    e8Loop F cur0 turns done.length (done ++ buf) = done ++ e8Scan F buf (buf.length - e8Tail) (cur0 + done.length) := by
  induction turns generalizing done buf with
  | zero => rw [show buf.length - e8Tail = 0 by omega, e8Scan_zero]; rfl
  | succ turns ih =>
    by_cases htail : buf.length ≤ e8Tail
    · rw [e8Loop_tail _ _ _ (by rw [List.length_append]; omega), show buf.length - e8Tail = 0 by omega, e8Scan_zero]
    · have he : e8Tail = 10 := rfl
      obtain ⟨b0, b1, b2, b3, b4, rest, rfl⟩ := exists_five (by omega : 5 ≤ buf.length)
      simp only [List.length_cons] at h htail
      by_cases hb : b0 = 0xE8
      · subst hb
        have hnext := ih (done ++ 0xE8 :: e8Operand F (cur0 + done.length) b1 b2 b3 b4) rest (by omega)
        rw [e8Loop_hit _ _ _ _ (by omega), e8Scan_hit _ _ _ _ _ _ _ _ (by simp only [List.length_cons]; omega),
          show (0xE8 :: b1 :: b2 :: b3 :: b4 :: rest).length - e8Tail - 5 = rest.length - e8Tail by
            simp only [List.length_cons]; omega]
        simpa [e8Operand_length, Int.add_assoc] using hnext
      · have hnext := ih (done ++ [b0]) (b1 :: b2 :: b3 :: b4 :: rest) (by simp only [List.length_cons]; omega)
        rw [e8Loop_skip _ _ _ _ hb (by simp only [List.length_cons]; omega),
          show (b0 :: b1 :: b2 :: b3 :: b4 :: rest).length - e8Tail = (b1 :: b2 :: b3 :: b4 :: rest).length - e8Tail + 1 by
            simp only [List.length_cons]; omega,
          e8Scan_skip _ _ _ _ _ hb (by simp)]
        simpa [Int.add_assoc] using hnext

/-- The filter is the loop from the first byte on, with a turn for every byte (R282). -/
theorem e8Filter_eq_e8Loop (F cur : Int) (buf : List Byte) : e8Filter F cur buf = e8Loop F cur buf.length 0 buf := by
  have hloop := e8Loop_eq_scan F cur buf.length [] buf (Nat.le_add_right _ _)
  rw [List.length_nil, List.nil_append, List.nil_append] at hloop
  rw [hloop, e8Filter, Int.ofNat_zero, Int.add_zero]

end Sys2Proof.Machine
end

section
/-! The frame's course: its prefix, its start and size, the charging of its runs, the check of its bytes, and its end, where it is
staged, advanced and delivered (R251 to R262, R281, R285, R292, R293). -/

namespace Sys2Proof.Machine

/-- A place without an element runs its sequencing step (R49). -/
theorem step_of_sequence {s : State} {o : Answer} (h : fetch s = .sequence o) : step s = o := by
  rw [step_eq_answer, h, Fetched.answer_sequence]

/-! ### The frame's prefix and start -/

/-- Settles O19: the place after the filler is the one `afterFiller` names, and the hint is the two halves, appended. -/
theorem framePrefixElements : Obligations.FramePrefixElements := by
  refine fun s f hi lo => ⟨rfl, rfl, hi ++ lo, ?_, rfl⟩
  rw [toNat_append_eq_add, Nat.add_comm]

theorem State.resetDue_eq_false {s : State} (h : s.cfg.resetInterval = 0 ∨ s.frame.toNat % s.cfg.resetInterval ≠ 0) :
    s.resetDue = false := by
  simpa only [State.resetDue, Bool.and_eq_false_iff, bne_eq_false_iff_eq, beq_eq_false_iff_ne] using h

theorem seqFrameLoop_ends {s : State} (h : s.endFrame ≤ s.frame.toNat) : seqFrameLoop s = .next s.complete :=
  if_neg (Nat.not_lt.2 h)

theorem seqFrameLoop_starts {s : State} (h : s.frame.toNat < s.endFrame) (hr : s.resetDue = false) :
    seqFrameLoop s = .next s.frameStart := by
  rw [seqFrameLoop, if_pos h, hr, if_neg Bool.false_ne_true]

/-- Settles O42: at the end frame the command completes; before it, with no reset due, the frame starts. -/
theorem framesRunUntilTheEndFrame : Obligations.FramesRunUntilTheEndFrame := by
  intro s hp
  have hstep : step s = seqFrameLoop s := step_of_sequence (by rw [fetch, hp])
  refine ⟨fun hend => ?_, fun hlt hr => ?_⟩
  · exact hstep.trans (seqFrameLoop_ends hend)
  · exact hstep.trans (seqFrameLoop_starts hlt (State.resetDue_eq_false hr))

theorem State.frameSize_undeclared {s : State} (h : s.cfg.totalLength = 0) : s.frameSize = 32768 :=
  if_neg fun hc => hc.1 h

theorem State.frameSize_declared {s : State} (h : s.cfg.totalLength ≠ 0) :
    s.frameSize = min 32768 ((s.cfg.totalLength : Int) - s.delivered) := by
  have hbytes : (frameBytes : Int) = 32768 := rfl
  unfold State.frameSize
  split <;> omega

/-- Settles O43: the size is `frameSize`, in its two cases. -/
theorem frameSizeIsBoundedByTheLength : Obligations.FrameSizeIsBoundedByTheLength := fun s hp =>
  ⟨s.frameSize, step_of_sequence (by rw [fetch, hp]; rfl), State.frameSize_undeclared, State.frameSize_declared⟩

/-! ### The block loop and its runs -/

/-- The run's budget, as the natural number it is while the frame's is not overdrawn (R256). -/
theorem seqRunOpen_eq {s : State} (h : 0 ≤ s.todo) :
    ∃ k : Nat, (k : Int) = min (s.blockRemaining : Int) s.todo
      ∧ seqRunOpen s = .next { s with
        thisRun := k, todo := s.todo - k, blockRemaining := s.blockRemaining - k, phase := .run } := by
  obtain ⟨k, hk⟩ := Int.eq_ofNat_of_zero_le (show 0 ≤ min (s.blockRemaining : Int) s.todo by omega)
  have hleft : ((s.blockRemaining : Int) - k).toNat = s.blockRemaining - k := Int.toNat_sub _ _
  refine ⟨k, hk.symm, ?_⟩
  rw [seqRunOpen]
  simp only [hk, hleft]

/-- A run that ends has its overrun taken from the block while the block still holds as much; none is taken when the run met
its budget (R257). -/
theorem seqRunEnd_charges {s : State} {excess : Nat} (hrun : s.thisRun = -(excess : Int)) (h : excess ≤ s.blockRemaining) :
    seqRunEnd s = .next { s with blockRemaining := s.blockRemaining - excess, phase := .blockLoop } := by
  unfold seqRunEnd
  by_cases hneg : s.thisRun < 0
  · have hleft : ((s.blockRemaining : Int) + s.thisRun).toNat = s.blockRemaining - excess := by omega
    rw [if_pos hneg, if_neg (by omega), hleft]
  · obtain rfl : excess = 0 := by omega
    rw [if_neg hneg]
    rfl

theorem seqRunEnd_raises {s : State} {excess : Nat} (hrun : s.thisRun = -(excess : Int)) (h : s.blockRemaining < excess) :
    seqRunEnd s = raised s .blockOverrun := by
  rw [seqRunEnd, if_pos (by omega), if_pos (by omega)]

/-- Settles O44: the budget at the run's opening, then the two ends of a run by its overrun. -/
theorem runsAreChargedToBlockAndFrame : Obligations.RunsAreChargedToBlockAndFrame := by
  refine ⟨fun s hp htodo => ?_, fun s excess hp hrun => ?_⟩
  · obtain ⟨k, hk, hopen⟩ := seqRunOpen_eq htodo
    exact ⟨k, hk, (step_of_sequence (by rw [fetch, hp])).trans hopen⟩
  · have hfetch : fetch s = .sequence (seqRunEnd s) := by
      rw [fetch, hp]
      exact if_neg (by omega)
    exact ⟨fun hle => (step_of_sequence hfetch).trans (seqRunEnd_charges hrun hle),
      fun hlt => (step_of_sequence hfetch).trans (seqRunEnd_raises hrun hlt)⟩

/-- Settles O45: the branches of the block loop, but for the header of an exhausted block. -/
theorem frameMustGetExactlyItsBytes : Obligations.FrameMustGetExactlyItsBytes := by
  intro s hp
  have hstep : step s = seqBlockLoop s := step_of_sequence (by rw [fetch, hp])
  rw [hstep, seqBlockLoop]
  refine ⟨fun hdone hsize => ?_, fun hdone hsize => ?_, fun htodo hrem => ?_⟩
  · rw [if_neg (Int.not_lt.2 hdone), if_pos hsize, raised]
  · rw [if_neg (Int.not_lt.2 hdone), if_neg (not_not_intro hsize), State.goto]
  · rw [if_pos htodo, if_neg hrem, State.goto]

/-! ### The frame's end -/

/-- Settles O47: the check stands first in the frame's end. -/
theorem stagingMustBeDrained : Obligations.StagingMustBeDrained := by
  intro s hp hstaged
  have hstep : step s = seqStage s := step_of_sequence (by rw [fetch, hp])
  rw [hstep, seqStage, if_pos hstaged, raised]

theorem toInt_ne_zero_iff (v : Word32) : v.toInt ≠ 0 ↔ v ≠ 0 :=
  (BitVec.toInt_inj (x := v) (y := 0)).not

/-- The gate in the frame's size (R281). -/
theorem State.filterOn_iff {s : State} {size : Nat} (hfs : s.fs = size) :
    s.filterOn = true ↔ s.intelStarted = true ∧ s.intelFileSize.toInt ≠ 0 ∧ s.frame.toNat ≤ 32768 ∧ 10 < size := by
  simp only [State.filterOn, Bool.and_eq_true, bne_iff_ne, decide_eq_true_eq, hfs, Int.ofNat_lt,
    toInt_ne_zero_iff, and_assoc]
  rfl

/-- What is staged of a frame's window bytes: their filtered form when the gate holds, else the bytes (R262, R281). -/
def State.stagedBytes (s : State) (slice : List Byte) : List Byte :=
  if s.filterOn then e8Filter (s32 s.intelFileSize) s.intelCurPos slice else slice

theorem State.stagedBytes_length (s : State) (slice : List Byte) : (s.stagedBytes slice).length = slice.length := by
  unfold State.stagedBytes
  split
  · exact e8Scan_length _ _ _ _
  · rfl

/-- What is staged, by the loop of R282. -/
theorem State.stagedBytes_eq {s : State} {slice : List Byte} (hfs : s.fs = slice.length) :
    s.stagedBytes slice =
      if s.intelStarted = true ∧ s.intelFileSize.toInt ≠ 0 ∧ s.frame.toNat ≤ 32768 ∧ 10 < slice.length then
        e8Loop s.intelFileSize.toInt s.intelCurPos slice.length 0 slice
      else slice := by
  simp only [State.stagedBytes, State.filterOn_iff hfs, e8Filter_eq_e8Loop, s32]

/-- The state with a frame staged from index 0 on, and the cumulative position past it when there is a hint (R262, R285). -/
def State.withStaged (s : State) (staged : List Byte) : State :=
  { s with
    stage := Cells.splice s.stage 0 staged
    stageLen := staged.length
    stagePtr := 0
    intelCurPos := if s.intelFileSize.toInt ≠ 0 then s.intelCurPos + staged.length else s.intelCurPos }

/-- A frame whose window bytes all hold a value is staged (R262). -/
theorem State.stageFrame_eq {s : State} {slice : List Byte} (hwin : Memory.wf s.win) (hfs : s.fs = slice.length)
    (hslice : ∀ j, j < slice.length → Cells.find s.win (s.framePos + j) = slice[j]?) :
    s.stageFrame = some (s.withStaged (s.stagedBytes slice)) := by
  have hread : Cells.readRange s.win s.framePos slice.length = some slice :=
    (Cells.readRange_eq_some hwin _ _ _).2 ⟨rfl, hslice⟩
  simp only [State.stageFrame, State.withStaged, State.stagedBytes_length, toInt_ne_zero_iff, hfs, Int.toNat_natCast, hread]
  rfl

/-- With the window cursor at the frame's end, the frame's end brings both cursors there, wraps them and counts the frame
(R261). -/
theorem State.advanceFrame_eq {s : State} (hend : (s.windowPos : Int) = s.framePos + s.fs) :
    s.advanceFrame = { s with
      framePos := if s.windowPos = s.cfg.windowSize then 0 else s.windowPos
      windowPos := if s.windowPos = s.cfg.windowSize then 0 else s.windowPos
      frame := BitVec.ofNat 32 (s.frame.toNat + 1) } := by
  have hcursor : ((s.framePos : Int) + s.fs).toNat = s.windowPos := by omega
  have hframe : s.frame + 1 = BitVec.ofNat 32 (s.frame.toNat + 1) := by
    rw [BitVec.ofNat_add, BitVec.ofNat_toNat, BitVec.setWidth_eq]
    rfl
  simp only [State.advanceFrame, wrapCursor, hcursor, hframe]

/-- A staged frame is read back at its own indexes. -/
theorem Cells.find_splice_zero {stage : Memory} (hstage : Memory.wf stage) (staged : List Byte) {j : Nat}
    (hj : j < staged.length) : Cells.find (Cells.splice stage 0 staged) j = staged[j]? := by
  rw [Cells.find_splice hstage, if_pos ⟨Nat.zero_le j, by omega⟩, Nat.sub_zero]

/-- A delivery of the first bytes of the staging buffer, all of which hold a value, appends and counts them (R293). -/
theorem State.deliver_first {s : State} {bytes : List Byte} {k : Nat} (hstage : Memory.wf s.stage) (hptr : s.stagePtr = 0)
    (hk : bytes.length = k) (hbytes : ∀ i, i < k → Cells.find s.stage i = bytes[i]?) :
    s.deliver k = some { s with out := s.out ++ bytes, stagePtr := k, delivered := s.delivered + k } := by
  have hread : Cells.readRange s.stage s.stagePtr k = some bytes := by
    rw [hptr, Cells.readRange_eq_some hstage]
    simpa only [Nat.zero_add] using And.intro hk hbytes
  rw [State.deliver, hread, hptr, Nat.zero_add]
  rfl

/-- The frame's end with the staging drained, by what its three parts give (R262, R261, R293). -/
theorem seqStage_eq {s s1 s3 : State} {k : Nat} (hdrained : s.stagePtr = s.stageLen) (hstage : s.stageFrame = some s1)
    (hk : k = min s1.want s1.stageLen) (hdeliver : s1.advanceFrame.deliver k = some s3) :
    seqStage s = .next { s3 with want := s3.want - k, phase := .frameLoop } := by
  subst hk
  rw [seqStage, if_neg (not_not_intro hdrained), hstage]
  simp only [State.advanceFrame] at hdeliver ⊢
  rw [hdeliver]

/-- Settles O48: the frame is staged whole, the cursors advance, and the wanted part of what was just staged is delivered. -/
theorem framesAreStagedAdvancedAndDelivered : Obligations.FramesAreStagedAdvancedAndDelivered := by
  intro s size k slice staged hp hdrained hwin hstage hfs hpos hlen hslice hstaged hk
  subst hlen
  rw [← State.stagedBytes_eq hfs] at hstaged
  have hlength : staged.length = slice.length := by rw [hstaged, State.stagedBytes_length]
  have hread : ∀ j, j < slice.length → Cells.find (Cells.splice s.stage 0 staged) j = staged[j]? :=
    fun j hj => Cells.find_splice_zero hstage staged (by omega)
  refine ⟨Cells.splice s.stage 0 staged, ?_, hread⟩
  have hframe : s.stageFrame = some (s.withStaged staged) := by rw [hstaged, State.stageFrame_eq hwin hfs hslice]
  have hadvance := State.advanceFrame_eq (s := s.withStaged staged) (show (s.windowPos : Int) = s.framePos + s.fs by omega)
  have hdeliver := State.deliver_first (s := (s.withStaged staged).advanceFrame) (bytes := staged.take k) (k := k)
    (Cells.wf_splice hstage 0 staged) rfl (by rw [List.length_take]; omega)
    (fun i hi => by rw [List.getElem?_take_of_lt hi]; exact hread i (by omega))
  have hwant : k = min (s.withStaged staged).want (s.withStaged staged).stageLen := by rw [hk, ← hlength]; rfl
  calc step s = seqStage s := step_of_sequence (by rw [fetch, hp])
    _ = _ := seqStage_eq hdrained hframe hwant hdeliver
    _ = _ := by rw [hadvance, ← hlength]; rfl

end Sys2Proof.Machine
end

section
/-! What the E8 filter changes: a byte that the scan changes belongs to the operand of an 0xE8 that it still examined (R282, R284). -/

namespace Sys2Proof.Machine

/-- The scan changes a byte only within the four after an 0xE8 among the bytes left to examine. -/
theorem e8Scan_changes_only_operands {F cur : Int} {buf : List Byte} {left i : Nat}
    (h : (e8Scan F buf left cur)[i]? ≠ buf[i]?) : ∃ j, buf[j]? = some 0xE8 ∧ j < left ∧ j < i ∧ i ≤ j + 4 := by
  fun_induction e8Scan F buf left cur generalizing i with
  | case1 => exact absurd rfl h
  | case2 b1 b2 b3 b4 rest left cur hleft ih =>
    obtain hlt | hge := Nat.lt_or_ge i 5
    · have hpos : i ≠ 0 := by rintro rfl; exact h rfl
      exact ⟨0, rfl, by omega, by omega, by omega⟩
    · obtain ⟨k, rfl⟩ := Nat.exists_eq_add_of_le' hge
      have hbehind : (e8Operand F cur b1 b2 b3 b4 ++ e8Scan F rest (left - 5) (cur + 5))[k + 4]?
          = (e8Scan F rest (left - 5) (cur + 5))[k]? := by
        rw [List.getElem?_append_right (by rw [e8Operand_length]; omega), e8Operand_length, Nat.add_sub_cancel]
      obtain ⟨j, hj, hexamined, hafter, hnear⟩ := ih fun hsame => h (hbehind.trans hsame)
      exact ⟨j + 5, hj, by omega, by omega, by omega⟩
  | case3 b0 b1 b2 b3 b4 rest left cur hleft hb ih =>
    cases i with
    | zero => exact absurd rfl h
    | succ k =>
      obtain ⟨j, hj, hexamined, hafter, hnear⟩ := ih h
      exact ⟨j + 1, hj, by omega, by omega, by omega⟩
  | case4 => exact absurd rfl h

/-- A byte the filter changes is one of the four after an 0xE8 that stands before the tail. -/
theorem e8Filter_changes_only_operands {F cur : Int} {buf : List Byte} {i : Nat}
    (h : (e8Filter F cur buf)[i]? ≠ buf[i]?) :
    ∃ j, buf[j]? = some 0xE8 ∧ j + e8Tail < buf.length ∧ j < i ∧ i ≤ j + 4 := by
  obtain ⟨j, hj, hexamined, hafter, hnear⟩ := e8Scan_changes_only_operands h
  exact ⟨j, hj, by omega, hafter, hnear⟩

/-- Settles O49: the recursive scan and the in-place loop agree behind every part already scanned, so from the first byte on. -/
theorem filterIsTheScanOfTheSpec : Obligations.FilterIsTheScanOfTheSpec := e8Filter_eq_e8Loop

/-- Settles O50: the last six bytes and a frame without such an 0xE8 are kept because a changed byte has one before the tail and at
most four bytes back. -/
theorem filterTouchesOnlyOperands : Obligations.FilterTouchesOnlyOperands := by
  intro F cur buf
  refine ⟨e8Scan_length F buf _ cur, fun i hi => ?_, fun i => e8Filter_changes_only_operands, fun hnone => ?_⟩
  · by_contra hchanged
    obtain ⟨j, -, htail, -, hnear⟩ := e8Filter_changes_only_operands hchanged
    have he : e8Tail = 10 := rfl
    omega
  · refine List.ext_getElem? fun i => ?_
    by_contra hchanged
    obtain ⟨j, hj, htail, -, -⟩ := e8Filter_changes_only_operands hchanged
    exact hnone j htail hj

end Sys2Proof.Machine
end

section
/-! The host's commands: INIT's tests and the decoder it makes, what DECOMPRESS checks and delivers first, ONESHOT as the two of
them, and the binding of the source (R290 to R294, R296, R311, R319, R342). -/

namespace Sys2Proof.Machine

/-! ### INIT -/

/-- INIT's tests, as the operands they refuse (R290, R311). -/
theorem initRefused_iff (par : Params) (wb ri hint len : Int) (delta : Bool) (dict : Option (List Byte)) :
    initRefused par wb ri hint len delta dict = true ↔
      (delta = false ∧ ¬ (15 ≤ wb ∧ wb ≤ 21)) ∨ (delta = true ∧ ¬ (17 ≤ wb ∧ wb ≤ 25)) ∨ ri < 0 ∨ len < 0 ∨ hint < 1
        ∨ (dict ≠ none ∧ delta = false ∧ par.dictNonDelta = .refuse) ∨ 2 ^ wb.toNat < (dict.getD []).length := by
  simp only [initRefused, ← Bool.decide_and, Bool.or_eq_true, Bool.and_eq_true, Bool.not_eq_true', decide_eq_true_eq,
    decide_eq_false_iff_not, beq_iff_eq, Option.isSome_iff_ne_none, or_assoc, and_assoc]

theorem exec_init_refused {s : State} {wb ri hint len : Int} {delta : Bool} {dict : Option (List Byte)}
    (h : initRefused s.par wb ri hint len delta dict = true) :
    exec (.init wb ri hint len delta dict) s = .next (s.answerError .configurationError) := if_pos h

theorem exec_init_accepted {s : State} {wb ri hint len : Int} {delta : Bool} {dict : Option (List Byte)}
    (h : initRefused s.par wb ri hint len delta dict = false) :
    exec (.init wb ri hint len delta dict) s = .next (s.newDecoder wb ri hint len delta dict).complete :=
  if_neg (Bool.not_eq_true _ ▸ h)

/-- Settles O35: each illegal operand is one of the tests that refuse an INIT. -/
theorem initRefusesIllegalOperands : Obligations.InitRefusesIllegalOperands := fun s wb ri hint len delta dict h =>
  exec_init_refused ((initRefused_iff s.par wb ri hint len delta dict).2 h)

/-- Settles O34: legal operands fail every test, and the window is the dictionary stored up to the window's end. -/
theorem initMakesTheInitialDecoder : Obligations.InitMakesTheInitialDecoder := by
  intro s wb ri hint len delta dict hplain hdelta hri hlen hhint hnondelta hfits
  have hok : initRefused s.par wb ri hint len delta dict = false := by
    rw [← Bool.not_eq_true, initRefused_iff]
    rintro (⟨hd, hwb⟩ | ⟨hd, hwb⟩ | h | h | h | ⟨hdict, hd, hpar⟩ | h)
    · exact hwb (hplain hd)
    · exact hwb (hdelta hd)
    · omega
    · omega
    · omega
    · cases (hnondelta hdict hd).symm.trans hpar
    · omega
  exact ⟨dictionaryWindow wb.toNat (dict.getD []), exec_init_accepted hok, fun a => Cells.find_enumerate _ a _⟩

/-! ### DECOMPRESS -/

theorem exec_decompress_present {s : State} (hpresent : s.present = true) (n : Int) :
    exec (.decompress n) s = s.decompress n := if_pos hpresent

/-- A latched error is the answer (R295). -/
theorem State.decompress_latched {s : State} {e : ErrKind} (h : s.err = some e) (n : Int) :
    s.decompress n = .next (s.answerError e) := by
  rw [State.decompress, h]

theorem State.decompress_negative {s : State} {n : Int} (herr : s.err = none) (hn : n < 0) :
    s.decompress n = .next (s.raise .configurationError) := by
  simp only [State.decompress, herr, if_pos hn, raised]

theorem State.lengthDeclared_iff (s : State) :
    s.lengthDeclared = true ↔ s.cfg.totalLength ≠ 0 ∨ s.par.undeclaredLength = .zeroIsZero := by
  simp [State.lengthDeclared]

theorem State.decompress_beyond {s : State} {n : Int} (herr : s.err = none) (hn : 0 ≤ n)
    (hdeclared : s.cfg.totalLength ≠ 0 ∨ s.par.undeclaredLength = .zeroIsZero)
    (hbeyond : (s.cfg.totalLength : Int) < s.delivered + n) :
    s.decompress n = .next (s.raise .unexpectedEndOfStream) := by
  simp only [State.decompress, herr, if_neg (Int.not_lt.2 hn), (State.lengthDeclared_iff s).2 hdeclared, hbeyond,
    decide_true, Bool.and_self, if_true, raised]

/-- A request that passes the tests begins its delivery (R292, D18). -/
theorem State.decompress_begins {s : State} {n : Nat} (herr : s.err = none)
    (hwithin : s.cfg.totalLength = 0 ∧ s.par.undeclaredLength = .zeroMeansUndeclared
      ∨ s.delivered + n ≤ s.cfg.totalLength) : s.decompress n = s.beginDelivery n := by
  have hpasses : ¬ (s.lengthDeclared && decide ((s.cfg.totalLength : Int) < s.delivered + (n : Int))) = true := by
    rw [Bool.and_eq_true, State.lengthDeclared_iff, decide_eq_true_eq]
    rintro ⟨hdeclared, hbeyond⟩
    obtain ⟨hzero, hmeans⟩ | hle := hwithin
    · exact hdeclared.elim (fun h => h hzero) fun h => by cases hmeans.symm.trans h
    · omega
  simp only [State.decompress, herr, if_neg (Int.not_lt.2 (Int.natCast_nonneg n)), if_neg hpasses, Int.toNat_natCast]

/-- A delivery of staged bytes that all hold a value appends and counts them (R293). -/
theorem State.deliver_staged {s : State} {bytes : List Byte} {k : Nat} (hstage : Memory.wf s.stage) (hk : bytes.length = k)
    (hbytes : ∀ j, j < k → Cells.find s.stage (s.stagePtr + j) = bytes[j]?) :
    s.deliver k = some { s with out := s.out ++ bytes, stagePtr := s.stagePtr + k, delivered := s.delivered + k } := by
  rw [State.deliver, (Cells.readRange_eq_some hstage _ _ _).2 ⟨hk, hbytes⟩]
  rfl

theorem State.deliver_zero (s : State) : s.deliver 0 = some s := by
  simp [State.deliver, Cells.readRange, Cells.takeFrom]

/-- A request for no more than is staged is met at once (R292). -/
theorem State.beginDelivery_met {s s1 : State} {n : Nat} (hn : n = min (s.stageLen - s.stagePtr) n)
    (hdeliver : s.deliver n = some s1) : s.beginDelivery n = .next s1.complete := by
  simp only [State.beginDelivery, ← hn, hdeliver, Nat.sub_self, if_true]

/-- A request for more than is staged goes on to the frame loop (R292). -/
theorem State.beginDelivery_goes_on {s s1 : State} {n k : Nat} (hk : k = min (s.stageLen - s.stagePtr) n) (hlt : k < n)
    (hdeliver : s.deliver k = some s1) :
    s.beginDelivery n = .next { s1 with
      want := n - k, endFrame := endFrameFor s1.par s1.delivered (n - k), phase := .frameLoop } := by
  simp only [State.beginDelivery, ← hk, hdeliver, if_neg (Nat.sub_ne_zero_of_lt hlt)]

/-- Settles O37: the tests of DECOMPRESS in their order; zero-is-zero declares a length of 0. -/
theorem decompressChecksItsRequest : Obligations.DecompressChecksItsRequest := by
  intro s n hpresent herr
  rw [exec_decompress_present hpresent]
  refine ⟨State.decompress_negative herr, State.decompress_beyond herr, fun hn hzero hpar => ?_⟩
  exact State.decompress_beyond herr (by omega) (.inr hpar) (by omega)

/-- Settles O38: the staged part is delivered, which meets the request or leaves the rest to the frame loop. -/
theorem decompressDeliversStagedBytesFirst : Obligations.DecompressDeliversStagedBytesFirst := by
  intro s n k bytes hpresent herr honeshot hstage hwithin hk hlen hbytes
  have hdeliver := State.deliver_staged hstage hlen hbytes
  rw [exec_decompress_present hpresent, State.decompress_begins herr hwithin]
  refine ⟨fun hmet => ?_, fun hlt => ?_⟩
  · subst hmet
    rw [State.beginDelivery_met hk hdeliver]
    simp only [State.complete, honeshot, Bool.false_eq_true, if_false]
  · have htotal : s.delivered + k + (n - k) = s.delivered + n := by omega
    have hgoes := State.beginDelivery_goes_on hk hlt hdeliver
    simp only [endFrameFor, htotal] at hgoes
    exact hgoes

/-! ### ONESHOT -/

theorem exec_oneshot_refused {s : State} {data : List Byte} {dict : Option (List Byte)} {size : Int}
    (h : initRefused s.par s.par.oneshotWindowBits 0 1 size (oneshotDelta s.par dict) dict = true) :
    exec (.oneshot data dict size) s = .next (s.answerError .configurationError) := if_pos h

/-- An accepted ONESHOT is a request of a decoder of its own, which has delivered and staged nothing yet (R296). -/
theorem exec_oneshot_begins {s : State} {data : List Byte} {dict : Option (List Byte)} {size : Nat}
    (h : initRefused s.par s.par.oneshotWindowBits 0 1 size (oneshotDelta s.par dict) dict = false) :
    exec (.oneshot data dict size) s = (s.oneshotDecoder data dict size).beginDelivery size := by
  have hwithin : 0 + size ≤ (size : Int).toNat := by omega
  calc exec (.oneshot data dict size) s
      = (s.oneshotDecoder data dict size).decompress size := if_neg (Bool.not_eq_true _ ▸ h)
    _ = (s.oneshotDecoder data dict size).beginDelivery size := State.decompress_begins rfl (.inr hwithin)

/-- Settles O39: the decoder's staging is empty, so that a request of 0 bytes is met and any other goes on. -/
theorem oneshotInitialisesAndDecodes : Obligations.OneshotInitialisesAndDecodes := by
  intro s data dict size
  refine ⟨exec_oneshot_refused, fun hok hzero => ?_, fun hok hpos => ?_⟩
  · subst hzero
    exact (exec_oneshot_begins (size := 0) hok).trans (State.beginDelivery_met rfl (State.deliver_zero _))
  · obtain ⟨n, rfl⟩ := Int.eq_ofNat_of_zero_le (Int.le_of_lt hpos)
    have hgoes := (s.oneshotDecoder data dict n).beginDelivery_goes_on (n := n) (Nat.zero_min n).symm (by omega)
      (State.deliver_zero _)
    have htotal : (s.oneshotDecoder data dict n).delivered + (n - 0) = n := Nat.zero_add n
    simp only [endFrameFor, htotal] at hgoes
    exact (exec_oneshot_begins hok).trans hgoes

/-! ### The binding of the source -/

theorem step_bind {s : State} {source : List Byte} {rest : List HostCmd} (hp : s.phase = .idle)
    (hq : s.queue = .bind source :: rest) : step s = seqBind source { s with queue := rest } := by
  rw [step_of_idle hp, fetchCommand, hq]
  rfl

theorem seqBind_noDecoder {s : State} (source : List Byte) (hpresent : s.present = false) :
    seqBind source s = .refused .noDecoder := if_neg (Bool.not_eq_true _ ▸ hpresent)

theorem seqBind_again {s : State} (source : List Byte) (hpresent : s.present = true) (hbound : s.bound = true) :
    seqBind source s = .refused .sourceSwapped := by
  rw [seqBind, if_pos hpresent, if_pos hbound]

theorem seqBind_binds {s : State} (source : List Byte) (hpresent : s.present = true) (hbound : s.bound = false) :
    seqBind source s = .next { s with rd := { s.rd with input := source }, bound := true } := by
  rw [seqBind, if_pos hpresent, hbound, if_neg Bool.false_ne_true]

/-- Settles O40: the test for a decoder, then for a source already bound. -/
theorem theHostNeedsADecoderAndOneSource : Obligations.TheHostNeedsADecoderAndOneSource := by
  intro s n source rest
  refine ⟨fun hpresent => if_neg (Bool.not_eq_true _ ▸ hpresent), fun hp hq => ?_⟩
  rw [step_bind hp hq]
  exact ⟨fun hpresent => seqBind_noDecoder source hpresent, fun hpresent hbound => seqBind_again source hpresent hbound,
    fun hpresent hbound => seqBind_binds (s := { s with queue := rest }) source hpresent hbound⟩

end Sys2Proof.Machine
end

section
/-! Taking an error: a step or a request either takes none, or raises it in a state that differs from the one before only in the
reader, in locals, and in what the place's own element had written by then (R295, R312, R320). -/

namespace Sys2Proof.Machine

/-- Nothing taken: the latch stands and no error is returned. -/
def State.TakesNoError (s t : State) : Prop := t.err = s.err ∧ ∀ e, t.results ≠ s.results ++ [.error e]

theorem State.TakesNoError.of_silent {s t : State} (herr : t.err = s.err) (hresults : t.results = s.results) :
    s.TakesNoError t :=
  ⟨herr, fun e he => by simp [hresults] at he⟩

theorem State.takesNoError_complete (s : State) : s.TakesNoError s.complete := by
  refine ⟨rfl, fun e he => ?_⟩
  simp only [State.complete, List.append_cancel_left_eq, List.cons.injEq, and_true] at he
  split at he <;> cases he

/-- `u` is `s` as a step from it may have left it when it raises: nothing returned yet, and of the decoder only the reader,
locals and the registers that the place's own element writes may differ. -/
structure State.RaisesIn (s u : State) : Prop where
  results      : u.results = s.results := by rfl
  out          : u.out = s.out := by rfl
  delivered    : u.delivered = s.delivered := by rfl
  frame        : u.frame = s.frame := by rfl
  windowPos    : u.windowPos = s.windowPos := by rfl
  framePos     : u.framePos = s.framePos := by rfl
  headerRead   : u.headerRead = s.headerRead := by rfl
  lengthEmpty  : u.lengthEmpty = s.lengthEmpty := by rfl
  intel        : u.intelFileSize = s.intelFileSize ∧ u.intelCurPos = s.intelCurPos ∧ u.intelStarted = s.intelStarted := by
    exact ⟨rfl, rfl, rfl⟩
  staging      : u.stage = s.stage ∧ u.stageLen = s.stageLen ∧ u.stagePtr = s.stagePtr := by exact ⟨rfl, rfl, rfl⟩
  cache        : s.phase ≠ .offset → u.r0 = s.r0 ∧ u.r1 = s.r1 ∧ u.r2 = s.r2 := by exact fun _ => ⟨rfl, rfl, rfl⟩
  window       : s.phase ≠ .offset → s.phase ≠ .ext → u.win = s.win := by exact fun _ _ => rfl
  block        : s.phase ≠ .blockHead →
    u.blockType = s.blockType ∧ u.blockLength = s.blockLength ∧ u.blockRemaining = s.blockRemaining := by
      exact fun _ => ⟨rfl, rfl, rfl⟩
  pre          : s.phase ≠ .tree → u.preTree = s.preTree := by exact fun _ => rfl
  aligned      : s.phase ≠ .alignedLens → u.alignedTree = s.alignedTree := by exact fun _ => rfl
  transmitted  : s.phase ≠ .items → u.mainTree = s.mainTree ∧ u.lengthTree = s.lengthTree := by exact fun _ => ⟨rfl, rfl⟩

/-- `t` comes of `s` without an error, or by a raise. -/
def State.ErrsByRaise (s t : State) : Prop := s.TakesNoError t ∨ ∃ e u, s.RaisesIn u ∧ t = u.raise e

theorem State.errsByRaise_of_silent {s t : State} (herr : t.err = s.err) (hresults : t.results = s.results) :
    s.ErrsByRaise t := .inl (.of_silent herr hresults)

theorem State.RaisesIn.errsByRaise {s u : State} (h : s.RaisesIn u) (e : ErrKind) : s.ErrsByRaise (u.raise e) :=
  .inr ⟨e, u, h, rfl⟩

theorem State.errsByRaise_raise (s : State) (e : ErrKind) : s.ErrsByRaise (s.raise e) :=
  State.RaisesIn.errsByRaise {} e

/-- An error taken is latched and returned. -/
theorem State.ErrsByRaise.latches {s t : State} {e : ErrKind} (h : s.ErrsByRaise t)
    (hresults : t.results = s.results ++ [.error e]) : t.err = some e := by
  obtain ⟨-, hnone⟩ | ⟨e', u, hu, rfl⟩ := h
  · exact absurd hresults (hnone e)
  · rw [State.raise_results, hu.results] at hresults
    simp only [List.append_cancel_left_eq, List.cons.injEq, Result.error.injEq, and_true] at hresults
    rw [State.raise_err, hresults]

/-! ### The elements -/

/-- A copy raises with the window as it was, or with the bytes stored before the one without a value (R212 to R215). -/
theorem State.copyMatch_errsByRaise {s u t : State} {off len : Nat} (h : u.copyMatch off len = .next t)
    (herr : u.err = s.err) (hu : ∀ win, s.RaisesIn { u with win := win }) : s.ErrsByRaise t := by
  obtain ⟨-, e⟩ | ⟨-, win, -, e | e⟩ := State.copyMatch_cases u off len <;> rw [e] at h <;> cases h
  · exact (hu u.win).errsByRaise _
  · exact State.errsByRaise_of_silent herr (hu u.win).results
  · exact (hu win).errsByRaise _

theorem State.produce_errsByRaise {s t : State} {bytes : List Byte} (h : s.produce bytes = .next t) : s.ErrsByRaise t := by
  unfold State.produce at h
  split at h <;> cases h
  exact State.errsByRaise_of_silent rfl rfl

/-- A run of code lengths is written to the transmission's own array only. -/
theorem State.raisesIn_withLenArray {s : State} (hp : s.phase = .items) (a : NatArray) (x : Nat) :
    s.RaisesIn { s.withLenArray a with lenPos := x } := by
  unfold State.withLenArray
  split <;> exact { transmitted := fun h => absurd hp h }

theorem State.writeLens_errsByRaise {s t : State} {y v : Nat} (hp : s.phase = .items) (h : s.writeLens y v = .next t) :
    s.ErrsByRaise t := by
  obtain ⟨n, rfl | ⟨e, rfl⟩⟩ := State.writeLens_cases h
  · exact State.errsByRaise_of_silent (State.withLenArray_err s _) (State.withLenArray_results s _)
  · exact (State.raisesIn_withLenArray hp _ _).errsByRaise e

theorem State.onRead_goto_errsByRaise {α : Type} {s t : State} {x : ReadResult α} {p : Phase}
    (h : s.onRead x (fun _ s1 => .next (s1.goto p)) = .next t) : s.ErrsByRaise t := by
  obtain ⟨v, r, -, h⟩ | ⟨e, r, -, rfl⟩ := State.onRead_cases h
  · cases h; exact State.errsByRaise_of_silent rfl rfl
  · exact State.RaisesIn.errsByRaise {} e

theorem execTree_errsByRaise {s t : State} {lens : List Nat} (hp : s.phase = .tree) (h : execTree lens s = .next t) :
    s.ErrsByRaise t := by
  obtain ⟨table, -, rfl | ⟨e, rfl⟩⟩ := execTree_cases h
  · exact State.errsByRaise_of_silent rfl rfl
  · exact State.RaisesIn.errsByRaise { pre := fun h => absurd hp h } e

theorem execAlignedLens_errsByRaise {s t : State} {lens : List Nat} (hp : s.phase = .alignedLens)
    (h : execAlignedLens lens s = .next t) : s.ErrsByRaise t := by
  obtain ⟨table, -, rfl | ⟨e, rfl⟩⟩ := execAlignedLens_cases h
  · exact State.errsByRaise_of_silent rfl rfl
  · exact State.RaisesIn.errsByRaise { aligned := fun h => absurd hp h } e

theorem exec_match_errsByRaise {i : Instr} {s t : State} {lh : Nat} (hp : s.phase = .offset) (hm : matchHeader i = some lh)
    (h : exec i s = .next t) : s.ErrsByRaise t := by
  rw [exec_match i s lh hm] at h
  obtain e | e := State.matchWith_cases (s.withCache (matchCache i s)) (matchOffset i s) lh <;> rw [e] at h
  · cases h; exact State.errsByRaise_of_silent rfl rfl
  · exact State.copyMatch_errsByRaise h rfl fun win =>
      { cache := fun h => absurd hp h, window := fun h => absurd hp h }

theorem exec_extension_errsByRaise {i : Instr} {s t : State} {x : Nat} (hp : s.phase = .ext)
    (hx : extensionValue i = some x) (h : exec i s = .next t) : s.ErrsByRaise t := by
  rw [exec_extension i s x hx] at h
  exact State.copyMatch_errsByRaise (u := { s with mLen := s.mLen + x }) h rfl fun win => { window := fun _ h => absurd hp h }

/-- Whatever element stands at the place reached. -/
theorem exec_errsByRaise {i : Instr} {s t : State} (hi : placeOf i = s.phase) (hne : placeOf i ≠ .idle)
    (h : exec i s = .next t) : s.ErrsByRaise t := by
  cases hm : matchHeader i with
  | some lh =>
    have hp : placeOf i = .offset := (placeOf_eq_offset_iff i).2 (by simp [hm])
    exact exec_match_errsByRaise (hi.symm.trans hp) hm h
  | none =>
    cases hx : extensionValue i with
    | some x =>
      have hp : placeOf i = .ext := (placeOf_eq_ext_iff i).2 (by simp [hx])
      exact exec_extension_errsByRaise (hi.symm.trans hp) hx h
    | none =>
      cases i <;> simp only [matchHeader, extensionValue, reduceCtorEq] at hm hx <;> simp only [placeOf, ne_eq, not_true] at hne
      case raw | lit => exact State.produce_errsByRaise h
      case delta | zeros4 | zeros20 | same => exact State.writeLens_errsByRaise hi.symm h
      case realign | align16 => exact State.onRead_goto_errsByRaise h
      case tree => exact execTree_errsByRaise hi.symm h
      case alignedLens => exact execAlignedLens_errsByRaise hi.symm h
      case lenLong =>
        obtain ⟨e, rfl⟩ | rfl := execLenLong_cases h
        · exact s.errsByRaise_raise e
        · exact State.errsByRaise_of_silent rfl rfl
      case blockInvalid0 | blockInvalid4 | blockInvalid5 | blockInvalid6 | blockInvalid7 =>
        cases h
        exact State.RaisesIn.errsByRaise { block := fun h => absurd hi.symm h } _
      all_goals cases h; exact State.errsByRaise_of_silent rfl rfl

/-- The fields stored before a reading raised are the place's own element's. -/
theorem State.raisesIn_storeFields (s : State) (fields : List Nat) : s.RaisesIn (s.storeFields fields) := by
  unfold State.storeFields
  split
  · next hp => exact { pre := fun h => absurd hp h }
  · next hp => exact { aligned := fun h => absurd hp h }
  · next hp => exact { block := fun h => absurd hp h }
  · exact {}

/-- The reader is none of the registers that a raise is held to keep. -/
theorem State.RaisesIn.of_withReader {s u : State} {r : BitReader} (h : (s.withReader r).RaisesIn u) : s.RaisesIn u :=
  { h with }

theorem fetchElement_errsByRaise {s t : State} (hp : s.phase ≠ .idle) (h : (fetchElement s).answer = .next t) :
    s.ErrsByRaise t := by
  obtain ⟨i, r, -, hi, he⟩ | ⟨m, r, -, rfl⟩ | ⟨e, r, fields, -, rfl⟩ | ⟨-, rfl⟩ := fetchElement_cases h
  · obtain hnone | ⟨e, u, hu, rfl⟩ := exec_errsByRaise (s := s.withReader r) hi (hi ▸ hp) he
    · exact .inl hnone
    · exact hu.of_withReader.errsByRaise e
  · exact State.errsByRaise_of_silent rfl rfl
  · exact ((s.withReader r).raisesIn_storeFields fields).of_withReader.errsByRaise e
  · exact State.errsByRaise_of_silent rfl rfl

/-! ### The sequencing steps -/

theorem seqFrameLoop_errsByRaise {s t : State} (h : seqFrameLoop s = .next t) : s.ErrsByRaise t := by
  obtain rfl | ⟨e, rfl⟩ | rfl | rfl := seqFrameLoop_cases h
  · exact .inl s.takesNoError_complete
  · exact s.errsByRaise_raise e
  · exact State.errsByRaise_of_silent rfl rfl
  · exact State.errsByRaise_of_silent rfl rfl

theorem seqBlockLoop_errsByRaise {s t : State} (h : seqBlockLoop s = .next t) : s.ErrsByRaise t := by
  obtain ⟨-, rfl | rfl | rfl⟩ | ⟨e, rfl⟩ | ⟨-, rfl⟩ := seqBlockLoop_cases h
  case inr.inl => exact s.errsByRaise_raise e
  all_goals exact State.errsByRaise_of_silent rfl rfl

/-- A failed build leaves its table in the tree just transmitted (R312). -/
theorem seqTreeEnd_errsByRaise {s t : State} (hp : s.phase = .items) (h : seqTreeEnd s = .next t) : s.ErrsByRaise t := by
  obtain rfl | h | h := seqTreeEnd_cases h
  · exact State.errsByRaise_of_silent rfl rfl
  · obtain ⟨table, -, rfl | ⟨e, rfl⟩⟩ := State.buildMain_cases h
    · exact State.errsByRaise_of_silent rfl rfl
    · exact State.RaisesIn.errsByRaise { transmitted := fun h => absurd hp h } e
  · obtain ⟨table, -, ⟨empty, rfl⟩ | ⟨e, rfl⟩⟩ := State.buildLength_cases h
    · exact State.errsByRaise_of_silent rfl rfl
    · exact State.RaisesIn.errsByRaise { transmitted := fun h => absurd hp h } e

theorem seqRunEnd_errsByRaise {s t : State} (h : seqRunEnd s = .next t) : s.ErrsByRaise t := by
  obtain ⟨e, rfl⟩ | ⟨left, -, rfl⟩ := seqRunEnd_cases h
  · exact s.errsByRaise_raise e
  · exact State.errsByRaise_of_silent rfl rfl

theorem seqStage_errsByRaise {s t : State} (h : seqStage s = .next t) : s.ErrsByRaise t := by
  obtain ⟨e, rfl⟩ | ⟨s1, s3, hstage, hdeliver, rfl⟩ := seqStage_cases h
  · exact s.errsByRaise_raise e
  · obtain ⟨staged, curPos, -, rfl⟩ := State.stageFrame_cases hstage
    obtain ⟨bytes, -, rfl⟩ := State.deliver_cases hdeliver
    exact State.errsByRaise_of_silent rfl rfl

/-- Inside a command every error is taken by a raise (R312). -/
theorem step_errsByRaise {s t : State} (hp : s.phase ≠ .idle) (h : step s = .next t) : s.ErrsByRaise t := by
  obtain h | ⟨-, h⟩ | ⟨-, h⟩ | ⟨-, h⟩ | ⟨-, h⟩ | ⟨-, h⟩ | ⟨hitems, h⟩ | ⟨-, h⟩ := step_cases hp h
  · exact fetchElement_errsByRaise hp h
  · exact seqFrameLoop_errsByRaise h
  · cases h; exact State.errsByRaise_of_silent rfl rfl
  · exact seqBlockLoop_errsByRaise h
  · cases h; exact State.errsByRaise_of_silent rfl rfl
  · exact seqStage_errsByRaise h
  · exact seqTreeEnd_errsByRaise hitems h
  · exact seqRunEnd_errsByRaise h

/-- Settles O52: the latch changes only by a raise, whose state keeps all that the place's own element does not write. -/
theorem errorsEndTheCommand : Obligations.ErrorsEndTheCommand := by
  intro s t hp h hnew
  obtain ⟨hcfg, -⟩ := configurationIsFixed s t hp h
  obtain ⟨-, hinput, -⟩ := streamsOnlyAdvance s t hp h
  obtain ⟨hkept, -⟩ | ⟨e, u, hu, rfl⟩ := step_errsByRaise hp h
  · exact absurd hkept hnew
  obtain ⟨hsize, hpos, harmed⟩ := hu.intel
  obtain ⟨hstage, hlen, hptr⟩ := hu.staging
  exact ⟨e, rfl, rfl, by rw [State.raise_results, hu.results], rfl, hu.out, hu.delivered, hinput, hcfg, hu.frame,
    hu.windowPos, hu.framePos, hu.headerRead, hu.lengthEmpty, hsize, hpos, harmed, hstage, hlen, hptr, hu.cache, hu.window,
    hu.block, hu.pre, hu.aligned, hu.transmitted⟩

/-! ### The latch -/

/-- A request returns the latched error, or takes its own by a raise (R292, R295). -/
theorem State.decompress_latches {s t : State} {n : Int} {e : ErrKind} (h : s.decompress n = .next t)
    (hresults : t.results = s.results ++ [.error e]) : t.err = some e := by
  obtain ⟨e', he', rfl⟩ | ⟨-, ⟨e', rfl⟩ | h⟩ := State.decompress_cases h
  · have hsame : e' = e := by simpa [State.answerError] using hresults
    rw [State.answerError_err, he', hsame]
  · exact (s.errsByRaise_raise e').latches hresults
  · obtain ⟨s1, hdeliver, hend⟩ := State.beginDelivery_cases h
    obtain ⟨bytes, -, rfl⟩ := State.deliver_cases hdeliver
    obtain rfl | ⟨want, endFrame, rfl⟩ := hend
    · exact absurd hresults ((State.takesNoError_complete _).2 e)
    · exact (State.errsByRaise_of_silent rfl rfl).latches hresults

/-- Settles O36: the latch answers before anything else; an error is returned by the latch or by the raise that sets it. -/
theorem latchedErrorsAnswerEveryDecompress : Obligations.LatchedErrorsAnswerEveryDecompress := by
  refine ⟨fun s n e hpresent herr => ?_, fun s t n e h => ?_, fun s t e hp h => ?_⟩
  · exact (exec_decompress_present hpresent n).trans (State.decompress_latched herr n)
  · exact State.decompress_latches (execDecompress_cases h)
  · exact (step_errsByRaise hp h).latches

end Sys2Proof.Machine
end

section
/-! The clear at a reset interval (R252, R350, R351), and the invariants at reset (R340). -/

namespace Sys2Proof.Machine

/-- An array from an index on reads as 0 below it and as before from there on. -/
theorem NatArray.get_upward {m : NatArray} (hm : NatArray.wf m) (a x : Nat) :
    NatArray.get (Cells.upward m a) x = if x < a then 0 else NatArray.get m x := by
  rw [NatArray.get, Cells.find_upward hm.1]
  by_cases h : x < a
  · rw [if_pos h, if_neg (Nat.not_le.2 h)]; rfl
  · rw [if_neg h, if_pos (Nat.not_lt.1 h)]; rfl

theorem State.resetDue_eq_true {s : State} (h0 : s.cfg.resetInterval ≠ 0) (h : s.frame.toNat % s.cfg.resetInterval = 0) :
    s.resetDue = true := by
  simp only [State.resetDue, Bool.and_eq_true, bne_iff_ne, beq_iff_eq]
  exact ⟨h0, h⟩

theorem seqFrameLoop_pending {s : State} (hlt : s.frame.toNat < s.endFrame) (hdue : s.resetDue = true)
    (hpending : s.blockRemaining ≠ 0) : seqFrameLoop s = .next (s.raise .protocolViolation) := by
  rw [seqFrameLoop, if_pos hlt, if_pos hdue, if_pos hpending, raised]

theorem seqFrameLoop_clears {s : State} (hlt : s.frame.toNat < s.endFrame) (hdue : s.resetDue = true)
    (hdone : s.blockRemaining = 0) : seqFrameLoop s = .next s.resetIntervalClear.frameStart := by
  rw [seqFrameLoop, if_pos hlt, if_pos hdue, if_neg (not_not_intro hdone)]

/-- Settles O41: the pending block's test, then the clear, which keeps the lengths' margin past the last symbol. -/
theorem resetIntervalClearsTheTrees : Obligations.ResetIntervalClearsTheTrees := by
  intro s hp hlt h0 hmod hmain hlength
  have hdue := State.resetDue_eq_true h0 hmod
  rw [step_of_sequence (show fetch s = .sequence (seqFrameLoop s) by rw [fetch, hp])]
  refine ⟨seqFrameLoop_pending hlt hdue, fun hdone => ?_⟩
  refine ⟨Cells.upward s.mainTree.len mainMaxSyms, Cells.upward s.lengthTree.len lengthMaxSyms,
    s.headerRead && !s.par.rereadHeaderOnReset, _, seqFrameLoop_clears hlt hdue hdone, NatArray.get_upward hmain _,
    NatArray.get_upward hlength _, fun hkeep => ?_, fun hreread => ?_, rfl⟩
  · rw [hkeep, Bool.not_false, Bool.and_true]
  · rw [hreread, Bool.not_true, Bool.and_false]

/-- Settles O60: in all that the invariants speak of, the state at reset is the decoder that INIT's least operands make. -/
theorem resetMeetsTheInvariants : Obligations.ResetMeetsTheInvariants := by
  have hok : initRefused State.reset.par 15 0 1 0 false none = false := by decide
  have hframed := State.reset.newDecoder_framed 15 0 1 0 false none
  exact ⟨{ State.reset.newDecoder_sound hok with }, ⟨hframed.cursor, hframed.boundary⟩,
    { State.reset.newDecoder_history hok with }⟩

end Sys2Proof.Machine
end
